-- ==== Sys2Proof/Word.lean ====
section
/-! DEFINITION. The block's data types (spec/00_scope.md R11): unsigned bytes and 16-bit words, and the
64-bit ROM-ID. -/

namespace Sys2Proof

/-- `u8` of R11. -/
abbrev Byte := BitVec 8

/-- `u16` of R11. -/
abbrev Word16 := BitVec 16

/-- A ROM-ID, "64-bit device identifier" (glossary). Byte `i` of the spec's `rom_id[0..7]` is bits `8*i+7 .. 8*i`,
so search bit number `n` of R82 is bit `n - 1` and wire order is ascending bit order. -/
abbrev RomId := BitVec 64

end Sys2Proof
end

