-- ==== Sys2Proof/Config.lean ====
section
/-! DEFINITION. The parameters of the block: the source's compile-time options (spec/00_scope.md R7) and the
parameters the spec names (R9). They are data in `State` that no step changes, so a statement over all states is a
statement over all parameter values. The free values (no body) stand at the end. -/

namespace Sys2Proof

/-- `CRC16_UPDATE` (R9, R263, R264): the two functions the spec writes out, and any other function. -/
inductive Crc16Variant where
  | ccittFalse
  | ccittReflected
  | other
  deriving DecidableEq, Repr

/-- Parameters shared by both ends (R7, R9). -/
structure Config where
  /-- How finely time is counted: `grain + 1` units to a microsecond. Instants and durations are `Nat`s of these units;
  R11's time is real (notes/assumptions/1.md). -/
  grain : Nat
  /-- `MAX_MESSAGE_LENGTH`, 1..254, "shared by both ends". -/
  maxMessageLength : Nat
  /-- `CRC16_UPDATE`; "both ends of a link use the same one" (R263). -/
  crc16 : Crc16Variant
  /-- `M_POLL_TIMEOUT`; `none` is the spec's `∞`. -/
  pollTimeout : Option Nat
  /-- `T_M_POLL > 0`. -/
  tMPoll : Nat
  /-- `DELAY_SLACK`: `Wait(d)` lasts between `d` and `d + DELAY_SLACK` (R9, R12, R314); the draws are free. -/
  delaySlack : Nat
  deriving DecidableEq, Repr

/-- Units of time in a microsecond. -/
def Config.perUs (g : Config) : Nat := g.grain + 1

/-- `n` microseconds. -/
def us (g : Config) (n : Nat) : Nat := n * g.perUs

/-- Parameters of one slave (R7, R9; each slave has its own ROM-ID source and its own latencies, R317, R350). -/
structure SlaveConfig where
  /-- Which stream of free values the slave draws from: the model's own, so that two slaves' draws can differ
  (notes/assumptions/15.md). -/
  stream : Nat
  familyCode : Byte
  /-- `DEFAULT_PART_ID`, byte `j` in bits `8*j+7 .. 8*j`. -/
  defaultPartId : BitVec 48
  usePersistedId : Bool
  partIdStorageOffset : Nat
  /-- The contents of `STORE` (R86): a parameter, read only. -/
  store : List Host.Cell
  strictMode : Bool
  /-- `TICKS_PER_US`, at least 2. -/
  ticksPerUs : Nat
  /-- `TICK_WIDTH`, at least 16. -/
  tickWidth : Nat
  /-- `T_S_RESP`, between 0 and 9 µs. -/
  tSResp : Nat
  /-- `T_S_SIT`, 46 to 64 µs. -/
  tSSit : Nat
  /-- `T_S_BUSY`, between 0 and 10 µs. -/
  tSBusy : Nat
  /-- `S_WAIT_TIMEOUT`; `none` is the spec's `∞`. -/
  waitTimeout : Option Nat
  deriving DecidableEq, Repr

/-- The bounds R7, R9 put on the shared parameters. -/
def Config.valid (c : Config) : Bool :=
  decide (1 ≤ c.maxMessageLength) && decide (c.maxMessageLength ≤ 254) && decide (0 < c.tMPoll)

/-- The bounds R9, R224 and R343 put on a slave's parameters; time is counted as `g` has it. -/
def SlaveConfig.valid (g : Config) (c : SlaveConfig) : Bool :=
  decide (2 ≤ c.ticksPerUs) && decide (16 ≤ c.tickWidth) && decide (360 * c.ticksPerUs < 2 ^ c.tickWidth)
    && decide (0 < c.tSResp) && decide (c.tSResp < us g 9) && decide (us g 46 ≤ c.tSSit) && decide (c.tSSit ≤ us g 64)
    && decide (0 < c.tSBusy) && decide (c.tSBusy < us g 10)

/-- The defaults of R7 and R9. Time is counted in nanoseconds (notes/assumptions/1.md), so `T_M_POLL` is 1 µs. -/
def Config.default : Config where
  grain := 999
  maxMessageLength := 242
  crc16 := .ccittFalse
  pollTimeout := none
  tMPoll := 1000
  delaySlack := 0

/-- The defaults of R9, counted as `Config.default` has it; the options R7 leaves OPEN are zero or false (notes/assumptions/3.md). -/
def SlaveConfig.default : SlaveConfig where
  stream := 0
  familyCode := 0
  defaultPartId := 0
  usePersistedId := false
  partIdStorageOffset := 0
  store := []
  strictMode := false
  ticksPerUs := 2
  tickWidth := 16
  tSResp := us Config.default 1
  tSSit := us Config.default 46
  tSBusy := us Config.default 1
  waitTimeout := none

/-- FREE VALUE: a CRC16 update function that is neither of the two the spec writes out (R9: "function u16 × u8 →
u16"). -/
opaque Config.crc16Other : Word16 → Byte → Word16

/-- FREE VALUE: the `pulse_len` latched at a rising edge whose falling edge was not seen (R61: "the model draws any
value"), by the slave's stream and draw number. -/
opaque Config.unmeasuredTicks : Nat → Nat → Nat

/-- FREE VALUE: the `pulse_ovf` latched at such an edge (R61), by the slave's stream and draw number. -/
opaque Config.unmeasuredOvf : Nat → Nat → Bool

/-- FREE VALUE: the draw of a wait of the master (R314), by the instant it begins at. -/
opaque Config.masterDraw : Nat → Nat

/-- FREE VALUE: the draw of a wait of a slave (R314), by the slave's stream and the instant it begins at. -/
opaque Config.slaveDraw : Nat → Nat → Nat

/-- FREE VALUE: how long the message handler runs (`HANDLER_TIME`, R9, R279) where the state lists no draw, by the slave's
stream and the instant it is called at; `none` is a handler that never returns (R352). -/
opaque Config.handlerDraw : Nat → Nat → Option Nat

/-- What a draw adds to a wait: anything from 0 to `DELAY_SLACK` (R314). -/
def Config.slack (c : Config) (draw : Nat) : Nat := if c.delaySlack = 0 then 0 else draw % (c.delaySlack + 1)

end Sys2Proof
end

