-- ==== Sys2Proof/Syntax.lean ====
section
/-! DEFINITION. The instructions: one constructor per row of spec/opcode_table.json (the operations, command bytes,
pulse classes and edge kinds of spec/00_scope.md R2). `k` is a slave's number (R129 writes `S<k>:`). -/

namespace Sys2Proof

/-- Who decodes a code (R100): the four encoding spaces and, inside them, the agent that reads the code. -/
inductive Port where
  /-- The master sequencer, host operation codes `m_op` (R123). -/
  | master
  /-- Slave `k`'s base-level agent, operation codes `s_op` (R124). -/
  | slave (k : Nat)
  /-- Slave `k`'s dispatcher, ROM command bytes (R110). -/
  | romCommand (k : Nat)
  /-- Slave `k`'s dispatcher, function command bytes (R111). -/
  | functionCommand (k : Nat)
  /-- Slave `k`'s log receiver, the ack byte it writes (R111, R282). -/
  | ackByte (k : Nat)
  /-- Slave `k`'s classifier, 2-bit class codes (R107). -/
  | pulseClass (k : Nat)
  /-- Slave `k`'s edge detector, 1-bit edge kinds (R108). -/
  | edgeKind (k : Nat)
  deriving DecidableEq, Repr

/-- The five ROM commands (R110). -/
inductive RomCommand where
  | readRom
  | matchRom
  | skipRom
  | searchRom
  | alarmSearch
  deriving DecidableEq, Repr

/-- The four pulse classes (R107). -/
inductive PulseClass where
  | one
  | zero
  | bad
  | reset
  deriving DecidableEq, Repr

/-- Why a code is no instruction. -/
inductive Reject where
  /-- An `m_op` that R123 does not list (R127). -/
  | reservedMasterOp
  /-- An `s_op` that R124 does not list (R127). -/
  | reservedSlaveOp (k : Nat)
  /-- A ROM command byte other than the five (R120). -/
  | notRomCommand (k : Nat) (byte : Byte)
  /-- A function command byte other than `0x44` (R111, R121). -/
  | otherFunctionCommand (k : Nat) (byte : Byte)
  /-- A byte other than `0x42` where the ack byte stands (R111). -/
  | notAck
  /-- A class code above 3 or an edge kind above 1 (R107, R108). -/
  | notACode
  /-- A mode byte above 3: `m_mode` has two bits (R123). -/
  | badMode
  /-- An operand field is missing. -/
  | truncated
  deriving DecidableEq, Repr

/-- One instruction of the block. -/
inductive Instr where
  -- wire bytes, decoded by slave `k` (R110, R111)
  | readRom (k : Nat)
  | matchRom (k : Nat)
  | skipRom (k : Nat)
  | searchRom (k : Nat)
  | alarmSearch (k : Nat)
  | logMessage (k : Nat)
  | ack (k : Nat)
  -- pulse classes, decoded by slave `k`'s classifier (R107)
  | pulseOne (k : Nat)
  | pulseZero (k : Nat)
  | pulseBad (k : Nat)
  | pulseReset (k : Nat)
  -- edge kinds, decoded by slave `k`'s edge detector (R108)
  | isrFall (k : Nat)
  | isrRise (k : Nat)
  -- master operations (R123)
  | mReset
  | mWriteBit (arg : Byte)
  | mReadBit
  | mWriteByte (arg : Byte)
  | mReadByte
  | mReadRom
  | mSearchFirst
  | mSearchNext
  | mAlarmFirst
  | mAlarmNext
  | mVerify (id : RomId)
  | mStartTxn (mode : BitVec 2) (id : RomId) (arg : Byte)
  | mLogSend (mode : BitVec 2) (id : RomId) (len : Byte) (payload : List Byte)
  -- slave operations (R124)
  | sInit (k : Nat)
  | sWaitReset (k : Nat)
  | sReadBit (k : Nat)
  | sWriteBit (k : Nat) (arg : Byte)
  | sReadByte (k : Nat)
  | sWriteByte (k : Nat) (arg : Byte)
  | sWaitFunctionCmd (k : Nat)
  | sSetAlarm (k : Nat) (arg : Byte)
  | sBusyBegin (k : Nat)
  | sBusyEnd (k : Nat)
  | sLogReceive (k : Nat)
  | sLogServe (k : Nat)
  deriving DecidableEq, Repr

end Sys2Proof
end

