-- ==== Sys2Proof/WellFormed.lean ====
section
/-! DEFINITION. Which instructions are well formed. The operand fields' widths are in their types; the one relation
between fields is that `m_payload` has `m_len` bytes (spec/30_encoding.md R123: `m_payload[0 .. m_len-1]`). A length
above `MAX_MESSAGE_LENGTH` and `m_mode = 3` are well formed: the operation itself reports them (R271, R127). -/

namespace Sys2Proof

/-- The instruction's operand fields agree with one another. -/
def Instr.wellFormed : Instr → Bool
  | .mLogSend _ _ len payload => payload.length == len.toNat
  | .readRom _ | .matchRom _ | .skipRom _ | .searchRom _ | .alarmSearch _ | .logMessage _ | .ack _
  | .pulseOne _ | .pulseZero _ | .pulseBad _ | .pulseReset _ | .isrFall _ | .isrRise _
  | .mReset | .mWriteBit _ | .mReadBit | .mWriteByte _ | .mReadByte | .mReadRom | .mSearchFirst | .mSearchNext
  | .mAlarmFirst | .mAlarmNext | .mVerify _ | .mStartTxn _ _ _
  | .sInit _ | .sWaitReset _ | .sReadBit _ | .sWriteBit _ _ | .sReadByte _ | .sWriteByte _ _ | .sWaitFunctionCmd _
  | .sSetAlarm _ _ | .sBusyBegin _ | .sBusyEnd _ | .sLogReceive _ | .sLogServe _ => true

end Sys2Proof
end

