-- ==== Sys2Proof/Decode.lean ====
section
/-! DEFINITION. The decoders of the block (spec/30_encoding.md R100), total on any bytes and rejecting by name, and
the encoder. A request is the operation code followed by its operand fields, one byte each, in the order R123 and
R124 list them (the spec gives the fields and no layout: notes/assumptions/4.md). -/

namespace Sys2Proof

/-- Byte `i` of a ROM-ID (R82, R112). -/
def romByte (id : RomId) (i : Nat) : Byte := id.extractLsb' (8 * i) 8

/-- The ROM-ID whose bytes are `bs`, index 0 first (R112). -/
def romOfBytes : List Byte → RomId
  | [] => 0
  | b :: bs => b.setWidth 64 ||| (romOfBytes bs <<< 8)

/-- The eight bytes of a ROM-ID in index order (R82). -/
def romBytes (id : RomId) : List Byte :=
  [romByte id 0, romByte id 1, romByte id 2, romByte id 3, romByte id 4, romByte id 5, romByte id 6, romByte id 7]

/-- ROM command bytes: "All eight bits are significant" (R110, R233). -/
def decodeRomCommand (b : Byte) : Option RomCommand :=
  if b = 0x33 then some .readRom
  else if b = 0x55 then some .matchRom
  else if b = 0xCC then some .skipRom
  else if b = 0xF0 then some .searchRom
  else if b = 0xEC then some .alarmSearch
  else none

/-- The byte of a ROM command (R110). -/
def encodeRomCommand : RomCommand → Byte
  | .readRom => 0x33
  | .matchRom => 0x55
  | .skipRom => 0xCC
  | .searchRom => 0xF0
  | .alarmSearch => 0xEC

/-- The instruction a ROM command is to slave `k`. -/
def romInstr (k : Nat) : RomCommand → Instr
  | .readRom => .readRom k
  | .matchRom => .matchRom k
  | .skipRom => .skipRom k
  | .searchRom => .searchRom k
  | .alarmSearch => .alarmSearch k

/-- The function command byte "printf-like message follows" (R111). -/
def logMessageByte : Byte := 0x44

/-- The ack byte (R111). -/
def ackByteValue : Byte := 0x42

/-- 2-bit class codes (R107). -/
def decodePulseClass (b : Byte) : Option PulseClass :=
  if b = 0 then some .one
  else if b = 1 then some .zero
  else if b = 2 then some .bad
  else if b = 3 then some .reset
  else none

/-- The class code (R107). -/
def encodePulseClass : PulseClass → Byte
  | .one => 0
  | .zero => 1
  | .bad => 2
  | .reset => 3

/-- The instruction a pulse class is to slave `k`. -/
def pulseInstr (k : Nat) : PulseClass → Instr
  | .one => .pulseOne k
  | .zero => .pulseZero k
  | .bad => .pulseBad k
  | .reset => .pulseReset k

/-- Take one operand byte. -/
def takeByte : List Byte → Option (Byte × List Byte)
  | [] => none
  | b :: bs => some (b, bs)

/-- Take an `m_id` field: eight bytes, index 0 first. -/
def takeId : List Byte → Option (RomId × List Byte)
  | b0 :: b1 :: b2 :: b3 :: b4 :: b5 :: b6 :: b7 :: bs => some (romOfBytes [b0, b1, b2, b3, b4, b5, b6, b7], bs)
  | _ => none

/-- Take `n` payload bytes. -/
def takeBytes : Nat → List Byte → Option (List Byte × List Byte)
  | 0, bs => some ([], bs)
  | _ + 1, [] => none
  | n + 1, b :: bs =>
    match takeBytes n bs with
    | some (ps, rest) => some (b :: ps, rest)
    | none => none

/-- An operation whose one operand is a byte. -/
def withByte (f : Byte → Instr) (bs : List Byte) : Except Reject (Instr × List Byte) :=
  match takeByte bs with
  | some (b, rest) => .ok (f b, rest)
  | none => .error .truncated

/-- `M_VERIFY`'s operand (R123). -/
def decodeVerify (bs : List Byte) : Except Reject (Instr × List Byte) :=
  match takeId bs with
  | some (id, rest) => .ok (.mVerify id, rest)
  | none => .error .truncated

/-- The `m_mode` and `m_id` fields two operations begin with (R123, R126). -/
def takeModeId (bs : List Byte) : Except Reject (BitVec 2 × RomId × List Byte) :=
  match takeByte bs with
  | none => .error .truncated
  | some (m, bs') =>
    if m.toNat < 4 then
      match takeId bs' with
      | some (id, rest) => .ok (m.setWidth 2, id, rest)
      | none => .error .truncated
    else .error .badMode

/-- `M_START_TXN`'s operands: `m_mode`, `m_id`, `m_arg` (R123). -/
def decodeStartTxn (bs : List Byte) : Except Reject (Instr × List Byte) :=
  match takeModeId bs with
  | .error e => .error e
  | .ok (mode, id, rest) => withByte (.mStartTxn mode id) rest

/-- `M_LOG_SEND`'s operands: `m_mode`, `m_id`, `m_len`, `m_payload` (R123). -/
def decodeLogSend (bs : List Byte) : Except Reject (Instr × List Byte) :=
  match takeModeId bs with
  | .error e => .error e
  | .ok (mode, id, rest) =>
    match takeByte rest with
    | none => .error .truncated
    | some (len, rest') =>
      match takeBytes len.toNat rest' with
      | some (ps, rest'') => .ok (.mLogSend mode id len ps, rest'')
      | none => .error .truncated

/-- The master's decoder (R123, R127). -/
def decodeMaster (op : Byte) (bs : List Byte) : Except Reject (Instr × List Byte) :=
  match op.toNat with
  | 0x01 => .ok (.mReset, bs)
  | 0x02 => withByte .mWriteBit bs
  | 0x03 => .ok (.mReadBit, bs)
  | 0x04 => withByte .mWriteByte bs
  | 0x05 => .ok (.mReadByte, bs)
  | 0x10 => .ok (.mReadRom, bs)
  | 0x11 => .ok (.mSearchFirst, bs)
  | 0x12 => .ok (.mSearchNext, bs)
  | 0x13 => .ok (.mAlarmFirst, bs)
  | 0x14 => .ok (.mAlarmNext, bs)
  | 0x15 => decodeVerify bs
  | 0x16 => decodeStartTxn bs
  | 0x20 => decodeLogSend bs
  | _ => .error .reservedMasterOp

/-- Slave `k`'s decoder (R124, R127). -/
def decodeSlave (k : Nat) (op : Byte) (bs : List Byte) : Except Reject (Instr × List Byte) :=
  match op.toNat with
  | 0x80 => .ok (.sInit k, bs)
  | 0x81 => .ok (.sWaitReset k, bs)
  | 0x82 => .ok (.sReadBit k, bs)
  | 0x83 => withByte (.sWriteBit k) bs
  | 0x84 => .ok (.sReadByte k, bs)
  | 0x85 => withByte (.sWriteByte k) bs
  | 0x86 => .ok (.sWaitFunctionCmd k, bs)
  | 0x87 => withByte (.sSetAlarm k) bs
  | 0x88 => .ok (.sBusyBegin k, bs)
  | 0x89 => .ok (.sBusyEnd k, bs)
  | 0x8A => .ok (.sLogReceive k, bs)
  | 0x8B => .ok (.sLogServe k, bs)
  | _ => .error (.reservedSlaveOp k)

/-- One code read at a port: the instruction and the bytes after it. -/
def decode (p : Port) : List Byte → Except Reject (Instr × List Byte)
  | [] => .error .truncated
  | b :: bs =>
    match p with
    | .master => decodeMaster b bs
    | .slave k => decodeSlave k b bs
    | .romCommand k =>
      match decodeRomCommand b with
      | some c => .ok (romInstr k c, bs)
      | none => .error (.notRomCommand k b)
    | .functionCommand k => if b = logMessageByte then .ok (.logMessage k, bs) else .error (.otherFunctionCommand k b)
    | .ackByte k => if b = ackByteValue then .ok (.ack k, bs) else .error .notAck
    | .pulseClass k =>
      match decodePulseClass b with
      | some c => .ok (pulseInstr k c, bs)
      | none => .error .notACode
    | .edgeKind k =>
      if b = 0 then .ok (.isrFall k, bs)
      else if b = 1 then .ok (.isrRise k, bs)
      else .error .notACode

/-- The request an instruction is: where it is presented, and its bytes (R107, R108, R110, R111, R123, R124). -/
def encode : Instr → Port × List Byte
  | .readRom k => (.romCommand k, [0x33])
  | .matchRom k => (.romCommand k, [0x55])
  | .skipRom k => (.romCommand k, [0xCC])
  | .searchRom k => (.romCommand k, [0xF0])
  | .alarmSearch k => (.romCommand k, [0xEC])
  | .logMessage k => (.functionCommand k, [0x44])
  | .ack k => (.ackByte k, [0x42])
  | .pulseOne k => (.pulseClass k, [0])
  | .pulseZero k => (.pulseClass k, [1])
  | .pulseBad k => (.pulseClass k, [2])
  | .pulseReset k => (.pulseClass k, [3])
  | .isrFall k => (.edgeKind k, [0])
  | .isrRise k => (.edgeKind k, [1])
  | .mReset => (.master, [0x01])
  | .mWriteBit arg => (.master, [0x02, arg])
  | .mReadBit => (.master, [0x03])
  | .mWriteByte arg => (.master, [0x04, arg])
  | .mReadByte => (.master, [0x05])
  | .mReadRom => (.master, [0x10])
  | .mSearchFirst => (.master, [0x11])
  | .mSearchNext => (.master, [0x12])
  | .mAlarmFirst => (.master, [0x13])
  | .mAlarmNext => (.master, [0x14])
  | .mVerify id => (.master, 0x15 :: romBytes id)
  | .mStartTxn mode id arg => (.master, 0x16 :: mode.setWidth 8 :: (romBytes id ++ [arg]))
  | .mLogSend mode id len payload => (.master, 0x20 :: mode.setWidth 8 :: (romBytes id ++ len :: payload))
  | .sInit k => (.slave k, [0x80])
  | .sWaitReset k => (.slave k, [0x81])
  | .sReadBit k => (.slave k, [0x82])
  | .sWriteBit k arg => (.slave k, [0x83, arg])
  | .sReadByte k => (.slave k, [0x84])
  | .sWriteByte k arg => (.slave k, [0x85, arg])
  | .sWaitFunctionCmd k => (.slave k, [0x86])
  | .sSetAlarm k arg => (.slave k, [0x87, arg])
  | .sBusyBegin k => (.slave k, [0x88])
  | .sBusyEnd k => (.slave k, [0x89])
  | .sLogReceive k => (.slave k, [0x8A])
  | .sLogServe k => (.slave k, [0x8B])

/-- The port at which the opcode table's row with code `w` of `nbits` bits is read, on slave 0. The table's codes
share their bits and the port tells them apart; where the word alone is given, an 8-bit code is read first in the byte
spaces (which are disjoint), and a code of fewer bits, or 0, which is no 8-bit code, in the classifier's or the edge
detector's space. -/
def tablePort (nbits w : Nat) : Port :=
  let b := w % 256
  if nbits = 1 then .edgeKind 0
  else if nbits < 8 ∨ b = 0 then .pulseClass 0
  else if b = 0x33 ∨ b = 0x55 ∨ b = 0xCC ∨ b = 0xF0 ∨ b = 0xEC then .romCommand 0
  else if b = 0x44 then .functionCommand 0
  else if b = 0x42 then .ackByte 0
  else if b < 0x80 then .master
  else .slave 0

/-- The longest request in bytes: `M_LOG_SEND` with 255 payload bytes. -/
def longestRequest : Nat := 266

/-- The `n` bytes of `w`, least significant first. -/
def bytesOfNat : Nat → Nat → List Byte
  | 0, _ => []
  | n + 1, w => BitVec.ofNat 8 w :: bytesOfNat n (w / 256)

/-- A table word laid out as a request: its bytes, then zeros. -/
def tableBytes (w : Nat) : List Byte := bytesOfNat longestRequest w

/-- The instruction the decoder reads from a table word. -/
def decodeTableWord (nbits w : Nat) : Option Instr :=
  match decode (tablePort nbits w) (tableBytes (w % 2 ^ nbits)) with
  | .ok (i, _) => some i
  | .error _ => none

end Sys2Proof
end

