-- ==== Sys2Proof/Machine/State.lean ====
section
/-! DEFINITION. The state of the block (spec/10_state.md): the master's registers (R21 to R31), every slave's registers
(R40 to R52) with the place its base level is suspended at, the time, the drivers outside the block, and the requests
the outside world presents. -/

namespace Sys2Proof.Machine

/-- Memory: (address, byte) pairs in one canonical form (`memoryWf`). Used for `LOGBUF` (R85). -/
abbrev Memory := List Host.Cell

/-- Status codes (R125). -/
inductive Status where
  | ok
  | noSlavePresent
  | unexpectedPulseLength
  | resetDetectedAndHandled
  | romIdMismatch
  | didNotGetRomCommand
  | crcMismatch
  | invalidFunctionCommand
  | notAlarmed
  | noSuchSlave
  | romCrcMismatch
  | ackMismatch
  | messageTooLong
  | illegalOperation
  | timeout
  deriving DecidableEq, Repr

/-- `txn_state` (R41). -/
inductive TxnState where
  | waitingReset
  | waitingRomCmd
  | waitingFunctionCmd
  deriving DecidableEq, Repr

/-- An operation upstream code requests of a slave (R124); `illegal` is a reserved code (R127). -/
inductive SlaveOp where
  | init
  | waitReset
  | readBit
  | writeBit (arg : Byte)
  | readByte
  | writeByte (arg : Byte)
  | waitFunctionCmd
  | setAlarm (arg : Byte)
  | busyBegin
  | busyEnd
  | logReceive
  | logServe
  | illegal
  deriving DecidableEq, Repr

/-- What a slave in `WaitPulseEnd` (R194) will do with the pulse event. -/
inductive PulseUse where
  /-- `S_READ_BIT` (R215). -/
  | readBit
  /-- The read-slot start pulse of `S_WRITE_BIT d` (R216). -/
  | writeStart (d : Bool)
  /-- The event after the slave's own write-zero drive (R216, R219). -/
  | writeEnd
  /-- The rising edge of the slave's own presence pulse (R198). -/
  | presence
  /-- `S_WAIT_RESET` (R200). -/
  | waitReset
  /-- The rising edge that ends a busy hold (R281). -/
  | busyEnd
  deriving DecidableEq, Repr

/-- What a slave in `Wait(d)` (R12) does when the time is over. -/
inductive DelayUse where
  /-- `T_S_RESP`, then drive the write-zero low (R216). -/
  | respond
  /-- `T_S_W0`, then release (R216). -/
  | hold
  /-- `T_S_SIT`, then discard the pulse event (R224). -/
  | sitOut
  /-- `T_S_QUIET`, then drive the presence pulse (R198). -/
  | quiet
  /-- `T_S_PRES`, then release (R198). -/
  | presence
  /-- `T_S_BUSY`, then the busy hold (R275, R280). -/
  | busyLatency
  /-- `HANDLER_TIME`, then the end of the hold (R279, R281). -/
  | handler
  deriving DecidableEq, Repr

/-- Where a slave's base level is (R10, R31): at rest, between two requests of upstream code, at the first instant of a
requested operation (the line has been moved as it says, and the interrupt action of that instant comes first, R305(f)),
or suspended. -/
inductive Pos where
  | idle
  | between
  | begun (op : SlaveOp)
  | waitPulse (u : PulseUse)
  | delay (u : DelayUse)
  deriving DecidableEq, Repr

/-- A procedure that waits for the one it called to return: the call path of a slave operation, innermost first. -/
inductive Frame where
  /-- `S_READ_BYTE` (R217); its bits are in `s_shift`, `s_bitcnt`. -/
  | readByte
  /-- `S_WRITE_BYTE` (R218). -/
  | writeByte
  /-- `HandleReset` (R202), waiting for `PresencePulse`. -/
  | handleReset
  /-- `S_WAIT_RESET` (R200), waiting for `PresencePulse`. -/
  | waitReset
  /-- `S_BUSY_END` requested by upstream code (R281). -/
  | busyEnd
  /-- The loop of `S_WAIT_FUNCTION_CMD` with its catch clauses (R230). -/
  | dispatcher
  /-- `StateWaitingRomCmd` (R232), reading the command byte. -/
  | romCommand
  /-- `StateWaitingFunctionCmd` (R234), reading the command byte. -/
  | functionCommand
  /-- `RespondReadRom` (R240), byte `i` on the wire. -/
  | readRom (i : Nat)
  /-- `RespondMatchRom` (R241), waiting for bit `n`. -/
  | matchRom (n : Nat)
  /-- `RespondSearch` (R243), writing bit `n`. -/
  | searchBit (n : Nat)
  /-- `RespondSearch` (R243), writing the complement of bit `n`. -/
  | searchComplement (n : Nat)
  /-- `RespondSearch` (R243), reading the direction at bit `n`. -/
  | searchDirection (n : Nat)
  /-- `S_LOG_SERVE` (R283). -/
  | logServe
  /-- `S_LOG_RECEIVE` (R275), reading `L`. -/
  | logLength
  /-- `S_LOG_RECEIVE`, reading payload byte `i`. -/
  | logPayload (i : Nat)
  /-- `S_LOG_RECEIVE`, reading the CRC's high byte. -/
  | logCrcHigh
  /-- `S_LOG_RECEIVE`, reading the CRC's low byte. -/
  | logCrcLow (high : Byte)
  /-- `S_LOG_RECEIVE`, in the busy hold (R280, R281). -/
  | logHold
  /-- `S_LOG_RECEIVE`, writing the ack byte (R282). -/
  | logAck
  deriving DecidableEq, Repr

/-- One slave (section 3 of spec/10_state.md). -/
structure Slave where
  /-- Its parameters (R7, R9); no step changes them. -/
  cfg : SlaveConfig
  /-- `rom_id` (R40). -/
  romId : RomId
  /-- `txn_state` (R41). -/
  txnState : TxnState
  /-- `pulse_new`, `pulse_len` (in ticks, below `2^TICK_WIDTH`), `pulse_ovf` (R42). -/
  pulseNew : Bool
  pulseLen : Nat
  pulseOvf : Bool
  /-- `alarmed` (R43). -/
  alarmed : Bool
  /-- `s_drive` (R44). -/
  drive : Bool
  /-- The stopwatch (R45): the time of its last `reset()`; `sw_ticks` and `sw_ovf` are computed from it. -/
  tReset : Nat
  /-- A falling edge has reset the stopwatch since the last `S_INIT`; before that a measurement is unspecified (R61,
  R334). -/
  swStarted : Bool
  /-- `s_shift`, `s_bitcnt` (R46). -/
  shift : Byte
  bitcnt : BitVec 4
  /-- `trapped` (R47). -/
  trapped : Bool
  /-- `busy` (R48). -/
  busy : Bool
  /-- `s_status`, `s_data` (R49). -/
  status : Byte
  data : Byte
  /-- `int_enable`, `int_mask` (R50). -/
  intEnable : Bool
  intMask : Bool
  /-- `log_buf`, `log_len`, `s_crc16` (R51). -/
  logBuf : Memory
  logLen : Byte
  crc16 : Word16
  /-- `line_prev` (R52). -/
  linePrev : Bool
  /-- The place base level is suspended at, the call path above it, and the instant a `Wait` or a timeout ends. -/
  pos : Pos
  stack : List Frame
  wake : Option Nat
  /-- What upstream code requests next, each after a pause (R10: an agent of its own). -/
  upstream : List (Nat × SlaveOp)
  /-- The running times of the coming handler calls (`HANDLER_TIME`, "a draw per message", R9); `none` is a handler that
  never returns (R352). A call with no draw listed has a free one (`Config.handlerDraw`). -/
  handlerTimes : List (Option Nat)
  /-- The lengths the handler was called with, latest first (R279): the model's own record of the calls. -/
  handlerCalls : List Byte
  /-- The model's own counter of free values drawn (R61). -/
  draws : Nat
  deriving DecidableEq, Repr

/-- Where the master is between two steps: ready for an operation, or inside `M_LOG_SEND`'s busy poll (R272), with the
instant at which `M_POLL_TIMEOUT` is over. -/
inductive MasterPos where
  | ready
  | polling (limit : Option Nat)
  deriving DecidableEq, Repr

/-- The master (section 2 of spec/10_state.md). -/
structure Master where
  /-- `rom_buf` (R21). -/
  romBuf : RomId
  /-- The search triple (R22, R23, R24). -/
  lastDiscrepancy : BitVec 7
  lastFamilyDiscrepancy : BitVec 4
  lastDeviceFlag : Bool
  /-- `m_drive` (R25). -/
  drive : Bool
  /-- `m_shift`, `m_bitcnt` (R26). -/
  shift : Byte
  bitcnt : BitVec 4
  /-- `m_crc8` (R27). -/
  crc8 : Byte
  /-- `m_status`, `m_data` (R28). -/
  status : Byte
  data : Byte
  /-- `m_crc16` (R29). -/
  crc16 : Word16
  /-- Search transients (R30). -/
  idBitNumber : BitVec 7
  lastZero : BitVec 7
  b1 : Bool
  b2 : Bool
  dir : Bool
  /-- Where it is suspended (R31, R140, R272). -/
  pos : MasterPos
  deriving DecidableEq, Repr

/-- What the outside world presents: a code at a port, after an idle time (`T_M_GAP` for the master, R140). -/
structure Request where
  port : Port
  gap : Nat
  bytes : List Byte
  deriving DecidableEq, Repr

/-- The whole machine. -/
structure State where
  /-- The shared parameters (R7, R9); no step changes them. -/
  cfg : Config
  /-- The instant (R11). -/
  now : Nat
  master : Master
  /-- Slave `k` is element `k` (R317). -/
  slaves : List Slave
  /-- Some driver outside the block (a second master, a line fault: R342(e)) holds the line low, and the instants at
  which that changes. -/
  otherDrive : Bool
  otherWave : List Nat
  /-- The requests to come, first first. -/
  requests : List Request
  deriving DecidableEq, Repr

/-- Why the machine stops. -/
inductive Fault where
  /-- Raised by a request to slave `k` when there is no slave `k`: the port does not exist (notes/assumptions/25.md).
  Safe. -/
  | noSuchSlave (k : Nat)
  deriving DecidableEq, Repr

/-- Why an instruction has no meaning here. -/
inductive Refusal where
  /-- An arm of `exec` without a meaning. Safe. -/
  | notModelled (mnemonic : String)
  /-- Raised by a slave operation of R124 other than `S_INIT` on a slave that `S_INIT` has not initialised (R330, U22:
  "refuse before S_INIT"). Safe. -/
  | slaveNotInitialised (k : Nat)
  /-- Raised by `step` on a request that is no code of its port and that no rule gives an effect: operand bytes
  missing, a mode byte above 3, a class code above 3, an edge kind above 1, an ack byte that is not `0x42`. Safe. -/
  | malformedRequest
  deriving DecidableEq, Repr

/-- A slave right after power-on, before `S_INIT` (R330(a)): "int_enable = false, trapped = false, s_drive = false,
everything else unspecified"; the unspecified registers hold zero (notes/assumptions/2.md). -/
def Slave.powerOn (cfg : SlaveConfig) : Slave where
  cfg := cfg
  romId := 0
  txnState := .waitingReset
  pulseNew := false
  pulseLen := 0
  pulseOvf := false
  alarmed := false
  drive := false
  tReset := 0
  swStarted := false
  shift := 0
  bitcnt := 0
  trapped := false
  busy := false
  status := 0
  data := 0
  intEnable := false
  intMask := false
  logBuf := []
  logLen := 0
  crc16 := 0
  linePrev := false
  pos := .idle
  stack := []
  wake := none
  upstream := []
  handlerTimes := []
  handlerCalls := []
  draws := 0

/-- The slave of `State.reset`: R60's column "after `S_INIT`", for the default parameters, whose ROM-ID is eight zero
bytes (the CRC8 of seven zero bytes is 0, R261). The registers R60 calls unspecified hold zero. -/
def Slave.initialised : Slave :=
  { Slave.powerOn SlaveConfig.default with intEnable := true, linePrev := true }

/-- The master after power-on (R60, R331). -/
def Master.powerOn : Master where
  romBuf := 0
  lastDiscrepancy := 0
  lastFamilyDiscrepancy := 0
  lastDeviceFlag := false
  drive := false
  shift := 0
  bitcnt := 0
  crc8 := 0
  status := 0
  data := 0
  crc16 := 0
  idBitNumber := 0
  lastZero := 0
  b1 := false
  b2 := false
  dir := false
  pos := .ready

/-- The machine right after reset: R60's table, "value after power-on (master) or after `S_INIT` (slave)", with one
slave (notes/assumptions/2.md, 3.md). -/
def State.reset : State where
  cfg := Config.default
  now := 0
  master := Master.powerOn
  slaves := [Slave.initialised]
  otherDrive := false
  otherWave := []
  requests := []

/-- The machine after power-on and before any `S_INIT` (R330(a)), with the slaves' parameters given, each slave with a
stream of free values of its own (notes/assumptions/15.md). -/
def State.powerOn (cfg : Config) (slaves : List SlaveConfig) : State where
  cfg := cfg
  now := 0
  master := Master.powerOn
  slaves := slaves.mapIdx fun k p => Slave.powerOn { p with stream := k }
  otherDrive := false
  otherWave := []
  requests := []

/-- What a slave's steps read outside the slave: the instant, the line level (`true` is high) and the shared
parameters. -/
structure Ctx where
  now : Nat
  level : Bool
  cfg : Config
  deriving DecidableEq, Repr

end Sys2Proof.Machine
end

