-- ==== Sys2Proof/Machine/Timing.lean ====
section
/-! DEFINITION. The timing constants of spec/00_scope.md R8, exact nominal values (R353), in the units
`g` counts time in. -/

namespace Sys2Proof.Machine

/-- `T_RSTL`: master reset low. -/
def tRstl (g : Config) : Nat := us g 480
/-- `T_PDS`: master, release to presence sample. -/
def tPds (g : Config) : Nat := us g 70
/-- `T_RSTH2`: master, sample to the end of the reset exchange. -/
def tRsth2 (g : Config) : Nat := us g 410
/-- `T_W1L`: write-one low. -/
def tW1l (g : Config) : Nat := us g 6
/-- `T_W1H`: write-one tail. -/
def tW1h (g : Config) : Nat := us g 64
/-- `T_W0L`: write-zero low. -/
def tW0l (g : Config) : Nat := us g 60
/-- `T_W0H`: write-zero tail. -/
def tW0h (g : Config) : Nat := us g 10
/-- `T_RL`: read-slot low. -/
def tRl (g : Config) : Nat := us g 6
/-- `T_RS`: read slot, release to sample. -/
def tRs (g : Config) : Nat := us g 9
/-- `T_RH`: read slot, after the sample. -/
def tRh (g : Config) : Nat := us g 55
/-- `T_S_QUIET`: slave, end of reset pulse to presence pulse. -/
def tSQuiet (g : Config) : Nat := us g 28
/-- `T_S_PRES`: slave, presence pulse low. -/
def tSPres (g : Config) : Nat := us g 116
/-- `T_S_W0`: slave, write-zero low. -/
def tSW0 (g : Config) : Nat := us g 37
/-- `T_LOG_GAP`: master, function command to length byte. -/
def tLogGap (g : Config) : Nat := us g 10
/-- `TH_ZERO`, `TH_BAD`, `TH_RESET`, in microseconds: compared as `µs * TICKS_PER_US` (R118(e)). -/
def thZero : Nat := 15
def thBad : Nat := 70
def thReset : Nat := 360

end Sys2Proof.Machine
end

