-- ==== Sys2Proof/Machine/Flags.lean ====
section
/-! DEFINITION. The values the block computes: status and state codes (spec/30_encoding.md R125, spec/10_state.md R41),
the two CRC functions (spec/45_crc_log_frame.md R260 to R265), the stopwatch (spec/60_exceptions.md R310 to R312) and
the pulse classifier (spec/42_slave_pulse_reset.md R195). -/

namespace Sys2Proof.Machine

/-- The status code's number (R125). -/
def statusCode : Status → Byte
  | .ok => 0
  | .noSlavePresent => 1
  | .unexpectedPulseLength => 2
  | .resetDetectedAndHandled => 3
  | .romIdMismatch => 4
  | .didNotGetRomCommand => 5
  | .crcMismatch => 6
  | .invalidFunctionCommand => 7
  | .notAlarmed => 8
  | .noSuchSlave => 9
  | .romCrcMismatch => 10
  | .ackMismatch => 11
  | .messageTooLong => 12
  | .illegalOperation => 13
  | .timeout => 14

/-- The encoding of `txn_state` (R41); 3 is never written. -/
def txnCode : TxnState → BitVec 2
  | .waitingReset => 0
  | .waitingRomCmd => 1
  | .waitingFunctionCmd => 2

/-- `crc8_bit` (R260). -/
def crc8Bit (crc : Byte) (b : Bool) : Byte :=
  let mix := crc.getLsbD 0 ^^ b
  let crc' := crc >>> 1
  if mix then crc' ^^^ 0x8C else crc'

/-- `n` steps of `crc8_bit` on the bits of `byte` from bit `i` up. -/
def crc8Bits (byte : Byte) : Nat → Nat → Byte → Byte
  | 0, _, crc => crc
  | n + 1, i, crc => crc8Bits byte n (i + 1) (crc8Bit crc (byte.getLsbD i))

/-- `crc8_update` (R261): bits 0, 1, ..., 7 in that order. -/
def crc8Update (crc byte : Byte) : Byte := crc8Bits byte 8 0 crc

/-- `fold(crc8_update, crc, bytes)` (R262). -/
def crc8Fold (crc : Byte) (bytes : List Byte) : Byte := bytes.foldl crc8Update crc

/-- One of the eight steps of R263. -/
def crcFalseStep (crc : Word16) : Word16 :=
  if crc.getLsbD 15 then (crc <<< 1) ^^^ 0x1021 else crc <<< 1

/-- One of the eight steps of R264. -/
def crcReflectedStep (crc : Word16) : Word16 :=
  if crc.getLsbD 0 then (crc >>> 1) ^^^ 0x8408 else crc >>> 1

/-- `f` applied `n` times. -/
def repeatStep (f : Word16 → Word16) : Nat → Word16 → Word16
  | 0, x => x
  | n + 1, x => repeatStep f n (f x)

/-- `CRC16_UPDATE` (R263, R264, R9). -/
def crc16Update : Crc16Variant → Word16 → Byte → Word16
  | .ccittFalse, crc, byte => repeatStep crcFalseStep 8 (crc ^^^ (byte.setWidth 16 <<< 8))
  | .ccittReflected, crc, byte => repeatStep crcReflectedStep 8 (crc ^^^ byte.setWidth 16)
  | .other, crc, byte => Config.crc16Other crc byte

/-- The CRC of a log frame: from `0xFFFF`, over the length and the payload in transmission order (R265). -/
def frameCrc (v : Crc16Variant) (len : Byte) (payload : List Byte) : Word16 :=
  payload.foldl (crc16Update v) (crc16Update v 0xFFFF len)

/-- The stopwatch's count after `d`, before the wrap: `floor((t - t_reset) * TICKS_PER_US)` (R311). -/
def ticksIn (g : Config) (p : SlaveConfig) (d : Nat) : Nat := d * p.ticksPerUs / g.perUs

/-- The stopwatch's count now, before the wrap (R311). -/
def swCount (c : Ctx) (sl : Slave) : Nat := ticksIn c.cfg sl.cfg (c.now - sl.tReset)

/-- `ticks()` (R311). -/
def swTicks (c : Ctx) (sl : Slave) : Nat := swCount c sl % 2 ^ sl.cfg.tickWidth

/-- `overflowed()` (R312). -/
def swOvf (c : Ctx) (sl : Slave) : Bool := decide (2 ^ sl.cfg.tickWidth ≤ swCount c sl)

/-- `Classify(len, ovf)` with `U = TICKS_PER_US` (R195, R196). -/
def classify (u : Nat) (len : Nat) (ovf : Bool) : PulseClass :=
  if ovf ∨ thReset * u ≤ len then .reset
  else if thBad * u ≤ len then .bad
  else if thZero * u ≤ len then .zero
  else .one

end Sys2Proof.Machine
end

