-- ==== Sys2Proof/Machine/Operands.lean ====
section
/-! DEFINITION. The operand forms (spec/30_encoding.md R118, R123, R124): a bit in a byte operand, the byte shifters'
step, a ROM-ID's bits and bytes, the CRC's two bytes, a bit or a flag as a byte. -/

namespace Sys2Proof.Machine

/-- The bit operand `m_arg[0]`, `s_arg[0]`: "bits 7..1 are ignored" (R142). -/
def argBit (arg : Byte) : Bool := arg.getLsbD 0

/-- `zext_8` of a bit. -/
def bitByte (b : Bool) : Byte := if b then 1 else 0

/-- The bit a value returned by a bit operation is. -/
def byteBit (v : Byte) : Bool := v.getLsbD 0

/-- `(shift >> 1) | (b << 7)` (R145, R217, R266(g)). -/
def shiftIn (shift : Byte) (b : Bool) : Byte := (shift >>> 1) ||| (bitByte b <<< 7)

/-- `RomBit(n)`, `RomIdBit(n)`: bit `(n-1) mod 8` of byte `(n-1) div 8` (R118(b), R161, R241). -/
def romBit (id : RomId) (n : Nat) : Bool := id.getLsbD (n - 1)

/-- `RomBit(n) <- d`. -/
def setRomBit (id : RomId) (n : Nat) (d : Bool) : RomId :=
  if d then id ||| (1#64 <<< (n - 1)) else id &&& ~~~(1#64 <<< (n - 1))

/-- `rom[i] <- b`. -/
def setRomByte (id : RomId) (i : Nat) (b : Byte) : RomId :=
  (id &&& ~~~(0xFF#64 <<< (8 * i))) ||| (b.setWidth 64 <<< (8 * i))

/-- The CRC's high byte `crc[15:8]`, sent first (R83). -/
def crcHigh (crc : Word16) : Byte := crc.extractLsb' 8 8

/-- `crc[7:0]`. -/
def crcLow (crc : Word16) : Byte := crc.extractLsb' 0 8

/-- `{hi, lo}` (R118(c)). -/
def crcOfBytes (hi lo : Byte) : Word16 := hi.setWidth 16 <<< 8 ||| lo.setWidth 16

/-- A ROM-ID with its CRC8 computed (R262, R332): family code, six part bytes, CRC8 of the seven. -/
def makeRomId (family : Byte) (part : List Byte) : RomId :=
  romOfBytes (family :: (part ++ [crc8Fold 0 (family :: part)]))

/-- Byte `j` of `DEFAULT_PART_ID`. -/
def partByte (p : BitVec 48) (j : Nat) : Byte := p.extractLsb' (8 * j) 8

end Sys2Proof.Machine
end

