-- ==== Sys2Proof/Machine/Ops.lean ====
section
/-! DEFINITION. The named operations: memory; a slave's line driver, waits and results; the strict-mode trap
(spec/60_exceptions.md R296); raising an error and where it is caught (R306, spec/44_slave_dispatch.md R236, R237); the
procedures every bit operation may call (spec/42_slave_pulse_reset.md R198, R202, R203). -/

namespace Sys2Proof.Machine

/-! ### Memory (spec/20_memory.md R85, R86) -/

/-- What an address that is not listed reads as (notes/assumptions/6.md). -/
def memoryDefault : Byte := 0

/-- The byte at address `a` (`MemRead(space, a, 1)`, R11). -/
def memRead : Memory → Nat → Byte
  | [], _ => memoryDefault
  | (k, v) :: m, a => if k = a then v else memRead m a

/-- `m` with byte `b` at address `a` (`MemWrite(space, a, 1, b)`, R11), in canonical form. -/
def memWrite : Memory → Nat → Byte → Memory
  | [], a, b => if b = memoryDefault then [] else [(a, b)]
  | (k, v) :: m, a, b =>
    if a < k then (if b = memoryDefault then (k, v) :: m else (a, b) :: (k, v) :: m)
    else if a = k then (if b = memoryDefault then m else (a, b) :: m)
    else (k, v) :: memWrite m a b

/-- The canonical form: addresses strictly rising, no entry equal to what an unlisted address reads as. -/
def memoryWf : Memory → Bool
  | [] => true
  | (k, v) :: m => decide (v ≠ memoryDefault) && m.all (fun c => decide (k < c.1)) && memoryWf m

/-! ### A slave's line driver and waits (R12, R194, R315) -/

/-- The end of an interval of `d` that begins at `now`. The self-timed intervals are positive (R8, R9); an interval of
zero, which only upstream code's own pause between two requests can be, lasts one unit of time (notes/assumptions/7.md). -/
def deadline (now d : Nat) : Nat := now + max d 1

/-- The instant the slave waits for has come. -/
def Slave.due (now : Nat) (sl : Slave) : Bool :=
  match sl.wake with
  | none => false
  | some t => decide (t ≤ now)

/-- `DriveLow()`. -/
def Slave.driveLow (sl : Slave) : Slave := { sl with drive := true }

/-- `Release()`. A busy hold is continuous (R48, R280): while `busy` the driver stays low. -/
def Slave.release (sl : Slave) : Slave := { sl with drive := sl.busy }

/-- Suspend in `WaitPulseEnd()` (R194); with a finite `S_WAIT_TIMEOUT` the wait has an end. -/
def Slave.await (c : Ctx) (u : PulseUse) (sl : Slave) : Slave :=
  { sl with pos := .waitPulse u, wake := sl.cfg.waitTimeout.map (c.now + ·) }

/-- Suspend for exactly `d`. -/
def Slave.delay (c : Ctx) (u : DelayUse) (d : Nat) (sl : Slave) : Slave :=
  { sl with pos := .delay u, wake := some (deadline c.now d) }

/-- Suspend in `Wait(d)`: from `d` to `d + DELAY_SLACK` (R12, R314). -/
def Slave.waitFor (c : Ctx) (u : DelayUse) (d : Nat) (sl : Slave) : Slave :=
  Slave.delay c u (d + c.cfg.slack (Config.slaveDraw sl.cfg.stream c.now)) sl

/-- A requested operation is over: base level is at rest, or upstream code will request its next one. -/
def Slave.opDone (c : Ctx) (sl : Slave) : Slave :=
  match sl.upstream with
  | [] => { sl with pos := .idle, stack := [], wake := none }
  | r :: _ => { sl with pos := .between, stack := [], wake := some (deadline c.now r.1) }

/-- The operation ends with `(status, value)` in `s_status`, `s_data` (R49). -/
def Slave.finish (c : Ctx) (st : Status) (v : Byte) (sl : Slave) : Slave :=
  Slave.opDone c { sl with status := statusCode st, data := v }

/-- `IllegalOperation` (R127): no state changes but the status registers `s_status` and `s_data` (R56), which is 0 (R306;
notes/assumptions/12.md). -/
def Slave.finishIllegal (c : Ctx) (sl : Slave) : Slave := Slave.finish c .illegalOperation 0 sl

/-! ### The strict-mode trap -/

/-- `Trap(cause)` (R296): the line released, `trapped` set, and no further step of base level, ever. The running
operation never completes: `s_status` is not written. -/
def Slave.trap (sl : Slave) : Slave :=
  { sl with drive := false, busy := false, trapped := true, pos := .idle, stack := [], wake := none }

/-! ### Starting the procedures that others call -/

/-- `S_READ_BYTE` (R217), called by `frames`. -/
def Slave.startReadByte (c : Ctx) (frames : List Frame) (sl : Slave) : Slave :=
  Slave.await c .readBit { sl with shift := 0, bitcnt := 0, stack := .readByte :: frames }

/-- `S_WRITE_BYTE v` (R218), called by `frames`. -/
def Slave.startWriteByte (c : Ctx) (v : Byte) (frames : List Frame) (sl : Slave) : Slave :=
  Slave.await c (.writeStart (v.getLsbD 0)) { sl with shift := v, bitcnt := 0, stack := .writeByte :: frames }

/-- `PresencePulse()` (R198), called by `caller`. -/
def Slave.presencePulse (c : Ctx) (caller : Frame) (sl : Slave) : Slave :=
  Slave.waitFor c .quiet (tSQuiet c.cfg) { sl with stack := caller :: sl.stack }

/-- One turn of the loop of `S_WAIT_FUNCTION_CMD` (R230 to R234), called by `rest`. -/
def Slave.dispatch (c : Ctx) (rest : List Frame) (sl : Slave) : Slave :=
  match sl.txnState with
  | .waitingReset => Slave.await c .waitReset { sl with stack := .dispatcher :: rest }
  | .waitingRomCmd => Slave.startReadByte c (.romCommand :: .dispatcher :: rest) sl
  | .waitingFunctionCmd => Slave.startReadByte c (.functionCommand :: .dispatcher :: rest) sl

/-- A procedure called by the dispatcher's loop has returned: the loop goes on (R230). -/
def Slave.resumeDispatcher (c : Ctx) (frames : List Frame) (sl : Slave) : Slave :=
  match frames with
  | .dispatcher :: rest => Slave.dispatch c rest sl
  | _ => Slave.finish c .ok 0 sl

/-- `S_LOG_RECEIVE` (R275), called by `rest`. -/
def Slave.startLogReceive (c : Ctx) (rest : List Frame) (sl : Slave) : Slave :=
  Slave.startReadByte c (.logLength :: rest) { sl with crc16 := 0xFFFF }

/-- `S_WAIT_FUNCTION_CMD` returns `(st, v)`: to upstream code, or to `S_LOG_SERVE` (R283), which insists on `0x44`; R230's
writes of the result registers are its own either way (notes/assumptions/13.md). -/
def Slave.dispatcherReturns (c : Ctx) (st : Status) (v : Byte) (rest : List Frame) (sl : Slave) : Slave :=
  match rest with
  | .logServe :: rest' =>
    if st = .ok then
      if v = logMessageByte then Slave.startLogReceive c rest' { sl with status := statusCode st, data := v }
      else Slave.finish c .invalidFunctionCommand v sl
    else Slave.finish c st 0 sl
  | _ => Slave.finish c st v sl

/-! ### Taking an error (R306): every enclosing procedure ends, up to the one that catches it -/

/-- Unwind the call path to the nearest catch. The dispatcher catches `ResetDetectedAndHandled` and goes on in the
state `PresencePulse` left (R236); it catches the others, sets `WAITING_RESET` and returns them (R237). With no
dispatcher on the path, upstream code gets the code. `info` is what the error records beside its code: R295 has the byte
(D20; R230's pseudocode has 0, notes/assumptions/8.md), the others 0 (R306). -/
def Slave.unwind (c : Ctx) (e : Status) (info : Byte) : List Frame → Slave → Slave
  | [], sl => Slave.finish c e info sl
  | .dispatcher :: rest, sl =>
    if e = .resetDetectedAndHandled then Slave.dispatch c rest sl
    else Slave.dispatcherReturns c e info rest { sl with txnState := .waitingReset }
  | _ :: rest, sl => Slave.unwind c e info rest sl

/-- `raise e` (R11, R306). -/
def Slave.raise (c : Ctx) (e : Status) (info : Byte) (sl : Slave) : Slave := Slave.unwind c e info sl.stack sl

/-- `HandleReset()` (R202): the presence pulse, then `ResetDetectedAndHandled`. -/
def Slave.handleReset (c : Ctx) (sl : Slave) : Slave := Slave.presencePulse c .handleReset sl

/-- `HandleBad()` (R203). -/
def Slave.handleBad (c : Ctx) (sl : Slave) : Slave :=
  if sl.cfg.strictMode then Slave.trap sl
  else Slave.raise c .unexpectedPulseLength 0 { sl with txnState := .waitingReset }

/-- The end of a finite `S_WAIT_TIMEOUT` (R194, R304(f)): `Timeout`, and the slave is left in `WAITING_RESET`. -/
def Slave.timeout (c : Ctx) (sl : Slave) : Slave := Slave.raise c .timeout 0 { sl with txnState := .waitingReset }

end Sys2Proof.Machine
end

