-- ==== Sys2Proof/Machine/RomCommands.lean ====
section
/-! DEFINITION. The ROM-command responders of a slave (spec/44_slave_dispatch.md R232, R240 to R246), started when the
dispatcher has read the command byte; `rest` is the dispatcher's call path. -/

namespace Sys2Proof.Machine

/-- READ_ROM (R240): write the eight ROM-ID bytes in index order. -/
def Slave.romReadRom (c : Ctx) (rest : List Frame) (sl : Slave) : Slave :=
  Slave.startWriteByte c (romByte sl.romId 0) (.readRom 0 :: rest) sl

/-- MATCH_ROM (R241): read 64 bits and compare. -/
def Slave.romMatchRom (c : Ctx) (rest : List Frame) (sl : Slave) : Slave :=
  Slave.await c .readBit { sl with stack := .matchRom 1 :: rest }

/-- SKIP_ROM (R242): nothing is exchanged. -/
def Slave.romSkipRom (c : Ctx) (rest : List Frame) (sl : Slave) : Slave :=
  Slave.resumeDispatcher c rest { sl with txnState := .waitingFunctionCmd }

/-- SEARCH_ROM (R243): write bit 1 of the ROM-ID, its complement, read the direction, and so on. -/
def Slave.romSearchRom (c : Ctx) (rest : List Frame) (sl : Slave) : Slave :=
  Slave.await c (.writeStart (romBit sl.romId 1)) { sl with stack := .searchBit 1 :: rest }

/-- ALARM_SEARCH (R243, R246): the same, by an alarmed slave only; the others say nothing (`NotAlarmed`). -/
def Slave.romAlarmSearch (c : Ctx) (rest : List Frame) (sl : Slave) : Slave :=
  if sl.alarmed then
    Slave.await c (.writeStart (romBit sl.romId 1)) { sl with stack := .searchBit 1 :: rest }
  else Slave.resumeDispatcher c rest { sl with txnState := .waitingReset }

/-- The dispatcher has read byte `v` in `WAITING_ROM_CMD` (R232, R233). -/
def Slave.gotRomCommand (c : Ctx) (v : Byte) (rest : List Frame) (sl : Slave) : Slave :=
  match decodeRomCommand v with
  | some .readRom => Slave.romReadRom c rest sl
  | some .matchRom => Slave.romMatchRom c rest sl
  | some .skipRom => Slave.romSkipRom c rest sl
  | some .searchRom => Slave.romSearchRom c rest sl
  | some .alarmSearch => Slave.romAlarmSearch c rest sl
  | none => Slave.unwind c .didNotGetRomCommand v rest sl

/-- `RespondReadRom` (R240): byte `i` is on the wire; the next one, or `WAITING_FUNCTION_CMD`. -/
def Slave.readRomNext (c : Ctx) (i : Nat) (rest : List Frame) (sl : Slave) : Slave :=
  if i < 7 then Slave.startWriteByte c (romByte sl.romId (i + 1)) (.readRom (i + 1) :: rest) sl
  else Slave.resumeDispatcher c rest { sl with txnState := .waitingFunctionCmd }

/-- `RespondMatchRom` (R241): bit `n` of the master's ID is `b`. -/
def Slave.matchRomNext (c : Ctx) (n : Nat) (b : Bool) (rest : List Frame) (sl : Slave) : Slave :=
  if b = romBit sl.romId n then
    if n < 64 then Slave.await c .readBit { sl with stack := .matchRom (n + 1) :: rest }
    else Slave.resumeDispatcher c rest { sl with txnState := .waitingFunctionCmd }
  else Slave.unwind c .romIdMismatch 0 rest sl

/-- `RespondSearch` (R243): the bit is written, now its complement. -/
def Slave.searchComplement (c : Ctx) (n : Nat) (rest : List Frame) (sl : Slave) : Slave :=
  Slave.await c (.writeStart (!romBit sl.romId n)) { sl with stack := .searchComplement n :: rest }

/-- `RespondSearch` (R243): both are written, now the direction is read. -/
def Slave.searchReadDirection (c : Ctx) (n : Nat) (rest : List Frame) (sl : Slave) : Slave :=
  Slave.await c .readBit { sl with stack := .searchDirection n :: rest }

/-- `RespondSearch` (R243 to R245): the direction at bit `n` is `d`; drop out, go on, or survive. -/
def Slave.searchNext (c : Ctx) (n : Nat) (d : Bool) (rest : List Frame) (sl : Slave) : Slave :=
  if d = romBit sl.romId n ∧ n < 64 then
    Slave.await c (.writeStart (romBit sl.romId (n + 1))) { sl with stack := .searchBit (n + 1) :: rest }
  else Slave.resumeDispatcher c rest { sl with txnState := .waitingReset }

end Sys2Proof.Machine
end

