-- ==== Sys2Proof/Machine/SlaveLog.lean ====
section
/-! DEFINITION. A slave's log receiver (spec/45_crc_log_frame.md R275 to R283) and the delivery of a function command
(spec/44_slave_dispatch.md R234, R235); `rest` is the call path above `S_LOG_RECEIVE`. -/

namespace Sys2Proof.Machine

/-- The dispatcher has read function command `v` (R234): `txn_state <- WAITING_RESET` (R235), and `v` is returned. -/
def Slave.gotFunctionCommand (c : Ctx) (v : Byte) (rest : List Frame) (sl : Slave) : Slave :=
  match rest with
  | .dispatcher :: rest' => Slave.dispatcherReturns c .ok v rest' { sl with txnState := .waitingReset }
  | _ => Slave.finish c .ok v { sl with txnState := .waitingReset }

/-- The function command `0x44` (R111): a log slave goes on to receive the frame (R283). -/
def Slave.gotLogMessage (c : Ctx) (rest : List Frame) (sl : Slave) : Slave :=
  Slave.gotFunctionCommand c logMessageByte rest sl

/-- The length byte (R275, R276): too long, or folded into the CRC (R265). -/
def Slave.logGotLength (c : Ctx) (len : Byte) (rest : List Frame) (sl : Slave) : Slave :=
  if c.cfg.maxMessageLength < len.toNat then
    Slave.finish c .messageTooLong 0 { sl with logLen := len, txnState := .waitingReset }
  else
    Slave.startReadByte c ((if len = 0 then .logCrcHigh else .logPayload 0) :: rest)
      { sl with logLen := len, crc16 := crc16Update c.cfg.crc16 sl.crc16 len }

/-- Payload byte `i` (R275): stored at `LOGBUF[i]` and folded. -/
def Slave.logGotPayload (c : Ctx) (i : Nat) (b : Byte) (rest : List Frame) (sl : Slave) : Slave :=
  Slave.startReadByte c ((if i + 1 < sl.logLen.toNat then .logPayload (i + 1) else .logCrcHigh) :: rest)
    { sl with logBuf := memWrite sl.logBuf i b, crc16 := crc16Update c.cfg.crc16 sl.crc16 b }

/-- Both CRC bytes are read (R277): compare; on equality the terminating zero (R278) and the busy latency. -/
def Slave.logCheckCrc (c : Ctx) (hi lo : Byte) (rest : List Frame) (sl : Slave) : Slave :=
  if crcOfBytes hi lo = sl.crc16 then
    Slave.waitFor c .busyLatency sl.cfg.tSBusy
      { sl with logBuf := memWrite sl.logBuf sl.logLen.toNat 0, stack := .logHold :: rest }
  else Slave.finish c .crcMismatch 0 { sl with txnState := .waitingReset }

/-- `S_BUSY_END` (R281), up to the wait for its rising edge. -/
def Slave.endHold (c : Ctx) (sl : Slave) : Slave :=
  Slave.await c .busyEnd (Slave.release { sl with busy := false })

/-- The running time of a handler called at `now`: the draw listed next, or a free one (`HANDLER_TIME`, R9, R279). -/
def Slave.handlerTime (now : Nat) (sl : Slave) : Option Nat :=
  match sl.handlerTimes with
  | [] => Config.handlerDraw sl.cfg.stream now
  | t :: _ => t

/-- The call of the upstream handler (R279) as recorded, with `S_BUSY_BEGIN`'s result (R280, R49). -/
def Slave.callHandler (sl : Slave) : Slave :=
  { sl with handlerTimes := sl.handlerTimes.tail, handlerCalls := sl.logLen :: sl.handlerCalls
            status := statusCode .ok, data := 0 }

/-- `S_BUSY_BEGIN` (R280), the call of the handler (R279), and the hold for as long as it runs; a handler that takes no
time leaves a drive interval of no length (R73; base level does the rest after this instant's edges, R305(f)), and one
that never returns (R352) a hold without an end. -/
def Slave.logBusyBegin (c : Ctx) (sl : Slave) : Slave :=
  match Slave.handlerTime c.now sl with
  | some 0 => { sl with drive := false, busy := false }
  | some (d + 1) => Slave.delay c .handler (d + 1) { Slave.callHandler sl with busy := true, drive := true }
  | none => { Slave.callHandler sl with busy := true, drive := true, pos := .delay .handler, wake := none }

/-- The busy latency is over and the handler takes no time: it is called, and the wait for the rising edge (R281) begins. -/
def Slave.emptyHold (c : Ctx) (sl : Slave) : Slave :=
  if sl.due c.now && decide (Slave.handlerTime c.now sl = some 0) then Slave.await c .busyEnd (Slave.callHandler sl)
  else sl

/-- The ack byte `0x42` (R282): `S_WRITE_BYTE 0x42`, after the hold has been released. -/
def Slave.writeAck (c : Ctx) (rest : List Frame) (sl : Slave) : Slave :=
  Slave.startWriteByte c ackByteValue (.logAck :: rest) sl

end Sys2Proof.Machine
end

