-- ==== Sys2Proof/Machine/SlaveFlow.lean ====
section
/-! DEFINITION. How a slave's base level moves (spec/42_slave_pulse_reset.md, spec/43_slave_bit_byte.md): a procedure
returns to its caller, a pulse of a class is consumed, a self-timed interval ends, a requested operation starts; and the
two interrupt actions. -/

namespace Sys2Proof.Machine

/-- One bit of `S_READ_BYTE` (R217) is `b`: the shifter and counter after it. -/
def Slave.shiftInBit (b : Bool) (sl : Slave) : Slave :=
  { sl with shift := shiftIn sl.shift b, bitcnt := sl.bitcnt + 1 }

/-- One bit of `S_WRITE_BYTE` (R218) is written: the shifter and counter after it. -/
def Slave.shiftOutBit (sl : Slave) : Slave :=
  { sl with shift := sl.shift >>> 1, bitcnt := sl.bitcnt + 1 }

/-- `return (OK, v)` to the innermost waiting procedure, which goes on (R306, R307). `S_WAIT_RESET`'s body and
`S_BUSY_END` write the result registers wherever they are run from (R200, R231, R281, notes/assumptions/13.md). -/
def Slave.ret (c : Ctx) : Byte → List Frame → Slave → Slave
  | v, [], sl => Slave.finish c .ok v sl
  | v, .readByte :: rest, sl =>
    let sl' := Slave.shiftInBit (byteBit v) sl
    if sl'.bitcnt = 8 then Slave.ret c sl'.shift rest sl'
    else Slave.await c .readBit { sl' with stack := .readByte :: rest }
  | _, .writeByte :: rest, sl =>
    let sl' := Slave.shiftOutBit sl
    if sl'.bitcnt = 8 then Slave.ret c 0 rest sl'
    else Slave.await c (.writeStart (sl'.shift.getLsbD 0)) { sl' with stack := .writeByte :: rest }
  | _, .handleReset :: rest, sl => Slave.unwind c .resetDetectedAndHandled 0 rest sl
  | _, .waitReset :: rest, sl => Slave.ret c 0 rest { sl with status := statusCode .ok, data := 0 }
  | _, .busyEnd :: _, sl => Slave.finish c .ok 0 sl
  | _, .dispatcher :: rest, sl => Slave.dispatch c rest sl
  | v, .romCommand :: rest, sl => Slave.gotRomCommand c v rest sl
  | v, .functionCommand :: rest, sl => Slave.gotFunctionCommand c v rest sl
  | _, .readRom i :: rest, sl => Slave.readRomNext c i rest sl
  | v, .matchRom n :: rest, sl => Slave.matchRomNext c n (byteBit v) rest sl
  | _, .searchBit n :: rest, sl => Slave.searchComplement c n rest sl
  | _, .searchComplement n :: rest, sl => Slave.searchReadDirection c n rest sl
  | v, .searchDirection n :: rest, sl => Slave.searchNext c n (byteBit v) rest sl
  | v, .logServe :: rest, sl => Slave.dispatcherReturns c .ok v (.logServe :: rest) sl
  | v, .logLength :: rest, sl => Slave.logGotLength c v rest sl
  | v, .logPayload i :: rest, sl => Slave.logGotPayload c i v rest sl
  | v, .logCrcHigh :: rest, sl => Slave.startReadByte c (.logCrcLow v :: rest) sl
  | v, .logCrcLow hi :: rest, sl => Slave.logCheckCrc c hi v rest sl
  | _, .logHold :: rest, sl => Slave.writeAck c rest { sl with status := statusCode .ok, data := 0 }
  | _, .logAck :: rest, sl => Slave.ret c sl.logLen rest sl

/-- The procedure suspended now returns `v`. -/
def Slave.returnValue (c : Ctx) (v : Byte) (sl : Slave) : Slave := Slave.ret c v sl.stack sl

/-- The event after the slave's own presence pulse (R198, R199): consumed unclassified, `txn_state` set. -/
def Slave.presenceOver (c : Ctx) (sl : Slave) : Slave :=
  Slave.returnValue c 0 { sl with txnState := .waitingRomCmd }

/-! ### Consuming a pulse of each class (R195, R200, R215, R216, R219, R220) -/

/-- A pulse shorter than `TH_ZERO`: bit 1, or the start of a read slot. -/
def Slave.pulseOne (c : Ctx) (sl : Slave) : Slave :=
  match sl.pos with
  | .waitPulse .readBit => Slave.returnValue c 1 sl
  | .waitPulse (.writeStart true) => Slave.waitFor c .sitOut sl.cfg.tSSit sl
  | .waitPulse (.writeStart false) => Slave.waitFor c .respond sl.cfg.tSResp sl
  | .waitPulse .writeEnd => Slave.returnValue c 0 sl
  | .waitPulse .presence => Slave.presenceOver c sl
  | .waitPulse .waitReset => Slave.await c .waitReset sl
  | .waitPulse .busyEnd => Slave.returnValue c 0 sl
  | .idle | .between | .begun _ | .delay _ => sl

/-- A pulse from `TH_ZERO` to below `TH_BAD`: bit 0. -/
def Slave.pulseZero (c : Ctx) (sl : Slave) : Slave :=
  match sl.pos with
  | .waitPulse .readBit => Slave.returnValue c 0 sl
  | .waitPulse (.writeStart _) => Slave.handleBad c sl
  | .waitPulse .writeEnd => Slave.returnValue c 0 sl
  | .waitPulse .presence => Slave.presenceOver c sl
  | .waitPulse .waitReset => Slave.await c .waitReset sl
  | .waitPulse .busyEnd => Slave.returnValue c 0 sl
  | .idle | .between | .begun _ | .delay _ => sl

/-- A pulse from `TH_BAD` to below `TH_RESET`: malformed (R119, R203). -/
def Slave.pulseBad (c : Ctx) (sl : Slave) : Slave :=
  match sl.pos with
  | .waitPulse .readBit => Slave.handleBad c sl
  | .waitPulse (.writeStart _) => Slave.handleBad c sl
  | .waitPulse .writeEnd => Slave.returnValue c 0 sl
  | .waitPulse .presence => Slave.presenceOver c sl
  | .waitPulse .waitReset => Slave.await c .waitReset sl
  | .waitPulse .busyEnd => Slave.returnValue c 0 sl
  | .idle | .between | .begun _ | .delay _ => sl

/-- A pulse of `TH_RESET` or more: a reset (R202), trapped on in strict mode where it is merged with the slave's own
write-zero low (R219, R298). -/
def Slave.pulseReset (c : Ctx) (sl : Slave) : Slave :=
  match sl.pos with
  | .waitPulse .readBit => Slave.handleReset c sl
  | .waitPulse (.writeStart _) => Slave.handleReset c sl
  | .waitPulse .writeEnd => if sl.cfg.strictMode then Slave.trap sl else Slave.handleReset c sl
  | .waitPulse .presence => Slave.presenceOver c sl
  | .waitPulse .waitReset => Slave.presencePulse c .waitReset sl
  | .waitPulse .busyEnd => Slave.returnValue c 0 sl
  | .idle | .between | .begun _ | .delay _ => sl

/-- The class of the event the slave holds. -/
def Slave.eventClass (sl : Slave) : PulseClass := classify sl.cfg.ticksPerUs sl.pulseLen sl.pulseOvf

/-- The end of `WaitPulseEnd` (R194): the event is cleared and consumed by its class. -/
def Slave.consume (c : Ctx) (sl : Slave) : Slave :=
  match Slave.eventClass sl with
  | .one => Slave.pulseOne c { sl with pulseNew := false }
  | .zero => Slave.pulseZero c { sl with pulseNew := false }
  | .bad => Slave.pulseBad c { sl with pulseNew := false }
  | .reset => Slave.pulseReset c { sl with pulseNew := false }

/-! ### The interrupt actions (R191 to R193) -/

/-- `ISR_FALL` (R192): the stopwatch is reset. -/
def Slave.isrFall (c : Ctx) (sl : Slave) : Slave := { sl with tReset := c.now, swStarted := true }

/-- Latch the stopwatch into the pulse event (R193); with no falling edge seen the values are free (R61). -/
def Slave.latchPulse (c : Ctx) (sl : Slave) : Slave :=
  if sl.swStarted then
    { sl with pulseLen := swTicks c sl, pulseOvf := swOvf c sl, pulseNew := true }
  else
    { sl with pulseLen := Config.unmeasuredTicks sl.cfg.stream sl.draws % 2 ^ sl.cfg.tickWidth
              pulseOvf := Config.unmeasuredOvf sl.cfg.stream sl.draws, pulseNew := true, draws := sl.draws + 1 }

/-- `ISR_RISE` (R193): the pulse event is latched; an overrun overwrites, or traps in strict mode (R297). -/
def Slave.isrRise (c : Ctx) (sl : Slave) : Slave :=
  if sl.pulseNew && sl.cfg.strictMode then Slave.trap sl else Slave.latchPulse c sl

/-- The edge interrupt is taken (R191, R300): enabled, not masked, not trapped. -/
def Slave.takesEdges (sl : Slave) : Bool := sl.intEnable && !sl.trapped && !sl.intMask

/-- A falling edge at the detector (R191). -/
def Slave.edgeFall (c : Ctx) (sl : Slave) : Slave :=
  if sl.takesEdges then { Slave.isrFall c sl with linePrev := false } else sl

/-- A rising edge at the detector (R191). -/
def Slave.edgeRise (c : Ctx) (sl : Slave) : Slave :=
  if sl.takesEdges then { Slave.isrRise c sl with linePrev := true } else sl

/-- The detector compares the line with the level it saw last (R52, R108, R191). -/
def Slave.observe (c : Ctx) (sl : Slave) : Slave :=
  if sl.linePrev = c.level then sl
  else if c.level then Slave.edgeRise c sl
  else Slave.edgeFall c sl

/-! ### `S_INIT` (R332, R333) -/

/-- The part-unique bytes `S_INIT` loads: from `STORE`, or the default (R86, R332). -/
def configPart (p : SlaveConfig) : List Byte :=
  if p.usePersistedId then (List.range 6).map fun j => memRead p.store (p.partIdStorageOffset + j)
  else (List.range 6).map fun j => partByte p.defaultPartId j

/-- The ROM-ID `S_INIT` loads (R332). -/
def configRomId (p : SlaveConfig) : RomId := makeRomId p.familyCode (configPart p)

/-- `S_INIT` after its `Release()` (R332, R333); `line_prev` is the sampled level. A rising edge before the next falling
edge has a free measurement (R61, R334(b)). -/
def Slave.initialise (c : Ctx) (sl : Slave) : Slave :=
  Slave.finish c .ok 0
    { sl with romId := configRomId sl.cfg, alarmed := false, pulseNew := false, txnState := .waitingReset
              linePrev := c.level, intEnable := true, swStarted := false }

/-! ### A requested operation begins (R124)

The line drivers of an instant move first, then the edge interrupt runs on the net level, then base level does the rest
(R71, R305(f)). -/

/-- What the operation does to the line at its first instant: the `Release()` of `S_INIT` and `S_BUSY_END`, the
`DriveLow()` of `S_BUSY_BEGIN` (R333, R280, R281). -/
def Slave.moveLine (op : SlaveOp) (sl : Slave) : Slave :=
  match op with
  | .init | .busyEnd => { sl with drive := false, busy := false }
  | .busyBegin => { Slave.driveLow sl with busy := true }
  | .waitReset | .readBit | .writeBit _ | .readByte | .writeByte _ | .waitFunctionCmd | .setAlarm _ | .logReceive
  | .logServe | .illegal => sl

/-- A requested operation begins: its move on the line; the rest follows when this instant's edges have been taken. Where
the release of `S_INIT` ends a hold of the slave's own, in strict mode with an event pending, the rising edge is an
overrun and the slave traps (R193, R297): the model's choice against R333's "cannot fail", notes/assumptions/26.md. -/
def Slave.begun (op : SlaveOp) (sl : Slave) : Slave := { Slave.moveLine op sl with pos := .begun op, wake := none }

/-- Base level does the rest of the operation's first instant. -/
def Slave.start (c : Ctx) (op : SlaveOp) (sl : Slave) : Slave :=
  match op with
  | .init => Slave.initialise c sl
  | .waitReset => Slave.await c .waitReset { sl with stack := [] }
  | .readBit => Slave.await c .readBit { sl with stack := [] }
  | .writeBit arg => Slave.await c (.writeStart (argBit arg)) { sl with stack := [] }
  | .readByte => Slave.startReadByte c [] sl
  | .writeByte arg => Slave.startWriteByte c arg [] sl
  | .waitFunctionCmd => Slave.dispatch c [] sl
  | .setAlarm arg => Slave.finish c .ok 0 { sl with alarmed := argBit arg }
  | .busyBegin => Slave.finish c .ok 0 sl
  | .busyEnd => Slave.await c .busyEnd { sl with stack := [.busyEnd] }
  | .logReceive => Slave.startLogReceive c [] sl
  | .logServe => Slave.dispatch c [.logServe] sl
  | .illegal => Slave.finishIllegal c sl

/-- Upstream code requests its next operation. Before `S_INIT` only `S_INIT` is ready (R330) and a reserved code reports
`IllegalOperation` (R127): another one waits. -/
def Slave.startNext (sl : Slave) : Slave :=
  match sl.upstream with
  | [] => { sl with pos := .idle, wake := none }
  | (_, op) :: later =>
    if sl.intEnable ∨ op = .init ∨ op = .illegal then Slave.begun op { sl with upstream := later }
    else { sl with wake := none }

/-! ### Time at a slave -/

/-- The end of a self-timed interval that moves the line or starts an operation (R198, R216, R275, R281). -/
def Slave.fire (c : Ctx) (sl : Slave) : Slave :=
  if sl.trapped || !sl.due c.now then sl
  else
    match sl.pos with
    | .delay .respond => Slave.waitFor c .hold (tSW0 c.cfg) (Slave.driveLow sl)
    | .delay .hold => Slave.await c .writeEnd (Slave.release sl)
    | .delay .quiet => Slave.waitFor c .presence (tSPres c.cfg) (Slave.driveLow sl)
    | .delay .presence => Slave.await c .presence (Slave.release sl)
    | .delay .busyLatency => Slave.logBusyBegin c sl
    | .delay .handler => Slave.endHold c sl
    | .between => Slave.startNext sl
    | .idle | .begun _ | .waitPulse _ | .delay .sitOut => sl

/-- A wait for a pulse whose `S_WAIT_TIMEOUT` is over (R194). -/
def Slave.expire (c : Ctx) (sl : Slave) : Slave :=
  if sl.trapped then sl
  else
    match sl.pos with
    | .waitPulse _ => if !sl.pulseNew && sl.due c.now then Slave.timeout c sl else sl
    | .idle | .between | .begun _ | .delay _ => sl

/-- A wait for a pulse takes the event that is there (R194). -/
def Slave.takeEvent (c : Ctx) (sl : Slave) : Slave :=
  match sl.pos with
  | .waitPulse _ => if sl.pulseNew then Slave.consume c sl else sl
  | .idle | .between | .begun _ | .delay _ => sl

/-- What base level does once the edges of this instant have been taken (R305(f)): consume the event it waits for, begin
the operation requested at this instant, or see its interval end. -/
def Slave.proceed (c : Ctx) (sl : Slave) : Slave :=
  if sl.trapped then sl
  else
    match sl.pos with
    | .waitPulse _ => Slave.takeEvent c sl
    | .begun op => Slave.takeEvent c (Slave.start c op sl)
    | .delay .sitOut => if sl.due c.now then Slave.returnValue c 0 { sl with pulseNew := false } else sl
    | .delay .busyLatency => Slave.takeEvent c (Slave.emptyHold c sl)
    | .idle | .between | .delay .respond | .delay .hold | .delay .quiet | .delay .presence | .delay .handler => sl

/-- Base level goes on at this instant; a wait for a pulse that it begins or is in may end at once (R194). -/
def Slave.resume (c : Ctx) (sl : Slave) : Slave := Slave.expire c (Slave.proceed c sl)

end Sys2Proof.Machine
end

