-- ==== Sys2Proof/Machine/Line.lean ====
section
/-! DEFINITION. The line (spec/20_memory.md R70 to R73) and the passing of time (Level T, R75): at each instant the
self-timed intervals that end move the drivers, then the line's net level is taken, every slave's edge interrupt runs
on a change, and every slave whose wait ends goes on. -/

namespace Sys2Proof.Machine

/-- `Line(t)`: the wired AND, low iff someone drives (R71). `true` is high. A driver outside the block is one more
(notes/assumptions/9.md). -/
def line (s : State) : Bool := !(s.master.drive || s.otherDrive || s.slaves.any (·.drive))

/-- What the slaves read of the rest. -/
def State.ctx (s : State) : Ctx := { now := s.now, level := line s, cfg := s.cfg }

/-- Edges, then the waits that end (R305(f): the interrupt action first). -/
def Slave.settle (c : Ctx) (sl : Slave) : Slave := Slave.resume c (Slave.observe c sl)

/-- Every slave takes this instant's edge and goes on. -/
def settleOnce (s : State) : State := { s with slaves := s.slaves.map (Slave.settle s.ctx) }

/-- The line may move once more at the same instant (a trap releases it, R296): take that edge too. -/
def settleLoop : Nat → State → State
  | 0, s => settleOnce s
  | n + 1, s => if line (settleOnce s) = line s then settleOnce s else settleLoop n (settleOnce s)

/-- This instant's edges and what follows from them. -/
def settle (s : State) : State := settleLoop s.slaves.length s

/-- The drivers outside the block change at their instants. -/
def moveOthers (s : State) : State :=
  match s.otherWave with
  | [] => s
  | t :: later => if t ≤ s.now then { s with otherDrive := !s.otherDrive, otherWave := later } else s

/-- Everything self-timed that ends at this instant (before its edges are taken). -/
def fireAll (s : State) : State :=
  moveOthers { s with slaves := s.slaves.map (Slave.fire s.ctx) }

/-- The earlier of two instants. -/
def earlier : Option Nat → Option Nat → Option Nat
  | none, b => b
  | some a, none => some a
  | some a, some b => some (min a b)

/-- The instant a slave waits for (a trapped one waits for none). -/
def Slave.nextWake (sl : Slave) : Option Nat := if sl.trapped then none else sl.wake

/-- The next instant at which a driver outside the block changes: it changes once at one instant, so a change that its
list has no later than now comes a unit of time from now (R73, notes/assumptions/9.md). -/
def nextOther (s : State) : Option Nat := s.otherWave.head?.map (max (s.now + 1))

/-- The next instant at which something self-timed ends. -/
def nextEvent (s : State) : Option Nat := s.slaves.foldr (fun sl t => earlier sl.nextWake t) (nextOther s)

/-- Go to instant `t`, at which something ends; its edges are not taken yet. -/
def goTo (t : Nat) (s : State) : State := fireAll { s with now := max s.now t }

/-- Everything that happens before instant `t`. Each turn takes at least a unit of time, so `fuel` turns
reach `s.now + fuel`. -/
def runBefore : Nat → Nat → State → State
  | 0, _, s => s
  | fuel + 1, t, s =>
    match nextEvent s with
    | none => s
    | some e => if e < t then runBefore fuel t (settle (goTo e s)) else s

/-- `d` passes at the master, the slaves going on meanwhile. It ends at the instant `d` later with that instant's drivers
moved and its edges still to be taken, so that what the master does at the same instant counts in the net level, the
next operation's first move included (R71, R73, notes/assumptions/17.md). -/
def wait (d : Nat) (s : State) : State :=
  let s' := settle s
  goTo (s'.now + d) (runBefore d (s'.now + d) s')

/-- `Wait(d)` of the master: from `d` to `d + DELAY_SLACK` (R12, R314). -/
def mWait (d : Nat) (s : State) : State := wait (d + s.cfg.slack (Config.masterDraw s.now)) s

/-- An idle time between two requests (R140): nothing for zero. -/
def pause (d : Nat) (s : State) : State := if d = 0 then s else wait d s

/-- Nothing is requested: the next scheduled instant, or a microsecond of silence. -/
def idleStep (s : State) : State :=
  let s' := settle s
  match nextEvent s' with
  | none => { s' with now := s'.now + us s'.cfg 1 }
  | some t => settle (goTo t s')

/-- The first request that is not the master's, and the others: a master that polls accepts none (R140). -/
def firstSlaveRequest : List Request → Option (Request × List Request)
  | [] => none
  | r :: later =>
    if r.port = .master then (firstSlaveRequest later).map fun q => (q.1, r :: q.2) else some (r, later)

/-- Another request comes at this very instant. -/
def comesNow (s : State) : Bool :=
  match s.master.pos with
  | .ready => s.requests.head?.any (·.gap = 0)
  | .polling _ => (firstSlaveRequest s.requests).any (·.1.gap = 0)

/-- A request to a slave comes by instant `l`: its gap is over then. -/
def requestBy (l : Nat) (s : State) : Bool :=
  match firstSlaveRequest s.requests with
  | none => false
  | some (r, _) => decide (s.now + r.gap ≤ l)

/-- Act on slave `k` alone. -/
def onSlave (k : Nat) (s : State) (f : Ctx → Slave → Slave) : Host.Outcome State Fault Refusal :=
  match s.slaves[k]? with
  | none => .fault (.noSuchSlave k)
  | some sl => .next { s with slaves := s.slaves.set k (f s.ctx sl) }

end Sys2Proof.Machine
end

