-- ==== Sys2Proof/Machine/MasterBit.lean ====
section
/-! DEFINITION. The master's bit and byte operations (spec/40_master_bit_byte.md R141 to R145). -/

namespace Sys2Proof.Machine

/-- `DriveLow()` of the master. -/
def mDriveLow (s : State) : State := { s with master := { s.master with drive := true } }

/-- `Release()` of the master. -/
def mRelease (s : State) : State := { s with master := { s.master with drive := false } }

/-- The end of a master operation: `m_status`, `m_data` (R28); the master is ready for the next (R140). -/
def mReport (st : Status) (v : Byte) (s : State) : State :=
  { s with master := { s.master with status := statusCode st, data := v, pos := .ready } }

/-- `IllegalOperation` (R127): no line activity, and no state changes but the status registers `m_status` and `m_data`
(R56), which is 0 (R28, R319; notes/assumptions/12.md). -/
def mIllegal (s : State) : State := mReport .illegalOperation 0 s

/-- Drive low for `low`, release for `high`. -/
def mPulse (low high : Nat) (s : State) : State := mWait high (mRelease (mWait low (mDriveLow s)))

/-- The reset exchange (R101, R141): the flag is `true` iff presence was detected. -/
def mResetExchange (s : State) : Bool × State :=
  let s1 := mPulse (tRstl s.cfg) (tPds s.cfg) s
  (!line s1, mWait (tRsth2 s.cfg) s1)

/-- One write slot (R102, R103, R142). -/
def mWriteSlot (b : Bool) (s : State) : State := 
  if b then mPulse (tW1l s.cfg) (tW1h s.cfg) s else mPulse (tW0l s.cfg) (tW0h s.cfg) s

/-- One read slot (R104, R143): the sampled level. -/
def mReadSlot (s : State) : Bool × State :=
  let s1 := mPulse (tRl s.cfg) (tRs s.cfg) s
  (line s1, mWait (tRh s.cfg) s1)

/-- `n` write slots from the shifter, least significant bit first (R144). -/
def mShiftOut : Nat → State → State
  | 0, s => s
  | n + 1, s =>
    let s1 := mWriteSlot (s.master.shift.getLsbD 0) s
    mShiftOut n
      { s1 with master := { s1.master with shift := s1.master.shift >>> 1, bitcnt := s1.master.bitcnt + 1 } }

/-- The line activity of `M_WRITE_BYTE v` (R144). -/
def mSendByte (v : Byte) (s : State) : State :=
  mShiftOut 8 { s with master := { s.master with shift := v, bitcnt := 0 } }

/-- `n` read slots into the shifter (R145). -/
def mShiftIn : Nat → State → State
  | 0, s => s
  | n + 1, s =>
    let r := mReadSlot s
    mShiftIn n
      { r.2 with master := { r.2.master with shift := shiftIn r.2.master.shift r.1
                                             bitcnt := r.2.master.bitcnt + 1 } }

/-- The line activity and value of `M_READ_BYTE` (R145). -/
def mReceiveByte (s : State) : Byte × State :=
  let s1 := mShiftIn 8 { s with master := { s.master with shift := 0, bitcnt := 0 } }
  (s1.master.shift, s1)

/-- `M_WRITE_BYTE` on each byte of a list. -/
def mSendBytes : List Byte → State → State
  | [], s => s
  | b :: bs, s => mSendBytes bs (mSendByte b s)

/-- `M_RESET` (R141). -/
def execMReset (s : State) : Host.Outcome State Fault Refusal :=
  let r := mResetExchange s
  .next (mReport (if r.1 then .ok else .noSlavePresent) (bitByte r.1) r.2)

/-- `M_WRITE_BIT` (R142). -/
def execMWriteBit (arg : Byte) (s : State) : Host.Outcome State Fault Refusal :=
  .next (mReport .ok 0 (mWriteSlot (argBit arg) s))

/-- `M_READ_BIT` (R143). -/
def execMReadBit (s : State) : Host.Outcome State Fault Refusal :=
  let r := mReadSlot s
  .next (mReport .ok (bitByte r.1) r.2)

/-- `M_WRITE_BYTE` (R144). -/
def execMWriteByte (arg : Byte) (s : State) : Host.Outcome State Fault Refusal :=
  .next (mReport .ok 0 (mSendByte arg s))

/-- `M_READ_BYTE` (R145). -/
def execMReadByte (s : State) : Host.Outcome State Fault Refusal :=
  let r := mReceiveByte s
  .next (mReport .ok r.1 r.2)

end Sys2Proof.Machine
end

