-- ==== Sys2Proof/Machine/MasterSearch.lean ====
section
/-! DEFINITION. The master's read-ROM, search engine, verify and transaction launcher
(spec/41_master_search_txn.md R160 to R173). -/

namespace Sys2Proof.Machine

/-- Read `n` bytes into `rom_buf` from index `i`, folding each into `m_crc8` (R160). -/
def mReadRomBytes : Nat → Nat → State → State
  | 0, _, s => s
  | n + 1, i, s =>
    let r := mReceiveByte s
    mReadRomBytes n (i + 1)
      { r.2 with master := { r.2.master with romBuf := setRomByte r.2.master.romBuf i r.1
                                             crc8 := crc8Update r.2.master.crc8 r.1 } }

/-- `M_READ_ROM` without its status write (R160). -/
def mReadRom (s : State) : Status × State :=
  let r := mResetExchange s
  if r.1 then
    let s1 := mSendByte 0x33 r.2
    let s2 := mReadRomBytes 8 0 { s1 with master := { s1.master with crc8 := 0 } }
    (if s2.master.crc8 = 0 then .ok else .romCrcMismatch, s2)
  else (.noSlavePresent, r.2)

/-- `ClearSearch()` (R161). -/
def clearSearch (s : State) : State :=
  { s with master := { s.master with lastDiscrepancy := 0, lastFamilyDiscrepancy := 0, lastDeviceFlag := false } }

/-- `Direction(b1, b2, n)` (R162), without `RecordZero`. -/
def direction (m : Master) (b1 b2 : Bool) (n : Nat) : Bool :=
  if b1 ≠ b2 then b1
  else if n < m.lastDiscrepancy.toNat then romBit m.romBuf n
  else decide (n = m.lastDiscrepancy.toNat)

/-- `RecordZero(n)` (R163). -/
def recordZero (n : Nat) (m : Master) : Master :=
  { m with lastZero := BitVec.ofNat 7 n
           lastFamilyDiscrepancy := if n < 9 then BitVec.ofNat 4 n else m.lastFamilyDiscrepancy }

/-- What the master does with the two bits read at position `n` before it writes the direction (R162 to R164). -/
def chooseDirection (b1 b2 : Bool) (n : Nat) (m : Master) : Master :=
  let d := direction m b1 b2 n
  let m' := if !b1 && !b2 && !d then recordZero n m else m
  { m' with dir := d, romBuf := setRomBit m'.romBuf n d }

/-- The search's positions `n`, `n + 1`, ..., of which `left` are left (R161): `true` if a slave answered at each. -/
def searchBits : Nat → Nat → State → Bool × State
  | 0, _, s => (true, s)
  | left + 1, n, s =>
    let r1 := mReadSlot s
    let r2 := mReadSlot r1.2
    let s1 := { r2.2 with master := { r2.2.master with b1 := r1.1, b2 := r2.1 } }
    if r1.1 && r2.1 then (false, s1)
    else
      let s2 := { s1 with master := chooseDirection r1.1 r2.1 n s1.master }
      let s3 := mWriteSlot s2.master.dir s2
      searchBits left (n + 1)
        { s3 with master := { s3.master with crc8 := crc8Bit s3.master.crc8 s3.master.dir
                                             idBitNumber := BitVec.ofNat 7 (n + 1) } }

/-- The end of a run whose 64 positions were answered (R165, R166(c)). -/
def searchEnd (s : State) : Status × State :=
  if s.master.crc8 = 0 then
    (.ok, { s with master := { s.master with lastDiscrepancy := s.master.lastZero
                                             lastDeviceFlag := decide (s.master.lastZero = 0) } })
  else (.romCrcMismatch, clearSearch s)

/-- `SearchRun(cmd)` (R161, R165 to R167). -/
def searchRun (cmd : Byte) (s : State) : Status × State :=
  if s.master.lastDeviceFlag then (.noSuchSlave, clearSearch s)
  else
    let r := mResetExchange s
    if r.1 then
      let s1 := mSendByte cmd r.2
      let q := searchBits 64 1 { s1 with master := { s1.master with idBitNumber := 1, lastZero := 0, crc8 := 0 } }
      if q.1 then searchEnd q.2 else (.noSuchSlave, clearSearch q.2)
    else (.noSlavePresent, clearSearch r.2)

/-- SEARCH_ROM's and ALARM_SEARCH's command bytes (R110). -/
def searchCmd : Byte := encodeRomCommand .searchRom
def alarmCmd : Byte := encodeRomCommand .alarmSearch

/-- The state `M_VERIFY` runs its search from (R172). -/
def verifySetup (id : RomId) (s : State) : State :=
  { s with master := { s.master with romBuf := id, lastDiscrepancy := 64, lastDeviceFlag := false } }

/-- The saved triple and buffer are restored (R172). -/
def verifyRestore (saved : Master) (s : State) : State :=
  { s with master := { s.master with romBuf := saved.romBuf, lastDiscrepancy := saved.lastDiscrepancy
                                     lastFamilyDiscrepancy := saved.lastFamilyDiscrepancy
                                     lastDeviceFlag := saved.lastDeviceFlag } }

/-- The transaction launcher without its status write (R173); mode 3 is `IllegalOperation` (R127). -/
def launch (mode : BitVec 2) (id : RomId) (f : Byte) (s : State) : Status × State :=
  if mode = 0 then
    let r := mReadRom s
    if r.1 = .ok then (.ok, mSendByte f r.2) else r
  else if mode = 1 then
    let r := mResetExchange s
    if r.1 then (.ok, mSendByte f (mSendBytes (romBytes id) (mSendByte 0x55 r.2))) else (.noSlavePresent, r.2)
  else if mode = 2 then
    let r := mResetExchange s
    if r.1 then (.ok, mSendByte f (mSendByte 0xCC r.2)) else (.noSlavePresent, r.2)
  else (.illegalOperation, s)

/-- `M_READ_ROM` (R160). -/
def execMReadRom (s : State) : Host.Outcome State Fault Refusal :=
  let r := mReadRom s
  .next (mReport r.1 0 r.2)

/-- `M_SEARCH_FIRST` (R168). -/
def execMSearchFirst (s : State) : Host.Outcome State Fault Refusal :=
  let r := searchRun searchCmd (clearSearch s)
  .next (mReport r.1 0 r.2)

/-- `M_SEARCH_NEXT` (R169). -/
def execMSearchNext (s : State) : Host.Outcome State Fault Refusal :=
  let r := searchRun searchCmd s
  .next (mReport r.1 0 r.2)

/-- `M_ALARM_FIRST` (R170). -/
def execMAlarmFirst (s : State) : Host.Outcome State Fault Refusal :=
  let r := searchRun alarmCmd (clearSearch s)
  .next (mReport r.1 0 r.2)

/-- `M_ALARM_NEXT` (R171). -/
def execMAlarmNext (s : State) : Host.Outcome State Fault Refusal :=
  let r := searchRun alarmCmd s
  .next (mReport r.1 0 r.2)

/-- `M_VERIFY` (R172): the verdict is in `m_data`, the search state is restored. -/
def execMVerify (id : RomId) (s : State) : Host.Outcome State Fault Refusal :=
  let r := searchRun searchCmd (verifySetup id s)
  let found := decide (r.1 = .ok) && decide (r.2.master.romBuf = id)
  .next (mReport r.1 (bitByte found) (verifyRestore s.master r.2))

/-- `M_START_TXN` (R173). -/
def execMStartTxn (mode : BitVec 2) (id : RomId) (arg : Byte) (s : State) : Host.Outcome State Fault Refusal :=
  if mode = 3 then .next (mIllegal s)
  else
    let r := launch mode id arg s
    .next (mReport r.1 0 r.2)

end Sys2Proof.Machine
end

