-- ==== Sys2Proof/Machine/MasterLog.lean ====
section
/-! DEFINITION. The master's `M_LOG_SEND` (spec/45_crc_log_frame.md R270 to R273). -/

namespace Sys2Proof.Machine

/-- `M_WRITE_BYTE b` and its fold into `m_crc16` (R270). -/
def mSendFolded (b : Byte) (s : State) : State :=
  let s1 := mSendByte b s
  { s1 with master := { s1.master with crc16 := crc16Update s1.cfg.crc16 s1.master.crc16 b } }

/-- The payload bytes, each folded (R270). -/
def mSendPayload : List Byte → State → State
  | [], s => s
  | b :: bs, s => mSendPayload bs (mSendFolded b s)

/-- The frame up to its CRC: gap, length, payload, the two CRC bytes high first (R270, R83). -/
def mSendFrame (len : Byte) (payload : List Byte) (s : State) : State :=
  let s1 := mWait (tLogGap s.cfg) s
  let s2 := mSendFolded len { s1 with master := { s1.master with crc16 := 0xFFFF } }
  let s3 := mSendPayload payload s2
  mSendByte (crcLow s3.master.crc16) (mSendByte (crcHigh s3.master.crc16) s3)

/-- What a step sees of the busy poll: its end, or that it goes on, with nothing scheduled (the slaves' next request is
taken), or with the instants that one step looks at used up (the next step looks again). -/
inductive PollEnd where
  | high (s : State)
  | timedOut (s : State)
  | waits (s : State)
  | unfinished (s : State)
  deriving DecidableEq, Repr

/-- Instants at which something happens that a poll looks at in one step. -/
def pollFuel : Nat := 1000000000

/-- The line is low and nothing scheduled happens by instant `l`, at which `M_POLL_TIMEOUT` is over: `Timeout`, unless a
request to a slave comes first. -/
def pollRunsOut (l : Nat) (s : State) : PollEnd :=
  if requestBy l s then .waits s else .timedOut (pause (l - s.now) s)

/-- `PollUntilHigh()` (R272): the first instant, now or later, at which the line is high; `limit` is the instant at
which `M_POLL_TIMEOUT` is over. A line that goes high at that very instant ends the poll high: the model's choice, the
spec gives both ends (notes/assumptions/24.md). With nothing scheduled that could raise the line the poll goes on
(R352(c)). -/
def pollLoop (limit : Option Nat) : Nat → State → PollEnd
  | 0, s => .unfinished s
  | fuel + 1, s =>
    if line s then .high s
    else
      let s1 := settle s
      if line s1 then .high s1
      else
        match nextEvent s1, limit with
        | none, none => .waits s1
        | none, some l => pollRunsOut l s1
        | some t, none => pollLoop limit fuel (goTo t s1)
        | some t, some l => if t ≤ l then pollLoop limit fuel (goTo t s1) else pollRunsOut l s1

/-- `T_M_POLL`, the ack read and its check (R270, R272, R273). -/
def mReadAck (s : State) : State :=
  let r := mReceiveByte (mWait s.cfg.tMPoll s)
  mReport (if r.1 = ackByteValue then .ok else .ackMismatch) r.1 r.2

/-- The master, suspended in its busy poll. -/
def mSuspend (limit : Option Nat) (s : State) : State :=
  { s with master := { s.master with pos := .polling limit } }

/-- What the master does at that end: the ack read, `Timeout`, or nothing yet. -/
def endPoll (limit : Option Nat) : PollEnd → State
  | .high s1 => mReadAck s1
  | .timedOut s1 => mReport .timeout 0 s1
  | .waits s1 => mSuspend limit s1
  | .unfinished s1 => mSuspend limit s1

/-- The poll goes on, and only a request to a slave can end it, or its timeout. -/
def pollWaits : PollEnd → Bool
  | .waits _ => true
  | .high _ | .timedOut _ | .unfinished _ => false

/-- The busy poll, as far as it goes: the ack read, `Timeout`, or a master that is still polling (R272). -/
def mPoll (limit : Option Nat) (s : State) : State := endPoll limit (pollLoop limit pollFuel s)

/-- What follows the frame: the poll from the end of the last CRC bit's slot, and the ack (R270, R272). Where a request to a
slave comes at this very instant, its move counts in the net level (R71, R73): the poll is left to the next step, which
takes that request first (notes/assumptions/18.md). -/
def mAwaitAck (s : State) : State :=
  let limit := s.cfg.pollTimeout.map (s.now + ·)
  if comesNow (mSuspend limit s) then mSuspend limit s else mPoll limit s

/-- `M_LOG_SEND` (R270, R271, R127). -/
def execMLogSend (mode : BitVec 2) (id : RomId) (len : Byte) (payload : List Byte) (s : State) :
    Host.Outcome State Fault Refusal :=
  if s.cfg.maxMessageLength < len.toNat then .next (mReport .messageTooLong 0 s)
  else if mode = 2 ∨ mode = 3 then .next (mIllegal s)
  else
    let r := launch mode id logMessageByte s
    if r.1 = .ok then .next (mAwaitAck (mSendFrame len (payload.take len.toNat) r.2))
    else .next (mReport r.1 0 r.2)

end Sys2Proof.Machine
end

