-- ==== Sys2Proof/Machine/SlaveOps.lean ====
section
/-! DEFINITION. The operations upstream code requests of a slave (spec/30_encoding.md R124). A request starts the
operation; time then passes as long as the operation is unfinished and something is scheduled that can move it on. An
operation that waits for traffic nobody has scheduled stays suspended in the state, "its normal idle state and not a
fault" (R194), and the later steps carry it on. -/

namespace Sys2Proof.Machine

/-- Instants of scheduled activity one request may run through. -/
def requestFuel : Nat := 1000000000

/-- The operation is unfinished and something scheduled can move it on: its own interval, or a driver outside the
block. -/
def Slave.movesOn (others : List Nat) (sl : Slave) : Bool :=
  !sl.trapped &&
    match sl.pos with
    | .delay _ => sl.wake.isSome
    | .waitPulse _ => !others.isEmpty
    | .idle | .between | .begun _ => false

/-- Slave `k`'s operation moves on by itself. -/
def movesOn (k : Nat) (s : State) : Bool :=
  match s.slaves[k]? with
  | none => false
  | some sl => sl.movesOn s.otherWave

/-- The master is suspended in its busy poll, and the poll ends at this instant or before the next event (R272): the line
is high, or `M_POLL_TIMEOUT` is over by then. -/
def pollEnds (s : State) : Bool :=
  match s.master.pos with
  | .ready => false
  | .polling limit =>
    line s ||
      match limit, nextEvent s with
      | some l, some t => decide (l < t)
      | none, _ | _, none => false

/-- Let time pass while slave `k`'s operation moves on, and no busy poll of the master ends. -/
def runOp (k : Nat) : Nat → State → State
  | 0, s => s
  | fuel + 1, s =>
    if movesOn k s && !pollEnds s then
      match nextEvent s with
      | none => s
      | some t => runOp k fuel (settle (goTo t s))
    else s

/-- The operation of slave `k` that has just begun runs. Where another request comes at the same instant, that one's move
counts in the net level too (R71, R73), so this instant's edges, and what base level does after them, are left to be
taken with it (notes/assumptions/17.md). -/
def runBegun (k : Nat) (s : State) : State := if comesNow s then s else runOp k requestFuel (settle s)

/-- `S_INIT` has been requested of the slave and is not over. -/
def Slave.initComes (sl : Slave) : Bool := decide (sl.pos = .begun .init) || sl.upstream.any fun r => decide (r.2 = .init)

/-- Upstream code requests `op` of slave `k` (R124). A trapped slave takes no step (R47, R296); before `S_INIT` only
`S_INIT` is accepted (R330, U22), and a reserved code reports `IllegalOperation` (R127); a request made while an
operation runs, or at the instant at which another has begun, is accepted when that one ends (R90(b),
notes/assumptions/7.md). -/
def requestOp (k : Nat) (op : SlaveOp) (s : State) : Host.Outcome State Fault Refusal :=
  match s.slaves[k]? with
  | none => .fault (.noSuchSlave k)
  | some sl =>
    if sl.trapped then .next s
    else if !sl.intEnable && !sl.initComes && decide (op ≠ .init ∧ op ≠ .illegal) then .refused (.slaveNotInitialised k)
    else if sl.pos = .idle then .next (runBegun k { s with slaves := s.slaves.set k (Slave.begun op sl) })
    else .next { s with slaves := s.slaves.set k { sl with upstream := sl.upstream ++ [(0, op)] } }

/-- `S_INIT` (R332, R333). -/
def execSInit (k : Nat) (s : State) : Host.Outcome State Fault Refusal := requestOp k .init s

/-- `S_WAIT_RESET` (R200). -/
def execSWaitReset (k : Nat) (s : State) : Host.Outcome State Fault Refusal := requestOp k .waitReset s

/-- `S_READ_BIT` (R215). -/
def execSReadBit (k : Nat) (s : State) : Host.Outcome State Fault Refusal := requestOp k .readBit s

/-- `S_WRITE_BIT` (R216). -/
def execSWriteBit (k : Nat) (arg : Byte) (s : State) : Host.Outcome State Fault Refusal :=
  requestOp k (.writeBit arg) s

/-- `S_READ_BYTE` (R217). -/
def execSReadByte (k : Nat) (s : State) : Host.Outcome State Fault Refusal := requestOp k .readByte s

/-- `S_WRITE_BYTE` (R218). -/
def execSWriteByte (k : Nat) (arg : Byte) (s : State) : Host.Outcome State Fault Refusal :=
  requestOp k (.writeByte arg) s

/-- `S_WAIT_FUNCTION_CMD` (R230). -/
def execSWaitFunctionCmd (k : Nat) (s : State) : Host.Outcome State Fault Refusal := requestOp k .waitFunctionCmd s

/-- `S_SET_ALARM` (R247). -/
def execSSetAlarm (k : Nat) (arg : Byte) (s : State) : Host.Outcome State Fault Refusal :=
  requestOp k (.setAlarm arg) s

/-- `S_BUSY_BEGIN` (R280). -/
def execSBusyBegin (k : Nat) (s : State) : Host.Outcome State Fault Refusal := requestOp k .busyBegin s

/-- `S_BUSY_END` (R281). -/
def execSBusyEnd (k : Nat) (s : State) : Host.Outcome State Fault Refusal := requestOp k .busyEnd s

/-- `S_LOG_RECEIVE` (R275). -/
def execSLogReceive (k : Nat) (s : State) : Host.Outcome State Fault Refusal := requestOp k .logReceive s

/-- `S_LOG_SERVE` (R283). -/
def execSLogServe (k : Nat) (s : State) : Host.Outcome State Fault Refusal := requestOp k .logServe s

end Sys2Proof.Machine
end

