-- ==== Sys2Proof/Machine/Wire.lean ====
section
/-! DEFINITION. The meanings of the codes a slave decodes itself: the wire bytes (R110, R111), the pulse classes (R107)
and the edge kinds (R108). In a run the slave meets them inside `settle`; presented at the slave's port they act by
the same definitions. A slave that is not at the place where the code is decoded does not see it. -/

namespace Sys2Proof.Machine

/-- The dispatcher of a slave that is reading a ROM command byte gets a command. -/
def Slave.atRomCommand (f : List Frame → Slave → Slave) (sl : Slave) : Slave :=
  if sl.trapped then sl
  else
    match sl.pos, sl.stack with
    | .waitPulse .readBit, .readByte :: .romCommand :: rest => f rest sl
    | _, _ => sl

/-- READ_ROM, `0x33` (R240). -/
def execReadRom (k : Nat) (s : State) : Host.Outcome State Fault Refusal :=
  onSlave k s fun c => Slave.atRomCommand (Slave.romReadRom c)

/-- MATCH_ROM, `0x55` (R241). -/
def execMatchRom (k : Nat) (s : State) : Host.Outcome State Fault Refusal :=
  onSlave k s fun c => Slave.atRomCommand (Slave.romMatchRom c)

/-- SKIP_ROM, `0xCC` (R242). -/
def execSkipRom (k : Nat) (s : State) : Host.Outcome State Fault Refusal :=
  onSlave k s fun c => Slave.atRomCommand (Slave.romSkipRom c)

/-- SEARCH_ROM, `0xF0` (R243). -/
def execSearchRom (k : Nat) (s : State) : Host.Outcome State Fault Refusal :=
  onSlave k s fun c => Slave.atRomCommand (Slave.romSearchRom c)

/-- ALARM_SEARCH, `0xEC` (R243, R246). -/
def execAlarmSearch (k : Nat) (s : State) : Host.Outcome State Fault Refusal :=
  onSlave k s fun c => Slave.atRomCommand (Slave.romAlarmSearch c)

/-- The dispatcher of a slave that is reading a function command byte gets one. -/
def Slave.atFunctionCommand (f : List Frame → Slave → Slave) (sl : Slave) : Slave :=
  if sl.trapped then sl
  else
    match sl.pos, sl.stack with
    | .waitPulse .readBit, .readByte :: .functionCommand :: rest => f rest sl
    | _, _ => sl

/-- LOG_MESSAGE, `0x44` (R111, R275, R283). -/
def execLogMessage (k : Nat) (s : State) : Host.Outcome State Fault Refusal :=
  onSlave k s fun c => Slave.atFunctionCommand (Slave.gotLogMessage c)

/-- The ack of a log receiver whose hold is over. -/
def Slave.atHoldEnd (f : List Frame → Slave → Slave) (sl : Slave) : Slave :=
  if sl.trapped then sl
  else
    match sl.pos, sl.stack with
    | .waitPulse .busyEnd, .logHold :: rest => f rest sl
    | _, _ => sl

/-- ACK, `0x42` (R282). -/
def execAck (k : Nat) (s : State) : Host.Outcome State Fault Refusal :=
  onSlave k s fun c => Slave.atHoldEnd (Slave.writeAck c)

/-- A slave in `WaitPulseEnd` consumes a pulse of a class; the event is cleared (R194). -/
def Slave.atPulse (f : Slave → Slave) (sl : Slave) : Slave :=
  if sl.trapped then sl
  else
    match sl.pos with
    | .waitPulse _ => f { sl with pulseNew := false }
    | .idle | .between | .begun _ | .delay _ => sl

/-- PULSE_ONE (R195). -/
def execPulseOne (k : Nat) (s : State) : Host.Outcome State Fault Refusal :=
  onSlave k s fun c => Slave.atPulse (Slave.pulseOne c)

/-- PULSE_ZERO (R195). -/
def execPulseZero (k : Nat) (s : State) : Host.Outcome State Fault Refusal :=
  onSlave k s fun c => Slave.atPulse (Slave.pulseZero c)

/-- PULSE_BAD (R203). -/
def execPulseBad (k : Nat) (s : State) : Host.Outcome State Fault Refusal :=
  onSlave k s fun c => Slave.atPulse (Slave.pulseBad c)

/-- PULSE_RESET (R202). -/
def execPulseReset (k : Nat) (s : State) : Host.Outcome State Fault Refusal :=
  onSlave k s fun c => Slave.atPulse (Slave.pulseReset c)

/-- ISR_FALL (R192). -/
def execIsrFall (k : Nat) (s : State) : Host.Outcome State Fault Refusal :=
  onSlave k s Slave.edgeFall

/-- ISR_RISE (R193). -/
def execIsrRise (k : Nat) (s : State) : Host.Outcome State Fault Refusal :=
  onSlave k s Slave.edgeRise

end Sys2Proof.Machine
end

