-- ==== Sys2Proof/Machine/Dispatch.lean ====
section
/-! DEFINITION. The dispatch of an instruction to its meaning. -/

namespace Sys2Proof.Machine

def exec (i : Instr) (s : State) : Host.Outcome State Fault Refusal :=
  match i with
  -- wire bytes, pulse classes and edge kinds, decoded by a slave
  | .readRom k => Sys2Proof.Machine.execReadRom k s
  | .matchRom k => Sys2Proof.Machine.execMatchRom k s
  | .skipRom k => Sys2Proof.Machine.execSkipRom k s
  | .searchRom k => Sys2Proof.Machine.execSearchRom k s
  | .alarmSearch k => Sys2Proof.Machine.execAlarmSearch k s
  | .logMessage k => Sys2Proof.Machine.execLogMessage k s
  | .ack k => Sys2Proof.Machine.execAck k s
  | .pulseOne k => Sys2Proof.Machine.execPulseOne k s
  | .pulseZero k => Sys2Proof.Machine.execPulseZero k s
  | .pulseBad k => Sys2Proof.Machine.execPulseBad k s
  | .pulseReset k => Sys2Proof.Machine.execPulseReset k s
  | .isrFall k => Sys2Proof.Machine.execIsrFall k s
  | .isrRise k => Sys2Proof.Machine.execIsrRise k s
  -- master operations
  | .mReset => Sys2Proof.Machine.execMReset s
  | .mWriteBit arg => Sys2Proof.Machine.execMWriteBit arg s
  | .mReadBit => Sys2Proof.Machine.execMReadBit s
  | .mWriteByte arg => Sys2Proof.Machine.execMWriteByte arg s
  | .mReadByte => Sys2Proof.Machine.execMReadByte s
  | .mReadRom => Sys2Proof.Machine.execMReadRom s
  | .mSearchFirst => Sys2Proof.Machine.execMSearchFirst s
  | .mSearchNext => Sys2Proof.Machine.execMSearchNext s
  | .mAlarmFirst => Sys2Proof.Machine.execMAlarmFirst s
  | .mAlarmNext => Sys2Proof.Machine.execMAlarmNext s
  | .mVerify id => Sys2Proof.Machine.execMVerify id s
  | .mStartTxn mode id arg => Sys2Proof.Machine.execMStartTxn mode id arg s
  | .mLogSend mode id len payload => Sys2Proof.Machine.execMLogSend mode id len payload s
  -- slave operations
  | .sInit k => Sys2Proof.Machine.execSInit k s
  | .sWaitReset k => Sys2Proof.Machine.execSWaitReset k s
  | .sReadBit k => Sys2Proof.Machine.execSReadBit k s
  | .sWriteBit k arg => Sys2Proof.Machine.execSWriteBit k arg s
  | .sReadByte k => Sys2Proof.Machine.execSReadByte k s
  | .sWriteByte k arg => Sys2Proof.Machine.execSWriteByte k arg s
  | .sWaitFunctionCmd k => Sys2Proof.Machine.execSWaitFunctionCmd k s
  | .sSetAlarm k arg => Sys2Proof.Machine.execSSetAlarm k arg s
  | .sBusyBegin k => Sys2Proof.Machine.execSBusyBegin k s
  | .sBusyEnd k => Sys2Proof.Machine.execSBusyEnd k s
  | .sLogReceive k => Sys2Proof.Machine.execSLogReceive k s
  | .sLogServe k => Sys2Proof.Machine.execSLogServe k s

end Sys2Proof.Machine
end

