-- ==== Sys2Proof/Machine/Reject.lean ====
section
/-! DEFINITION. What a code does that is no instruction of its port: reserved host codes (spec/30_encoding.md R127), ROM
command bytes other than the five (R120, spec/44_slave_dispatch.md R233), function command bytes other than `0x44`
(R111, R121, R234); and the bytes of a request that no rule gives an effect. -/

namespace Sys2Proof.Machine

/-- The effect of a request that the decoder rejects. -/
def reject (e : Reject) (s : State) : Host.Outcome State Fault Refusal :=
  match e with
  | .reservedMasterOp => .next (mIllegal s)
  | .reservedSlaveOp k => requestOp k .illegal s
  | .notRomCommand k b => onSlave k s fun c => Slave.atRomCommand (Slave.gotRomCommand c b)
  | .otherFunctionCommand k b => onSlave k s fun c => Slave.atFunctionCommand (Slave.gotFunctionCommand c b)
  | .notAck | .notACode | .badMode | .truncated => .refused .malformedRequest

/-- The next request is taken: its gap passes, then its code is read (R140). -/
def takeRequest (r : Request) (later : List Request) (s : State) : State := pause r.gap { s with requests := later }

/-- The bytes a table word is as the next request (spec/30_encoding.md R100). It comes a unit of time after the step
before it, whose instant is over (notes/assumptions/4.md). -/
def tableRequest (nbits w : Nat) : Request :=
  { port := tablePort nbits w, gap := 1, bytes := tableBytes (w % 2 ^ nbits) }

end Sys2Proof.Machine
end

