-- ==== Sys2Proof/Machine/Step.lean ====
section
/-! DEFINITION. One step of the machine: the next request is taken and run (spec/40_master_bit_byte.md R140), or, with no
request, time passes to the next thing that is scheduled. A master inside its busy poll accepts no request (R140, R272). -/

namespace Sys2Proof.Machine

/-- The request is taken and runs. -/
def runRequest (r : Request) (later : List Request) (s : State) : Host.Outcome State Fault Refusal :=
  match decode r.port r.bytes with
  | .ok (i, _) => exec i (takeRequest r later s)
  | .error e => reject e (takeRequest r later s)

/-- A step of a machine whose master goes on polling with nothing scheduled: the next request to a slave, or time (R272,
R352). -/
def stepPolling (s : State) : Host.Outcome State Fault Refusal :=
  match firstSlaveRequest s.requests with
  | none => .next (idleStep s)
  | some (r, later) => runRequest r later s

/-- One step. A request to a slave that comes at this very instant is taken before a polling master looks at the line: its
move counts in the net level (R71). A poll that has used up its instants ends the step where it stands, and the next step
looks at that instant. -/
def step (s : State) : Host.Outcome State Fault Refusal :=
  match s.master.pos with
  | .polling limit =>
    if comesNow s then stepPolling s
    else
      let e := pollLoop limit pollFuel s
      if pollWaits e then stepPolling (endPoll limit e) else .next (endPoll limit e)
  | .ready =>
    match s.requests with
    | [] => .next (idleStep s)
    | r :: later => runRequest r later s

/-- `s` with a table word as the next request, and a master that is ready for it. -/
def State.withFetchWord (s : State) (nbits w : Nat) : State :=
  { s with requests := tableRequest nbits w :: s.requests, master := { s.master with pos := .ready } }

end Sys2Proof.Machine
end

