-- ==== Sys2Proof/Safety.lean ====
section
/-! DEFINITION. What holds between any two steps (spec/10_state.md: the ranges R22, R23, R26, R30, R42, R46, R56, R85 give
the registers; R25, R44, R47, R48, R50; R40 with R93), and the traffic an outside driver makes. -/

namespace Sys2Proof.Machine

/-- A frame of the byte shifter (R46: live only inside the two byte operations). -/
def isByteFrame : Frame → Bool
  | .readByte | .writeByte => true
  | _ => false

/-- A frame that waits for a presence pulse: the only kind that can stand above a byte that was cut short (R217). -/
def isResetFrame : Frame → Bool
  | .handleReset | .waitReset => true
  | _ => false

/-- A frame of the log receiver. -/
def isLogFrame : Frame → Bool
  | .logServe | .logLength | .logPayload _ | .logCrcHigh | .logCrcLow _ | .logHold | .logAck => true
  | _ => false

/-- What a waiting procedure relies on: the bit counter is below 8 inside a byte (R266(c)); the frame being received
fits the buffer, and payload byte `i` is one of its bytes (R85, R276). -/
def frameOk (max : Nat) (logLen : Byte) (bitcnt : BitVec 4) : Frame → Bool
  | .readByte | .writeByte => decide (bitcnt.toNat < 8)
  | .logPayload i => decide (i < logLen.toNat) && decide (logLen.toNat ≤ max)
  | .logCrcHigh | .logCrcLow _ | .logHold | .logAck => decide (logLen.toNat ≤ max)
  | _ => true

/-- The call path is one the procedures make: each frame's reliance holds, a byte operation calls no other than the
handling of a reset, and nothing called the log receiver but upstream code. -/
def stackOk (max : Nat) (logLen : Byte) (bitcnt : BitVec 4) : List Frame → Bool
  | [] => true
  | f :: rest =>
    frameOk max logLen bitcnt f && (!isLogFrame f || rest.isEmpty) && (isResetFrame f || !rest.any isByteFrame)
      && stackOk max logLen bitcnt rest

/-- What holds of a slave between two steps. -/
structure Slave.Ok (cfg : Config) (sl : Slave) : Prop where
  /-- R56: a status code, and never `NotAlarmed` (R246). -/
  status_code : sl.status.toNat ≤ 14 ∧ sl.status ≠ statusCode .notAlarmed
  /-- R42: `TICK_WIDTH` bits. -/
  pulse_len : sl.pulseLen < 2 ^ sl.cfg.tickWidth
  /-- R46. -/
  bitcnt_range : sl.bitcnt.toNat ≤ 8
  log_buf_wf : memoryWf sl.logBuf = true
  /-- R85: addresses `0 .. MAX_MESSAGE_LENGTH`. -/
  log_buf_range : ∀ c ∈ sl.logBuf, c.1 ≤ cfg.maxMessageLength
  stack_ok : stackOk cfg.maxMessageLength sl.logLen sl.bitcnt sl.stack = true
  /-- R48. -/
  busy_drives : sl.busy = true → sl.drive = true
  /-- R44: a presence pulse, a write-zero response or a busy hold. -/
  drive_when : sl.drive = true → sl.busy = true ∨ sl.pos = .delay .hold ∨ sl.pos = .delay .presence
  /-- R47, R296. -/
  trapped_released : sl.trapped = true → sl.drive = false ∧ sl.busy = false
  /-- R50: never observed `true` between steps. -/
  unmasked : sl.intMask = false
  /-- R40, R93: after `S_INIT` the ROM-ID is the one it loaded. -/
  rom_id : sl.intEnable = true → sl.romId = configRomId sl.cfg

/-- What holds of the master between two operations. -/
structure Master.Ok (m : Master) : Prop where
  /-- R25. -/
  released : m.drive = false
  /-- R56. -/
  status_code : m.status.toNat ≤ 14
  /-- R22, R23, R26, R30. -/
  last_discrepancy : m.lastDiscrepancy.toNat ≤ 64
  last_family_discrepancy : m.lastFamilyDiscrepancy.toNat ≤ 8
  bitcnt_range : m.bitcnt.toNat ≤ 8
  id_bit_number : m.idBitNumber.toNat ≤ 65
  last_zero : m.lastZero.toNat ≤ 64

/-- What holds of the machine between two steps. -/
structure State.Ok (s : State) : Prop where
  master : s.master.Ok
  slaves : ∀ sl ∈ s.slaves, sl.Ok s.cfg

/-- The instants at which an outside driver pulls the line low and lets it go, for a list of pulses, each after a high
time and of a width, from instant `t` on. -/
def pulseTrain (t : Nat) : List (Nat × Nat) → List Nat
  | [] => []
  | (high, width) :: ps => (t + high) :: (t + high + width) :: pulseTrain (t + high + width) ps

/-- The instant the last of these pulses ends. -/
def trainEnd (t : Nat) : List (Nat × Nat) → Nat
  | [] => t
  | (high, width) :: ps => trainEnd (t + high + width) ps

/-- A slave that runs no operation, expects none and has released the line. -/
def Slave.AtRest (sl : Slave) : Prop := sl.pos = .idle ∧ sl.wake = none ∧ sl.drive = false

/-- A slave that `S_INIT` has prepared, between two operations of upstream code, on the released line, with no event
pending (R340); its parameters are the spec's, time being counted as `g` has it. -/
structure Slave.Prepared (g : Config) (sl : Slave) : Prop where
  pos : sl.pos = .idle
  wake : sl.wake = none
  stack : sl.stack = []
  upstream : sl.upstream = []
  valid : sl.cfg.valid g = true
  enabled : sl.intEnable = true
  trapped : sl.trapped = false
  unmasked : sl.intMask = false
  no_event : sl.pulseNew = false
  line_prev : sl.linePrev = true
  released : sl.drive = false
  not_busy : sl.busy = false

/-- Such a slave, whose waits have no timeout (R194). -/
structure Slave.Ready (g : Config) (sl : Slave) : Prop extends Slave.Prepared g sl where
  no_timeout : sl.cfg.waitTimeout = none

/-- A slave that upstream code has made hold the line low (R280), between two operations, its falling edge seen. -/
structure Slave.Holding (g : Config) (sl : Slave) : Prop where
  pos : sl.pos = .idle
  wake : sl.wake = none
  stack : sl.stack = []
  upstream : sl.upstream = []
  valid : sl.cfg.valid g = true
  no_timeout : sl.cfg.waitTimeout = none
  enabled : sl.intEnable = true
  trapped : sl.trapped = false
  unmasked : sl.intMask = false
  no_event : sl.pulseNew = false
  line_prev : sl.linePrev = false
  started : sl.swStarted = true
  drives : sl.drive = true
  busy : sl.busy = true

/-- Only the registers an edge writes differ (R192, R193), or a strict-mode slave has trapped on an overrun, its line
released (R297). -/
def Slave.OnlyEdges (sl sl' : Slave) : Prop :=
  ∃ pulseNew pulseLen pulseOvf tReset swStarted linePrev draws,
    sl' = { sl with pulseNew := pulseNew, pulseLen := pulseLen, pulseOvf := pulseOvf, tReset := tReset
                    swStarted := swStarted, linePrev := linePrev, draws := draws } ∨
    (sl.cfg.strictMode = true ∧
     sl' = { sl with pulseNew := pulseNew, pulseLen := pulseLen, pulseOvf := pulseOvf, tReset := tReset
                     swStarted := swStarted, linePrev := linePrev, draws := draws
                     drive := false, busy := false, trapped := true, stack := [] })

/-- Every slave but slave `k` is at rest. -/
def OthersAtRest (k : Nat) (s : State) : Prop := ∀ j sl, j ≠ k → s.slaves[j]? = some sl → sl.AtRest

/-- From `s` to `t`, every slave but slave `k` has only heard the line. -/
def OthersHear (k : Nat) (s t : State) : Prop :=
  ∀ j sl, j ≠ k → s.slaves[j]? = some sl → ∃ x, t.slaves[j]? = some x ∧ Slave.OnlyEdges sl x

/-- `v` is `s` with slave `k` alone on the line; the slaves `v` leaves out are at rest. -/
structure Alone (k : Nat) (s v : State) : Prop where
  cfg : v.cfg = s.cfg
  now : v.now = s.now
  master : v.master = s.master
  otherDrive : v.otherDrive = s.otherDrive
  otherWave : v.otherWave = s.otherWave
  requests : v.requests = s.requests
  slave : ∃ sl, s.slaves[k]? = some sl ∧ v.slaves = [sl]
  rest : OthersAtRest k s

/-- Nobody but slave `k` and the coming traffic of an outside driver can move the line: the master is between two
operations (R140), the other slaves are at rest, and no other request comes at this very instant. -/
structure Quiet (k : Nat) (s : State) : Prop where
  master : s.master.drive = false
  ready : s.master.pos = .ready
  requests : comesNow s = false
  otherDrive : s.otherDrive = false
  rest : OthersAtRest k s

/-- The coming traffic moves the line only after this instant. -/
def WaveAfter (e : Nat) (ow : List Nat) : Prop := ∀ a, ow.head? = some a → e < a

/-- Between `s` and `t`, until this instant, nothing has changed but slave `k`, the master and what the resting slaves
hear; this traffic is still to come. -/
structure Exchanged (k : Nat) (s t : State) (now : Nat) (wave : List Nat) : Prop where
  cfg : t.cfg = s.cfg
  requests : t.requests = s.requests
  now_eq : t.now = now
  otherDrive : t.otherDrive = false
  otherWave : t.otherWave = wave
  rest : OthersAtRest k t
  hear : OthersHear k s t

/-- Slave `k`'s operation has run from `s` to `t`, until this instant, and this traffic is still to come. -/
structure RanAlone (k : Nat) (s t : State) (now : Nat) (wave : List Nat) : Prop extends Exchanged k s t now wave where
  master : t.master = s.master

/-- `s_status`, `s_data` are as before, or as `S_WAIT_RESET`'s body leaves them (R200, R231). -/
def Slave.SameResult (sl sl' : Slave) : Prop :=
  (sl'.status = sl.status ∧ sl'.data = sl.data) ∨ (sl'.status = statusCode .ok ∧ sl'.data = 0)

/-- The registers of a slave that an exchange on the line does not touch before its operation is over. -/
structure Slave.Same (sl sl' : Slave) : Prop where
  cfg : sl'.cfg = sl.cfg
  romId : sl'.romId = sl.romId
  alarmed : sl'.alarmed = sl.alarmed
  trapped : sl'.trapped = sl.trapped
  intEnable : sl'.intEnable = sl.intEnable
  intMask : sl'.intMask = sl.intMask
  upstream : sl'.upstream = sl.upstream
  result : Slave.SameResult sl sl'
  logBuf : sl'.logBuf = sl.logBuf
  logLen : sl'.logLen = sl.logLen
  handlerTimes : sl'.handlerTimes = sl.handlerTimes
  handlerCalls : sl'.handlerCalls = sl.handlerCalls
  crc16 : sl'.crc16 = sl.crc16
  draws : sl'.draws = sl.draws

/-- Only the registers that an edge writes differ (R192, R193). -/
def Slave.Heard (sl sl' : Slave) : Prop :=
  ∃ tReset swStarted pulseLen pulseOvf,
    sl' = { sl with tReset := tReset, swStarted := swStarted, pulseLen := pulseLen, pulseOvf := pulseOvf }

/-- The slave's own presence pulse, the line low from 28 to 144 µs after instant `e`, is the last pulse it has measured
(R198, R192, R193). -/
def Slave.presented (g : Config) (e : Nat) (sl : Slave) : Slave :=
  { sl with
    tReset := e + us g 28, swStarted := true
    pulseLen := ticksIn g sl.cfg (us g 116) % 2 ^ sl.cfg.tickWidth
    pulseOvf := decide (2 ^ sl.cfg.tickWidth ≤ ticksIn g sl.cfg (us g 116)) }

/-- Only the registers that an edge and the byte shifter write differ (R192, R193, R46). -/
def Slave.HeardBytes (sl sl' : Slave) : Prop :=
  ∃ tReset swStarted pulseLen pulseOvf shift bitcnt,
    sl' = { sl with tReset := tReset, swStarted := swStarted, pulseLen := pulseLen, pulseOvf := pulseOvf
                    shift := shift, bitcnt := bitcnt }

/-- The instruction is a master operation (R123). -/
def isMasterOp : Instr → Bool
  | .mReset | .mWriteBit _ | .mReadBit | .mWriteByte _ | .mReadByte | .mReadRom | .mSearchFirst | .mSearchNext
  | .mAlarmFirst | .mAlarmNext | .mVerify _ | .mStartTxn _ _ _ | .mLogSend _ _ _ _ => true
  | .readRom _ | .matchRom _ | .skipRom _ | .searchRom _ | .alarmSearch _ | .logMessage _ | .ack _
  | .pulseOne _ | .pulseZero _ | .pulseBad _ | .pulseReset _ | .isrFall _ | .isrRise _
  | .sInit _ | .sWaitReset _ | .sReadBit _ | .sWriteBit _ _ | .sReadByte _ | .sWriteByte _ _ | .sWaitFunctionCmd _
  | .sSetAlarm _ _ | .sBusyBegin _ | .sBusyEnd _ | .sLogReceive _ | .sLogServe _ => false

/-- The class of a pulse of `w` (R107, the column in microseconds; R197), time being counted as `g` has it. -/
def widthClass (g : Config) (w : Nat) : PulseClass :=
  if w < us g 15 then .one else if w < us g 70 then .zero else if w < us g 360 then .bad else .reset

/-- The bit a pulse of `w` is to a slave that reads one (R215). -/
def bitOfWidth (g : Config) (w : Nat) : Option Bool :=
  match widthClass g w with
  | .one => some true
  | .zero => some false
  | .bad | .reset => none

/-- A pulse and the high time before it, each of some length (a drive interval is half open, R73). -/
abbrev isPulse (p : Nat × Nat) : Prop := 0 < p.1 ∧ 0 < p.2

/-- `ps` is `n` pulses that carry the low `n` bits of `v`, least significant first (R81, R109). -/
def carriesBits (g : Config) : Nat → Byte → List (Nat × Nat) → Prop
  | 0, _, ps => ps = []
  | n + 1, v, p :: ps => isPulse p ∧ bitOfWidth g p.2 = some (v.getLsbD 0) ∧ carriesBits g n (v >>> 1) ps
  | _ + 1, _, [] => False

/-- `ps` is the pulses that carry the bytes `bs`, eight each. -/
def carriesBytes (g : Config) : List Byte → List (Nat × Nat) → Prop
  | [], ps => ps = []
  | b :: bs, ps => ∃ p q, ps = p ++ q ∧ carriesBits g 8 b p ∧ carriesBytes g bs q

/-- `ps` is `n` read-slot start pulses, each after the first more than 64 µs after the one before (R107, R224). -/
def startPulses (g : Config) (n : Nat) (ps : List (Nat × Nat)) : Prop :=
  ps.length = n ∧ (∀ p ∈ ps, isPulse p ∧ p.2 < us g 15) ∧ ∀ p ∈ ps.tail, us g 64 < p.1

/-- A slave that waits for a pulse on the released line, with no event pending (R194), and without a timeout. -/
structure Slave.Listening (g : Config) (u : PulseUse) (sl : Slave) : Prop where
  pos : sl.pos = .waitPulse u
  wake : sl.wake = none
  valid : sl.cfg.valid g = true
  no_timeout : sl.cfg.waitTimeout = none
  enabled : sl.takesEdges = true
  no_event : sl.pulseNew = false
  line_prev : sl.linePrev = true
  released : sl.drive = false
  not_busy : sl.busy = false

/-! ### What the whole machine keeps -/

/-- What lasts for a slave's lifetime: its parameters, its ROM-ID but for a reload of the one `S_INIT` loads (R249), its
interrupt enable (R50); a trapped slave stays as it is (R47). -/
structure Slave.Lasts (sl sl' : Slave) : Prop where
  cfg : sl'.cfg = sl.cfg
  romId : sl'.romId = sl.romId ∨ sl'.romId = configRomId sl.cfg
  enabled : sl.intEnable = true → sl'.intEnable = true
  trapped : sl.trapped = true → sl' = sl

/-- From `s` to `t` the time `d` has passed, and at most `DELAY_SLACK` more for each of `n` waits (R12, R314). -/
structure Took (s t : State) (n d : Nat) : Prop where
  least : s.now + d ≤ t.now
  most : t.now ≤ s.now + d + n * s.cfg.delaySlack

/-- The machine has run from `s` to `t` for the time `d`, in `n` waits: the parameters and the requests to come are the
same, and every slave has lasted. -/
structure Lasted (s t : State) (n d : Nat) : Prop where
  cfg : t.cfg = s.cfg
  requests : t.requests = s.requests
  slaves : List.Forall₂ Slave.Lasts s.slaves t.slaves
  took : Took s t n d

/-- Two outcomes agree: the same fault or refusal, or a next state that is the other's with slave `k` alone. -/
def OutcomeAlone (k : Nat) :
    Host.Outcome State Fault Refusal → Host.Outcome State Fault Refusal → Prop
  | .next s, .next v => Alone k s v
  | .fault e, .fault e' => e' = e
  | .refused e, .refused e' => e' = e
  | _, _ => False

/-- The search triple is cleared (R161). -/
def Master.Cleared (m : Master) : Prop :=
  m.lastDiscrepancy = 0 ∧ m.lastFamilyDiscrepancy = 0 ∧ m.lastDeviceFlag = false

/-- A slave answers the reset exchange that begins now: the line is low at its sample, 550 µs later (R101, R141), up to
`DELAY_SLACK` for each of the two waits. -/
def presence (s : State) : Bool := !line (mPulse (us s.cfg 480) (us s.cfg 70) s)

/-- The bits of a byte in the order they are sent (R81). -/
def byteBits (v : Byte) : List Bool := (List.range 8).map fun i => v.getLsbD i

/-- The master writes these bits, one slot each (R142). -/
def writeSlots : List Bool → State → State
  | [], s => s
  | b :: bs, s => writeSlots bs (mWriteSlot b s)

/-- The master reads `n` bits, one slot each (R143). -/
def readSlots : Nat → State → List Bool × State
  | 0, s => ([], s)
  | n + 1, s => ((mReadSlot s).1 :: (readSlots n (mReadSlot s).2).1, (readSlots n (mReadSlot s).2).2)

/-- Nobody drives the line, no slave runs an operation, and no outside traffic is to come. -/
structure Silent (s : State) : Prop where
  master : s.master.drive = false
  otherDrive : s.otherDrive = false
  otherWave : s.otherWave = []
  rest : ∀ sl ∈ s.slaves, sl.AtRest

end Sys2Proof.Machine
end

