-- ==== Sys2Proof/Certificates/Slice0/Obligations.lean ====
section
/-! DEFINITION. The statements: each formalises rules of spec/ about the machine of Sys2Proof/Machine/. A statement
about an instruction says what the machine is after it and what the instruction leaves as it was. -/

open Sys2Proof Sys2Proof.Machine

/-! ### Codes (spec/30_encoding.md) -/

/-- R100, R107, R108, R110, R111, R123, R124: every code, with every operand at every value, decodes at its port to the
instruction it encodes, and the bytes after it are left. -/
def Obligations.DecodeOfEncode : Prop :=
  ∀ (i : Instr) (rest : List Byte), i.wellFormed = true →
    decode (encode i).1 ((encode i).2 ++ rest) = .ok (i, rest)

/-- R107, R108, R110, R111, R123, R124: some codes of each space, written out. Where operand bytes follow a code, their
layout is the model's (notes/assumptions/4.md). -/
def Obligations.CodesDecode : Prop :=
  ∀ k : Nat,
    decode (.romCommand k) [0x33] = .ok (.readRom k, []) ∧ decode (.romCommand k) [0x55] = .ok (.matchRom k, []) ∧
    decode (.romCommand k) [0xCC] = .ok (.skipRom k, []) ∧ decode (.romCommand k) [0xF0] = .ok (.searchRom k, []) ∧
    decode (.romCommand k) [0xEC] = .ok (.alarmSearch k, []) ∧
    decode (.functionCommand k) [0x44] = .ok (.logMessage k, []) ∧ decode (.ackByte k) [0x42] = .ok (.ack k, []) ∧
    decode (.pulseClass k) [3] = .ok (.pulseReset k, []) ∧ decode (.edgeKind k) [1] = .ok (.isrRise k, []) ∧
    decode .master [0x01] = .ok (.mReset, []) ∧ decode .master [0x02, 0x01] = .ok (.mWriteBit 1, []) ∧
    decode .master [0x15, 0x28, 1, 0, 0, 0, 0, 0, 0x29] = .ok (.mVerify 0x2900000000000128, []) ∧
    decode .master [0x20, 0, 0, 0, 0, 0, 0, 0, 0, 0, 2, 0x68, 0x69] = .ok (.mLogSend 0 0 2 [0x68, 0x69], []) ∧
    decode (.slave k) [0x80] = .ok (.sInit k, []) ∧ decode (.slave k) [0x83, 0] = .ok (.sWriteBit k 0, []) ∧
    decode (.slave k) [0x8B] = .ok (.sLogServe k, [])

/-- R110, R120, R127: a byte that a space does not list is rejected: as a reserved operation, as no ROM command, as
another function command. -/
def Obligations.UnlistedCodesAreRejected : Prop :=
  ∀ (k : Nat) (b : Byte) (bs : List Byte),
    (b ∉ [0x01, 0x02, 0x03, 0x04, 0x05, 0x10, 0x11, 0x12, 0x13, 0x14, 0x15, 0x16, 0x20] →
      decode .master (b :: bs) = .error .reservedMasterOp) ∧
    (b ∉ [0x80, 0x81, 0x82, 0x83, 0x84, 0x85, 0x86, 0x87, 0x88, 0x89, 0x8A, 0x8B] →
      decode (.slave k) (b :: bs) = .error (.reservedSlaveOp k)) ∧
    (b ∉ [0x33, 0x55, 0xCC, 0xF0, 0xEC] → decode (.romCommand k) (b :: bs) = .error (.notRomCommand k b)) ∧
    (b ≠ 0x44 → decode (.functionCommand k) (b :: bs) = .error (.otherFunctionCommand k b))

/-- A step of a machine whose master is between two operations takes the next request, lets its gap pass, and runs the
instruction its bytes decode to (R140). -/
def Obligations.StepRunsTheDecodedInstruction : Prop :=
  ∀ (s : State) (r : Request) (later : List Request) (i : Instr) (rest : List Byte),
    s.master.pos = .ready → s.requests = r :: later → decode r.port r.bytes = .ok (i, rest) →
    step s = exec i (pause r.gap { s with requests := later })

/-- R272, R273, R140, R352(c), R71: a step of a machine whose master is inside its busy poll. A request to a slave that
comes at this very instant runs first. Otherwise the line high ends the poll: after `T_M_POLL` the ack byte is read in
eight slots, and is `0x42` or an `AckMismatch`; so too where `M_POLL_TIMEOUT` is over at this instant (that tie is the
model's choice: notes/assumptions/24.md). The line low with nothing scheduled that could raise it: the next request to a
slave runs, if it comes before `M_POLL_TIMEOUT` is over; without one, the master reports `Timeout` when that (if it is
finite) is over, or goes on polling and the idle time passes. Its own next request is not taken. (How much of a poll one
step takes is the model's: notes/assumptions/18.md.) -/
def Obligations.StepOfAPollingMaster : Prop :=
  ∀ (s : State) (limit : Option Nat), s.master.pos = .polling limit →
    (∀ (r : Request) (later : List Request) (i : Instr) (rest : List Byte),
      firstSlaveRequest s.requests = some (r, later) → r.gap = 0 → decode r.port r.bytes = .ok (i, rest) →
      step s = exec i { s with requests := later }) ∧
    (comesNow s = false → line s = true → ∃ t r, step s = .next t ∧ Lasted s t 25 (s.cfg.tMPoll + us s.cfg 560) ∧
      byteBits r = (readSlots 8 (mWait s.cfg.tMPoll s)).1 ∧
      t.master = { s.master with
        drive := false, pos := .ready, shift := r, bitcnt := 8, data := r
        status := if r = 0x42 then statusCode .ok else statusCode .ackMismatch }) ∧
    (comesNow s = false → line s = false → line (settle s) = false → nextEvent (settle s) = none →
      (∀ (r : Request) (later : List Request) (i : Instr) (rest : List Byte),
        firstSlaveRequest s.requests = some (r, later) → (∀ l, limit = some l → s.now + r.gap ≤ l) →
        decode r.port r.bytes = .ok (i, rest) →
        step s = exec i (pause r.gap { settle s with requests := later })) ∧
      (∀ l, limit = some l → s.now ≤ l → requestBy l s = false → ∃ t, step s = .next t ∧ t.now = l ∧
        t.requests = s.requests ∧
        t.master = { s.master with status := statusCode .timeout, data := 0, pos := .ready }) ∧
      (limit = none → firstSlaveRequest s.requests = none → step s = .next (idleStep (settle s))))

/-- R127, R28, R56, R306, R319: a reserved operation code reports `IllegalOperation` with data 0 and changes no other
state (that the data register is one of the status registers R127 speaks of: notes/assumptions/12.md). At the master
that is all. At a slave, between operations and before `S_INIT` too (notes/assumptions/16.md), no time passes, nobody
moves the line, the master and the requests stay, and another slave only takes the edge that may come at this instant.
-/
def Obligations.ReservedOperationsReportIllegal : Prop :=
  ∀ (s : State) (r : Request) (later : List Request) (b : Byte) (bs : List Byte),
    s.master.pos = .ready → s.requests = r :: later → r.gap = 0 → r.bytes = b :: bs →
    (r.port = .master →
      b ∉ [0x01, 0x02, 0x03, 0x04, 0x05, 0x10, 0x11, 0x12, 0x13, 0x14, 0x15, 0x16, 0x20] →
      step s = .next { s with
        requests := later, master := { s.master with status := statusCode .illegalOperation, data := 0 } }) ∧
    ∀ (k : Nat) (sl : Slave), s.slaves[k]? = some sl →
      sl.Ready s.cfg ∨ sl.AtRest ∧ sl.intEnable = false ∧ sl.trapped = false ∧ sl.upstream = [] ∧ sl.stack = [] →
      Quiet k { s with requests := later } → r.port = .slave k →
      b ∉ [0x80, 0x81, 0x82, 0x83, 0x84, 0x85, 0x86, 0x87, 0x88, 0x89, 0x8A, 0x8B] →
      ∃ t, step s = .next t ∧ RanAlone k { s with requests := later } t s.now s.otherWave ∧ line t = line s ∧
        t.slaves[k]? = some { sl with status := statusCode .illegalOperation, data := 0 }

/-! ### A slave's bit operations, with the pulses an outside driver makes -/

/-- R215, R107: `S_READ_BIT` on a pulse below 15 µs returns 1, from 15 to below 70 µs returns 0, at the pulse's rising
edge. Nothing else of the slave changes but what its edges write, and nothing of the rest of the machine. -/
def Obligations.SReadBitReceivesBit : Prop :=
  ∀ (k : Nat) (s : State) (sl : Slave) (high width : Nat) (later : List Nat) (b : Bool),
    s.slaves[k]? = some sl → sl.Ready s.cfg → Quiet k s →
    s.otherWave = pulseTrain s.now [(high, width)] ++ later → isPulse (high, width) → bitOfWidth s.cfg width = some b →
    ∃ t x, exec (.sReadBit k) s = .next t ∧ RanAlone k s t (s.now + high + width) later ∧ t.slaves[k]? = some x ∧
      Slave.Heard { sl with status := statusCode .ok, data := bitByte b } x

/-- R216, R224: `S_WRITE_BIT d` on a read-slot start pulse returns `OK`: for a one `T_S_SIT` after the rising edge, for
a zero `T_S_RESP` and 37 µs after it. -/
def Obligations.SWriteBitAnswersReadSlot : Prop :=
  ∀ (k : Nat) (s : State) (sl : Slave) (arg : Byte) (high width : Nat) (later : List Nat),
    s.slaves[k]? = some sl → sl.Ready s.cfg → Quiet k s → s.cfg.delaySlack = 0 →
    s.otherWave = pulseTrain s.now [(high, width)] ++ later → isPulse (high, width) → width < us s.cfg 15 →
    WaveAfter (s.now + high + width + us s.cfg 64) later →
    ∃ t x, exec (.sWriteBit k arg) s = .next t ∧
      RanAlone k s t (s.now + high + width + if argBit arg then sl.cfg.tSSit else sl.cfg.tSResp + us s.cfg 37) later ∧
      t.slaves[k]? = some x ∧ Slave.Heard { sl with status := statusCode .ok, data := 0 } x

/-- R203, R215, R220, R296: a pulse of the class `BAD` in `S_READ_BIT`, of `ZERO` or `BAD` in `S_WRITE_BIT`: without
strict mode `UnexpectedPulseLength` with `WAITING_RESET`; in strict mode the slave traps and writes no result. R194,
R304(f), R306: with a finite `S_WAIT_TIMEOUT`, each operation of a slave that waits for a pulse and gets none ends with
`Timeout` and data 0 in `WAITING_RESET` when that time is over, whatever procedure was waiting: in its own step where
some traffic is to come or the time is 0, and in the next step otherwise (the model's division into steps:
notes/assumptions/18.md). -/
def Obligations.SlaveBitRejectsBadPulse : Prop :=
  ∀ (k : Nat) (s : State) (sl : Slave) (i : Instr), s.slaves[k]? = some sl → Quiet k s →
    (∀ (high width : Nat) (later : List Nat), sl.Ready s.cfg →
      s.otherWave = pulseTrain s.now [(high, width)] ++ later → isPulse (high, width) →
      (i = .sReadBit k ∧ widthClass s.cfg width = .bad ∨
        (∃ arg, i = .sWriteBit k arg) ∧ (widthClass s.cfg width = .zero ∨ widthClass s.cfg width = .bad)) →
      ∃ t x, exec i s = .next t ∧ RanAlone k s t (s.now + high + width) later ∧ t.slaves[k]? = some x ∧
        (sl.cfg.strictMode = false →
          Slave.Heard { sl with txnState := .waitingReset, status := statusCode .unexpectedPulseLength, data := 0 } x) ∧
        (sl.cfg.strictMode = true → Slave.Heard { sl with trapped := true } x)) ∧
    ∀ (arg : Byte) (d : Nat), sl.Prepared s.cfg → sl.cfg.waitTimeout = some d →
      i ∈ [.sWaitReset k, .sReadBit k, .sWriteBit k arg, .sReadByte k, .sWriteByte k arg, .sWaitFunctionCmd k,
        .sLogReceive k, .sLogServe k] →
      WaveAfter (s.now + d) s.otherWave →
      ∃ t shift bitcnt, exec i s = .next t ∧
        ∀ x, x = { sl with
          txnState := .waitingReset, status := statusCode .timeout, data := 0, shift := shift, bitcnt := bitcnt
          crc16 := if i = .sLogReceive k then 0xFFFF else sl.crc16 } →
        (d = 0 ∨ s.otherWave ≠ [] → RanAlone k s t (s.now + d) s.otherWave ∧ t.slaves[k]? = some x) ∧
        (0 < d → s.otherWave = [] → s.requests = [] →
          ∃ u, step t = .next u ∧ RanAlone k s u (s.now + d) [] ∧ u.slaves[k]? = some x)

/-- R202, R198: a reset pulse inside a bit operation ends it with `ResetDetectedAndHandled` and `WAITING_ROM_CMD` when
the presence exchange is over: the line high for 28 µs after the pulse, then the slave's own presence pulse of 116 µs,
which is the last pulse it has measured. -/
def Obligations.SlaveBitHandlesReset : Prop :=
  ∀ (k : Nat) (s : State) (sl : Slave) (i : Instr) (high width : Nat) (later : List Nat),
    s.slaves[k]? = some sl → sl.Ready s.cfg → Quiet k s → s.cfg.delaySlack = 0 →
    s.otherWave = pulseTrain s.now [(high, width)] ++ later → isPulse (high, width) →
    (i = .sReadBit k ∨ ∃ arg, i = .sWriteBit k arg) → us s.cfg 360 ≤ width →
    WaveAfter (s.now + high + width + us s.cfg 144) later →
    ∃ t, exec i s = .next t ∧ RanAlone k s t (s.now + high + width + us s.cfg 144) later ∧
      t.slaves[k]? = some (Slave.presented s.cfg (s.now + high + width) { sl with
        txnState := .waitingRomCmd, status := statusCode .resetDetectedAndHandled, data := 0 })

/-- R200: `S_WAIT_RESET` discards every pulse below 360 µs, in strict mode too, and after a pulse of 360 µs or more
returns `OK` with `WAITING_ROM_CMD` when the presence exchange is over: the line high for 28 µs after the pulse, then
the slave's own presence pulse of 116 µs, which is the last pulse it has measured. -/
def Obligations.SWaitResetSendsPresence : Prop :=
  ∀ (k : Nat) (s : State) (sl : Slave) (shorter : List (Nat × Nat)) (high width : Nat) (later : List Nat),
    s.slaves[k]? = some sl → sl.Ready s.cfg → Quiet k s → s.cfg.delaySlack = 0 →
    s.otherWave = pulseTrain s.now (shorter ++ [(high, width)]) ++ later →
    (∀ p ∈ shorter, isPulse p ∧ p.2 < us s.cfg 360) → 0 < high → 2 * shorter.length + 4 ≤ requestFuel →
      us s.cfg 360 ≤ width →
    WaveAfter (trainEnd s.now (shorter ++ [(high, width)]) + us s.cfg 144) later →
    ∃ t, exec (.sWaitReset k) s = .next t ∧
      RanAlone k s t (trainEnd s.now (shorter ++ [(high, width)]) + us s.cfg 144) later ∧
      t.slaves[k]? = some (Slave.presented s.cfg (trainEnd s.now (shorter ++ [(high, width)])) { sl with
        txnState := .waitingRomCmd, status := statusCode .ok, data := 0 })
/-! ### A slave's byte operations -/

/-- R217, R109: `S_READ_BYTE` on eight pulses returns the byte whose bits they are, least significant first. -/
def Obligations.SReadByteReceivesByte : Prop :=
  ∀ (k : Nat) (s : State) (sl : Slave) (ps : List (Nat × Nat)) (later : List Nat) (v : Byte),
    s.slaves[k]? = some sl → sl.Ready s.cfg → Quiet k s → s.otherWave = pulseTrain s.now ps ++ later →
    carriesBits s.cfg 8 v ps →
    ∃ t x, exec (.sReadByte k) s = .next t ∧ RanAlone k s t (trainEnd s.now ps) later ∧ t.slaves[k]? = some x ∧
      Slave.HeardBytes { sl with status := statusCode .ok, data := v } x

/-- R218, R216: `S_WRITE_BYTE` on eight read-slot start pulses returns `OK`, within 64 µs of the last of them. -/
def Obligations.SWriteByteAnswersReadSlots : Prop :=
  ∀ (k : Nat) (s : State) (sl : Slave) (arg : Byte) (ps : List (Nat × Nat)) (later : List Nat),
    s.slaves[k]? = some sl → sl.Ready s.cfg → Quiet k s → s.cfg.delaySlack = 0 →
    s.otherWave = pulseTrain s.now ps ++ later → startPulses s.cfg 8 ps →
    WaveAfter (trainEnd s.now ps + us s.cfg 64) later →
    ∃ t x e, exec (.sWriteByte k arg) s = .next t ∧ trainEnd s.now ps ≤ e ∧ e ≤ trainEnd s.now ps + us s.cfg 64 ∧
      RanAlone k s t e later ∧ t.slaves[k]? = some x ∧
      Slave.HeardBytes { sl with status := statusCode .ok, data := 0 } x
/-! ### A slave's operation and the master's operation it waits for -/

/-- R101, R141, R198, R200: `M_RESET` on a line with a slave in `S_WAIT_RESET` detects its presence pulse; the slave
returns `OK` in `WAITING_ROM_CMD`. -/
def Obligations.ResetFindsWaitingSlave : Prop :=
  ∀ (k : Nat) (s : State) (sl : Slave),
    s.slaves[k]? = some sl → sl.Ready s.cfg → Quiet k s → s.cfg.delaySlack = 0 → s.otherWave = [] →
    ∃ t u x, exec (.sWaitReset k) s = .next t ∧ exec .mReset t = .next u ∧ Exchanged k s u (s.now + us s.cfg 960) [] ∧
      u.master = { s.master with status := statusCode .ok, data := 1 } ∧ u.slaves[k]? = some x ∧
      Slave.Heard { sl with txnState := .waitingRomCmd, status := statusCode .ok, data := 0 } x

/-- R142, R143, R215, R216, R106: the bit the master writes is the bit the slave reads, and the bit the slave writes is
the bit the master samples; the slot takes 70 µs. -/
def Obligations.BitsCrossTheLine : Prop :=
  ∀ (k : Nat) (s : State) (sl : Slave) (arg : Byte),
    s.slaves[k]? = some sl → sl.Ready s.cfg → Quiet k s → s.cfg.delaySlack = 0 → s.otherWave = [] →
    (∃ t u x, exec (.sReadBit k) s = .next t ∧ exec (.mWriteBit arg) t = .next u ∧
      Exchanged k s u (s.now + us s.cfg 70) [] ∧ u.master = { s.master with status := statusCode .ok, data := 0 } ∧
      u.slaves[k]? = some x ∧
      Slave.Heard { sl with status := statusCode .ok, data := bitByte (argBit arg) } x) ∧
    (sl.cfg.tSSit < us s.cfg 64 →
      ∃ t u x, exec (.sWriteBit k arg) s = .next t ∧ exec .mReadBit t = .next u ∧
        Exchanged k s u (s.now + us s.cfg 70) [] ∧
        u.master = { s.master with status := statusCode .ok, data := bitByte (argBit arg) } ∧
        u.slaves[k]? = some x ∧ Slave.Heard { sl with status := statusCode .ok, data := 0 } x)

/-- R144, R145, R217, R218, R81: the byte the master writes is the byte the slave reads, and the byte the slave writes
is the byte the master reads, in eight slots of 70 µs. -/
def Obligations.BytesCrossTheLine : Prop :=
  ∀ (k : Nat) (s : State) (sl : Slave) (v : Byte),
    s.slaves[k]? = some sl → sl.Ready s.cfg → Quiet k s → s.cfg.delaySlack = 0 → s.otherWave = [] →
    (∃ t u x, exec (.sReadByte k) s = .next t ∧ exec (.mWriteByte v) t = .next u ∧
      Exchanged k s u (s.now + us s.cfg 560) [] ∧
      u.master = { s.master with shift := 0, bitcnt := 8, status := statusCode .ok, data := 0 } ∧
      u.slaves[k]? = some x ∧ Slave.HeardBytes { sl with status := statusCode .ok, data := v } x) ∧
    (sl.cfg.tSSit < us s.cfg 64 →
      ∃ t u x, exec (.sWriteByte k v) s = .next t ∧ exec .mReadByte t = .next u ∧
        Exchanged k s u (s.now + us s.cfg 560) [] ∧
        u.master = { s.master with shift := v, bitcnt := 8, status := statusCode .ok, data := v } ∧
        u.slaves[k]? = some x ∧ Slave.HeardBytes { sl with status := statusCode .ok, data := 0 } x)
/-! ### A transaction, from the slave's dispatcher and the master's operation -/

/-- R160, R240, R81: `M_READ_ROM` with one slave in `S_WAIT_FUNCTION_CMD`, whose ROM-ID carries its CRC8: the master
gets the ROM-ID and `OK`; the slave goes on to `WAITING_FUNCTION_CMD`, its operation unfinished. -/
def Obligations.ReadRomGetsTheRomId : Prop :=
  ∀ (k : Nat) (s : State) (sl : Slave),
    s.slaves[k]? = some sl → sl.Ready s.cfg → Quiet k s → s.cfg.delaySlack = 0 → s.otherWave = [] →
    sl.cfg.tSSit < us s.cfg 64 →
    crc8Fold 0 (romBytes sl.romId) = 0 →
    ∃ t u x, exec (.sWaitFunctionCmd k) s = .next t ∧ exec .mReadRom t = .next u ∧
      Exchanged k s u (s.now + us s.cfg 6000) [] ∧
      u.master = { s.master with shift := u.master.shift, bitcnt := u.master.bitcnt, romBuf := sl.romId, crc8 := 0
                                 status := statusCode .ok, data := 0 } ∧
      u.slaves[k]? = some x ∧ Slave.Same sl x ∧ x.txnState = .waitingFunctionCmd ∧
      x.pos = .waitPulse .readBit ∧ x.stack = [.readByte, .functionCommand, .dispatcher]

/-- R161, R165, R168 to R171, R243, R246: a search with one slave in `S_WAIT_FUNCTION_CMD` that takes part (an alarm
search: an alarmed one) finds its ROM-ID and is the last; the slave goes back to `WAITING_RESET`. -/
def Obligations.SearchFindsTheSlave : Prop :=
  ∀ (k : Nat) (s : State) (sl : Slave) (i : Instr),
    s.slaves[k]? = some sl → sl.Ready s.cfg → Quiet k s → s.cfg.delaySlack = 0 → s.otherWave = [] →
    sl.cfg.tSSit < us s.cfg 64 →
    crc8Fold 0 (romBytes sl.romId) = 0 → (i = .mSearchFirst ∨ i = .mAlarmFirst ∧ sl.alarmed = true ∨
      s.master.lastDeviceFlag = false ∧ (i = .mSearchNext ∨ i = .mAlarmNext ∧ sl.alarmed = true)) →
    ∃ t u x, exec (.sWaitFunctionCmd k) s = .next t ∧ exec i t = .next u ∧
      Exchanged k s u (s.now + us s.cfg 14960) [] ∧
      u.master.status = statusCode .ok ∧ u.master.data = 0 ∧ u.master.romBuf = sl.romId ∧
      u.master.lastDiscrepancy = 0 ∧ u.master.lastDeviceFlag = true ∧ u.master.drive = false ∧
      u.slaves[k]? = some x ∧ Slave.Same sl x ∧ x.txnState = .waitingReset ∧
      x.pos = .waitPulse .waitReset ∧ x.stack = [.dispatcher]

/-- R246, R243, R166: `M_ALARM_FIRST` with one slave in `S_WAIT_FUNCTION_CMD` that is not alarmed: it answers the reset
and says nothing more; the first two bits are both 1, the search reports `NoSuchSlave` and its state is cleared. (That
it is cleared R166 marks as general knowledge of the spec's: notes/assumptions/19.md.) -/
def Obligations.AlarmSearchSkipsUnalarmedSlave : Prop :=
  ∀ (k : Nat) (s : State) (sl : Slave),
    s.slaves[k]? = some sl → sl.Ready s.cfg → Quiet k s → s.cfg.delaySlack = 0 → s.otherWave = [] → sl.alarmed = false →
    ∃ t u x, exec (.sWaitFunctionCmd k) s = .next t ∧ exec .mAlarmFirst t = .next u ∧
      Exchanged k s u (s.now + us s.cfg 1660) [] ∧
      u.master.status = statusCode .noSuchSlave ∧ u.master.data = 0 ∧ u.master.romBuf = s.master.romBuf ∧
      u.master.lastDiscrepancy = 0 ∧ u.master.lastFamilyDiscrepancy = 0 ∧ u.master.lastDeviceFlag = false ∧
      u.slaves[k]? = some x ∧ Slave.Same sl x ∧ x.txnState = .waitingReset ∧
      x.pos = .waitPulse .waitReset ∧ x.stack = [.dispatcher]

/-- R173, R234, R235, R237, R240, R241, R242: `M_START_TXN` in each of its three modes (by `M_READ_ROM`, by MATCH_ROM
with the slave's ROM-ID, by SKIP_ROM) delivers its function command to the slave in `S_WAIT_FUNCTION_CMD`, which returns
it and is in `WAITING_RESET`. By MATCH_ROM with another ROM-ID the master cannot tell and reports `OK` too; the slave
ends `S_WAIT_FUNCTION_CMD` with `RomIdMismatch` in `WAITING_RESET` and only hears the rest (in strict mode it may trap
on an overrun there, R297). R241, R294: it ends it at the rising edge of the first bit that differs: so on any pulses
that carry the byte `0x55`, some first bits of its ROM-ID (none or up to 63) and then one that is not the next. -/
def Obligations.StartTxnDeliversFunctionCommand : Prop :=
  ∀ (k : Nat) (s : State) (sl : Slave) (mode : BitVec 2) (id : RomId) (f : Byte),
    s.slaves[k]? = some sl → sl.Ready s.cfg → Quiet k s →
    (s.cfg.delaySlack = 0 → s.otherWave = [] → mode ≠ 3 → (mode = 0 → crc8Fold 0 (romBytes sl.romId) = 0) →
      (mode = 1 → id = sl.romId) → sl.cfg.tSSit < us s.cfg 64 →
      ∃ t u x, exec (.sWaitFunctionCmd k) s = .next t ∧ exec (.mStartTxn mode id f) t = .next u ∧
        Exchanged k s u (s.now + us s.cfg (if mode = 2 then 2080 else 6560)) [] ∧
        u.master = { s.master with
          shift := 0, bitcnt := 8, status := statusCode .ok, data := 0
          romBuf := if mode = 0 then sl.romId else s.master.romBuf
          crc8 := if mode = 0 then 0 else s.master.crc8 } ∧
        u.slaves[k]? = some x ∧
        Slave.HeardBytes { sl with txnState := .waitingReset, status := statusCode .ok, data := f } x) ∧
    (s.cfg.delaySlack = 0 → s.otherWave = [] → mode = 1 → id ≠ sl.romId →
      ∃ t u x, exec (.sWaitFunctionCmd k) s = .next t ∧ exec (.mStartTxn mode id f) t = .next u ∧
        Exchanged k s u (s.now + us s.cfg 6560) [] ∧
        u.master = { s.master with shift := 0, bitcnt := 8, status := statusCode .ok, data := 0 } ∧
        u.slaves[k]? = some x ∧ ∃ y, Slave.OnlyEdges y x ∧
          Slave.HeardBytes { sl with txnState := .waitingReset, status := statusCode .romIdMismatch, data := 0 } y) ∧
    (∀ (ps qs : List (Nat × Nat)) (p : Nat × Nat) (later : List Nat), sl.txnState = .waitingRomCmd →
      s.otherWave = pulseTrain s.now (ps ++ qs ++ [p]) ++ later → carriesBits s.cfg 8 0x55 ps → qs.length < 64 →
      (∀ j q, qs[j]? = some q → isPulse q ∧ bitOfWidth s.cfg q.2 = some (romBit sl.romId (j + 1))) →
      isPulse p → bitOfWidth s.cfg p.2 = some (!romBit sl.romId (qs.length + 1)) →
      ∃ t x, exec (.sWaitFunctionCmd k) s = .next t ∧ RanAlone k s t (trainEnd s.now (ps ++ qs ++ [p])) later ∧
        t.slaves[k]? = some x ∧
        Slave.HeardBytes { sl with txnState := .waitingReset, status := statusCode .romIdMismatch, data := 0 } x)

/-- R270 to R273, R275 to R283: `M_LOG_SEND` to a slave in `S_LOG_SERVE` delivers the message: the master reads the ack
byte and reports `OK`; the slave has the payload and a terminating zero in `LOGBUF`, its length and CRC16, has called
the handler once with the length, and returns the length. The handler, called `T_S_BUSY` after the rising edge of the
CRC's last bit, runs for some time `h`, and a finite `M_POLL_TIMEOUT` is not shorter. Where the next request to a slave
has no gap it comes at the frame's end, before the poll looks at the line: the master is left polling, and the next step
takes that request (the model's division into steps: notes/assumptions/18.md). -/
def Obligations.LogSendDeliversTheMessage : Prop :=
  ∀ (k : Nat) (s : State) (sl : Slave) (mode : BitVec 2) (id : RomId) (len : Byte) (payload : List Byte)
    (called h : Nat),
    s.slaves[k]? = some sl → sl.Ready s.cfg → Quiet k s → s.cfg.delaySlack = 0 → s.otherWave = [] →
    sl.cfg.tSSit < us s.cfg 64 →
    memoryWf sl.logBuf = true → len.toNat ≤ s.cfg.maxMessageLength → payload.length = len.toNat →
    (mode = 0 ∧ crc8Fold 0 (romBytes sl.romId) = 0 ∨ mode = 1 ∧ id = sl.romId) →
    called = s.now + us s.cfg (6560 + 10 + (len.toNat + 3) * 560) -
      (if (frameCrc s.cfg.crc16 len payload).getLsbD 7 then us s.cfg 64 else us s.cfg 10) + sl.cfg.tSBusy →
    Slave.handlerTime called sl = some h → 0 < h → (∀ d, s.cfg.pollTimeout = some d → h ≤ d) →
    ∃ t, exec (.sLogServe k) s = .next t ∧
      ((∀ r later, firstSlaveRequest s.requests = some (r, later) → r.gap ≠ 0) →
        ∃ u x, exec (.mLogSend mode id len payload) t = .next u ∧ Exchanged k s u u.now [] ∧
        s.now + us s.cfg (6560 + 10 + (len.toNat + 3) * 560 + 560) + s.cfg.tMPoll ≤ u.now ∧
        u.now ≤ s.now + us s.cfg (6560 + 10 + (len.toNat + 3) * 560 + 560) + s.cfg.tMPoll + h ∧
        u.master = { s.master with
          shift := 0x42, bitcnt := 8, status := statusCode .ok, data := 0x42
          crc16 := frameCrc s.cfg.crc16 len payload
          romBuf := if mode = 0 then sl.romId else s.master.romBuf
          crc8 := if mode = 0 then 0 else s.master.crc8 } ∧
        u.slaves[k]? = some x ∧
        (∀ a, memRead x.logBuf a =
          if a = len.toNat then 0 else (payload[a]?).getD (memRead sl.logBuf a)) ∧
        Slave.HeardBytes { sl with
          txnState := .waitingReset, status := statusCode .ok, data := len, logLen := len
          crc16 := frameCrc s.cfg.crc16 len payload, logBuf := x.logBuf
          handlerCalls := len :: sl.handlerCalls, handlerTimes := sl.handlerTimes.tail } x) ∧
      (∀ r later, firstSlaveRequest s.requests = some (r, later) → r.gap = 0 →
        ∃ u, exec (.mLogSend mode id len payload) t = .next u ∧ u.cfg = s.cfg ∧ u.requests = s.requests ∧
          u.now = s.now + us s.cfg (6560 + 10 + (len.toNat + 3) * 560) ∧
          u.master.pos = .polling (s.cfg.pollTimeout.map (u.now + ·)))
/-! ### The dispatcher and the log receiver, with the pulses an outside driver makes -/

/-- R234, R235: `S_WAIT_FUNCTION_CMD` in `WAITING_FUNCTION_CMD` returns the byte it reads and is in `WAITING_RESET`. -/
def Obligations.SWaitFunctionCmdReturnsCommand : Prop :=
  ∀ (k : Nat) (s : State) (sl : Slave) (ps : List (Nat × Nat)) (later : List Nat) (v : Byte),
    s.slaves[k]? = some sl → sl.Ready s.cfg → Quiet k s → sl.txnState = .waitingFunctionCmd →
    s.otherWave = pulseTrain s.now ps ++ later → carriesBits s.cfg 8 v ps →
    ∃ t x, exec (.sWaitFunctionCmd k) s = .next t ∧ RanAlone k s t (trainEnd s.now ps) later ∧ t.slaves[k]? = some x ∧
      Slave.HeardBytes { sl with txnState := .waitingReset, status := statusCode .ok, data := v } x

/-- R231, R232, R236, R242: from any transaction state a reset pulse brings the dispatcher, through the presence pulse,
to `WAITING_ROM_CMD`; SKIP_ROM takes it to `WAITING_FUNCTION_CMD`, and the next byte is the function command it returns.
-/
def Obligations.SWaitFunctionCmdAfterResetAndSkipRom : Prop :=
  ∀ (k : Nat) (s : State) (sl : Slave) (high width : Nat) (ps qs : List (Nat × Nat)) (later : List Nat) (f : Byte),
    s.slaves[k]? = some sl → sl.Ready s.cfg → Quiet k s → s.cfg.delaySlack = 0 →
    s.otherWave = pulseTrain s.now ((high, width) :: (ps ++ qs)) ++ later → 0 < high → us s.cfg 360 ≤ width →
    carriesBits s.cfg 8 0xCC ps → carriesBits s.cfg 8 f qs → (∀ p, ps.head? = some p → us s.cfg 144 < p.1) →
    ∃ t x, exec (.sWaitFunctionCmd k) s = .next t ∧
      RanAlone k s t (trainEnd s.now ((high, width) :: (ps ++ qs))) later ∧ t.slaves[k]? = some x ∧
      Slave.HeardBytes { sl with txnState := .waitingReset, status := statusCode .ok, data := f } x

/-- R233, R237, R295: a byte that is no ROM command ends `S_WAIT_FUNCTION_CMD` in `WAITING_RESET` with
`DidNotGetRomCommand`, the byte in `s_data` (R295 against R230, R233: notes/assumptions/8.md). -/
def Obligations.SWaitFunctionCmdRejectsRomCommand : Prop :=
  ∀ (k : Nat) (s : State) (sl : Slave) (ps : List (Nat × Nat)) (later : List Nat) (v : Byte),
    s.slaves[k]? = some sl → sl.Ready s.cfg → Quiet k s → sl.txnState = .waitingRomCmd →
    s.otherWave = pulseTrain s.now ps ++ later → carriesBits s.cfg 8 v ps →
    v ≠ 0x33 → v ≠ 0x55 → v ≠ 0xCC → v ≠ 0xF0 → v ≠ 0xEC →
    ∃ t x, exec (.sWaitFunctionCmd k) s = .next t ∧ RanAlone k s t (trainEnd s.now ps) later ∧ t.slaves[k]? = some x ∧
      Slave.HeardBytes { sl with
        txnState := .waitingReset, status := statusCode .didNotGetRomCommand
        data := v } x

/-- R283: a log slave that gets another function command than `0x44` reports `InvalidFunctionCommand` with the command.
-/
def Obligations.SLogServeRejectsOtherCommand : Prop :=
  ∀ (k : Nat) (s : State) (sl : Slave) (ps : List (Nat × Nat)) (later : List Nat) (v : Byte),
    s.slaves[k]? = some sl → sl.Ready s.cfg → Quiet k s → sl.txnState = .waitingFunctionCmd →
    s.otherWave = pulseTrain s.now ps ++ later → carriesBits s.cfg 8 v ps → v ≠ 0x44 →
    ∃ t x, exec (.sLogServe k) s = .next t ∧ RanAlone k s t (trainEnd s.now ps) later ∧ t.slaves[k]? = some x ∧
      Slave.HeardBytes { sl with
        txnState := .waitingReset, status := statusCode .invalidFunctionCommand, data := v } x

/-- R275, R265, R277 to R282, R352: `S_LOG_RECEIVE` on a frame whose CRC16 agrees: the payload and a terminating zero
are in `LOGBUF`, the handler has been called once with the length, and after the hold, which lasts the time `h` that the
handler runs, and eight read slots the operation returns the length. With no traffic after the frame: a handler that
takes no time makes no edge, the line stays high and the slave waits for the rising edge; one that never returns holds
the line low without an end; either way the handler has been called and the operation is unfinished. (The handler's
draws, the hold of no length and the one without an end are notes/assumptions/7.md; that `S_BUSY_BEGIN` inside the
operation has written `OK` and 0 is the model's reading: notes/assumptions/13.md.) -/
def Obligations.SLogReceiveReceivesFrame : Prop :=
  ∀ (k : Nat) (s : State) (sl : Slave) (len : Byte) (payload : List Byte) (ps : List (Nat × Nat)),
    s.slaves[k]? = some sl → sl.Ready s.cfg → Quiet k s → s.cfg.delaySlack = 0 → memoryWf sl.logBuf = true →
    len.toNat ≤ s.cfg.maxMessageLength → payload.length = len.toNat →
    carriesBytes s.cfg (len :: (payload ++
      [crcHigh (frameCrc s.cfg.crc16 len payload), crcLow (frameCrc s.cfg.crc16 len payload)])) ps →
    (∀ (acks : List (Nat × Nat)) (later : List Nat) (h : Nat),
      s.otherWave = pulseTrain s.now (ps ++ acks) ++ later →
      Slave.handlerTime (trainEnd s.now ps + sl.cfg.tSBusy) sl = some h → 0 < h →
      startPulses s.cfg 8 acks → (∀ p, acks.head? = some p → sl.cfg.tSBusy + h < p.1) →
      WaveAfter (trainEnd s.now (ps ++ acks) + us s.cfg 64) later →
      ∃ t x e, exec (.sLogReceive k) s = .next t ∧ trainEnd s.now (ps ++ acks) ≤ e ∧
        e ≤ trainEnd s.now (ps ++ acks) + us s.cfg 64 ∧ RanAlone k s t e later ∧ t.slaves[k]? = some x ∧
        (∀ a, memRead x.logBuf a =
          if a = len.toNat then 0 else (payload[a]?).getD (memRead sl.logBuf a)) ∧
        Slave.HeardBytes { sl with
          status := statusCode .ok, data := len, logLen := len, crc16 := frameCrc s.cfg.crc16 len payload
          logBuf := x.logBuf, handlerCalls := len :: sl.handlerCalls, handlerTimes := sl.handlerTimes.tail } x) ∧
    (s.otherWave = pulseTrain s.now ps →
      (Slave.handlerTime (trainEnd s.now ps + sl.cfg.tSBusy) sl = some 0 ∨
        Slave.handlerTime (trainEnd s.now ps + sl.cfg.tSBusy) sl = none) →
      ∃ t x, exec (.sLogReceive k) s = .next t ∧ RanAlone k s t (trainEnd s.now ps + sl.cfg.tSBusy) [] ∧
        t.slaves[k]? = some x ∧ x.handlerCalls = len :: sl.handlerCalls ∧ x.status = statusCode .ok ∧ x.data = 0 ∧
        x.stack = [.logHold] ∧ x.wake = none ∧ x.trapped = false ∧ x.txnState = sl.txnState ∧ x.romId = sl.romId ∧
        (∀ a, memRead x.logBuf a = if a = len.toNat then 0 else (payload[a]?).getD (memRead sl.logBuf a)) ∧
        (Slave.handlerTime (trainEnd s.now ps + sl.cfg.tSBusy) sl = some 0 →
          line t = true ∧ x.pos = .waitPulse .busyEnd ∧ x.drive = false ∧ x.busy = false) ∧
        (Slave.handlerTime (trainEnd s.now ps + sl.cfg.tSBusy) sl = none →
          line t = false ∧ x.pos = .delay .handler ∧ x.drive = true ∧ x.busy = true))

/-- R276, R277: a length byte above `MAX_MESSAGE_LENGTH` ends `S_LOG_RECEIVE` at once with `MessageTooLong`, nothing
stored; a frame whose CRC16 disagrees ends it with `CrcMismatch`, the payload in `LOGBUF` and no terminating zero.
Either way `WAITING_RESET`, no ack, no hold and no handler call. -/
def Obligations.SLogReceiveRejectsFrame : Prop :=
  ∀ (k : Nat) (s : State) (sl : Slave) (len hi lo : Byte) (payload : List Byte) (ps : List (Nat × Nat))
    (later : List Nat),
    s.slaves[k]? = some sl → sl.Ready s.cfg → Quiet k s → s.otherWave = pulseTrain s.now ps ++ later →
    (s.cfg.maxMessageLength < len.toNat → carriesBits s.cfg 8 len ps →
      ∃ t x, exec (.sLogReceive k) s = .next t ∧ RanAlone k s t (trainEnd s.now ps) later ∧ t.slaves[k]? = some x ∧
        Slave.HeardBytes { sl with
          txnState := .waitingReset, status := statusCode .messageTooLong, data := 0, logLen := len
          crc16 := 0xFFFF } x) ∧
    (memoryWf sl.logBuf = true → len.toNat ≤ s.cfg.maxMessageLength → payload.length = len.toNat →
      carriesBytes s.cfg (len :: (payload ++ [hi, lo])) ps → crcOfBytes hi lo ≠ frameCrc s.cfg.crc16 len payload →
      ∃ t x, exec (.sLogReceive k) s = .next t ∧ RanAlone k s t (trainEnd s.now ps) later ∧ t.slaves[k]? = some x ∧
        (∀ a, memRead x.logBuf a = (payload[a]?).getD (memRead sl.logBuf a)) ∧
        Slave.HeardBytes { sl with
          txnState := .waitingReset, status := statusCode .crcMismatch, data := 0, logLen := len
          crc16 := frameCrc s.cfg.crc16 len payload, logBuf := x.logBuf } x)

/-! ### A slave's operations that need no traffic -/

/-- R332, R333, R334(b): `S_INIT`, before or after another, loads the ROM-ID from the configuration, clears the
registers R333 names, samples the line, which another driver may hold low, and enables the edge interrupt; it takes no
time and touches no other register but those an edge at this instant may write. A rising edge before the next falling
edge has a free measurement (notes/assumptions/15.md). Where the slave's own release ends a hold with an event pending
in strict mode, it traps: the model's choice, notes/assumptions/26.md. Where another request comes at the same instant,
only the release is done, and the rest follows when this instant's edges have been taken (notes/assumptions/17.md). -/
def Obligations.SInitLoadsTheRomId : Prop :=
  ∀ (k : Nat) (s : State) (sl : Slave),
    s.slaves[k]? = some sl → sl.pos = .idle → sl.trapped = false → sl.upstream = [] →
    (s.master.drive = false → s.master.pos = .ready → comesNow s = false → OthersAtRest k s →
      ∃ t x, exec (.sInit k) s = .next t ∧ t = { s with slaves := t.slaves } ∧ OthersAtRest k t ∧ OthersHear k s t ∧
        t.slaves[k]? = some x ∧
        ((sl.pulseNew && sl.cfg.strictMode && sl.takesEdges && !sl.linePrev && !s.otherDrive) = false →
          ∃ pulseLen pulseOvf draws tReset, x = { sl with
            romId := configRomId sl.cfg, drive := false, busy := false, alarmed := false, pulseNew := false
            txnState := .waitingReset, linePrev := !s.otherDrive, intEnable := true, status := statusCode .ok, data := 0
            stack := [], wake := none, pulseLen := pulseLen, pulseOvf := pulseOvf, draws := draws, tReset := tReset
            swStarted := false }) ∧
        ((sl.pulseNew && sl.cfg.strictMode && sl.takesEdges && !sl.linePrev && !s.otherDrive) = true →
          x = { sl with
            trapped := true, drive := false, busy := false, stack := [], wake := none, linePrev := true })) ∧
    (comesNow s = true → exec (.sInit k) s = .next { s with
      slaves := s.slaves.set k { sl with drive := false, busy := false, pos := .begun .init, wake := none } })

/-- R332, R262: the ROM-ID `S_INIT` loads is the family code, the six part bytes (from stable storage, or the default)
and the CRC8 of those seven; folding all eight gives zero. -/
def Obligations.LoadedRomIdCarriesItsCrc : Prop :=
  ∀ p : SlaveConfig, crc8Fold 0 (romBytes (configRomId p)) = 0 ∧ romByte (configRomId p) 0 = p.familyCode ∧
    ∀ j, j < 6 → romByte (configRomId p) (j + 1) =
      if p.usePersistedId then memRead p.store (p.partIdStorageOffset + j) else p.defaultPartId.extractLsb' (8 * j) 8

/-- R247: `S_SET_ALARM a` (code `0x87`, operand `a = s_arg[0]`) writes `alarmed` and reports `OK` with data 0; no line
activity, no time. (The operand byte's place after the code is notes/assumptions/4.md.) -/
def Obligations.SSetAlarmWritesAlarmed : Prop :=
  ∀ (k : Nat) (s : State) (sl : Slave) (arg : Byte), s.slaves[k]? = some sl → sl.Ready s.cfg → Quiet k s →
    decode (.slave k) [0x87, arg] = .ok (.sSetAlarm k arg, []) ∧
    ∃ t, exec (.sSetAlarm k arg) s = .next t ∧ RanAlone k s t s.now s.otherWave ∧ line t = line s ∧
      t.slaves[k]? = some { sl with alarmed := arg.getLsbD 0, status := statusCode .ok, data := 0 }

/-- R280, R192, R49: `S_BUSY_BEGIN` drives the line low and reports `OK` with data 0 (notes/assumptions/13.md); the
slave's own falling edge resets its stopwatch. -/
def Obligations.SBusyBeginHoldsTheLine : Prop :=
  ∀ (k : Nat) (s : State) (sl : Slave), s.slaves[k]? = some sl → sl.Ready s.cfg → Quiet k s →
    ∃ t, exec (.sBusyBegin k) s = .next t ∧ RanAlone k s t s.now s.otherWave ∧ line t = false ∧
      t.slaves[k]? = some { sl with
        drive := true, busy := true, status := statusCode .ok, data := 0, tReset := s.now, swStarted := true
        linePrev := false }

/-- R281, R193, R49, R71, R73: `S_BUSY_END` of a slave that holds the line releases it and consumes the rising edge,
whatever the length of the low; `OK` with data 0 (notes/assumptions/13.md). Where no rising edge comes (the slave holds
nothing, or another driver keeps the line low), its hold, if any, is released and the operation waits for the next
rising edge. Where another request comes at the same instant, the line is released, no edge is taken yet and the rest
follows with the edges (notes/assumptions/17.md). Requested at the instant of an `S_BUSY_BEGIN` it waits for that one to
be over, so that the hold has a length: the model's choice, notes/assumptions/7.md. -/
def Obligations.SBusyEndReleasesTheLine : Prop :=
  ∀ (k : Nat) (s : State) (sl : Slave), s.slaves[k]? = some sl →
    (sl.Holding s.cfg → Quiet k s →
      ∃ t, exec (.sBusyEnd k) s = .next t ∧ RanAlone k s t s.now s.otherWave ∧ line t = true ∧
        t.slaves[k]? = some { sl with
          drive := false, busy := false, status := statusCode .ok, data := 0, linePrev := true
          pulseLen := ticksIn s.cfg sl.cfg (s.now - sl.tReset) % 2 ^ sl.cfg.tickWidth
          pulseOvf := decide (2 ^ sl.cfg.tickWidth ≤ ticksIn s.cfg sl.cfg (s.now - sl.tReset)) }) ∧
    (sl.Ready s.cfg ∧ s.otherDrive = false ∨ sl.Holding s.cfg ∧ s.otherDrive = true →
      s.master.drive = false → s.master.pos = .ready → comesNow s = false → OthersAtRest k s → s.otherWave = [] →
      ∃ t, exec (.sBusyEnd k) s = .next t ∧ t = { s with slaves := t.slaves } ∧ OthersAtRest k t ∧ OthersHear k s t ∧ line t = line s ∧
        t.slaves[k]? = some { sl with
          drive := false, busy := false, pos := .waitPulse .busyEnd, stack := [.busyEnd] }) ∧
    (sl.Ready s.cfg ∨ sl.Holding s.cfg → comesNow s = true → exec (.sBusyEnd k) s = .next { s with
      slaves := s.slaves.set k { sl with
        drive := false, busy := false, pos := .begun .busyEnd, wake := none } }) ∧
    (sl.Ready s.cfg → comesNow s = true → ∀ later,
      ∃ t, exec (.sBusyBegin k) s = .next t ∧ line t = false ∧
        exec (.sBusyEnd k) { t with requests := later } = .next { s with
          requests := later
          slaves := s.slaves.set k { sl with
            drive := true, busy := true, pos := .begun .busyBegin, wake := none, upstream := [(0, .busyEnd)] } })

/-- R330, R47, R296, R71, R90(b): a slave that is trapped takes no step. Before `S_INIT` every other slave operation is
refused, unless an `S_INIT` is under way (the model's choice, notes/assumptions/16.md); a request to a slave that does
not exist is a fault (the model's choice, notes/assumptions/25.md). Where another request comes at the same instant, a
ready slave's operation is begun, no time passes and no edge is taken (notes/assumptions/17.md). A request of a slave
whose operation is not over waits for its end (notes/assumptions/5.md). -/
def Obligations.SlaveOperationNeedsAReadySlave : Prop :=
  ∀ (k : Nat) (s : State) (arg : Byte) (i : Instr) (op : SlaveOp),
    (i, op) ∈ [(.sWaitReset k, .waitReset), (.sReadBit k, .readBit), (.sWriteBit k arg, .writeBit arg),
      (.sReadByte k, .readByte), (.sWriteByte k arg, .writeByte arg), (.sWaitFunctionCmd k, .waitFunctionCmd),
      (.sSetAlarm k arg, .setAlarm arg), (.sBusyBegin k, .busyBegin), (.sBusyEnd k, .busyEnd),
      (.sLogReceive k, .logReceive), (.sLogServe k, .logServe)] →
    (s.slaves[k]? = none → exec i s = .fault (.noSuchSlave k)) ∧
    ∀ sl, s.slaves[k]? = some sl →
      (sl.trapped = true → exec i s = .next s) ∧
      (sl.trapped = false → sl.intEnable = false → sl.initComes = false →
        exec i s = .refused (.slaveNotInitialised k)) ∧
      (sl.Ready s.cfg → comesNow s = true → exec i s = .next { s with slaves := s.slaves.set k { sl with
        pos := .begun op
        drive := decide (op = .busyBegin), busy := decide (op = .busyBegin) } }) ∧
      (sl.trapped = false → sl.pos ≠ .idle → sl.intEnable = true ∨ sl.initComes = true →
        exec i s = .next { s with slaves := s.slaves.set k { sl with upstream := sl.upstream ++ [(0, op)] } })
/-! ### The codes a slave decodes itself, presented at its port -/

/-- R110, R232, R240 to R246: what each ROM command does to a slave that is reading the command byte in
`WAITING_ROM_CMD`: READ_ROM begins to write byte 0 of the ROM-ID, MATCH_ROM to read bit 1 of an ID, SKIP_ROM to read a
function command, SEARCH_ROM to write bit 1 of the ROM-ID, ALARM_SEARCH the same if the slave is alarmed; if it is not,
the slave waits for a reset in `WAITING_RESET`. Nothing else changes. -/
def Obligations.RomCommandBytesAct : Prop :=
  ∀ (k : Nat) (s : State) (sl : Slave) (rest : List Frame) (w : Option Nat),
    s.slaves[k]? = some sl → sl.trapped = false → sl.pos = .waitPulse .readBit →
    sl.stack = .readByte :: .romCommand :: .dispatcher :: rest → w = sl.cfg.waitTimeout.map (s.now + ·) →
    exec (.readRom k) s = .next { s with slaves := s.slaves.set k { sl with
      shift := romByte sl.romId 0, bitcnt := 0, stack := .writeByte :: .readRom 0 :: .dispatcher :: rest
      pos := .waitPulse (.writeStart (romBit sl.romId 1)), wake := w } } ∧
    exec (.matchRom k) s = .next { s with slaves := s.slaves.set k { sl with
      stack := .matchRom 1 :: .dispatcher :: rest, pos := .waitPulse .readBit, wake := w } } ∧
    exec (.skipRom k) s = .next { s with slaves := s.slaves.set k { sl with
      txnState := .waitingFunctionCmd, shift := 0, bitcnt := 0
      stack := .readByte :: .functionCommand :: .dispatcher :: rest, pos := .waitPulse .readBit, wake := w } } ∧
    exec (.searchRom k) s = .next { s with slaves := s.slaves.set k { sl with
      stack := .searchBit 1 :: .dispatcher :: rest, pos := .waitPulse (.writeStart (romBit sl.romId 1)), wake := w } } ∧
    (sl.alarmed = true → exec (.alarmSearch k) s = .next { s with slaves := s.slaves.set k { sl with
      stack := .searchBit 1 :: .dispatcher :: rest, pos := .waitPulse (.writeStart (romBit sl.romId 1)), wake := w } }) ∧
    (sl.alarmed = false → exec (.alarmSearch k) s = .next { s with slaves := s.slaves.set k { sl with
      txnState := .waitingReset, stack := .dispatcher :: rest, pos := .waitPulse .waitReset, wake := w } })

/-- R111, R234, R235, R283: LOG_MESSAGE at a slave that is reading the function command: delivered to upstream code, or,
in `S_LOG_SERVE`, the slave begins to read the frame's length with its CRC16 at `0xFFFF`; `WAITING_RESET`. (That the
result registers are written in `S_LOG_SERVE` too, whose operation is unfinished, is the model's reading:
notes/assumptions/13.md.) -/
def Obligations.LogMessageByteActs : Prop :=
  ∀ (k : Nat) (s : State) (sl : Slave),
    s.slaves[k]? = some sl → sl.trapped = false → sl.pos = .waitPulse .readBit → sl.upstream = [] →
    (sl.stack = [.readByte, .functionCommand, .dispatcher] →
      exec (.logMessage k) s = .next { s with slaves := s.slaves.set k { sl with
        txnState := .waitingReset, status := statusCode .ok, data := 0x44, pos := .idle, stack := [], wake := none } }) ∧
    (sl.stack = [.readByte, .functionCommand, .dispatcher, .logServe] →
      exec (.logMessage k) s = .next { s with slaves := s.slaves.set k { sl with
        txnState := .waitingReset, status := statusCode .ok, data := 0x44, crc16 := 0xFFFF, shift := 0, bitcnt := 0
        stack := [.readByte, .logLength], pos := .waitPulse .readBit
        wake := sl.cfg.waitTimeout.map (s.now + ·) } })

/-- R282, R111: ACK at a log slave whose hold is over: it begins to write the byte `0x42`, whose first bit is 0. -/
def Obligations.AckByteActs : Prop :=
  ∀ (k : Nat) (s : State) (sl : Slave) (rest : List Frame),
    s.slaves[k]? = some sl → sl.trapped = false → sl.pos = .waitPulse .busyEnd → sl.stack = .logHold :: rest →
    exec (.ack k) s = .next { s with slaves := s.slaves.set k { sl with
      shift := 0x42, bitcnt := 0, stack := .writeByte :: .logAck :: rest
      pos := .waitPulse (.writeStart false), wake := sl.cfg.waitTimeout.map (s.now + ·) } }

/-- A wire byte presented at a slave that is not at the place where it is decoded changes nothing (the model's choice,
notes/assumptions/21.md). -/
def Obligations.WireBytesActOnlyWhereDecoded : Prop :=
  ∀ (k : Nat) (s : State) (sl : Slave), s.slaves[k]? = some sl →
    (∀ i ∈ [.readRom k, .matchRom k, .skipRom k, .searchRom k, .alarmSearch k],
      sl.trapped = true ∨ sl.pos ≠ .waitPulse .readBit ∨ (∀ rest, sl.stack ≠ .readByte :: .romCommand :: rest) →
      exec i s = .next s) ∧
    (sl.trapped = true ∨ sl.pos ≠ .waitPulse .readBit ∨ (∀ rest, sl.stack ≠ .readByte :: .functionCommand :: rest) →
      exec (.logMessage k) s = .next s) ∧
    (sl.trapped = true ∨ sl.pos ≠ .waitPulse .busyEnd ∨ (∀ rest, sl.stack ≠ .logHold :: rest) →
      exec (.ack k) s = .next s)

/-- R195, R215, R216, R219, R220, R224, R202, R203, R298: the four pulse classes at a slave in `S_READ_BIT`, at one in
`S_WRITE_BIT d` that waits for the start pulse, and at one in `S_WRITE_BIT 0` that waits for the end of its own low,
where a reset is a trap in strict mode and every other class is discarded. -/
def Obligations.PulseClassesInBitOperations : Prop :=
  ∀ (k : Nat) (s : State) (sl : Slave) (w : Nat),
    s.slaves[k]? = some sl → sl.trapped = false → sl.stack = [] → sl.upstream = [] →
    w = s.cfg.slack (Config.slaveDraw sl.cfg.stream s.now) →
    (sl.pos = .waitPulse .readBit →
      exec (.pulseOne k) s = .next { s with slaves := s.slaves.set k { sl with
        pulseNew := false, status := statusCode .ok, data := 1, pos := .idle, wake := none } } ∧
      exec (.pulseZero k) s = .next { s with slaves := s.slaves.set k { sl with
        pulseNew := false, status := statusCode .ok, data := 0, pos := .idle, wake := none } }) ∧
    (∀ d, sl.cfg.valid s.cfg = true → sl.pos = .waitPulse (.writeStart d) →
      exec (.pulseOne k) s = .next { s with slaves := s.slaves.set k { sl with
        pulseNew := false, pos := .delay (if d then .sitOut else .respond)
        wake := some (s.now + ((if d then sl.cfg.tSSit else sl.cfg.tSResp) + w)) } }) ∧
    (∀ i, sl.pos = .waitPulse .readBit ∧ i = .pulseBad k ∨
        (∃ d, sl.pos = .waitPulse (.writeStart d)) ∧ (i = .pulseZero k ∨ i = .pulseBad k) →
      (sl.cfg.strictMode = false → exec i s = .next { s with slaves := s.slaves.set k { sl with
        pulseNew := false, txnState := .waitingReset, status := statusCode .unexpectedPulseLength, data := 0
        pos := .idle, wake := none } }) ∧
      (sl.cfg.strictMode = true → exec i s = .next { s with slaves := s.slaves.set k { sl with
        pulseNew := false, trapped := true, drive := false, busy := false, pos := .idle, wake := none } })) ∧
    (sl.pos = .waitPulse .readBit ∨ (∃ d, sl.pos = .waitPulse (.writeStart d)) ∨
        sl.pos = .waitPulse .writeEnd ∧ sl.cfg.strictMode = false →
      exec (.pulseReset k) s = .next { s with slaves := s.slaves.set k { sl with
        pulseNew := false, stack := [.handleReset], pos := .delay .quiet, wake := some (s.now + (us s.cfg 28 + w)) } }) ∧
    (sl.pos = .waitPulse .writeEnd →
      (∀ i ∈ [.pulseOne k, .pulseZero k, .pulseBad k],
        exec i s = .next { s with slaves := s.slaves.set k { sl with
          pulseNew := false, status := statusCode .ok, data := 0, pos := .idle, wake := none } }) ∧
      (sl.cfg.strictMode = true → exec (.pulseReset k) s = .next { s with slaves := s.slaves.set k { sl with
        pulseNew := false, trapped := true, drive := false, busy := false, pos := .idle, wake := none } }))

/-- R200, R198: the four pulse classes at a slave in `S_WAIT_RESET`: three are discarded, a reset starts the presence
pulse's quiet interval. -/
def Obligations.PulseClassesInWaitReset : Prop :=
  ∀ (k : Nat) (s : State) (sl : Slave),
    s.slaves[k]? = some sl → sl.trapped = false → sl.pos = .waitPulse .waitReset →
    (∀ i ∈ [.pulseOne k, .pulseZero k, .pulseBad k],
      exec i s = .next { s with slaves := s.slaves.set k { sl with
        pulseNew := false, wake := sl.cfg.waitTimeout.map (s.now + ·) } }) ∧
    exec (.pulseReset k) s = .next { s with slaves := s.slaves.set k { sl with
      pulseNew := false, stack := .waitReset :: sl.stack, pos := .delay .quiet
      wake := some (s.now + (us s.cfg 28 + s.cfg.slack (Config.slaveDraw sl.cfg.stream s.now))) } }

/-- R191 to R193, R45, R297, R61: the edge kinds at a slave that takes its edges: a fall resets the stopwatch; a rise
latches its count into the pulse event, in strict mode trapping if one is pending; a rise whose fall was not seen
latches free values, by the slave's stream and the number of the draw (notes/assumptions/15.md). At a slave whose
interrupt is off, masked or that is trapped (R300) nothing happens. -/
def Obligations.EdgeKindsAct : Prop :=
  ∀ (k : Nat) (s : State) (sl : Slave), s.slaves[k]? = some sl →
    ((sl.intEnable && !sl.trapped && !sl.intMask) = false →
      exec (.isrFall k) s = .next s ∧ exec (.isrRise k) s = .next s) ∧
    ((sl.intEnable && !sl.trapped && !sl.intMask) = true →
      exec (.isrFall k) s = .next { s with slaves := s.slaves.set k { sl with
        tReset := s.now, swStarted := true, linePrev := false } } ∧
      (sl.pulseNew = true → sl.cfg.strictMode = true →
        exec (.isrRise k) s = .next { s with slaves := s.slaves.set k { sl with
          trapped := true, drive := false, busy := false, pos := .idle, stack := [], wake := none
          linePrev := true } }) ∧
      (sl.pulseNew = false ∨ sl.cfg.strictMode = false →
        (sl.swStarted = true → exec (.isrRise k) s = .next { s with slaves := s.slaves.set k { sl with
          pulseNew := true, linePrev := true
          pulseLen := ticksIn s.cfg sl.cfg (s.now - sl.tReset) % 2 ^ sl.cfg.tickWidth
          pulseOvf := decide (2 ^ sl.cfg.tickWidth ≤ ticksIn s.cfg sl.cfg (s.now - sl.tReset)) } }) ∧
        (sl.swStarted = false → exec (.isrRise k) s = .next { s with slaves := s.slaves.set k { sl with
          pulseNew := true, linePrev := true, draws := sl.draws + 1
          pulseLen := Config.unmeasuredTicks sl.cfg.stream sl.draws % 2 ^ sl.cfg.tickWidth
          pulseOvf := Config.unmeasuredOvf sl.cfg.stream sl.draws } })))
/-! ### The whole machine -/

/-- What `State.Ok` says (the registers' ranges, the driver rules, the call path, the memory's canonical form) holds
after every step from a state in which it holds, whatever the request. -/
def Obligations.StepKeepsOk : Prop := ∀ s t : State, s.Ok → step s = .next t → t.Ok

/-- R60, R331, R330(a): the state after reset has R60's values, and `State.Ok`; so has the state after power-on, in
which every slave has released the line, takes no edge and is not trapped. Each slave has its own stream of free values
(notes/assumptions/15.md). The registers R60 calls unspecified hold what notes/assumptions/2.md names. -/
def Obligations.ResetState : Prop :=
  State.reset.Ok ∧ line State.reset = true ∧
  State.reset.master.lastDiscrepancy = 0 ∧ State.reset.master.lastFamilyDiscrepancy = 0 ∧
  State.reset.master.lastDeviceFlag = false ∧ State.reset.master.drive = false ∧
  State.reset.master.status = statusCode .ok ∧ State.reset.master.data = 0 ∧
  (∃ sl, State.reset.slaves = [sl] ∧ sl.Ready State.reset.cfg ∧ sl.romId = configRomId sl.cfg ∧
    sl.txnState = .waitingReset ∧
    sl.alarmed = false ∧ sl.linePrev = line State.reset ∧ sl.status = statusCode .ok ∧ sl.data = 0) ∧
  ∀ (cfg : Config) (ps : List SlaveConfig),
    (State.powerOn cfg ps).Ok ∧ (State.powerOn cfg ps).master = State.reset.master ∧
    (State.powerOn cfg ps).slaves.map (·.cfg) = ps.mapIdx (fun k p => { p with stream := k }) ∧
    line (State.powerOn cfg ps) = true ∧
    ∀ sl ∈ (State.powerOn cfg ps).slaves, sl.intEnable = false ∧ sl.trapped = false ∧ sl.AtRest

/-- R249, R40: no step changes the ROM-ID of a slave that `S_INIT` has prepared, and its parameters and the shared ones
stay. -/
def Obligations.RomIdSurvives : Prop :=
  ∀ (s t : State) (k : Nat) (sl : Slave), s.Ok → step s = .next t → s.slaves[k]? = some sl → sl.intEnable = true →
    t.cfg = s.cfg ∧ t.slaves.length = s.slaves.length ∧
    ∃ x, t.slaves[k]? = some x ∧ x.romId = sl.romId ∧ x.cfg = sl.cfg ∧ x.intEnable = true

/-- R47, R296: a trapped slave keeps its line released and takes no step, ever: whatever the machine does, every
register of it stays. -/
def Obligations.TrappedSlaveStays : Prop :=
  ∀ (s t : State) (k : Nat) (sl : Slave), s.Ok → step s = .next t → s.slaves[k]? = some sl → sl.trapped = true →
    t.slaves[k]? = some sl ∧ sl.drive = false ∧ sl.busy = false

/-- R90, R204, R300: what an operation of the master, or an instruction of another slave, leaves of a slave at rest: it
hears edges, and no other register of it changes (but for an overrun's trap in strict mode, R297). -/
def Obligations.RestingSlaveOnlyHears : Prop :=
  ∀ (s t : State) (i : Instr) (k : Nat) (sl : Slave), exec i s = .next t → s.slaves[k]? = some sl → sl.AtRest →
    i ∉ [.sInit k, .sWaitReset k, .sReadBit k, .sReadByte k, .sWaitFunctionCmd k, .sBusyBegin k, .sBusyEnd k,
      .sLogReceive k, .sLogServe k, .isrFall k, .isrRise k] →
    (∀ arg, i ∉ [.sWriteBit k arg, .sWriteByte k arg, .sSetAlarm k arg]) →
    t.cfg = s.cfg ∧ t.requests = s.requests ∧ (isMasterOp i = false → t.master = s.master) ∧
    ∃ x, t.slaves[k]? = some x ∧ Slave.OnlyEdges sl x

/-- R78, R90: slaves at rest cannot be told from slaves that are not there: an operation of the master on a bus where
only slave `k` is active does to the master, to slave `k` and to the time what it does with slave `k` alone. -/
def Obligations.MasterSeesOneSlave : Prop :=
  ∀ (k : Nat) (s v : State) (i : Instr), isMasterOp i = true → Alone k s v → OutcomeAlone k (exec i s) (exec i v)

/-! ### The master's operations, whatever the slaves do -/

/-- R101 to R104: the schedules of `M_RESET`, of the two write slots (`M_WRITE_BIT`) and of the read slot
(`M_READ_BIT`): what is driven, waited for and sampled, in order. The reset exchange takes 960 µs, a slot 70 µs, and up
to `DELAY_SLACK` more for each wait (R314). The result registers are written at the end (R141 to R143); every slave
lasts. -/
def Obligations.MBitOperationsFollowTheirSchedules : Prop :=
  ∀ (s : State) (arg : Byte),
    (∃ t, exec .mReset s = .next t ∧ Lasted s t 3 (us s.cfg 960) ∧
      let sampled := mWait (us s.cfg 70) (mRelease (mWait (us s.cfg 480) (mDriveLow s)))
      t = { mWait (us s.cfg 410) sampled with master := { s.master with
        drive := false, pos := .ready, data := if line sampled then 0 else 1
        status := if line sampled then statusCode .noSlavePresent else statusCode .ok } }) ∧
    (∃ t, exec (.mWriteBit arg) s = .next t ∧ Lasted s t 2 (us s.cfg 70) ∧
      t = { (if arg.getLsbD 0 then mWait (us s.cfg 64) (mRelease (mWait (us s.cfg 6) (mDriveLow s)))
          else mWait (us s.cfg 10) (mRelease (mWait (us s.cfg 60) (mDriveLow s)))) with
        master := { s.master with drive := false, pos := .ready, status := statusCode .ok, data := 0 } }) ∧
    (∃ t, exec .mReadBit s = .next t ∧ Lasted s t 3 (us s.cfg 70) ∧
      let sampled := mWait (us s.cfg 9) (mRelease (mWait (us s.cfg 6) (mDriveLow s)))
      t = { mWait (us s.cfg 55) sampled with master := { s.master with
        drive := false, pos := .ready, status := statusCode .ok, data := if line sampled then 1 else 0 } })

/-- R144, R145, R81: `M_WRITE_BYTE` is eight write slots, `M_READ_BYTE` eight read slots, least significant bit first,
with nothing between them; the byte's bits are the bits written, or sampled: bit `i` of `m_data` is the bit read in slot
`i`. -/
def Obligations.MByteOperationsAreEightSlots : Prop :=
  ∀ (s : State) (v : Byte),
    (∃ t, exec (.mWriteByte v) s = .next t ∧ Lasted s t 16 (us s.cfg 560) ∧
      t = { writeSlots (byteBits v) s with master := { s.master with
        drive := false, pos := .ready, shift := 0, bitcnt := 8, status := statusCode .ok, data := 0 } }) ∧
    decode .master [0x05] = .ok (.mReadByte, []) ∧
    (∃ t r, exec .mReadByte s = .next t ∧ Lasted s t 24 (us s.cfg 560) ∧ byteBits r = (readSlots 8 s).1 ∧
      t = { (readSlots 8 s).2 with master := { s.master with
        drive := false, pos := .ready, shift := r, bitcnt := 8, status := statusCode .ok, data := r } })

/-- R148, R141, R166, R173, R270: on a line that nobody drives and no slave will, a reset finds nobody, a read bit is 1
and a read byte `0xFF`; the transactions end after the reset exchange with `NoSlavePresent`, a search's state cleared.
(That the triple is cleared R166 marks as general knowledge of the spec's: notes/assumptions/19.md.) -/
def Obligations.SilentLineAnswersNothing : Prop :=
  ∀ (s : State) (mode : BitVec 2) (id : RomId) (f len : Byte) (payload : List Byte), Silent s →
    (∃ t, exec .mReset s = .next t ∧ Silent t ∧ Lasted s t 3 (us s.cfg 960) ∧
      t.master = { s.master with pos := .ready, status := statusCode .noSlavePresent, data := 0 }) ∧
    (∃ t, exec .mReadBit s = .next t ∧ Silent t ∧ Lasted s t 3 (us s.cfg 70) ∧
      t.master = { s.master with pos := .ready, status := statusCode .ok, data := 1 }) ∧
    (∃ t, exec .mReadByte s = .next t ∧ Silent t ∧ Lasted s t 24 (us s.cfg 560) ∧
      t.master = { s.master with pos := .ready, shift := 0xFF, bitcnt := 8, status := statusCode .ok, data := 0xFF }) ∧
    (∀ i, i = .mReadRom ∨ mode ≠ 3 ∧ i = .mStartTxn mode id f ∨
        mode ≠ 2 ∧ mode ≠ 3 ∧ len.toNat ≤ s.cfg.maxMessageLength ∧ i = .mLogSend mode id len payload →
      ∃ t, exec i s = .next t ∧ Lasted s t 3 (us s.cfg 960) ∧
        t.master = { s.master with pos := .ready, status := statusCode .noSlavePresent, data := 0 }) ∧
    (s.master.lastDeviceFlag = false →
      ∀ i ∈ [.mSearchFirst, .mSearchNext, .mAlarmFirst, .mAlarmNext],
        ∃ t, exec i s = .next t ∧ Lasted s t 3 (us s.cfg 960) ∧
          t.master = { s.master with
            pos := .ready, status := statusCode .noSlavePresent, data := 0
            lastDiscrepancy := 0, lastFamilyDiscrepancy := 0, lastDeviceFlag := false })

/-- R160, R262: `M_READ_ROM` with nobody present ends after the reset exchange. With somebody present it writes the byte
`0x33` and reads 64 bits, which are `rom_buf`'s in wire order; the status says whether their CRC8 is 0. The search
triple stays. -/
def Obligations.MReadRomChecksTheCrc : Prop :=
  ∀ s : State, ∃ t, exec .mReadRom s = .next t ∧
    (presence s = false → Lasted s t 3 (us s.cfg 960) ∧
      t.master = { s.master with drive := false, pos := .ready, status := statusCode .noSlavePresent, data := 0 }) ∧
    (presence s = true → Lasted s t 211 (us s.cfg 6000) ∧ ∃ rom sh bc,
      ((List.range 64).map fun i => romBit rom (i + 1)) =
        (readSlots 64 (writeSlots (byteBits 0x33) (mResetExchange s).2)).1 ∧
      t.master = { s.master with
        drive := false, pos := .ready, shift := sh, bitcnt := bc, romBuf := rom
        crc8 := crc8Fold 0 (romBytes rom), data := 0
        status := if crc8Fold 0 (romBytes rom) = 0 then statusCode .ok else statusCode .romCrcMismatch })

/-- R167: a search entered with `last_device_flag` set makes no line activity and takes no time; the triple is cleared
and the result is `NoSuchSlave`. (That the triple is cleared R167 marks as general knowledge of the spec's:
notes/assumptions/19.md.) -/
def Obligations.SearchAfterTheLastDevice : Prop :=
  ∀ (s : State) (i : Instr), i = .mSearchNext ∨ i = .mAlarmNext → s.master.lastDeviceFlag = true →
    exec i s = .next { s with master := { s.master with
      lastDiscrepancy := 0, lastFamilyDiscrepancy := 0, lastDeviceFlag := false
      pos := .ready, status := statusCode .noSuchSlave, data := 0 } }

/-- R161, R165, R166, R168 to R171: how a search ends. With `OK`, `rom_buf` holds an ID whose CRC8 agrees and
`last_device_flag` is set iff the new `last_discrepancy` is 0; with any other status the triple is cleared. (That it is
R166 marks as general knowledge of the spec's: notes/assumptions/19.md.) -/
def Obligations.SearchEnds : Prop :=
  ∀ (s : State) (i : Instr),
    i = .mSearchFirst ∨ i = .mAlarmFirst ∨
      s.master.lastDeviceFlag = false ∧ (i = .mSearchNext ∨ i = .mAlarmNext) →
    ∃ t, exec i s = .next t ∧ t.master.data = 0 ∧ t.master.crc16 = s.master.crc16 ∧
      (s.master.drive = false → t.master.drive = false) ∧
      (presence s = false → t.master.status = statusCode .noSlavePresent ∧ t.master.Cleared ∧
        t.master.romBuf = s.master.romBuf ∧ Lasted s t 3 (us s.cfg 960)) ∧
      (presence s = true →
        (t.master.status = statusCode .noSuchSlave ∧ t.master.Cleared ∧
          ∃ j, j < 64 ∧ Lasted s t (j * 8 + 25) (us s.cfg (1520 + j * 210 + 140))) ∨
        (t.master.status = statusCode .romCrcMismatch ∧ t.master.Cleared ∧ Lasted s t 531 (us s.cfg 14960) ∧
          crc8Fold 0 (romBytes t.master.romBuf) ≠ 0) ∨
        (t.master.status = statusCode .ok ∧ Lasted s t 531 (us s.cfg 14960) ∧
          t.master.lastDeviceFlag = decide (t.master.lastDiscrepancy = 0) ∧
          crc8Fold 0 (romBytes t.master.romBuf) = 0))

/-- R172: `M_VERIFY` leaves the search state and `rom_buf` as they were; the verdict is 1 only with `OK`, for an ID
whose CRC8 agrees. -/
def Obligations.MVerifyRestoresTheSearchState : Prop :=
  ∀ (s : State) (id : RomId), ∃ t, exec (.mVerify id) s = .next t ∧
    t.master.romBuf = s.master.romBuf ∧ t.master.lastDiscrepancy = s.master.lastDiscrepancy ∧
    t.master.lastFamilyDiscrepancy = s.master.lastFamilyDiscrepancy ∧
    t.master.lastDeviceFlag = s.master.lastDeviceFlag ∧ t.master.crc16 = s.master.crc16 ∧
    (t.master.data = 0 ∨
      t.master.data = 1 ∧ t.master.status = statusCode .ok ∧ crc8Fold 0 (romBytes id) = 0) ∧
    (presence s = false → t.master.status = statusCode .noSlavePresent ∧ t.master.data = 0 ∧
      Lasted s t 3 (us s.cfg 960)) ∧
    (t.master.status = statusCode .ok → Lasted s t 531 (us s.cfg 14960))

/-- R172, R165, R243: `M_VERIFY` with one slave in `S_WAIT_FUNCTION_CMD` whose ROM-ID carries its CRC8: `OK`, the
verdict 1 for its own ID and 0 for another (R172 against R304(a): notes/assumptions/11.md), the search state and
`rom_buf` as they were. -/
def Obligations.MVerifyAgainstOneSlave : Prop :=
  ∀ (k : Nat) (s : State) (sl : Slave) (id : RomId),
    s.slaves[k]? = some sl → sl.Ready s.cfg → Quiet k s → s.cfg.delaySlack = 0 → s.otherWave = [] →
    sl.cfg.tSSit < us s.cfg 64 →
    crc8Fold 0 (romBytes sl.romId) = 0 →
    ∃ t u x, exec (.sWaitFunctionCmd k) s = .next t ∧ exec (.mVerify id) t = .next u ∧
      Exchanged k s u (s.now + us s.cfg 14960) [] ∧
      u.master.status = statusCode .ok ∧ u.master.data = (if id = sl.romId then 1 else 0) ∧
      u.master.romBuf = s.master.romBuf ∧ u.master.lastDiscrepancy = s.master.lastDiscrepancy ∧
      u.master.lastFamilyDiscrepancy = s.master.lastFamilyDiscrepancy ∧
      u.master.lastDeviceFlag = s.master.lastDeviceFlag ∧ u.master.drive = false ∧
      u.slaves[k]? = some x ∧ Slave.Same sl x ∧ x.txnState = .waitingReset ∧
      x.pos = .waitPulse .waitReset ∧ x.stack = [.dispatcher]

/-- R173, R127: how `M_START_TXN` ends, in each mode. (That `IllegalOperation` writes 0 to
the data register is notes/assumptions/12.md.) -/
def Obligations.MStartTxnEnds : Prop :=
  ∀ (s : State) (mode : BitVec 2) (id : RomId) (f : Byte), ∃ t, exec (.mStartTxn mode id f) s = .next t ∧
    (mode = 3 → t = { s with master := { s.master with
      pos := .ready, status := statusCode .illegalOperation, data := 0 } }) ∧
    (mode ≠ 3 → presence s = false → Lasted s t 3 (us s.cfg 960) ∧
      t.master = { s.master with drive := false, pos := .ready, status := statusCode .noSlavePresent, data := 0 }) ∧
    (mode ≠ 3 → presence s = true → ∃ rom sh bc c8 st, t.master = { s.master with
        drive := false, pos := .ready, shift := sh, bitcnt := bc, romBuf := rom, crc8 := c8, status := st, data := 0 } ∧
      (mode ≠ 0 → rom = s.master.romBuf ∧ c8 = s.master.crc8) ∧
      (st = statusCode .ok ∧ (mode = 0 → crc8Fold 0 (romBytes rom) = 0) ∧
          Lasted s t (if mode = 2 then 35 else if mode = 1 then 163 else 227) (us s.cfg (if mode = 2 then 2080 else 6560)) ∨
        st = statusCode .romCrcMismatch ∧ mode = 0 ∧ crc8Fold 0 (romBytes rom) ≠ 0 ∧ Lasted s t 211 (us s.cfg 6000)))

/-- R271, R270, R127, R173: `M_LOG_SEND` that sends no frame: a length above `MAX_MESSAGE_LENGTH` and a mode that is
neither READ_ROM nor MATCH_ROM are refused before any line activity; nobody present ends it after the reset
exchange. (That `IllegalOperation` writes 0 to the data register is notes/assumptions/12.md.) -/
def Obligations.MLogSendRefusesBeforeTheFrame : Prop :=
  ∀ (s : State) (mode : BitVec 2) (id : RomId) (len : Byte) (payload : List Byte),
    (s.cfg.maxMessageLength < len.toNat → exec (.mLogSend mode id len payload) s =
      .next { s with master := { s.master with pos := .ready, status := statusCode .messageTooLong, data := 0 } }) ∧
    (len.toNat ≤ s.cfg.maxMessageLength → mode = 2 ∨ mode = 3 → exec (.mLogSend mode id len payload) s =
      .next { s with master := { s.master with
        pos := .ready, status := statusCode .illegalOperation, data := 0 } }) ∧
    (len.toNat ≤ s.cfg.maxMessageLength → mode = 0 ∨ mode = 1 → presence s = false →
      ∃ t, exec (.mLogSend mode id len payload) s = .next t ∧ Lasted s t 3 (us s.cfg 960) ∧
        t.master = { s.master with drive := false, pos := .ready, status := statusCode .noSlavePresent, data := 0 })

/-! ### What the block computes -/

/-- R195, R196, R197, R107, R311, R312, R343: `Classify(len, ovf)`, its bounds inclusive below, on the count of ticks or
on the overflow flag (a write-zero of exactly 60 µs and a pulse of 15 µs are zeros, 14 µs is a one, 360 µs is a reset
and 359 µs is not, a count of 0 is a one); and, with parameters in R343's bound, the class of the count a stopwatch
makes of a pulse of width `w` is that of `w`, wherever the count wraps and however finely time is counted (`g`). (That
a width is a whole number of some unit of time is the model's: notes/assumptions/1.md.) -/
def Obligations.ClassOfAMeasuredPulse : Prop :=
  (∀ (u len : Nat) (ovf : Bool), 0 < u →
    classify u len ovf = (if ovf = true ∨ 360 * u ≤ len then .reset else if 70 * u ≤ len then .bad
      else if 15 * u ≤ len then .zero else .one) ∧
    classify u (60 * u) false = .zero ∧ classify u (15 * u) false = .zero ∧ classify u (14 * u) false = .one ∧
    classify u (360 * u) false = .reset ∧ classify u (359 * u) false = .bad ∧ classify u 0 false = .one ∧
    classify 2 120 false = .zero) ∧
  ∀ (g : Config) (p : SlaveConfig) (w : Nat), p.valid g = true →
    classify p.ticksPerUs (ticksIn g p w % 2 ^ p.tickWidth)
      (decide (2 ^ p.tickWidth ≤ ticksIn g p w)) = widthClass g w

/-- R261: `crc8_update` is eight steps of R260 on bits 0 to 7; folding a ROM-ID's 64 bits in wire order gives the fold
of its bytes in index order; the rule's values; zero bytes fold to 0. (R260's polynomial is the spec's general
knowledge: notes/assumptions/19.md.) -/
def Obligations.Crc8OfBytes : Prop :=
  (∀ crc byte : Byte, crc8Update crc byte = (byteBits byte).foldl crc8Bit crc) ∧
  (∀ id : RomId, ((List.range 64).map fun i => romBit id (i + 1)).foldl crc8Bit 0 = crc8Fold 0 (romBytes id)) ∧
  crc8Update 0 0x00 = 0x00 ∧ crc8Update 0 0x01 = 0x5E ∧ crc8Update 0 0x02 = 0xBC ∧ crc8Update 0 0x80 = 0x8C ∧
  crc8Update 0 0xFF = 0x35 ∧ crc8Fold 0 [0x02, 0x1C, 0xB8, 0x01, 0x00, 0x00, 0x00] = 0xA2 ∧
  ∀ n : Nat, crc8Fold 0 (List.replicate n 0x00) = 0

/-- R162, R163, R164: the direction at position `n` after the bits `b1`, `b2` are read: what it is, that it is stored at
`RomBit(n)` and nowhere else, and that a 0 chosen at a discrepancy is recorded. (What is recorded in
`last_family_discrepancy` R163 marks as general knowledge of the spec's: notes/assumptions/19.md.) -/
def Obligations.SearchDirection : Prop :=
  ∀ (m : Master) (b1 b2 : Bool) (n : Nat), 1 ≤ n → n ≤ 64 → ¬(b1 = true ∧ b2 = true) →
    let m' := chooseDirection b1 b2 n m
    (b1 ≠ b2 → m'.dir = b1) ∧
    (b1 = b2 → n < m.lastDiscrepancy.toNat → m'.dir = romBit m.romBuf n) ∧
    (b1 = b2 → n = m.lastDiscrepancy.toNat → m'.dir = true) ∧
    (b1 = b2 → m.lastDiscrepancy.toNat < n → m'.dir = false) ∧
    (b1 = b2 → m'.dir = false → m'.lastZero.toNat = n ∧
      m'.lastFamilyDiscrepancy.toNat = if n < 9 then n else m.lastFamilyDiscrepancy.toNat) ∧
    (b1 ≠ b2 ∨ m'.dir = true → m'.lastZero = m.lastZero ∧ m'.lastFamilyDiscrepancy = m.lastFamilyDiscrepancy) ∧
    (∀ j, 1 ≤ j → j ≤ 64 → romBit m'.romBuf j = if j = n then m'.dir else romBit m.romBuf j) ∧
    m' = { m with
      dir := m'.dir, romBuf := m'.romBuf, lastZero := m'.lastZero, lastFamilyDiscrepancy := m'.lastFamilyDiscrepancy }

/-- R85, R11: a byte written to `LOGBUF` is read back, every other byte stays, the canonical form is kept, and two
memories in that form that read alike are the same. -/
def Obligations.MemoryReadsWhatWasWritten : Prop :=
  ∀ (m n : Memory) (a x : Nat) (b : Byte), memoryWf m = true → memoryWf n = true →
    memRead (memWrite m a b) x = (if x = a then b else memRead m x) ∧ memoryWf (memWrite m a b) = true ∧
    ((∀ y, memRead m y = memRead n y) → m = n)
end

