-- ==== Sys2Proof/Laws/State.lean ====
section
/-! SUPPORT. Sums of durations, and one lemma per field of each small update of the state, true by `rfl`. -/

namespace Sys2Proof.Machine

/-! ### Durations -/

theorem perUs_pos (g : Config) : 0 < g.perUs := g.grain.succ_pos

theorem us_add (g : Config) (a b : Nat) : us g a + us g b = us g (a + b) := (Nat.add_mul a b g.perUs).symm

theorem us_mul (g : Config) (n a : Nat) : n * us g a = us g (n * a) := (Nat.mul_assoc n a g.perUs).symm

theorem us_add₂ (g : Config) (t a b : Nat) : t + us g a + us g b = t + us g (a + b) := by
  rw [Nat.add_assoc, us_add]

theorem us_add₃ (g : Config) (t a b c : Nat) : t + us g a + us g b + us g c = t + us g (a + b + c) := by
  rw [us_add₂, us_add₂, Nat.add_assoc]

theorem us_lt_iff (g : Config) (a b : Nat) : us g a < us g b ↔ a < b := Nat.mul_lt_mul_right (perUs_pos g)

theorem us_lt (g : Config) {a b : Nat} (h : a < b) : us g a < us g b := Nat.mul_lt_mul_of_pos_right h (perUs_pos g)

theorem us_le (g : Config) {a b : Nat} (h : a ≤ b) : us g a ≤ us g b := Nat.mul_le_mul_right _ h

theorem le_us (g : Config) (n : Nat) : n ≤ us g n := Nat.le_mul_of_pos_right n (perUs_pos g)

theorem us_pos (g : Config) {a : Nat} (h : 0 < a) : 0 < us g a := Nat.mul_pos h (perUs_pos g)

theorem tPds_pos (g : Config) : 0 < tPds g := us_pos g (by decide)
theorem tRsth2_pos (g : Config) : 0 < tRsth2 g := us_pos g (by decide)
theorem tRs_pos (g : Config) : 0 < tRs g := us_pos g (by decide)
theorem tRh_pos (g : Config) : 0 < tRh g := us_pos g (by decide)
theorem tSQuiet_pos (g : Config) : 0 < tSQuiet g := us_pos g (by decide)
theorem tSPres_pos (g : Config) : 0 < tSPres g := us_pos g (by decide)
theorem tSW0_pos (g : Config) : 0 < tSW0 g := us_pos g (by decide)

/-! ### `DriveLow()` of a slave -/

@[simp] theorem Slave.driveLow_cfg (sl : Slave) : sl.driveLow.cfg = sl.cfg := rfl
@[simp] theorem Slave.driveLow_romId (sl : Slave) : sl.driveLow.romId = sl.romId := rfl
@[simp] theorem Slave.driveLow_txnState (sl : Slave) : sl.driveLow.txnState = sl.txnState := rfl
@[simp] theorem Slave.driveLow_pulseNew (sl : Slave) : sl.driveLow.pulseNew = sl.pulseNew := rfl
@[simp] theorem Slave.driveLow_pulseLen (sl : Slave) : sl.driveLow.pulseLen = sl.pulseLen := rfl
@[simp] theorem Slave.driveLow_pulseOvf (sl : Slave) : sl.driveLow.pulseOvf = sl.pulseOvf := rfl
@[simp] theorem Slave.driveLow_alarmed (sl : Slave) : sl.driveLow.alarmed = sl.alarmed := rfl
@[simp] theorem Slave.driveLow_drive (sl : Slave) : sl.driveLow.drive = true := rfl
@[simp] theorem Slave.driveLow_tReset (sl : Slave) : sl.driveLow.tReset = sl.tReset := rfl
@[simp] theorem Slave.driveLow_swStarted (sl : Slave) : sl.driveLow.swStarted = sl.swStarted := rfl
@[simp] theorem Slave.driveLow_shift (sl : Slave) : sl.driveLow.shift = sl.shift := rfl
@[simp] theorem Slave.driveLow_bitcnt (sl : Slave) : sl.driveLow.bitcnt = sl.bitcnt := rfl
@[simp] theorem Slave.driveLow_trapped (sl : Slave) : sl.driveLow.trapped = sl.trapped := rfl
@[simp] theorem Slave.driveLow_busy (sl : Slave) : sl.driveLow.busy = sl.busy := rfl
@[simp] theorem Slave.driveLow_status (sl : Slave) : sl.driveLow.status = sl.status := rfl
@[simp] theorem Slave.driveLow_data (sl : Slave) : sl.driveLow.data = sl.data := rfl
@[simp] theorem Slave.driveLow_intEnable (sl : Slave) : sl.driveLow.intEnable = sl.intEnable := rfl
@[simp] theorem Slave.driveLow_intMask (sl : Slave) : sl.driveLow.intMask = sl.intMask := rfl
@[simp] theorem Slave.driveLow_logBuf (sl : Slave) : sl.driveLow.logBuf = sl.logBuf := rfl
@[simp] theorem Slave.driveLow_logLen (sl : Slave) : sl.driveLow.logLen = sl.logLen := rfl
@[simp] theorem Slave.driveLow_crc16 (sl : Slave) : sl.driveLow.crc16 = sl.crc16 := rfl
@[simp] theorem Slave.driveLow_linePrev (sl : Slave) : sl.driveLow.linePrev = sl.linePrev := rfl
@[simp] theorem Slave.driveLow_pos (sl : Slave) : sl.driveLow.pos = sl.pos := rfl
@[simp] theorem Slave.driveLow_stack (sl : Slave) : sl.driveLow.stack = sl.stack := rfl
@[simp] theorem Slave.driveLow_wake (sl : Slave) : sl.driveLow.wake = sl.wake := rfl
@[simp] theorem Slave.driveLow_upstream (sl : Slave) : sl.driveLow.upstream = sl.upstream := rfl
@[simp] theorem Slave.driveLow_handlerTimes (sl : Slave) : sl.driveLow.handlerTimes = sl.handlerTimes := rfl
@[simp] theorem Slave.driveLow_handlerCalls (sl : Slave) : sl.driveLow.handlerCalls = sl.handlerCalls := rfl
@[simp] theorem Slave.driveLow_draws (sl : Slave) : sl.driveLow.draws = sl.draws := rfl

/-! ### `Release()` of a slave -/

@[simp] theorem Slave.release_cfg (sl : Slave) : sl.release.cfg = sl.cfg := rfl
@[simp] theorem Slave.release_romId (sl : Slave) : sl.release.romId = sl.romId := rfl
@[simp] theorem Slave.release_txnState (sl : Slave) : sl.release.txnState = sl.txnState := rfl
@[simp] theorem Slave.release_pulseNew (sl : Slave) : sl.release.pulseNew = sl.pulseNew := rfl
@[simp] theorem Slave.release_pulseLen (sl : Slave) : sl.release.pulseLen = sl.pulseLen := rfl
@[simp] theorem Slave.release_pulseOvf (sl : Slave) : sl.release.pulseOvf = sl.pulseOvf := rfl
@[simp] theorem Slave.release_alarmed (sl : Slave) : sl.release.alarmed = sl.alarmed := rfl
@[simp] theorem Slave.release_drive (sl : Slave) : sl.release.drive = sl.busy := rfl
@[simp] theorem Slave.release_tReset (sl : Slave) : sl.release.tReset = sl.tReset := rfl
@[simp] theorem Slave.release_swStarted (sl : Slave) : sl.release.swStarted = sl.swStarted := rfl
@[simp] theorem Slave.release_shift (sl : Slave) : sl.release.shift = sl.shift := rfl
@[simp] theorem Slave.release_bitcnt (sl : Slave) : sl.release.bitcnt = sl.bitcnt := rfl
@[simp] theorem Slave.release_trapped (sl : Slave) : sl.release.trapped = sl.trapped := rfl
@[simp] theorem Slave.release_busy (sl : Slave) : sl.release.busy = sl.busy := rfl
@[simp] theorem Slave.release_status (sl : Slave) : sl.release.status = sl.status := rfl
@[simp] theorem Slave.release_data (sl : Slave) : sl.release.data = sl.data := rfl
@[simp] theorem Slave.release_intEnable (sl : Slave) : sl.release.intEnable = sl.intEnable := rfl
@[simp] theorem Slave.release_intMask (sl : Slave) : sl.release.intMask = sl.intMask := rfl
@[simp] theorem Slave.release_logBuf (sl : Slave) : sl.release.logBuf = sl.logBuf := rfl
@[simp] theorem Slave.release_logLen (sl : Slave) : sl.release.logLen = sl.logLen := rfl
@[simp] theorem Slave.release_crc16 (sl : Slave) : sl.release.crc16 = sl.crc16 := rfl
@[simp] theorem Slave.release_linePrev (sl : Slave) : sl.release.linePrev = sl.linePrev := rfl
@[simp] theorem Slave.release_pos (sl : Slave) : sl.release.pos = sl.pos := rfl
@[simp] theorem Slave.release_stack (sl : Slave) : sl.release.stack = sl.stack := rfl
@[simp] theorem Slave.release_wake (sl : Slave) : sl.release.wake = sl.wake := rfl
@[simp] theorem Slave.release_upstream (sl : Slave) : sl.release.upstream = sl.upstream := rfl
@[simp] theorem Slave.release_handlerTimes (sl : Slave) : sl.release.handlerTimes = sl.handlerTimes := rfl
@[simp] theorem Slave.release_handlerCalls (sl : Slave) : sl.release.handlerCalls = sl.handlerCalls := rfl
@[simp] theorem Slave.release_draws (sl : Slave) : sl.release.draws = sl.draws := rfl

/-! ### `WaitPulseEnd()` -/

@[simp] theorem Slave.await_cfg (c : Ctx) (u : PulseUse) (sl : Slave) :
    (Slave.await c u sl).cfg = sl.cfg := rfl
@[simp] theorem Slave.await_romId (c : Ctx) (u : PulseUse) (sl : Slave) :
    (Slave.await c u sl).romId = sl.romId := rfl
@[simp] theorem Slave.await_txnState (c : Ctx) (u : PulseUse) (sl : Slave) :
    (Slave.await c u sl).txnState = sl.txnState := rfl
@[simp] theorem Slave.await_pulseNew (c : Ctx) (u : PulseUse) (sl : Slave) :
    (Slave.await c u sl).pulseNew = sl.pulseNew := rfl
@[simp] theorem Slave.await_pulseLen (c : Ctx) (u : PulseUse) (sl : Slave) :
    (Slave.await c u sl).pulseLen = sl.pulseLen := rfl
@[simp] theorem Slave.await_pulseOvf (c : Ctx) (u : PulseUse) (sl : Slave) :
    (Slave.await c u sl).pulseOvf = sl.pulseOvf := rfl
@[simp] theorem Slave.await_alarmed (c : Ctx) (u : PulseUse) (sl : Slave) :
    (Slave.await c u sl).alarmed = sl.alarmed := rfl
@[simp] theorem Slave.await_drive (c : Ctx) (u : PulseUse) (sl : Slave) :
    (Slave.await c u sl).drive = sl.drive := rfl
@[simp] theorem Slave.await_tReset (c : Ctx) (u : PulseUse) (sl : Slave) :
    (Slave.await c u sl).tReset = sl.tReset := rfl
@[simp] theorem Slave.await_swStarted (c : Ctx) (u : PulseUse) (sl : Slave) :
    (Slave.await c u sl).swStarted = sl.swStarted := rfl
@[simp] theorem Slave.await_shift (c : Ctx) (u : PulseUse) (sl : Slave) :
    (Slave.await c u sl).shift = sl.shift := rfl
@[simp] theorem Slave.await_bitcnt (c : Ctx) (u : PulseUse) (sl : Slave) :
    (Slave.await c u sl).bitcnt = sl.bitcnt := rfl
@[simp] theorem Slave.await_trapped (c : Ctx) (u : PulseUse) (sl : Slave) :
    (Slave.await c u sl).trapped = sl.trapped := rfl
@[simp] theorem Slave.await_busy (c : Ctx) (u : PulseUse) (sl : Slave) :
    (Slave.await c u sl).busy = sl.busy := rfl
@[simp] theorem Slave.await_status (c : Ctx) (u : PulseUse) (sl : Slave) :
    (Slave.await c u sl).status = sl.status := rfl
@[simp] theorem Slave.await_data (c : Ctx) (u : PulseUse) (sl : Slave) :
    (Slave.await c u sl).data = sl.data := rfl
@[simp] theorem Slave.await_intEnable (c : Ctx) (u : PulseUse) (sl : Slave) :
    (Slave.await c u sl).intEnable = sl.intEnable := rfl
@[simp] theorem Slave.await_intMask (c : Ctx) (u : PulseUse) (sl : Slave) :
    (Slave.await c u sl).intMask = sl.intMask := rfl
@[simp] theorem Slave.await_logBuf (c : Ctx) (u : PulseUse) (sl : Slave) :
    (Slave.await c u sl).logBuf = sl.logBuf := rfl
@[simp] theorem Slave.await_logLen (c : Ctx) (u : PulseUse) (sl : Slave) :
    (Slave.await c u sl).logLen = sl.logLen := rfl
@[simp] theorem Slave.await_crc16 (c : Ctx) (u : PulseUse) (sl : Slave) :
    (Slave.await c u sl).crc16 = sl.crc16 := rfl
@[simp] theorem Slave.await_linePrev (c : Ctx) (u : PulseUse) (sl : Slave) :
    (Slave.await c u sl).linePrev = sl.linePrev := rfl
@[simp] theorem Slave.await_pos (c : Ctx) (u : PulseUse) (sl : Slave) :
    (Slave.await c u sl).pos = .waitPulse u := rfl
@[simp] theorem Slave.await_stack (c : Ctx) (u : PulseUse) (sl : Slave) :
    (Slave.await c u sl).stack = sl.stack := rfl
@[simp] theorem Slave.await_wake (c : Ctx) (u : PulseUse) (sl : Slave) :
    (Slave.await c u sl).wake = sl.cfg.waitTimeout.map (c.now + ·) := rfl
@[simp] theorem Slave.await_upstream (c : Ctx) (u : PulseUse) (sl : Slave) :
    (Slave.await c u sl).upstream = sl.upstream := rfl
@[simp] theorem Slave.await_handlerTimes (c : Ctx) (u : PulseUse) (sl : Slave) :
    (Slave.await c u sl).handlerTimes = sl.handlerTimes := rfl
@[simp] theorem Slave.await_handlerCalls (c : Ctx) (u : PulseUse) (sl : Slave) :
    (Slave.await c u sl).handlerCalls = sl.handlerCalls := rfl
@[simp] theorem Slave.await_draws (c : Ctx) (u : PulseUse) (sl : Slave) :
    (Slave.await c u sl).draws = sl.draws := rfl

/-! ### `Wait(d)` of a slave -/

@[simp] theorem Slave.delay_cfg (c : Ctx) (u : DelayUse) (d : Nat) (sl : Slave) :
    (Slave.delay c u d sl).cfg = sl.cfg := rfl
@[simp] theorem Slave.delay_romId (c : Ctx) (u : DelayUse) (d : Nat) (sl : Slave) :
    (Slave.delay c u d sl).romId = sl.romId := rfl
@[simp] theorem Slave.delay_txnState (c : Ctx) (u : DelayUse) (d : Nat) (sl : Slave) :
    (Slave.delay c u d sl).txnState = sl.txnState := rfl
@[simp] theorem Slave.delay_pulseNew (c : Ctx) (u : DelayUse) (d : Nat) (sl : Slave) :
    (Slave.delay c u d sl).pulseNew = sl.pulseNew := rfl
@[simp] theorem Slave.delay_pulseLen (c : Ctx) (u : DelayUse) (d : Nat) (sl : Slave) :
    (Slave.delay c u d sl).pulseLen = sl.pulseLen := rfl
@[simp] theorem Slave.delay_pulseOvf (c : Ctx) (u : DelayUse) (d : Nat) (sl : Slave) :
    (Slave.delay c u d sl).pulseOvf = sl.pulseOvf := rfl
@[simp] theorem Slave.delay_alarmed (c : Ctx) (u : DelayUse) (d : Nat) (sl : Slave) :
    (Slave.delay c u d sl).alarmed = sl.alarmed := rfl
@[simp] theorem Slave.delay_drive (c : Ctx) (u : DelayUse) (d : Nat) (sl : Slave) :
    (Slave.delay c u d sl).drive = sl.drive := rfl
@[simp] theorem Slave.delay_tReset (c : Ctx) (u : DelayUse) (d : Nat) (sl : Slave) :
    (Slave.delay c u d sl).tReset = sl.tReset := rfl
@[simp] theorem Slave.delay_swStarted (c : Ctx) (u : DelayUse) (d : Nat) (sl : Slave) :
    (Slave.delay c u d sl).swStarted = sl.swStarted := rfl
@[simp] theorem Slave.delay_shift (c : Ctx) (u : DelayUse) (d : Nat) (sl : Slave) :
    (Slave.delay c u d sl).shift = sl.shift := rfl
@[simp] theorem Slave.delay_bitcnt (c : Ctx) (u : DelayUse) (d : Nat) (sl : Slave) :
    (Slave.delay c u d sl).bitcnt = sl.bitcnt := rfl
@[simp] theorem Slave.delay_trapped (c : Ctx) (u : DelayUse) (d : Nat) (sl : Slave) :
    (Slave.delay c u d sl).trapped = sl.trapped := rfl
@[simp] theorem Slave.delay_busy (c : Ctx) (u : DelayUse) (d : Nat) (sl : Slave) :
    (Slave.delay c u d sl).busy = sl.busy := rfl
@[simp] theorem Slave.delay_status (c : Ctx) (u : DelayUse) (d : Nat) (sl : Slave) :
    (Slave.delay c u d sl).status = sl.status := rfl
@[simp] theorem Slave.delay_data (c : Ctx) (u : DelayUse) (d : Nat) (sl : Slave) :
    (Slave.delay c u d sl).data = sl.data := rfl
@[simp] theorem Slave.delay_intEnable (c : Ctx) (u : DelayUse) (d : Nat) (sl : Slave) :
    (Slave.delay c u d sl).intEnable = sl.intEnable := rfl
@[simp] theorem Slave.delay_intMask (c : Ctx) (u : DelayUse) (d : Nat) (sl : Slave) :
    (Slave.delay c u d sl).intMask = sl.intMask := rfl
@[simp] theorem Slave.delay_logBuf (c : Ctx) (u : DelayUse) (d : Nat) (sl : Slave) :
    (Slave.delay c u d sl).logBuf = sl.logBuf := rfl
@[simp] theorem Slave.delay_logLen (c : Ctx) (u : DelayUse) (d : Nat) (sl : Slave) :
    (Slave.delay c u d sl).logLen = sl.logLen := rfl
@[simp] theorem Slave.delay_crc16 (c : Ctx) (u : DelayUse) (d : Nat) (sl : Slave) :
    (Slave.delay c u d sl).crc16 = sl.crc16 := rfl
@[simp] theorem Slave.delay_linePrev (c : Ctx) (u : DelayUse) (d : Nat) (sl : Slave) :
    (Slave.delay c u d sl).linePrev = sl.linePrev := rfl
@[simp] theorem Slave.delay_pos (c : Ctx) (u : DelayUse) (d : Nat) (sl : Slave) :
    (Slave.delay c u d sl).pos = .delay u := rfl
@[simp] theorem Slave.delay_stack (c : Ctx) (u : DelayUse) (d : Nat) (sl : Slave) :
    (Slave.delay c u d sl).stack = sl.stack := rfl
@[simp] theorem Slave.delay_wake (c : Ctx) (u : DelayUse) (d : Nat) (sl : Slave) :
    (Slave.delay c u d sl).wake = some (deadline c.now d) := rfl
@[simp] theorem Slave.delay_upstream (c : Ctx) (u : DelayUse) (d : Nat) (sl : Slave) :
    (Slave.delay c u d sl).upstream = sl.upstream := rfl
@[simp] theorem Slave.delay_handlerTimes (c : Ctx) (u : DelayUse) (d : Nat) (sl : Slave) :
    (Slave.delay c u d sl).handlerTimes = sl.handlerTimes := rfl
@[simp] theorem Slave.delay_handlerCalls (c : Ctx) (u : DelayUse) (d : Nat) (sl : Slave) :
    (Slave.delay c u d sl).handlerCalls = sl.handlerCalls := rfl
@[simp] theorem Slave.delay_draws (c : Ctx) (u : DelayUse) (d : Nat) (sl : Slave) :
    (Slave.delay c u d sl).draws = sl.draws := rfl

/-! ### The trap -/

@[simp] theorem Slave.trap_cfg (sl : Slave) : sl.trap.cfg = sl.cfg := rfl
@[simp] theorem Slave.trap_romId (sl : Slave) : sl.trap.romId = sl.romId := rfl
@[simp] theorem Slave.trap_txnState (sl : Slave) : sl.trap.txnState = sl.txnState := rfl
@[simp] theorem Slave.trap_pulseNew (sl : Slave) : sl.trap.pulseNew = sl.pulseNew := rfl
@[simp] theorem Slave.trap_pulseLen (sl : Slave) : sl.trap.pulseLen = sl.pulseLen := rfl
@[simp] theorem Slave.trap_pulseOvf (sl : Slave) : sl.trap.pulseOvf = sl.pulseOvf := rfl
@[simp] theorem Slave.trap_alarmed (sl : Slave) : sl.trap.alarmed = sl.alarmed := rfl
@[simp] theorem Slave.trap_drive (sl : Slave) : sl.trap.drive = false := rfl
@[simp] theorem Slave.trap_tReset (sl : Slave) : sl.trap.tReset = sl.tReset := rfl
@[simp] theorem Slave.trap_swStarted (sl : Slave) : sl.trap.swStarted = sl.swStarted := rfl
@[simp] theorem Slave.trap_shift (sl : Slave) : sl.trap.shift = sl.shift := rfl
@[simp] theorem Slave.trap_bitcnt (sl : Slave) : sl.trap.bitcnt = sl.bitcnt := rfl
@[simp] theorem Slave.trap_trapped (sl : Slave) : sl.trap.trapped = true := rfl
@[simp] theorem Slave.trap_busy (sl : Slave) : sl.trap.busy = false := rfl
@[simp] theorem Slave.trap_status (sl : Slave) : sl.trap.status = sl.status := rfl
@[simp] theorem Slave.trap_data (sl : Slave) : sl.trap.data = sl.data := rfl
@[simp] theorem Slave.trap_intEnable (sl : Slave) : sl.trap.intEnable = sl.intEnable := rfl
@[simp] theorem Slave.trap_intMask (sl : Slave) : sl.trap.intMask = sl.intMask := rfl
@[simp] theorem Slave.trap_logBuf (sl : Slave) : sl.trap.logBuf = sl.logBuf := rfl
@[simp] theorem Slave.trap_logLen (sl : Slave) : sl.trap.logLen = sl.logLen := rfl
@[simp] theorem Slave.trap_crc16 (sl : Slave) : sl.trap.crc16 = sl.crc16 := rfl
@[simp] theorem Slave.trap_linePrev (sl : Slave) : sl.trap.linePrev = sl.linePrev := rfl
@[simp] theorem Slave.trap_pos (sl : Slave) : sl.trap.pos = .idle := rfl
@[simp] theorem Slave.trap_stack (sl : Slave) : sl.trap.stack = [] := rfl
@[simp] theorem Slave.trap_wake (sl : Slave) : sl.trap.wake = none := rfl
@[simp] theorem Slave.trap_upstream (sl : Slave) : sl.trap.upstream = sl.upstream := rfl
@[simp] theorem Slave.trap_handlerTimes (sl : Slave) : sl.trap.handlerTimes = sl.handlerTimes := rfl
@[simp] theorem Slave.trap_handlerCalls (sl : Slave) : sl.trap.handlerCalls = sl.handlerCalls := rfl
@[simp] theorem Slave.trap_draws (sl : Slave) : sl.trap.draws = sl.draws := rfl

/-! ### The drivers of the master -/

@[simp] theorem mDriveLow_cfg (s : State) : (mDriveLow s).cfg = s.cfg := rfl
@[simp] theorem mDriveLow_now (s : State) : (mDriveLow s).now = s.now := rfl
@[simp] theorem mDriveLow_master (s : State) : (mDriveLow s).master = { s.master with drive := true } := rfl
@[simp] theorem mDriveLow_slaves (s : State) : (mDriveLow s).slaves = s.slaves := rfl
@[simp] theorem mDriveLow_otherDrive (s : State) : (mDriveLow s).otherDrive = s.otherDrive := rfl
@[simp] theorem mDriveLow_otherWave (s : State) : (mDriveLow s).otherWave = s.otherWave := rfl
@[simp] theorem mDriveLow_requests (s : State) : (mDriveLow s).requests = s.requests := rfl
@[simp] theorem mRelease_cfg (s : State) : (mRelease s).cfg = s.cfg := rfl
@[simp] theorem mRelease_now (s : State) : (mRelease s).now = s.now := rfl
@[simp] theorem mRelease_master (s : State) : (mRelease s).master = { s.master with drive := false } := rfl
@[simp] theorem mRelease_slaves (s : State) : (mRelease s).slaves = s.slaves := rfl
@[simp] theorem mRelease_otherDrive (s : State) : (mRelease s).otherDrive = s.otherDrive := rfl
@[simp] theorem mRelease_otherWave (s : State) : (mRelease s).otherWave = s.otherWave := rfl
@[simp] theorem mRelease_requests (s : State) : (mRelease s).requests = s.requests := rfl

/-! ### `ClearSearch()` and the steps of `M_VERIFY` -/

@[simp] theorem clearSearch_cfg (s : State) : (clearSearch s).cfg = s.cfg := rfl
@[simp] theorem verifySetup_cfg (id : RomId) (s : State) : (verifySetup id s).cfg = s.cfg := rfl
@[simp] theorem verifyRestore_cfg (m : Master) (s : State) : (verifyRestore m s).cfg = s.cfg := rfl
@[simp] theorem clearSearch_now (s : State) : (clearSearch s).now = s.now := rfl
@[simp] theorem verifySetup_now (id : RomId) (s : State) : (verifySetup id s).now = s.now := rfl
@[simp] theorem verifyRestore_now (m : Master) (s : State) : (verifyRestore m s).now = s.now := rfl
@[simp] theorem clearSearch_slaves (s : State) : (clearSearch s).slaves = s.slaves := rfl
@[simp] theorem verifySetup_slaves (id : RomId) (s : State) : (verifySetup id s).slaves = s.slaves := rfl
@[simp] theorem verifyRestore_slaves (m : Master) (s : State) : (verifyRestore m s).slaves = s.slaves := rfl
@[simp] theorem clearSearch_otherDrive (s : State) : (clearSearch s).otherDrive = s.otherDrive := rfl
@[simp] theorem verifySetup_otherDrive (id : RomId) (s : State) : (verifySetup id s).otherDrive = s.otherDrive := rfl
@[simp] theorem verifyRestore_otherDrive (m : Master) (s : State) : (verifyRestore m s).otherDrive = s.otherDrive := rfl
@[simp] theorem clearSearch_otherWave (s : State) : (clearSearch s).otherWave = s.otherWave := rfl
@[simp] theorem verifySetup_otherWave (id : RomId) (s : State) : (verifySetup id s).otherWave = s.otherWave := rfl
@[simp] theorem verifyRestore_otherWave (m : Master) (s : State) : (verifyRestore m s).otherWave = s.otherWave := rfl
@[simp] theorem clearSearch_requests (s : State) : (clearSearch s).requests = s.requests := rfl
@[simp] theorem verifySetup_requests (id : RomId) (s : State) : (verifySetup id s).requests = s.requests := rfl
@[simp] theorem verifyRestore_requests (m : Master) (s : State) : (verifyRestore m s).requests = s.requests := rfl

/-! ### `Wait(d)` and the results of master operations -/

/-- With `DELAY_SLACK = 0` every draw adds nothing (R314). -/
@[simp] theorem Config.slack_zero (c : Config) (h : c.delaySlack = 0) (draw : Nat) : c.slack draw = 0 := by
  exact if_pos h

/-- A draw adds at most `DELAY_SLACK` (R314). -/
theorem Config.slack_le (c : Config) (draw : Nat) : c.slack draw ≤ c.delaySlack := by
  unfold Sys2Proof.Config.slack
  split
  · exact Nat.zero_le _
  · exact Nat.le_of_lt_succ (Nat.mod_lt _ (Nat.succ_pos _))

/-- With `DELAY_SLACK = 0` a slave's `Wait(d)` lasts exactly `d` (R314). -/
theorem Slave.waitFor_exact (c : Ctx) (h : c.cfg.delaySlack = 0) (u : DelayUse) (d : Nat) (sl : Slave) :
    Slave.waitFor c u d sl = Slave.delay c u d sl := by
  simp [Slave.waitFor, h]

/-- With `DELAY_SLACK = 0` the master's `Wait(d)` lasts exactly `d` (R314). -/
theorem mWait_exact (s : State) (h : s.cfg.delaySlack = 0) (d : Nat) : mWait d s = wait d s := by
  simp [mWait, h]

@[simp] theorem mReport_cfg (st : Status) (v : Byte) (s : State) : (mReport st v s).cfg = s.cfg := rfl
@[simp] theorem mReport_now (st : Status) (v : Byte) (s : State) : (mReport st v s).now = s.now := rfl
@[simp] theorem mReport_master (st : Status) (v : Byte) (s : State) :
    (mReport st v s).master = { s.master with status := statusCode st, data := v, pos := .ready } := rfl
@[simp] theorem mReport_slaves (st : Status) (v : Byte) (s : State) : (mReport st v s).slaves = s.slaves := rfl
@[simp] theorem mReport_otherDrive (st : Status) (v : Byte) (s : State) :
    (mReport st v s).otherDrive = s.otherDrive := rfl
@[simp] theorem mReport_otherWave (st : Status) (v : Byte) (s : State) : (mReport st v s).otherWave = s.otherWave := rfl
@[simp] theorem mReport_requests (st : Status) (v : Byte) (s : State) : (mReport st v s).requests = s.requests := rfl
@[simp] theorem mSuspend_cfg (l : Option Nat) (s : State) : (mSuspend l s).cfg = s.cfg := rfl
@[simp] theorem mSuspend_now (l : Option Nat) (s : State) : (mSuspend l s).now = s.now := rfl
@[simp] theorem mSuspend_master (l : Option Nat) (s : State) :
    (mSuspend l s).master = { s.master with pos := .polling l } := rfl
@[simp] theorem mSuspend_slaves (l : Option Nat) (s : State) : (mSuspend l s).slaves = s.slaves := rfl
@[simp] theorem mSuspend_requests (l : Option Nat) (s : State) : (mSuspend l s).requests = s.requests := rfl

/-! ### The next request -/

@[simp] theorem withFetchWord_cfg (s : State) (nbits w : Nat) :
    (s.withFetchWord nbits w).cfg = s.cfg := rfl
@[simp] theorem withFetchWord_now (s : State) (nbits w : Nat) :
    (s.withFetchWord nbits w).now = s.now := rfl
@[simp] theorem withFetchWord_master (s : State) (nbits w : Nat) :
    (s.withFetchWord nbits w).master = { s.master with pos := .ready } := rfl
@[simp] theorem withFetchWord_slaves (s : State) (nbits w : Nat) :
    (s.withFetchWord nbits w).slaves = s.slaves := rfl
@[simp] theorem withFetchWord_otherDrive (s : State) (nbits w : Nat) :
    (s.withFetchWord nbits w).otherDrive = s.otherDrive := rfl
@[simp] theorem withFetchWord_otherWave (s : State) (nbits w : Nat) :
    (s.withFetchWord nbits w).otherWave = s.otherWave := rfl
@[simp] theorem withFetchWord_requests (s : State) (nbits w : Nat) :
    (s.withFetchWord nbits w).requests = tableRequest nbits w :: s.requests := rfl

end Sys2Proof.Machine
end

