-- ==== Sys2Proof/Laws/Moves.lean ====
section
/-! SUPPORT. What no procedure of a slave writes: its parameters, ROM-ID, alarm flag, interrupt enable and mask, and the
queue of upstream code. Only `S_INIT` and `S_SET_ALARM` write the first of them (`Slave.initialise`, `Slave.start`). -/

namespace Sys2Proof.Machine

/-- A slave has moved, and what procedures never write is as before. -/
structure Slave.Keeps (sl sl' : Slave) : Prop where
  cfg : sl'.cfg = sl.cfg
  romId : sl'.romId = sl.romId
  alarmed : sl'.alarmed = sl.alarmed
  intEnable : sl'.intEnable = sl.intEnable
  intMask : sl'.intMask = sl.intMask
  upstream : sl'.upstream = sl.upstream
  not_begun : ∀ op, sl'.pos = .begun op → sl.pos = .begun op

/-- The line driver is as before, or the slave has trapped and released it (R296). -/
def Slave.SameDrive (sl sl' : Slave) : Prop :=
  (sl'.drive = sl.drive ∧ sl'.busy = sl.busy ∧ sl'.trapped = sl.trapped) ∨
  (sl'.drive = false ∧ sl'.busy = false ∧ sl'.trapped = true)

/-- A wait for a pulse that has no end (R194). -/
def Slave.Endless (sl : Slave) : Prop := ∀ u, sl.pos = .waitPulse u → sl.wake = none

/-- A procedure that leaves the line driver alone, but for a trap; without `S_WAIT_TIMEOUT` its waits for a pulse have no
end. -/
structure Slave.Moves (sl sl' : Slave) : Prop extends Slave.Keeps sl sl' where
  drive : Slave.SameDrive sl sl'
  endless : sl.cfg.waitTimeout = none → sl.Endless → sl'.Endless

theorem Slave.Keeps.trans {a b c : Slave} (h : Slave.Keeps a b) (h' : Slave.Keeps b c) : Slave.Keeps a c :=
  ⟨h'.cfg.trans h.cfg, h'.romId.trans h.romId, h'.alarmed.trans h.alarmed, h'.intEnable.trans h.intEnable,
   h'.intMask.trans h.intMask, h'.upstream.trans h.upstream, fun op x => h.not_begun op (h'.not_begun op x)⟩

theorem Slave.SameDrive.trans {a b c : Slave} (h : Slave.SameDrive a b) (h' : Slave.SameDrive b c) :
    Slave.SameDrive a c := by
  rcases h' with ⟨d, e, f⟩ | h'
  · rcases h with ⟨d', e', f'⟩ | ⟨d', e', f'⟩
    · exact .inl ⟨d.trans d', e.trans e', f.trans f'⟩
    · exact .inr ⟨d.trans d', e.trans e', f.trans f'⟩
  · exact .inr h'

theorem Slave.Moves.refl (sl : Slave) : Slave.Moves sl sl :=
  ⟨⟨rfl, rfl, rfl, rfl, rfl, rfl, fun _ => id⟩, .inl ⟨rfl, rfl, rfl⟩, fun _ => id⟩

theorem Slave.Moves.trans {a b c : Slave} (h : Slave.Moves a b) (h' : Slave.Moves b c) : Slave.Moves a c :=
  ⟨h.toKeeps.trans h'.toKeeps, h.drive.trans h'.drive, fun x y => h'.endless (h.cfg ▸ x) (h.endless x y)⟩

/-- A prefix record update that touches none of these fields may be dropped. -/
theorem Slave.Keeps.from_update {sl sl' x : Slave} (h : Slave.Keeps sl' x) (hc : sl'.cfg = sl.cfg)
    (hr : sl'.romId = sl.romId) (ha : sl'.alarmed = sl.alarmed) (he : sl'.intEnable = sl.intEnable)
    (hm : sl'.intMask = sl.intMask) (hu : sl'.upstream = sl.upstream) (hp : sl'.pos = sl.pos) : Slave.Keeps sl x :=
  Slave.Keeps.trans ⟨hc, hr, ha, he, hm, hu, fun _ y => hp ▸ y⟩ h

/-- The same, for an update that leaves the line driver alone too. -/
theorem Slave.Moves.from_update {sl sl' x : Slave} (h : Slave.Moves sl' x) (hc : sl'.cfg = sl.cfg)
    (hr : sl'.romId = sl.romId) (ha : sl'.alarmed = sl.alarmed) (he : sl'.intEnable = sl.intEnable)
    (hm : sl'.intMask = sl.intMask) (hu : sl'.upstream = sl.upstream) (hp : sl'.pos = sl.pos)
    (hd : sl'.drive = sl.drive ∧ sl'.busy = sl.busy ∧ sl'.trapped = sl.trapped ∧ sl'.wake = sl.wake) :
    Slave.Moves sl x :=
  ⟨h.toKeeps.from_update hc hr ha he hm hu hp, Slave.SameDrive.trans (.inl ⟨hd.1, hd.2.1, hd.2.2.1⟩) h.drive,
   fun y z => h.endless (hc ▸ y) fun u hu => hd.2.2.2.trans (z u (hp ▸ hu))⟩

/-- A procedure that ends in a wait for a pulse. -/
theorem Slave.await_endless (c : Ctx) (u : PulseUse) (sl : Slave) (h : sl.cfg.waitTimeout = none) :
    (Slave.await c u sl).Endless := fun _ _ => by simp [Slave.await, h]

/-- A procedure that ends elsewhere. -/
theorem Slave.endless_of_pos (sl : Slave) (h : ∀ u, sl.pos ≠ .waitPulse u) : sl.Endless := fun u hu => absurd hu (h u)

theorem Slave.await_moves (c : Ctx) (u : PulseUse) (sl : Slave) : Slave.Moves sl (Slave.await c u sl) :=
  ⟨⟨rfl, rfl, rfl, rfl, rfl, rfl, by simp⟩, .inl ⟨rfl, rfl, rfl⟩, fun h _ => Slave.await_endless c u sl h⟩

theorem Slave.delay_moves (c : Ctx) (u : DelayUse) (d : Nat) (sl : Slave) :
    Slave.Moves sl (Slave.delay c u d sl) :=
  ⟨⟨rfl, rfl, rfl, rfl, rfl, rfl, by simp⟩, .inl ⟨rfl, rfl, rfl⟩, fun _ _ => Slave.endless_of_pos _ (by simp)⟩

theorem Slave.waitFor_moves (c : Ctx) (u : DelayUse) (d : Nat) (sl : Slave) :
    Slave.Moves sl (Slave.waitFor c u d sl) := Slave.delay_moves c u _ sl

theorem Slave.opDone_moves (c : Ctx) (sl : Slave) : Slave.Moves sl (Slave.opDone c sl) := by
  unfold Slave.opDone
  split <;>
    exact ⟨⟨rfl, rfl, rfl, rfl, rfl, rfl, by simp⟩, .inl ⟨rfl, rfl, rfl⟩, fun _ _ => Slave.endless_of_pos _ (by simp)⟩

theorem Slave.finish_moves (c : Ctx) (st : Status) (v : Byte) (sl : Slave) : Slave.Moves sl (Slave.finish c st v sl) :=
  (Slave.opDone_moves c _).from_update rfl rfl rfl rfl rfl rfl rfl ⟨rfl, rfl, rfl, rfl⟩

theorem Slave.trap_moves (sl : Slave) : Slave.Moves sl sl.trap :=
  ⟨⟨rfl, rfl, rfl, rfl, rfl, rfl, by simp⟩, .inr ⟨rfl, rfl, rfl⟩, fun _ _ => Slave.endless_of_pos _ (by simp)⟩

theorem Slave.startReadByte_moves (c : Ctx) (fs : List Frame) (sl : Slave) :
    Slave.Moves sl (Slave.startReadByte c fs sl) :=
  (Slave.await_moves c _ _).from_update rfl rfl rfl rfl rfl rfl rfl ⟨rfl, rfl, rfl, rfl⟩

theorem Slave.startWriteByte_moves (c : Ctx) (v : Byte) (fs : List Frame) (sl : Slave) :
    Slave.Moves sl (Slave.startWriteByte c v fs sl) :=
  (Slave.await_moves c _ _).from_update rfl rfl rfl rfl rfl rfl rfl ⟨rfl, rfl, rfl, rfl⟩

theorem Slave.presencePulse_moves (c : Ctx) (f : Frame) (sl : Slave) : Slave.Moves sl (Slave.presencePulse c f sl) :=
  (Slave.waitFor_moves c _ _ _).from_update rfl rfl rfl rfl rfl rfl rfl ⟨rfl, rfl, rfl, rfl⟩

theorem Slave.dispatch_moves (c : Ctx) (fs : List Frame) (sl : Slave) : Slave.Moves sl (Slave.dispatch c fs sl) := by
  unfold Slave.dispatch
  split
  · exact (Slave.await_moves c _ _).from_update rfl rfl rfl rfl rfl rfl rfl ⟨rfl, rfl, rfl, rfl⟩
  · exact Slave.startReadByte_moves c _ _
  · exact Slave.startReadByte_moves c _ _

theorem Slave.resumeDispatcher_moves (c : Ctx) (fs : List Frame) (sl : Slave) :
    Slave.Moves sl (Slave.resumeDispatcher c fs sl) := by
  unfold Slave.resumeDispatcher
  split
  · exact Slave.dispatch_moves c _ _
  · exact Slave.finish_moves c _ _ _

theorem Slave.startLogReceive_moves (c : Ctx) (fs : List Frame) (sl : Slave) :
    Slave.Moves sl (Slave.startLogReceive c fs sl) :=
  (Slave.startReadByte_moves c _ _).from_update rfl rfl rfl rfl rfl rfl rfl ⟨rfl, rfl, rfl, rfl⟩

theorem Slave.dispatcherReturns_moves (c : Ctx) (st : Status) (v : Byte) (fs : List Frame) (sl : Slave) :
    Slave.Moves sl (Slave.dispatcherReturns c st v fs sl) := by
  unfold Slave.dispatcherReturns
  split
  · split
    · split
      · exact (Slave.startLogReceive_moves c _ _).from_update rfl rfl rfl rfl rfl rfl rfl ⟨rfl, rfl, rfl, rfl⟩
      · exact Slave.finish_moves c _ _ _
    · exact Slave.finish_moves c _ _ _
  · exact Slave.finish_moves c _ _ _

theorem Slave.unwind_moves (c : Ctx) (e : Status) (info : Byte) (fs : List Frame) (sl : Slave) :
    Slave.Moves sl (Slave.unwind c e info fs sl) := by
  induction fs with
  | nil => exact Slave.finish_moves c _ _ _
  | cons f fs ih =>
    unfold Slave.unwind
    split
    · exact Slave.finish_moves c _ _ _
    · split
      · exact Slave.dispatch_moves c _ _
      · exact (Slave.dispatcherReturns_moves c _ _ _ _).from_update rfl rfl rfl rfl rfl rfl rfl ⟨rfl, rfl, rfl, rfl⟩
    · rename_i h
      injection h with _ h
      subst h
      exact ih

theorem Slave.raise_moves (c : Ctx) (e : Status) (info : Byte) (sl : Slave) :
    Slave.Moves sl (Slave.raise c e info sl) := Slave.unwind_moves c e info _ sl

theorem Slave.handleReset_moves (c : Ctx) (sl : Slave) : Slave.Moves sl (Slave.handleReset c sl) :=
  Slave.presencePulse_moves c _ sl

theorem Slave.handleBad_moves (c : Ctx) (sl : Slave) : Slave.Moves sl (Slave.handleBad c sl) := by
  unfold Slave.handleBad
  split
  · exact Slave.trap_moves sl
  · exact (Slave.raise_moves c _ _ _).from_update rfl rfl rfl rfl rfl rfl rfl ⟨rfl, rfl, rfl, rfl⟩

theorem Slave.timeout_moves (c : Ctx) (sl : Slave) : Slave.Moves sl (Slave.timeout c sl) :=
  (Slave.raise_moves c _ _ _).from_update rfl rfl rfl rfl rfl rfl rfl ⟨rfl, rfl, rfl, rfl⟩

/-! ### The responders and the log receiver -/

theorem Slave.gotRomCommand_moves (c : Ctx) (v : Byte) (fs : List Frame) (sl : Slave) :
    Slave.Moves sl (Slave.gotRomCommand c v fs sl) := by
  unfold Slave.gotRomCommand
  split
  · exact Slave.startWriteByte_moves c _ _ _
  · exact (Slave.await_moves c _ _).from_update rfl rfl rfl rfl rfl rfl rfl ⟨rfl, rfl, rfl, rfl⟩
  · exact (Slave.resumeDispatcher_moves c _ _).from_update rfl rfl rfl rfl rfl rfl rfl ⟨rfl, rfl, rfl, rfl⟩
  · exact (Slave.await_moves c _ _).from_update rfl rfl rfl rfl rfl rfl rfl ⟨rfl, rfl, rfl, rfl⟩
  · unfold Slave.romAlarmSearch
    split
    · exact (Slave.await_moves c _ _).from_update rfl rfl rfl rfl rfl rfl rfl ⟨rfl, rfl, rfl, rfl⟩
    · exact (Slave.resumeDispatcher_moves c _ _).from_update rfl rfl rfl rfl rfl rfl rfl ⟨rfl, rfl, rfl, rfl⟩
  · exact Slave.unwind_moves c _ _ _ _

theorem Slave.readRomNext_moves (c : Ctx) (i : Nat) (fs : List Frame) (sl : Slave) :
    Slave.Moves sl (Slave.readRomNext c i fs sl) := by
  unfold Slave.readRomNext
  split
  · exact Slave.startWriteByte_moves c _ _ _
  · exact (Slave.resumeDispatcher_moves c _ _).from_update rfl rfl rfl rfl rfl rfl rfl ⟨rfl, rfl, rfl, rfl⟩

theorem Slave.matchRomNext_moves (c : Ctx) (n : Nat) (b : Bool) (fs : List Frame) (sl : Slave) :
    Slave.Moves sl (Slave.matchRomNext c n b fs sl) := by
  unfold Slave.matchRomNext
  split
  · split
    · exact (Slave.await_moves c _ _).from_update rfl rfl rfl rfl rfl rfl rfl ⟨rfl, rfl, rfl, rfl⟩
    · exact (Slave.resumeDispatcher_moves c _ _).from_update rfl rfl rfl rfl rfl rfl rfl ⟨rfl, rfl, rfl, rfl⟩
  · exact Slave.unwind_moves c _ _ _ _

theorem Slave.searchNext_moves (c : Ctx) (n : Nat) (d : Bool) (fs : List Frame) (sl : Slave) :
    Slave.Moves sl (Slave.searchNext c n d fs sl) := by
  unfold Slave.searchNext
  split
  · exact (Slave.await_moves c _ _).from_update rfl rfl rfl rfl rfl rfl rfl ⟨rfl, rfl, rfl, rfl⟩
  · exact (Slave.resumeDispatcher_moves c _ _).from_update rfl rfl rfl rfl rfl rfl rfl ⟨rfl, rfl, rfl, rfl⟩

theorem Slave.gotFunctionCommand_moves (c : Ctx) (v : Byte) (fs : List Frame) (sl : Slave) :
    Slave.Moves sl (Slave.gotFunctionCommand c v fs sl) := by
  unfold Slave.gotFunctionCommand
  split
  · exact (Slave.dispatcherReturns_moves c _ _ _ _).from_update rfl rfl rfl rfl rfl rfl rfl ⟨rfl, rfl, rfl, rfl⟩
  · exact (Slave.finish_moves c _ _ _).from_update rfl rfl rfl rfl rfl rfl rfl ⟨rfl, rfl, rfl, rfl⟩

theorem Slave.logGotLength_moves (c : Ctx) (v : Byte) (fs : List Frame) (sl : Slave) :
    Slave.Moves sl (Slave.logGotLength c v fs sl) := by
  unfold Slave.logGotLength
  split
  · exact (Slave.finish_moves c _ _ _).from_update rfl rfl rfl rfl rfl rfl rfl ⟨rfl, rfl, rfl, rfl⟩
  · exact (Slave.startReadByte_moves c _ _).from_update rfl rfl rfl rfl rfl rfl rfl ⟨rfl, rfl, rfl, rfl⟩

theorem Slave.logCheckCrc_moves (c : Ctx) (hi lo : Byte) (fs : List Frame) (sl : Slave) :
    Slave.Moves sl (Slave.logCheckCrc c hi lo fs sl) := by
  unfold Slave.logCheckCrc
  split
  · exact (Slave.waitFor_moves c _ _ _).from_update rfl rfl rfl rfl rfl rfl rfl ⟨rfl, rfl, rfl, rfl⟩
  · exact (Slave.finish_moves c _ _ _).from_update rfl rfl rfl rfl rfl rfl rfl ⟨rfl, rfl, rfl, rfl⟩

/-! ### Returning and consuming -/

theorem Slave.ret_moves (c : Ctx) (fs : List Frame) (v : Byte) (sl : Slave) : Slave.Moves sl (Slave.ret c v fs sl) := by
  induction fs generalizing v sl with
  | nil => exact Slave.finish_moves c _ _ _
  | cons f fs ih =>
    cases f with
    | readByte =>
      simp only [Slave.ret]
      split
      · exact (ih _ _).from_update rfl rfl rfl rfl rfl rfl rfl ⟨rfl, rfl, rfl, rfl⟩
      · exact (Slave.await_moves c _ _).from_update rfl rfl rfl rfl rfl rfl rfl ⟨rfl, rfl, rfl, rfl⟩
    | writeByte =>
      simp only [Slave.ret]
      split
      · exact (ih _ _).from_update rfl rfl rfl rfl rfl rfl rfl ⟨rfl, rfl, rfl, rfl⟩
      · exact (Slave.await_moves c _ _).from_update rfl rfl rfl rfl rfl rfl rfl ⟨rfl, rfl, rfl, rfl⟩
    | handleReset => exact Slave.unwind_moves c _ _ _ _
    | waitReset => exact (ih _ _).from_update rfl rfl rfl rfl rfl rfl rfl ⟨rfl, rfl, rfl, rfl⟩
    | busyEnd => exact Slave.finish_moves c _ _ _
    | dispatcher => exact Slave.dispatch_moves c _ _
    | romCommand => exact Slave.gotRomCommand_moves c _ _ _
    | functionCommand => exact Slave.gotFunctionCommand_moves c _ _ _
    | readRom i => exact Slave.readRomNext_moves c _ _ _
    | matchRom n => exact Slave.matchRomNext_moves c _ _ _ _
    | searchBit n => exact (Slave.await_moves c _ _).from_update rfl rfl rfl rfl rfl rfl rfl ⟨rfl, rfl, rfl, rfl⟩
    | searchComplement n => exact (Slave.await_moves c _ _).from_update rfl rfl rfl rfl rfl rfl rfl ⟨rfl, rfl, rfl, rfl⟩
    | searchDirection n => exact Slave.searchNext_moves c _ _ _ _
    | logServe => exact Slave.dispatcherReturns_moves c _ _ _ _
    | logLength => exact Slave.logGotLength_moves c _ _ _
    | logPayload i => exact (Slave.startReadByte_moves c _ _).from_update rfl rfl rfl rfl rfl rfl rfl ⟨rfl, rfl, rfl, rfl⟩
    | logCrcHigh => exact Slave.startReadByte_moves c _ _
    | logCrcLow hi => exact Slave.logCheckCrc_moves c _ _ _ _
    | logHold => exact (Slave.startWriteByte_moves c _ _ _).from_update rfl rfl rfl rfl rfl rfl rfl ⟨rfl, rfl, rfl, rfl⟩
    | logAck => exact ih _ _

theorem Slave.returnValue_moves (c : Ctx) (v : Byte) (sl : Slave) : Slave.Moves sl (Slave.returnValue c v sl) :=
  Slave.ret_moves c _ v sl

theorem Slave.presenceOver_moves (c : Ctx) (sl : Slave) : Slave.Moves sl (Slave.presenceOver c sl) :=
  (Slave.returnValue_moves c _ _).from_update rfl rfl rfl rfl rfl rfl rfl ⟨rfl, rfl, rfl, rfl⟩

theorem Slave.pulseOne_moves (c : Ctx) (sl : Slave) : Slave.Moves sl (Slave.pulseOne c sl) := by
  unfold Slave.pulseOne
  split
  · exact Slave.returnValue_moves c _ _
  · exact Slave.waitFor_moves c _ _ _
  · exact Slave.waitFor_moves c _ _ _
  · exact Slave.returnValue_moves c _ _
  · exact Slave.presenceOver_moves c _
  · exact Slave.await_moves c _ _
  · exact Slave.returnValue_moves c _ _
  all_goals exact Slave.Moves.refl _

theorem Slave.pulseZero_moves (c : Ctx) (sl : Slave) : Slave.Moves sl (Slave.pulseZero c sl) := by
  unfold Slave.pulseZero
  split
  · exact Slave.returnValue_moves c _ _
  · exact Slave.handleBad_moves c _
  · exact Slave.returnValue_moves c _ _
  · exact Slave.presenceOver_moves c _
  · exact Slave.await_moves c _ _
  · exact Slave.returnValue_moves c _ _
  all_goals exact Slave.Moves.refl _

theorem Slave.pulseBad_moves (c : Ctx) (sl : Slave) : Slave.Moves sl (Slave.pulseBad c sl) := by
  unfold Slave.pulseBad
  split
  · exact Slave.handleBad_moves c _
  · exact Slave.handleBad_moves c _
  · exact Slave.returnValue_moves c _ _
  · exact Slave.presenceOver_moves c _
  · exact Slave.await_moves c _ _
  · exact Slave.returnValue_moves c _ _
  all_goals exact Slave.Moves.refl _

theorem Slave.pulseReset_moves (c : Ctx) (sl : Slave) : Slave.Moves sl (Slave.pulseReset c sl) := by
  unfold Slave.pulseReset
  split
  · exact Slave.handleReset_moves c _
  · exact Slave.handleReset_moves c _
  · split
    · exact Slave.trap_moves _
    · exact Slave.handleReset_moves c _
  · exact Slave.presenceOver_moves c _
  · exact Slave.presencePulse_moves c _ _
  · exact Slave.returnValue_moves c _ _
  all_goals exact Slave.Moves.refl _

theorem Slave.consume_moves (c : Ctx) (sl : Slave) : Slave.Moves sl (Slave.consume c sl) := by
  unfold Slave.consume
  split
  · exact (Slave.pulseOne_moves c _).from_update rfl rfl rfl rfl rfl rfl rfl ⟨rfl, rfl, rfl, rfl⟩
  · exact (Slave.pulseZero_moves c _).from_update rfl rfl rfl rfl rfl rfl rfl ⟨rfl, rfl, rfl, rfl⟩
  · exact (Slave.pulseBad_moves c _).from_update rfl rfl rfl rfl rfl rfl rfl ⟨rfl, rfl, rfl, rfl⟩
  · exact (Slave.pulseReset_moves c _).from_update rfl rfl rfl rfl rfl rfl rfl ⟨rfl, rfl, rfl, rfl⟩

/-! ### The interrupt actions -/

theorem Slave.isrRise_moves (c : Ctx) (sl : Slave) : Slave.Moves sl (Slave.isrRise c sl) := by
  unfold Slave.isrRise
  split
  · exact Slave.trap_moves sl
  · unfold Slave.latchPulse
    split <;> exact ⟨⟨rfl, rfl, rfl, rfl, rfl, rfl, fun _ => id⟩, .inl ⟨rfl, rfl, rfl⟩, fun _ => id⟩

theorem Slave.edgeFall_moves (c : Ctx) (sl : Slave) : Slave.Moves sl (Slave.edgeFall c sl) := by
  unfold Slave.edgeFall
  split
  · exact ⟨⟨rfl, rfl, rfl, rfl, rfl, rfl, fun _ => id⟩, .inl ⟨rfl, rfl, rfl⟩, fun _ => id⟩
  · exact Slave.Moves.refl sl

theorem Slave.edgeRise_moves (c : Ctx) (sl : Slave) : Slave.Moves sl (Slave.edgeRise c sl) := by
  unfold Slave.edgeRise
  split
  · have h := Slave.isrRise_moves c sl
    exact ⟨⟨h.cfg, h.romId, h.alarmed, h.intEnable, h.intMask, h.upstream, h.not_begun⟩, h.drive, h.endless⟩
  · exact Slave.Moves.refl sl

theorem Slave.observe_moves (c : Ctx) (sl : Slave) : Slave.Moves sl (Slave.observe c sl) := by
  unfold Slave.observe
  split
  · exact Slave.Moves.refl sl
  · split
    · exact Slave.edgeRise_moves c sl
    · exact Slave.edgeFall_moves c sl

end Sys2Proof.Machine
end

