-- ==== Sys2Proof/Laws/Evolves.lean ====
section
/-! SUPPORT. What the passing of time does to a slave, whatever the traffic: its parameters stay, its ROM-ID changes only
to the one `S_INIT` loads, its interrupt stays enabled, a trapped slave stays as it is, and the queue of upstream code
only shrinks. -/

namespace Sys2Proof.Machine

/-- No `S_INIT` and no `S_SET_ALARM` is under way or to come. -/
def Slave.Untouched (sl : Slave) : Prop :=
  (sl.pos ≠ .begun .init ∧ ∀ a, sl.pos ≠ .begun (.setAlarm a)) ∧
    ∀ r ∈ sl.upstream, r.2 ≠ .init ∧ ∀ a, r.2 ≠ .setAlarm a

/-- Time has passed at a slave. -/
structure Slave.Evolves (sl sl' : Slave) : Prop where
  cfg : sl'.cfg = sl.cfg
  intMask : sl'.intMask = sl.intMask
  romId : sl'.romId = sl.romId ∨ sl'.romId = configRomId sl.cfg
  enabled : sl.intEnable = true → sl'.intEnable = true
  trapped : sl.trapped = true → sl' = sl
  untouched : sl.Untouched →
    sl'.Untouched ∧ sl'.romId = sl.romId ∧ sl'.alarmed = sl.alarmed ∧ sl'.intEnable = sl.intEnable

theorem Slave.Evolves.refl (sl : Slave) : Slave.Evolves sl sl :=
  ⟨rfl, rfl, .inl rfl, id, fun _ => rfl, fun h => ⟨h, rfl, rfl, rfl⟩⟩

theorem Slave.Evolves.trans {a b c : Slave} (h : Slave.Evolves a b) (h' : Slave.Evolves b c) : Slave.Evolves a c where
  cfg := h'.cfg.trans h.cfg
  intMask := h'.intMask.trans h.intMask
  romId := by
    rcases h'.romId with e | e
    · rcases h.romId with e' | e'
      · exact .inl (e.trans e')
      · exact .inr (e.trans e')
    · exact .inr (by rw [e, h.cfg])
  enabled := fun x => h'.enabled (h.enabled x)
  trapped := fun x => by
    have e := h.trapped x
    subst e
    exact h'.trapped x
  untouched := fun x => by
    obtain ⟨u, r, al, e⟩ := h.untouched x
    obtain ⟨u', r', al', e'⟩ := h'.untouched u
    exact ⟨u', r'.trans r, al'.trans al, e'.trans e⟩

/-- A procedure of a slave that is not trapped. -/
theorem Slave.Keeps.evolves {sl sl' : Slave} (h : Slave.Keeps sl sl') (ht : sl.trapped = false) :
    Slave.Evolves sl sl' where
  cfg := h.cfg
  intMask := h.intMask
  romId := .inl h.romId
  enabled := fun x => h.intEnable.trans x
  trapped := fun x => by simp [ht] at x
  untouched := fun x => ⟨⟨⟨fun y => x.1.1 (h.not_begun _ y), fun a y => x.1.2 a (h.not_begun _ y)⟩, h.upstream ▸ x.2⟩, h.romId, h.alarmed, h.intEnable⟩

theorem Slave.observe_evolves (c : Ctx) (sl : Slave) : Slave.Evolves sl (Slave.observe c sl) := by
  cases ht : sl.trapped
  · exact (Slave.observe_moves c sl).toKeeps.evolves ht
  · have : Slave.observe c sl = sl := by
      simp [Slave.observe, Slave.edgeRise, Slave.edgeFall, Slave.takesEdges, ht]
    rw [this]
    exact Slave.Evolves.refl sl

theorem Slave.expire_moves (c : Ctx) (sl : Slave) : Slave.Moves sl (Slave.expire c sl) := by
  unfold Slave.expire
  split
  · exact Slave.Moves.refl sl
  · split
    · split
      · exact Slave.timeout_moves c sl
      · exact Slave.Moves.refl sl
    all_goals exact Slave.Moves.refl sl

theorem Slave.expire_trapped (c : Ctx) (sl : Slave) (h : sl.trapped = true) : Slave.expire c sl = sl := by
  simp [Slave.expire, h]

/-- A wait without an end does not expire (R194). -/
theorem Slave.expire_endless (c : Ctx) (sl : Slave) (h : sl.wake = none) : Slave.expire c sl = sl := by
  unfold Slave.expire
  split
  · rfl
  · split <;> simp [Slave.due, h]

/-- Nor does one whose end is still to come. -/
theorem Slave.expire_early (c : Ctx) (sl : Slave) (h : sl.due c.now = false) : Slave.expire c sl = sl := by
  unfold Slave.expire
  split
  · rfl
  · split <;> simp [h]

/-- Only a wait for a pulse expires. -/
theorem Slave.expire_other (c : Ctx) (sl : Slave) (h : ∀ u, sl.pos ≠ .waitPulse u) : Slave.expire c sl = sl := by
  unfold Slave.expire
  split
  · rfl
  · split
    · rename_i u hu
      exact absurd hu (h u)
    all_goals rfl

/-- Without `S_WAIT_TIMEOUT` no wait that a procedure begins expires (R194). -/
theorem Slave.Moves.no_expire {sl sl' : Slave} (h : Slave.Moves sl sl') (c : Ctx) (ht : sl.cfg.waitTimeout = none)
    (he : sl.Endless) : Slave.expire c sl' = sl' := by
  by_cases hp : ∃ u, sl'.pos = .waitPulse u
  · obtain ⟨u, hu⟩ := hp
    exact Slave.expire_endless c sl' (h.endless ht he u hu)
  · exact Slave.expire_other c sl' fun u hu => hp ⟨u, hu⟩

theorem Slave.finish_expire (c : Ctx) (st : Status) (v : Byte) (sl : Slave) :
    Slave.expire c (Slave.finish c st v sl) = Slave.finish c st v sl := by
  apply Slave.expire_other
  intro u
  unfold Slave.finish Slave.opDone
  split <;> simp

/-- What base level does at an instant, by where it is. -/
theorem Slave.resume_eq (c : Ctx) (sl : Slave) : Slave.resume c sl =
    if sl.trapped then sl
    else
      match sl.pos with
      | .waitPulse _ =>
        if sl.pulseNew then Slave.expire c (Slave.consume c sl)
        else if sl.due c.now then Slave.timeout c sl else sl
      | .delay .sitOut =>
        if sl.due c.now then Slave.expire c (Slave.returnValue c 0 { sl with pulseNew := false }) else sl
      | .begun op => Slave.expire c (Slave.takeEvent c (Slave.start c op sl))
      | .delay .busyLatency => Slave.expire c (Slave.takeEvent c (Slave.emptyHold c sl))
      | .idle | .between | .delay .respond | .delay .hold | .delay .quiet | .delay .presence | .delay .handler => sl := by
  unfold Slave.resume Slave.proceed
  split
  · rename_i ht
    exact Slave.expire_trapped c sl ht
  · rename_i ht
    rcases hp : sl.pos with _ | _ | op | u | u
    · exact Slave.expire_other c sl (by simp [hp])
    · exact Slave.expire_other c sl (by simp [hp])
    · rfl
    · simp only [Slave.takeEvent, hp]
      split
      · rfl
      · rename_i hn
        simp [Slave.expire, ht, hp, hn]
    · cases u <;> dsimp only
      case sitOut =>
        split
        · rfl
        · exact Slave.expire_other c sl (by simp [hp])
      all_goals exact Slave.expire_other c sl (by simp [hp])

theorem Slave.expire_evolves (c : Ctx) (sl : Slave) : Slave.Evolves sl (Slave.expire c sl) := by
  cases ht : sl.trapped
  · exact (Slave.expire_moves c sl).toKeeps.evolves ht
  · rw [Slave.expire_trapped c sl ht]
    exact Slave.Evolves.refl sl

theorem Slave.takeEvent_moves (c : Ctx) (sl : Slave) : Slave.Moves sl (Slave.takeEvent c sl) := by
  unfold Slave.takeEvent
  split
  · split
    · exact Slave.consume_moves c sl
    · exact Slave.Moves.refl sl
  all_goals exact Slave.Moves.refl sl

theorem Slave.emptyHold_moves (c : Ctx) (sl : Slave) : Slave.Moves sl (Slave.emptyHold c sl) := by
  unfold Slave.emptyHold
  split
  · exact (Slave.await_moves c _ _).from_update rfl rfl rfl rfl rfl rfl rfl ⟨rfl, rfl, rfl, rfl⟩
  · exact Slave.Moves.refl sl

/-- An operation other than `S_INIT` and `S_SET_ALARM` begins as a procedure. -/
theorem Slave.start_moves (c : Ctx) (op : SlaveOp) (sl : Slave) (hi : op ≠ .init) (ha : ∀ a, op ≠ .setAlarm a) :
    Slave.Moves sl (Slave.start c op sl) := by
  cases op with
  | init => exact absurd rfl hi
  | setAlarm a => exact absurd rfl (ha a)
  | waitReset | readBit | writeBit arg | busyEnd =>
    exact (Slave.await_moves c _ _).from_update rfl rfl rfl rfl rfl rfl rfl ⟨rfl, rfl, rfl, rfl⟩
  | readByte => exact Slave.startReadByte_moves c _ _
  | writeByte arg => exact Slave.startWriteByte_moves c _ _ _
  | waitFunctionCmd => exact Slave.dispatch_moves c _ _
  | busyBegin => exact Slave.finish_moves c _ _ _
  | logReceive => exact Slave.startLogReceive_moves c _ _
  | logServe => exact Slave.dispatch_moves c _ _
  | illegal => exact Slave.finish_moves c _ _ _

/-- The rest of an operation's first instant, whichever it is: the line driver is as the operation's begin has left it. -/
theorem Slave.start_evolves (c : Ctx) (op : SlaveOp) (sl : Slave) (ht : sl.trapped = false) (hp : sl.pos = .begun op) :
    Slave.Evolves sl (Slave.start c op sl) ∧ Slave.SameDrive sl (Slave.start c op sl) ∧
      (Slave.start c op sl).trapped = false := by
  by_cases hi : op = .init
  · subst hi
    show Slave.Evolves sl (Slave.initialise c sl) ∧ Slave.SameDrive sl (Slave.initialise c sl) ∧
      (Slave.initialise c sl).trapped = false
    unfold Slave.initialise Slave.finish Slave.opDone
    split <;> exact ⟨⟨rfl, rfl, .inr rfl, fun _ => rfl, fun x => by simp [ht] at x, fun x => absurd hp x.1.1⟩,
      .inl ⟨rfl, rfl, rfl⟩, ht⟩
  · by_cases ha : ∃ a, op = .setAlarm a
    · obtain ⟨a, rfl⟩ := ha
      show Slave.Evolves sl (Slave.finish c .ok 0 { sl with alarmed := argBit a }) ∧ Slave.SameDrive sl (Slave.finish c .ok 0 { sl with alarmed := argBit a }) ∧
        (Slave.finish c .ok 0 { sl with alarmed := argBit a }).trapped = false
      unfold Slave.finish Slave.opDone
      split <;> exact ⟨⟨rfl, rfl, .inl rfl, id, fun x => by simp [ht] at x, fun x => absurd hp (x.1.2 a)⟩,
        .inl ⟨rfl, rfl, rfl⟩, ht⟩
    · have h := Slave.start_moves c op sl hi (by simpa using ha)
      refine ⟨h.toKeeps.evolves ht, h.drive, ?_⟩
      unfold Slave.start Slave.finishIllegal Slave.dispatch Slave.finish Slave.opDone
      repeat' split
      all_goals first | exact ht | exact absurd rfl hi

theorem Slave.proceed_evolves (c : Ctx) (sl : Slave) : Slave.Evolves sl (Slave.proceed c sl) := by
  unfold Slave.proceed
  split
  · exact Slave.Evolves.refl sl
  · rename_i ht
    have ht : sl.trapped = false := by simpa using ht
    split
    · exact (Slave.takeEvent_moves c sl).toKeeps.evolves ht
    · rename_i op hp
      obtain ⟨h1, -, h2⟩ := Slave.start_evolves c op sl ht hp
      exact h1.trans ((Slave.takeEvent_moves c _).toKeeps.evolves h2)
    · split
      · refine Slave.Keeps.evolves ?_ ht
        exact (Slave.returnValue_moves c 0 _).toKeeps.from_update rfl rfl rfl rfl rfl rfl rfl
      · exact Slave.Evolves.refl sl
    · exact ((Slave.emptyHold_moves c sl).trans (Slave.takeEvent_moves c _)).toKeeps.evolves ht
    all_goals exact Slave.Evolves.refl sl

theorem Slave.resume_evolves (c : Ctx) (sl : Slave) : Slave.Evolves sl (Slave.resume c sl) :=
  (Slave.proceed_evolves c sl).trans (Slave.expire_evolves c _)

theorem Slave.settle_evolves (c : Ctx) (sl : Slave) : Slave.Evolves sl (Slave.settle c sl) :=
  (Slave.observe_evolves c sl).trans (Slave.resume_evolves c _)

theorem Slave.endHold_moves (c : Ctx) (sl : Slave) : Slave.Keeps sl (Slave.endHold c sl) :=
  ⟨rfl, rfl, rfl, rfl, rfl, rfl, by simp [Slave.endHold]⟩

theorem Slave.logBusyBegin_moves (c : Ctx) (sl : Slave) : Slave.Keeps sl (Slave.logBusyBegin c sl) := by
  unfold Slave.logBusyBegin
  split
  · exact ⟨rfl, rfl, rfl, rfl, rfl, rfl, fun _ => id⟩
  · exact ⟨rfl, rfl, rfl, rfl, rfl, rfl, by simp⟩
  · exact ⟨rfl, rfl, rfl, rfl, rfl, rfl, by simp⟩

/-- What a requested operation's begin keeps. -/
theorem Slave.begun_keeps (op : SlaveOp) (sl : Slave) :
    (Slave.begun op sl).cfg = sl.cfg ∧ (Slave.begun op sl).intMask = sl.intMask ∧
    (Slave.begun op sl).romId = sl.romId ∧ (Slave.begun op sl).intEnable = sl.intEnable ∧
    (Slave.begun op sl).upstream = sl.upstream ∧ (Slave.begun op sl).alarmed = sl.alarmed := by
  cases op <;> exact ⟨rfl, rfl, rfl, rfl, rfl, rfl⟩

theorem Slave.startNext_evolves (sl : Slave) (ht : sl.trapped = false) : Slave.Evolves sl (Slave.startNext sl) := by
  unfold Slave.startNext
  split
  · rename_i hu
    exact ⟨rfl, rfl, .inl rfl, id, fun x => by simp [ht] at x, fun x => ⟨⟨by simp, x.2⟩, rfl, rfl, rfl⟩⟩
  · rename_i r op later hu
    split
    · obtain ⟨h1, h2, h3, h4, h5, h6⟩ := Slave.begun_keeps op { sl with upstream := later }
      refine ⟨h1, h2, .inl h3, fun x => h4.trans x, fun x => by simp [ht] at x, fun x => ⟨⟨?_, fun q hq => x.2 q ?_⟩, h3, h6, h4⟩⟩
      · have hop := x.2 (r, op) (by simp [hu])
        exact ⟨by simpa [Slave.begun] using hop.1, by simpa [Slave.begun] using hop.2⟩
      · rw [h5] at hq
        rw [hu]
        exact List.mem_cons_of_mem _ hq
    · exact ⟨rfl, rfl, .inl rfl, id, fun x => by simp [ht] at x, fun x => ⟨⟨x.1, x.2⟩, rfl, rfl, rfl⟩⟩

theorem Slave.fire_evolves (c : Ctx) (sl : Slave) : Slave.Evolves sl (Slave.fire c sl) := by
  unfold Slave.fire
  split
  · exact Slave.Evolves.refl sl
  · rename_i ht
    have ht : sl.trapped = false := by
      cases h : sl.trapped
      · rfl
      · simp [h] at ht
    split
    · refine Slave.Keeps.evolves ?_ ht
      exact (Slave.waitFor_moves c _ _ _).toKeeps.from_update rfl rfl rfl rfl rfl rfl rfl
    · refine Slave.Keeps.evolves ?_ ht
      exact (Slave.await_moves c _ _).toKeeps.from_update rfl rfl rfl rfl rfl rfl rfl
    · refine Slave.Keeps.evolves ?_ ht
      exact (Slave.waitFor_moves c _ _ _).toKeeps.from_update rfl rfl rfl rfl rfl rfl rfl
    · refine Slave.Keeps.evolves ?_ ht
      exact (Slave.await_moves c _ _).toKeeps.from_update rfl rfl rfl rfl rfl rfl rfl
    · exact (Slave.logBusyBegin_moves c sl).evolves ht
    · exact (Slave.endHold_moves c sl).evolves ht
    · exact Slave.startNext_evolves sl ht
    all_goals exact Slave.Evolves.refl sl

end Sys2Proof.Machine
end

