-- ==== Sys2Proof/Laws/Engine.lean ====
section
/-! SUPPORT. The passing of time, said once: whatever relation every slave's own steps keep, the whole machine keeps, and
the master, the parameters and the requests stay as they are. -/

namespace Sys2Proof.Machine

/-- A relation on a slave that its steps in time keep, at parameters `cfg`. -/
structure Closed (cfg : Config) (R : Slave → Slave → Prop) : Prop where
  refl : ∀ sl, R sl sl
  trans : ∀ a b c, R a b → R b c → R a c
  settle : ∀ c sl, c.cfg = cfg → R sl (Slave.settle c sl)
  fire : ∀ c sl, c.cfg = cfg → R sl (Slave.fire c sl)

theorem evolves_closed (cfg : Config) : Closed cfg Slave.Evolves :=
  ⟨Slave.Evolves.refl, fun _ _ _ => Slave.Evolves.trans, fun c sl _ => Slave.settle_evolves c sl,
   fun c sl _ => Slave.fire_evolves c sl⟩

/-- Time has passed: the slaves are related one by one and nothing else but the time and the outside drivers differs. -/
structure Passes (R : Slave → Slave → Prop) (s t : State) : Prop where
  cfg : t.cfg = s.cfg
  master : t.master = s.master
  requests : t.requests = s.requests
  slaves : List.Forall₂ R s.slaves t.slaves
  now : s.now ≤ t.now

theorem forall₂_map {α : Type} {R : α → α → Prop} {f : α → α} (l : List α) (h : ∀ x, R x (f x)) :
    List.Forall₂ R l (l.map f) := by
  induction l with
  | nil => exact .nil
  | cons x l ih => exact .cons (h x) ih

theorem forall₂_trans {α : Type} {R : α → α → Prop} (ht : ∀ a b c, R a b → R b c → R a c) {l m n : List α}
    (h : List.Forall₂ R l m) (h' : List.Forall₂ R m n) : List.Forall₂ R l n := by
  induction h generalizing n with
  | nil => cases h'; exact .nil
  | cons hab _ ih =>
    cases h' with
    | cons hbc h' => exact .cons (ht _ _ _ hab hbc) (ih h')

theorem forall₂_refl {α : Type} {R : α → α → Prop} (hr : ∀ a, R a a) (l : List α) : List.Forall₂ R l l := by
  induction l with
  | nil => exact .nil
  | cons x l ih => exact .cons (hr x) ih

theorem forall₂_getElem? {α : Type} {R : α → α → Prop} {l m : List α} (h : List.Forall₂ R l m) (k : Nat) (x : α)
    (hx : l[k]? = some x) : ∃ y, m[k]? = some y ∧ R x y := by
  induction h generalizing k with
  | nil => simp at hx
  | cons hab _ ih =>
    cases k with
    | zero => simp at hx; subst hx; exact ⟨_, rfl, hab⟩
    | succ k => simp at hx; simpa using ih k hx

variable {R : Slave → Slave → Prop} {s t u : State}

theorem Passes.refl (hr : ∀ sl, R sl sl) (s : State) : Passes R s s :=
  ⟨rfl, rfl, rfl, forall₂_refl hr _, Nat.le_refl _⟩

theorem Passes.trans (ht : ∀ a b c, R a b → R b c → R a c) (h : Passes R s t) (h' : Passes R t u) : Passes R s u :=
  ⟨h'.cfg.trans h.cfg, h'.master.trans h.master, h'.requests.trans h.requests, forall₂_trans ht h.slaves h'.slaves,
   Nat.le_trans h.now h'.now⟩

theorem settleOnce_passes (hR : Closed s.cfg R) : Passes R s (settleOnce s) :=
  ⟨rfl, rfl, rfl, forall₂_map _ fun sl => hR.settle _ sl rfl, Nat.le_refl _⟩

theorem settleLoop_passes (n : Nat) (hR : Closed s.cfg R) : Passes R s (settleLoop n s) := by
  induction n generalizing s with
  | zero => exact settleOnce_passes hR
  | succ n ih =>
    unfold settleLoop
    split
    · exact settleOnce_passes hR
    · exact (settleOnce_passes hR).trans hR.trans (ih hR)

/-- What the edges of one instant do. -/
theorem settle_passes (hR : Closed s.cfg R) : Passes R s (settle s) := settleLoop_passes _ hR

theorem moveOthers_passes (hr : ∀ sl, R sl sl) : Passes R s (moveOthers s) := by
  unfold moveOthers
  split
  · exact Passes.refl hr s
  · split
    · exact ⟨rfl, rfl, rfl, forall₂_refl hr _, Nat.le_refl _⟩
    · exact Passes.refl hr s

theorem fireAll_passes (hR : Closed s.cfg R) : Passes R s (fireAll s) := by
  have h : Passes R s { s with slaves := s.slaves.map (Slave.fire s.ctx) } :=
    ⟨rfl, rfl, rfl, forall₂_map _ fun sl => hR.fire _ sl rfl, Nat.le_refl _⟩
  exact h.trans hR.trans (moveOthers_passes hR.refl)

theorem goTo_passes (e : Nat) (hR : Closed s.cfg R) : Passes R s (goTo e s) := by
  have h : Passes R s { s with now := max s.now e } := ⟨rfl, rfl, rfl, forall₂_refl hR.refl _, Nat.le_max_left _ _⟩
  exact h.trans hR.trans (fireAll_passes hR)

theorem runBefore_passes (fuel : Nat) (e : Nat) (hR : Closed s.cfg R) : Passes R s (runBefore fuel e s) := by
  induction fuel generalizing s with
  | zero => exact Passes.refl hR.refl s
  | succ n ih =>
    unfold runBefore
    split
    · exact Passes.refl hR.refl s
    · rename_i e' _
      split
      · have h1 := goTo_passes e' hR
        have h2 := h1.trans hR.trans (settle_passes (s := goTo e' s) (h1.cfg ▸ hR))
        exact h2.trans hR.trans (ih (h2.cfg ▸ hR))
      · exact Passes.refl hR.refl s

/-- What a wait of the master does. -/
theorem wait_passes (d : Nat) (hR : Closed s.cfg R) : Passes R s (wait d s) := by
  unfold wait
  have h1 := settle_passes hR
  have h2 := h1.trans hR.trans (runBefore_passes d ((settle s).now + d) (h1.cfg ▸ hR))
  exact h2.trans hR.trans (goTo_passes _ (h2.cfg ▸ hR))

theorem pause_passes (d : Nat) (hR : Closed s.cfg R) : Passes R s (pause d s) := by
  unfold pause
  split
  · exact Passes.refl hR.refl s
  · exact wait_passes d hR

/-- The same of a `Wait(d)`, whatever it draws. -/
theorem mWait_passes (d : Nat) (hR : Closed s.cfg R) : Passes R s (mWait d s) := wait_passes _ hR

theorem idleStep_passes (hR : Closed s.cfg R) : Passes R s (idleStep s) := by
  unfold idleStep
  have h := settle_passes hR
  simp only
  split
  · exact ⟨h.cfg, h.master, h.requests, h.slaves, Nat.le_trans h.now (Nat.le_add_right _ _)⟩
  · rename_i e _
    have h2 := h.trans hR.trans (goTo_passes e (h.cfg ▸ hR))
    exact h2.trans hR.trans (settle_passes (h2.cfg ▸ hR))

theorem runOp_passes (k fuel : Nat) (hR : Closed s.cfg R) : Passes R s (runOp k fuel s) := by
  induction fuel generalizing s with
  | zero => exact Passes.refl hR.refl s
  | succ n ih =>
    unfold runOp
    split
    · split
      · exact Passes.refl hR.refl s
      · rename_i e _
        have h1 := goTo_passes e hR
        have h2 := h1.trans hR.trans (settle_passes (s := goTo e s) (h1.cfg ▸ hR))
        exact h2.trans hR.trans (ih (h2.cfg ▸ hR))
    · exact Passes.refl hR.refl s

theorem runBegun_passes (k : Nat) (hR : Closed s.cfg R) : Passes R s (runBegun k s) := by
  unfold runBegun
  split
  · exact Passes.refl hR.refl s
  · have h := settle_passes hR
    exact h.trans hR.trans (runOp_passes k requestFuel (h.cfg ▸ hR))

/-! ### The time -/

@[simp] theorem settleOnce_now (s : State) : (settleOnce s).now = s.now := rfl

@[simp] theorem settleLoop_now (n : Nat) (s : State) : (settleLoop n s).now = s.now := by
  induction n generalizing s with
  | zero => rfl
  | succ n ih => unfold settleLoop; split <;> simp [ih]

@[simp] theorem settle_now (s : State) : (settle s).now = s.now := settleLoop_now _ s

@[simp] theorem moveOthers_now (s : State) : (moveOthers s).now = s.now := by
  unfold moveOthers
  split
  · rfl
  · split <;> rfl

@[simp] theorem fireAll_now (s : State) : (fireAll s).now = s.now := by simp [fireAll]

@[simp] theorem goTo_now (e : Nat) (s : State) : (goTo e s).now = max s.now e := by simp [goTo]

theorem runBefore_now (fuel : Nat) (e : Nat) (s : State) (h : s.now ≤ e) : (runBefore fuel e s).now ≤ e := by
  induction fuel generalizing s with
  | zero => exact h
  | succ n ih =>
    unfold runBefore
    split
    · exact h
    · split
      · exact ih _ (by simp; omega)
      · exact h

/-- An interval lasts exactly as long as it says. -/
@[simp] theorem wait_now (d : Nat) (s : State) : (wait d s).now = s.now + d := by
  unfold wait
  have := runBefore_now d ((settle s).now + d) (settle s) (by omega)
  simp only [goTo_now, settle_now] at *
  omega

@[simp] theorem pause_now (d : Nat) (s : State) : (pause d s).now = s.now + d := by
  unfold pause
  split <;> rename_i h <;> simp [h]

theorem Took.refl (s : State) : Took s s 0 0 := ⟨Nat.le_refl _, by simp⟩

theorem Took.trans {n m d e : Nat} (h : Took s t n d) (hc : t.cfg = s.cfg) (h' : Took t u m e) :
    Took s u (n + m) (d + e) := by
  obtain ⟨h1, h2⟩ := h
  obtain ⟨h3, h4⟩ := h'
  rw [hc] at h4
  refine ⟨by omega, ?_⟩
  rw [Nat.add_mul]
  omega

/-- The bounds of the same time, written otherwise. -/
theorem Took.of_eq {n m d e : Nat} (h : Took s t n d) (hn : n = m) (hd : d = e) : Took s t m e := hn ▸ hd ▸ h

/-- With `DELAY_SLACK = 0` the time is exact. -/
theorem Took.exact {n d : Nat} (h : Took s t n d) (h0 : s.cfg.delaySlack = 0) : t.now = s.now + d := by
  have := h.most
  rw [h0, Nat.mul_zero] at this
  exact Nat.le_antisymm this h.least

/-- Only the time and the shared parameters matter. -/
theorem Took.congr {s' t' : State} {n d : Nat} (h : Took s t n d) (hs : s'.now = s.now) (hc : s'.cfg = s.cfg)
    (ht : t'.now = t.now) : Took s' t' n d :=
  ⟨by rw [hs, ht]; exact h.least, by rw [hs, ht, hc]; exact h.most⟩

/-- The master's registers do not matter to it. -/
theorem Took.withMaster {n d : Nat} (h : Took s t n d) (m : Master) : Took s { t with master := m } n d :=
  h.congr rfl rfl rfl

theorem Took.ofMaster {n d : Nat} {m : Master} (h : Took { s with master := m } t n d) : Took s t n d :=
  h.congr rfl rfl rfl

theorem mWait_took (d : Nat) (s : State) : Took s (mWait d s) 1 d := by
  have := Config.slack_le s.cfg (Config.masterDraw s.now)
  constructor <;> rw [mWait, wait_now] <;> omega

end Sys2Proof.Machine
end

