-- ==== Sys2Proof/Laws/Master.lean ====
section
/-! SUPPORT. The master's operations, one lemma each: what they leave of the master's registers, how long they last, and that
the slaves only evolve (any relation their own steps keep). -/

namespace Sys2Proof.Machine

/-- The slaves have moved, related one by one; nothing is said of the master. -/
structure Serves (R : Slave → Slave → Prop) (s t : State) : Prop where
  cfg : t.cfg = s.cfg
  requests : t.requests = s.requests
  slaves : List.Forall₂ R s.slaves t.slaves

variable {R : Slave → Slave → Prop} {s t u : State}

theorem Passes.serves (h : Passes R s t) : Serves R s t := ⟨h.cfg, h.requests, h.slaves⟩

theorem Serves.trans (ht : ∀ a b c, R a b → R b c → R a c) (h : Serves R s t) (h' : Serves R t u) : Serves R s u :=
  ⟨h'.cfg.trans h.cfg, h'.requests.trans h.requests, forall₂_trans ht h.slaves h'.slaves⟩

/-- The master's registers are as before but for its driver, shifter and slot counter (R25, R26). -/
def keepsButShifter (m m' : Master) : Prop :=
  ∃ d sh bc, m' = { m with drive := d, shift := sh, bitcnt := bc }

theorem settle_master (s : State) : (settle s).master = s.master :=
  (settle_passes (evolves_closed s.cfg)).master

theorem wait_master (d : Nat) (s : State) : (wait d s).master = s.master :=
  (wait_passes d (evolves_closed s.cfg)).master

theorem wait_cfg (d : Nat) (s : State) : (wait d s).cfg = s.cfg := (wait_passes d (evolves_closed s.cfg)).cfg

theorem settle_cfg (s : State) : (settle s).cfg = s.cfg := (settle_passes (evolves_closed s.cfg)).cfg

@[simp] theorem mWait_master (d : Nat) (s : State) : (mWait d s).master = s.master := wait_master _ s

@[simp] theorem mWait_cfg (d : Nat) (s : State) : (mWait d s).cfg = s.cfg := wait_cfg _ s

/-! ### A pulse of the master and its slots -/

theorem mPulse_serves (low high : Nat) (hR : Closed s.cfg R) : Serves R s (mPulse low high s) := by
  have h1 : Passes R (mDriveLow s) (mWait low (mDriveLow s)) := mWait_passes low hR
  have h2 : Passes R (mRelease (mWait low (mDriveLow s))) (mPulse low high s) :=
    mWait_passes high (by rw [mRelease_cfg, h1.cfg]; exact hR)
  exact ⟨h2.cfg.trans h1.cfg, h2.requests.trans h1.requests, forall₂_trans hR.trans h1.slaves h2.slaves⟩

@[simp] theorem mPulse_cfg (low high : Nat) (s : State) : (mPulse low high s).cfg = s.cfg := by simp [mPulse]

theorem mPulse_took (low high : Nat) (s : State) : Took s (mPulse low high s) 2 (low + high) := by
  have h1 : Took s (mWait low (mDriveLow s)) 1 low := (mWait_took low (mDriveLow s)).congr rfl rfl rfl
  have h2 : Took (mWait low (mDriveLow s)) (mPulse low high s) 1 high :=
    (mWait_took high (mRelease (mWait low (mDriveLow s)))).congr rfl rfl rfl
  exact h1.trans (mWait_cfg _ _) h2

theorem mPulse_master (low high : Nat) (s : State) : (mPulse low high s).master = { s.master with drive := false } := by
  simp only [mPulse, mWait_master, mRelease_master, mDriveLow_master]

theorem mResetExchange_serves (hR : Closed s.cfg R) : Serves R s (mResetExchange s).2 := by
  have h1 := mPulse_serves (tRstl s.cfg) (tPds s.cfg) hR
  exact h1.trans hR.trans (mWait_passes _ (by rw [h1.cfg]; exact hR)).serves

@[simp] theorem mResetExchange_cfg (s : State) : (mResetExchange s).2.cfg = s.cfg := by simp [mResetExchange]

/-- The reset exchange lasts 960 µs (R101). -/
theorem mResetExchange_took (s : State) : Took s (mResetExchange s).2 3 (us s.cfg 960) :=
  ((mPulse_took _ _ s).trans (mPulse_cfg _ _ _) (mWait_took _ _)).of_eq rfl (by
    simp only [tRstl, tPds, tRsth2, us_add])

theorem mResetExchange_master (s : State) : (mResetExchange s).2.master = { s.master with drive := false } := by
  simp only [mResetExchange, mWait_master, mPulse_master]

theorem mWriteSlot_serves (b : Bool) (hR : Closed s.cfg R) : Serves R s (mWriteSlot b s) := by
  unfold mWriteSlot
  split <;> exact mPulse_serves _ _ hR

@[simp] theorem mWriteSlot_cfg (b : Bool) (s : State) : (mWriteSlot b s).cfg = s.cfg := by
  unfold mWriteSlot
  split <;> simp

/-- Every slot lasts 70 µs (R146). -/
theorem mWriteSlot_took (b : Bool) (s : State) : Took s (mWriteSlot b s) 2 (us s.cfg 70) := by
  unfold mWriteSlot
  split <;> exact (mPulse_took _ _ s).of_eq rfl (us_add _ _ _)

theorem mWriteSlot_master (b : Bool) (s : State) : (mWriteSlot b s).master = { s.master with drive := false } := by
  unfold mWriteSlot
  split <;> exact mPulse_master _ _ s

theorem mReadSlot_serves (hR : Closed s.cfg R) : Serves R s (mReadSlot s).2 := by
  have h1 := mPulse_serves (tRl s.cfg) (tRs s.cfg) hR
  exact h1.trans hR.trans (mWait_passes _ (by rw [h1.cfg]; exact hR)).serves

@[simp] theorem mReadSlot_cfg (s : State) : (mReadSlot s).2.cfg = s.cfg := by simp [mReadSlot]

theorem mReadSlot_took (s : State) : Took s (mReadSlot s).2 3 (us s.cfg 70) :=
  ((mPulse_took _ _ s).trans (mPulse_cfg _ _ _) (mWait_took _ _)).of_eq rfl (by
    simp only [tRl, tRs, tRh, us_add])

theorem mReadSlot_master (s : State) : (mReadSlot s).2.master = { s.master with drive := false } := by
  simp only [mReadSlot, mWait_master, mPulse_master]

/-! ### Bytes -/

theorem mShiftOut_serves (n : Nat) (hR : Closed s.cfg R) : Serves R s (mShiftOut n s) := by
  induction n generalizing s with
  | zero => exact ⟨rfl, rfl, forall₂_refl hR.refl _⟩
  | succ n ih =>
    have h1 := mWriteSlot_serves (s.master.shift.getLsbD 0) hR
    have h2 := ih (s := { mWriteSlot (s.master.shift.getLsbD 0) s with
      master := { (mWriteSlot (s.master.shift.getLsbD 0) s).master with
        shift := (mWriteSlot (s.master.shift.getLsbD 0) s).master.shift >>> 1
        bitcnt := (mWriteSlot (s.master.shift.getLsbD 0) s).master.bitcnt + 1 } }) (h1.cfg ▸ hR)
    exact ⟨h2.cfg.trans h1.cfg, h2.requests.trans h1.requests, forall₂_trans hR.trans h1.slaves h2.slaves⟩

@[simp] theorem mShiftOut_cfg (n : Nat) (s : State) : (mShiftOut n s).cfg = s.cfg := by
  induction n generalizing s with
  | zero => rfl
  | succ n ih => exact (ih _).trans (mWriteSlot_cfg _ s)

theorem mShiftOut_took (n : Nat) (s : State) : Took s (mShiftOut n s) (n * 2) (n * us s.cfg 70) := by
  induction n generalizing s with
  | zero => exact (Took.refl s).of_eq (by simp) (by simp)
  | succ n ih =>
    have h := ih { mWriteSlot (s.master.shift.getLsbD 0) s with
      master := { (mWriteSlot (s.master.shift.getLsbD 0) s).master with
        shift := (mWriteSlot (s.master.shift.getLsbD 0) s).master.shift >>> 1
        bitcnt := (mWriteSlot (s.master.shift.getLsbD 0) s).master.bitcnt + 1 } }
    refine Took.of_eq ((mWriteSlot_took (s.master.shift.getLsbD 0) s).trans (mWriteSlot_cfg _ s)
      h.ofMaster) ?_ ?_
    · omega
    · rw [Nat.add_mul, Nat.one_mul, Nat.add_comm, mWriteSlot_cfg]

theorem mShiftOut_master (n : Nat) (s : State) :
    ∃ d, (mShiftOut n s).master =
      { s.master with drive := d, shift := s.master.shift >>> n, bitcnt := s.master.bitcnt + BitVec.ofNat 4 n } ∧
      (0 < n → d = false) := by
  induction n generalizing s with
  | zero => exact ⟨s.master.drive, by simp [mShiftOut], by simp⟩
  | succ n ih =>
    simp only [mShiftOut]
    obtain ⟨d, hd, h0⟩ := ih { mWriteSlot (s.master.shift.getLsbD 0) s with
      master := { (mWriteSlot (s.master.shift.getLsbD 0) s).master with
        shift := (mWriteSlot (s.master.shift.getLsbD 0) s).master.shift >>> 1
        bitcnt := (mWriteSlot (s.master.shift.getLsbD 0) s).master.bitcnt + 1 } }
    refine ⟨false, ?_, fun _ => rfl⟩
    rw [hd]
    simp only [mWriteSlot_master, Master.mk.injEq, true_and, and_true]
    refine ⟨?_, ?_, ?_⟩
    · cases n with
      | zero => simp [mShiftOut] at hd; simpa [mWriteSlot_master] using hd
      | succ n => exact h0 (by omega)
    · rw [← BitVec.shiftRight_add, Nat.add_comm]
    · apply BitVec.eq_of_toNat_eq
      simp [BitVec.toNat_add]
      omega

theorem mSendByte_serves (v : Byte) (hR : Closed s.cfg R) : Serves R s (mSendByte v s) := by
  have h := mShiftOut_serves (s := { s with master := { s.master with shift := v, bitcnt := 0 } }) 8 hR
  exact ⟨h.cfg, h.requests, h.slaves⟩

@[simp] theorem mSendByte_cfg (v : Byte) (s : State) : (mSendByte v s).cfg = s.cfg := mShiftOut_cfg 8 _

/-- A byte lasts 560 µs (R109). -/
theorem mSendByte_took (v : Byte) (s : State) : Took s (mSendByte v s) 16 (us s.cfg 560) :=
  Took.congr (((mShiftOut_took 8 { s with master := { s.master with shift := v, bitcnt := 0 } })).of_eq rfl
    (us_mul s.cfg 8 70)) rfl rfl rfl

theorem mSendByte_master (v : Byte) (s : State) :
    (mSendByte v s).master = { s.master with drive := false, shift := 0, bitcnt := 8 } := by
  obtain ⟨d, hd, h0⟩ := mShiftOut_master 8 { s with master := { s.master with shift := v, bitcnt := 0 } }
  obtain rfl := h0 (by decide)
  refine hd.trans ?_
  dsimp only
  congr 1
  exact BitVec.ushiftRight_eq_zero (by decide)

theorem mShiftIn_serves (n : Nat) (hR : Closed s.cfg R) : Serves R s (mShiftIn n s) := by
  induction n generalizing s with
  | zero => exact ⟨rfl, rfl, forall₂_refl hR.refl _⟩
  | succ n ih =>
    have h1 := mReadSlot_serves hR
    have h2 := ih (s := { (mReadSlot s).2 with
      master := { (mReadSlot s).2.master with
        shift := shiftIn (mReadSlot s).2.master.shift (mReadSlot s).1
        bitcnt := (mReadSlot s).2.master.bitcnt + 1 } }) (h1.cfg ▸ hR)
    exact ⟨h2.cfg.trans h1.cfg, h2.requests.trans h1.requests, forall₂_trans hR.trans h1.slaves h2.slaves⟩

@[simp] theorem mShiftIn_cfg (n : Nat) (s : State) : (mShiftIn n s).cfg = s.cfg := by
  induction n generalizing s with
  | zero => rfl
  | succ n ih => exact (ih _).trans (mReadSlot_cfg s)

theorem mShiftIn_took (n : Nat) (s : State) : Took s (mShiftIn n s) (n * 3) (n * us s.cfg 70) := by
  induction n generalizing s with
  | zero => exact (Took.refl s).of_eq (by simp) (by simp)
  | succ n ih =>
    have h := ih { (mReadSlot s).2 with
      master := { (mReadSlot s).2.master with
        shift := shiftIn (mReadSlot s).2.master.shift (mReadSlot s).1
        bitcnt := (mReadSlot s).2.master.bitcnt + 1 } }
    refine Took.of_eq ((mReadSlot_took s).trans (mReadSlot_cfg s) h.ofMaster) ?_ ?_
    · omega
    · rw [Nat.add_mul, Nat.one_mul, Nat.add_comm, mReadSlot_cfg]

theorem mShiftIn_master (n : Nat) (s : State) :
    ∃ d sh, (mShiftIn n s).master =
      { s.master with drive := d, shift := sh, bitcnt := s.master.bitcnt + BitVec.ofNat 4 n } ∧ (0 < n → d = false) := by
  induction n generalizing s with
  | zero => exact ⟨s.master.drive, s.master.shift, by simp [mShiftIn], by simp⟩
  | succ n ih =>
    simp only [mShiftIn]
    obtain ⟨d, sh, hd, h0⟩ := ih { (mReadSlot s).2 with
      master := { (mReadSlot s).2.master with
        shift := shiftIn (mReadSlot s).2.master.shift (mReadSlot s).1
        bitcnt := (mReadSlot s).2.master.bitcnt + 1 } }
    refine ⟨false, sh, ?_, fun _ => rfl⟩
    rw [hd]
    simp only [mReadSlot_master, Master.mk.injEq, true_and, and_true]
    refine ⟨?_, ?_⟩
    · cases n with
      | zero => simp [mShiftIn] at hd; exact hd.1.symm.trans (by rw [mReadSlot_master])
      | succ n => exact h0 (by omega)
    · apply BitVec.eq_of_toNat_eq
      simp [BitVec.toNat_add]
      omega

theorem mReceiveByte_serves (hR : Closed s.cfg R) : Serves R s (mReceiveByte s).2 := by
  have h := mShiftIn_serves (s := { s with master := { s.master with shift := 0, bitcnt := 0 } }) 8 hR
  exact ⟨h.cfg, h.requests, h.slaves⟩

@[simp] theorem mReceiveByte_cfg (s : State) : (mReceiveByte s).2.cfg = s.cfg := mShiftIn_cfg 8 _

theorem mReceiveByte_took (s : State) : Took s (mReceiveByte s).2 24 (us s.cfg 560) :=
  Took.congr (((mShiftIn_took 8 { s with master := { s.master with shift := 0, bitcnt := 0 } })).of_eq rfl
    (us_mul s.cfg 8 70)) rfl rfl rfl

theorem mReceiveByte_master (s : State) :
    (mReceiveByte s).2.master = { s.master with drive := false, shift := (mReceiveByte s).1, bitcnt := 8 } := by
  obtain ⟨d, sh, hd, h0⟩ := mShiftIn_master 8 { s with master := { s.master with shift := 0, bitcnt := 0 } }
  have hsh : (mReceiveByte s).1 = sh := by simp only [mReceiveByte, hd]
  rw [hsh]
  obtain rfl := h0 (by decide)
  exact hd

theorem mSendBytes_serves (bs : List Byte) (hR : Closed s.cfg R) : Serves R s (mSendBytes bs s) := by
  induction bs generalizing s with
  | nil => exact ⟨rfl, rfl, forall₂_refl hR.refl _⟩
  | cons b bs ih =>
    have h1 := mSendByte_serves b hR
    exact h1.trans hR.trans (ih (h1.cfg ▸ hR))

@[simp] theorem mSendBytes_cfg (bs : List Byte) (s : State) : (mSendBytes bs s).cfg = s.cfg := by
  induction bs generalizing s with
  | nil => rfl
  | cons b bs ih => exact (ih _).trans (mSendByte_cfg b s)

theorem mSendBytes_took (bs : List Byte) (s : State) : Took s (mSendBytes bs s) (bs.length * 16) (bs.length * us s.cfg 560) := by
  induction bs generalizing s with
  | nil => exact (Took.refl s).of_eq (by simp) (by simp)
  | cons b bs ih =>
    refine Took.of_eq ((mSendByte_took b s).trans (mSendByte_cfg b s) (ih _)) ?_ ?_
    · simp only [List.length_cons]; omega
    · rw [List.length_cons, Nat.add_mul, Nat.one_mul, Nat.add_comm, mSendByte_cfg]

theorem mSendBytes_master (b : Byte) (bs : List Byte) (s : State) :
    (mSendBytes (b :: bs) s).master = { s.master with drive := false, shift := 0, bitcnt := 8 } := by
  induction bs generalizing b s with
  | nil => exact mSendByte_master b s
  | cons b' bs ih => rw [mSendBytes, ih, mSendByte_master]

/-! ### The end of an operation -/

theorem mReport_serves (st : Status) (v : Byte) (hR : Closed s.cfg R) : Serves R s (mReport st v s) :=
  ⟨rfl, rfl, forall₂_refl hR.refl _⟩

end Sys2Proof.Machine
end

