-- ==== Sys2Proof/Laws/Alone.lean ====
section
/-! SUPPORT. A slave at rest does not touch the line (spec/20_memory.md R71, R90(e)): a bus on which all slaves but `k` are at
rest behaves as slave `k` alone on the line. -/

namespace Sys2Proof.Machine

variable {k : Nat} {s v : State}

@[simp] theorem settleOnce_slaves (s : State) : (settleOnce s).slaves = s.slaves.map (Slave.settle s.ctx) := rfl
@[simp] theorem settleOnce_master (s : State) : (settleOnce s).master = s.master := rfl
@[simp] theorem settleOnce_otherDrive (s : State) : (settleOnce s).otherDrive = s.otherDrive := rfl

theorem Slave.settle_sameDrive (c : Ctx) (sl : Slave) : Slave.SameDrive sl (Slave.settle c sl) := by
  refine (Slave.observe_moves c sl).drive.trans (Slave.SameDrive.trans ?_ (Slave.expire_moves c _).drive)
  unfold Slave.proceed
  split
  · exact (Slave.Moves.refl _).drive
  · split
    · exact (Slave.takeEvent_moves c _).drive
    · rename_i ht _ op hp
      exact (Slave.start_evolves c op _ (by simpa using ht) hp).2.1.trans (Slave.takeEvent_moves c _).drive
    · split
      · exact ((Slave.returnValue_moves c 0 _).from_update rfl rfl rfl rfl rfl rfl rfl ⟨rfl, rfl, rfl, rfl⟩).drive
      · exact (Slave.Moves.refl _).drive
    · exact ((Slave.emptyHold_moves c _).trans (Slave.takeEvent_moves c _)).drive
    all_goals exact (Slave.Moves.refl _).drive

theorem Slave.settle_trapped (c : Ctx) (sl : Slave) (h : sl.trapped = true) : Slave.settle c sl = sl :=
  (Slave.settle_evolves c sl).trapped h

theorem Slave.resume_atRest (c : Ctx) (sl : Slave) (h : sl.pos = .idle) : Slave.resume c sl = sl := by
  rw [Slave.resume_eq]
  split
  · rfl
  · simp [h]

theorem Slave.fire_atRest (c : Ctx) (sl : Slave) (h : sl.AtRest) : Slave.fire c sl = sl := by
  simp [Slave.fire, Slave.due, h.2.1]

theorem Slave.settle_atRest (c : Ctx) (sl : Slave) (h : sl.AtRest) : (Slave.settle c sl).AtRest := by
  obtain ⟨hp, hw, hd⟩ := h
  have key : (Slave.observe c sl).AtRest := by
    unfold Slave.observe
    split
    · exact ⟨hp, hw, hd⟩
    · split
      · unfold Slave.edgeRise Slave.isrRise Slave.latchPulse
        split
        · split
          · exact ⟨rfl, rfl, rfl⟩
          · split <;> exact ⟨hp, hw, hd⟩
        · exact ⟨hp, hw, hd⟩
      · unfold Slave.edgeFall
        split <;> exact ⟨hp, hw, hd⟩
  rw [Slave.settle, Slave.resume_atRest c _ key.1]
  exact key

theorem Slave.fire_keeps_atRest (c : Ctx) (sl : Slave) (h : sl.AtRest) : (Slave.fire c sl).AtRest := by
  rw [Slave.fire_atRest c sl h]; exact h

/-! ### The line and the next event -/

theorem Alone.line_eq (h : Alone k s v) : line v = line s := by
  obtain ⟨sl, hk, hv⟩ := h.slave
  have : s.slaves.any (·.drive) = sl.drive := by
    cases hd : sl.drive with
    | true => exact List.any_eq_true.mpr ⟨sl, List.mem_of_getElem? hk, hd⟩
    | false =>
      rw [List.any_eq_false]
      intro x hx
      obtain ⟨j, hj⟩ := List.mem_iff_getElem?.mp hx
      by_cases e : j = k
      · subst e
        rw [hk] at hj
        injection hj with hj
        subst hj
        simp [hd]
      · simp [(h.rest j x e hj).2.2]
  simp [line, hv, h.master, h.otherDrive, this]

theorem Alone.ctx_eq (h : Alone k s v) : v.ctx = s.ctx := by
  simp [State.ctx, h.cfg, h.now, h.line_eq]

theorem foldr_earlier_none (l : List Slave) (i : Option Nat) (h : ∀ sl ∈ l, sl.nextWake = none) :
    l.foldr (fun sl t => earlier sl.nextWake t) i = i := by
  induction l with
  | nil => rfl
  | cons x l ih =>
    simp only [List.foldr_cons, h x (by simp), earlier]
    exact ih fun sl hsl => h sl (by simp [hsl])

theorem foldr_earlier_one (l : List Slave) (i : Option Nat) (k : Nat) (sl : Slave) (hk : l[k]? = some sl)
    (h : ∀ j x, j ≠ k → l[j]? = some x → x.nextWake = none) :
    l.foldr (fun sl t => earlier sl.nextWake t) i = earlier sl.nextWake i := by
  induction l generalizing k with
  | nil => simp at hk
  | cons x l ih =>
    cases k with
    | zero =>
      simp at hk
      subst hk
      rw [List.foldr_cons, foldr_earlier_none l i]
      intro y hy
      obtain ⟨j, hj⟩ := List.mem_iff_getElem?.mp hy
      exact h (j + 1) y (by omega) (by simpa using hj)
    | succ k =>
      rw [List.foldr_cons, h 0 x (by omega) (by simp)]
      simp only [earlier]
      exact ih k (by simpa using hk) fun j y hj hy => h (j + 1) y (by omega) (by simpa using hy)

theorem Slave.AtRest.nextWake {sl : Slave} (h : sl.AtRest) : sl.nextWake = none := by
  simp [Slave.nextWake, h.2.1]

theorem Alone.nextEvent_eq (h : Alone k s v) : nextEvent v = nextEvent s := by
  obtain ⟨sl, hk, hv⟩ := h.slave
  unfold nextEvent nextOther
  rw [foldr_earlier_one s.slaves _ k sl hk fun j x hj hx => (h.rest j x hj hx).nextWake, hv, h.otherWave, h.now]
  rfl

/-! ### Time passes alike -/

/-- Every slave steps by one function that keeps slaves at rest at rest. -/
theorem Alone.map (h : Alone k s v) (f : Slave → Slave) (hf : ∀ sl, sl.AtRest → (f sl).AtRest) :
    Alone k { s with slaves := s.slaves.map f } { v with slaves := v.slaves.map f } := by
  obtain ⟨sl, hk, hv⟩ := h.slave
  refine ⟨h.cfg, h.now, h.master, h.otherDrive, h.otherWave, h.requests, ⟨f sl, by simp [hk], by simp [hv]⟩, ?_⟩
  intro j x hj hx
  simp only [List.getElem?_map, Option.map_eq_some_iff] at hx
  obtain ⟨y, hy, rfl⟩ := hx
  exact hf y (h.rest j y hj hy)

theorem Alone.settleOnce (h : Alone k s v) : Alone k (settleOnce s) (settleOnce v) := by
  have := h.map (Slave.settle s.ctx) (Slave.settle_atRest s.ctx)
  unfold Machine.settleOnce
  rw [h.ctx_eq]
  exact this

/-- A second turn of the same instant's edges changes the line no more. -/
theorem Alone.settled (h : Alone k s v) (hl : line (Machine.settleOnce s) ≠ line s) :
    line (Machine.settleOnce (Machine.settleOnce s)) = line (Machine.settleOnce s) := by
  have h1 := h.settleOnce
  have h2 := h1.settleOnce
  obtain ⟨sl, hk, hv⟩ := h.slave
  rw [← h1.line_eq, ← h.line_eq] at hl
  rw [← h2.line_eq, ← h1.line_eq]
  have hs : (Machine.settleOnce v).slaves = [Slave.settle v.ctx sl] := by simp [Machine.settleOnce, hv]
  rcases Slave.settle_sameDrive v.ctx sl with ⟨hd, -, -⟩ | ⟨-, -, ht⟩
  · exact absurd (by simp [line, hv, hd]) hl
  · have hs2 : (Machine.settleOnce (Machine.settleOnce v)).slaves = [Slave.settle v.ctx sl] := by
      rw [settleOnce_slaves, hs, List.map_cons, List.map_nil, Slave.settle_trapped _ _ ht]
    simp only [line, hs, hs2, settleOnce_master, settleOnce_otherDrive]

theorem settleLoop_succ (n : Nat) (s : State)
    (h : line (settleOnce s) ≠ line s → line (settleOnce (settleOnce s)) = line (settleOnce s)) :
    settleLoop (n + 1) s = if line (settleOnce s) = line s then settleOnce s else settleOnce (settleOnce s) := by
  unfold settleLoop
  split
  · rfl
  · rename_i hl
    cases n with
    | zero => rfl
    | succ n => unfold settleLoop; simp [h hl]

theorem Alone.settle (h : Alone k s v) : Alone k (settle s) (settle v) := by
  obtain ⟨sl, hk, hv⟩ := h.slave
  have hn : ∃ n, s.slaves.length = n + 1 := by
    cases hs : s.slaves with
    | nil => simp [hs] at hk
    | cons x l => exact ⟨l.length, rfl⟩
  obtain ⟨n, hn⟩ := hn
  have h1 := h.settleOnce
  have hl : line (Machine.settleOnce v) ≠ line v →
      line (Machine.settleOnce (Machine.settleOnce v)) = line (Machine.settleOnce v) := by
    rw [h1.settleOnce.line_eq, h1.line_eq, h.line_eq]
    exact h.settled
  unfold Machine.settle
  rw [hn, hv, List.length_singleton, settleLoop_succ n s h.settled, settleLoop_succ 0 v hl, h1.line_eq, h.line_eq]
  split
  · exact h1
  · exact h1.settleOnce

theorem Alone.moveOthers (h : Alone k s v) : Alone k (moveOthers s) (moveOthers v) := by
  unfold Machine.moveOthers
  rw [h.otherWave, h.now, h.otherDrive]
  split
  · exact h
  · split
    · exact ⟨h.cfg, rfl, h.master, rfl, rfl, h.requests, h.slave, h.rest⟩
    · exact ⟨h.cfg, h.now, h.master, h.otherDrive, h.otherWave, h.requests, h.slave, h.rest⟩

theorem Alone.goTo (h : Alone k s v) (t : Nat) : Alone k (goTo t s) (goTo t v) := by
  have h0 : Alone k { s with now := max s.now t } { v with now := max v.now t } :=
    ⟨h.cfg, by simp [h.now], h.master, h.otherDrive, h.otherWave, h.requests, h.slave, h.rest⟩
  unfold Machine.goTo fireAll
  rw [h0.ctx_eq]
  exact (h0.map _ (Slave.fire_keeps_atRest _)).moveOthers

theorem Alone.runBefore (h : Alone k s v) (fuel t : Nat) : Alone k (runBefore fuel t s) (runBefore fuel t v) := by
  induction fuel generalizing s v with
  | zero => exact h
  | succ n ih =>
    unfold Machine.runBefore
    rw [h.nextEvent_eq]
    split
    · exact h
    · split
      · exact ih (h.goTo _).settle
      · exact h

theorem Alone.wait (h : Alone k s v) (d : Nat) : Alone k (wait d s) (wait d v) := by
  unfold Machine.wait
  have h1 := h.settle
  simp only [h1.now]
  exact (h1.runBefore d _).goTo _

theorem Alone.movesOn_eq (h : Alone k s v) : movesOn 0 v = movesOn k s := by
  obtain ⟨sl, hk, hv⟩ := h.slave
  simp [movesOn, hk, hv, h.otherWave]

theorem Alone.pollEnds_eq (h : Alone k s v) : pollEnds v = pollEnds s := by
  unfold pollEnds
  rw [h.master, h.line_eq, h.nextEvent_eq]

theorem Alone.pause (h : Alone k s v) (d : Nat) : Alone k (pause d s) (pause d v) := by
  unfold Machine.pause
  split
  · exact h
  · exact h.wait d

theorem Alone.comesNow_eq (h : Alone k s v) : comesNow v = comesNow s := by
  unfold comesNow
  rw [h.master, h.requests]

theorem Alone.mWait (h : Alone k s v) (d : Nat) : Alone k (mWait d s) (mWait d v) := by
  unfold Machine.mWait
  rw [h.cfg, h.now]
  exact h.wait _

theorem Alone.runOp (h : Alone k s v) (fuel : Nat) : Alone k (runOp k fuel s) (runOp 0 fuel v) := by
  induction fuel generalizing s v with
  | zero => exact h
  | succ n ih =>
    unfold Machine.runOp
    rw [h.movesOn_eq, h.nextEvent_eq, h.pollEnds_eq]
    split
    · split
      · exact h
      · exact ih (h.goTo _).settle
    · exact h

end Sys2Proof.Machine
end

