-- ==== Sys2Proof/Laws/AloneMaster.lean ====
section
/-! SUPPORT. The master's operations and the requests of slave `k` do the same on a bus whose other slaves are at rest as on
slave `k`'s line alone (`Alone`, spec/20_memory.md R90(e)). -/

namespace Sys2Proof.Machine

variable {k : Nat} {s v : State}

theorem Alone.withMaster (h : Alone k s v) (m m' : Master) (e : m' = m) :
    Alone k { s with master := m } { v with master := m' } :=
  ⟨h.cfg, h.now, e, h.otherDrive, h.otherWave, h.requests, h.slave, h.rest⟩

/-- The two answers of one operation agree. -/
def AloneResult {α : Type} (k : Nat) (r q : α × State) : Prop := q.1 = r.1 ∧ Alone k r.2 q.2

theorem Alone.mPulse (h : Alone k s v) (low high : Nat) : Alone k (mPulse low high s) (mPulse low high v) := by
  have h1 : Alone k (Machine.mWait low (mDriveLow s)) (Machine.mWait low (mDriveLow v)) :=
    (h.withMaster _ _ (by rw [h.master])).mWait low
  exact (h1.withMaster _ _ (by rw [h1.master])).mWait high

theorem Alone.mResetExchange (h : Alone k s v) : AloneResult k (mResetExchange s) (mResetExchange v) := by
  have h1 := h.mPulse (tRstl s.cfg) (tPds s.cfg)
  unfold Machine.mResetExchange
  rw [h.cfg]
  exact ⟨by simp only [h1.line_eq], h1.mWait _⟩

theorem Alone.mWriteSlot (h : Alone k s v) (b : Bool) : Alone k (mWriteSlot b s) (mWriteSlot b v) := by
  unfold Machine.mWriteSlot
  rw [h.cfg]
  split <;> exact h.mPulse _ _

theorem Alone.mReadSlot (h : Alone k s v) : AloneResult k (mReadSlot s) (mReadSlot v) := by
  have h1 := h.mPulse (tRl s.cfg) (tRs s.cfg)
  unfold Machine.mReadSlot
  rw [h.cfg]
  exact ⟨by simp only [h1.line_eq], h1.mWait _⟩

theorem Alone.mShiftOut (h : Alone k s v) (n : Nat) : Alone k (mShiftOut n s) (mShiftOut n v) := by
  induction n generalizing s v with
  | zero => exact h
  | succ n ih =>
    unfold Machine.mShiftOut
    rw [h.master]
    have h1 := h.mWriteSlot (s.master.shift.getLsbD 0)
    exact ih (h1.withMaster _ _ (by rw [h1.master]))

theorem Alone.mSendByte (h : Alone k s v) (b : Byte) : Alone k (mSendByte b s) (mSendByte b v) := by
  unfold Machine.mSendByte
  refine Alone.mShiftOut ?_ 8
  rw [h.master]
  exact h.withMaster _ _ rfl

theorem Alone.mShiftIn (h : Alone k s v) (n : Nat) : Alone k (mShiftIn n s) (mShiftIn n v) := by
  induction n generalizing s v with
  | zero => exact h
  | succ n ih =>
    unfold Machine.mShiftIn
    have h1 := h.mReadSlot
    exact ih (h1.2.withMaster _ _ (by rw [h1.1, h1.2.master]))

theorem Alone.mReceiveByte (h : Alone k s v) : AloneResult k (mReceiveByte s) (mReceiveByte v) := by
  unfold Machine.mReceiveByte
  rw [h.master]
  have h1 := Alone.mShiftIn (h.withMaster { s.master with shift := 0, bitcnt := 0 } _ rfl) 8
  generalize Machine.mShiftIn 8 _ = a at h1 ⊢
  generalize Machine.mShiftIn 8 _ = b at h1 ⊢
  exact ⟨by simp only [h1.master], h1⟩

theorem Alone.mSendBytes (h : Alone k s v) (bs : List Byte) : Alone k (mSendBytes bs s) (mSendBytes bs v) := by
  induction bs generalizing s v with
  | nil => exact h
  | cons b bs ih => exact ih (h.mSendByte b)

theorem Alone.mReport (h : Alone k s v) (st : Status) (b : Byte) : Alone k (mReport st b s) (mReport st b v) :=
  h.withMaster _ _ (by rw [h.master])

theorem Alone.mIllegal (h : Alone k s v) : Alone k (mIllegal s) (mIllegal v) := h.mReport _ _

/-! ### Read-ROM, the search and the launcher -/

theorem Alone.mReadRomBytes (h : Alone k s v) (n i : Nat) : Alone k (mReadRomBytes n i s) (mReadRomBytes n i v) := by
  induction n generalizing s v i with
  | zero => exact h
  | succ n ih =>
    unfold Machine.mReadRomBytes
    have h1 := h.mReceiveByte
    exact ih (h1.2.withMaster _ _ (by rw [h1.1, h1.2.master])) (i + 1)

theorem Alone.mReadRom (h : Alone k s v) : AloneResult k (mReadRom s) (mReadRom v) := by
  unfold Machine.mReadRom
  have h1 := h.mResetExchange
  simp only [h1.1]
  split
  · have h2 := h1.2.mSendByte 0x33
    simp only [h2.master]
    have h3 := Alone.mReadRomBytes (h2.withMaster
      { (Machine.mSendByte 0x33 (Machine.mResetExchange s).2).master with crc8 := 0 } _ rfl) 8 0
    generalize Machine.mReadRomBytes 8 0 _ = a at h3 ⊢
    generalize Machine.mReadRomBytes 8 0 _ = b at h3 ⊢
    exact ⟨by rw [h3.master], h3⟩
  · exact ⟨rfl, h1.2⟩

theorem Alone.clearSearch (h : Alone k s v) : Alone k (clearSearch s) (clearSearch v) :=
  h.withMaster _ _ (by rw [h.master])

theorem Alone.searchBits (h : Alone k s v) (left n : Nat) :
    AloneResult k (searchBits left n s) (searchBits left n v) := by
  induction left generalizing s v n with
  | zero => exact ⟨rfl, h⟩
  | succ left ih =>
    unfold Machine.searchBits
    have h1 := h.mReadSlot
    have h2 := h1.2.mReadSlot
    simp only [h1.1, h2.1]
    split
    · exact ⟨rfl, h2.2.withMaster _ _ (by rw [h2.2.master])⟩
    · simp only [h2.2.master]
      have h3 := h2.2.withMaster _ _ (rfl : (chooseDirection (Machine.mReadSlot s).1
        (Machine.mReadSlot (Machine.mReadSlot s).2).1 n
          { (Machine.mReadSlot (Machine.mReadSlot s).2).2.master with
            b1 := (Machine.mReadSlot s).1, b2 := (Machine.mReadSlot (Machine.mReadSlot s).2).1 }) = _)
      have h4 := h3.mWriteSlot (chooseDirection (Machine.mReadSlot s).1
        (Machine.mReadSlot (Machine.mReadSlot s).2).1 n
          { (Machine.mReadSlot (Machine.mReadSlot s).2).2.master with
            b1 := (Machine.mReadSlot s).1, b2 := (Machine.mReadSlot (Machine.mReadSlot s).2).1 }).dir
      exact ih (h4.withMaster _ _ (by rw [h4.master])) (n + 1)

theorem Alone.searchEnd (h : Alone k s v) : AloneResult k (searchEnd s) (searchEnd v) := by
  unfold Machine.searchEnd
  rw [h.master]
  split
  · exact ⟨rfl, h.withMaster _ _ rfl⟩
  · exact ⟨rfl, h.clearSearch⟩

theorem Alone.searchRun (h : Alone k s v) (cmd : Byte) : AloneResult k (searchRun cmd s) (searchRun cmd v) := by
  unfold Machine.searchRun
  have h1 := h.mResetExchange
  simp only [h.master, h1.1]
  split
  · exact ⟨rfl, h.clearSearch⟩
  · split
    · have h2 := h1.2.mSendByte cmd
      simp only [h2.master]
      have h3 := Alone.searchBits (h2.withMaster { (Machine.mSendByte cmd (Machine.mResetExchange s).2).master with
        idBitNumber := 1, lastZero := 0, crc8 := 0 } _ rfl) 64 1
      generalize Machine.searchBits 64 1 _ = a at h3 ⊢
      generalize Machine.searchBits 64 1 _ = b at h3 ⊢
      simp only [h3.1]
      split
      · exact h3.2.searchEnd
      · exact ⟨rfl, h3.2.clearSearch⟩
    · exact ⟨rfl, h1.2.clearSearch⟩

theorem Alone.launch (h : Alone k s v) (mode : BitVec 2) (id : RomId) (f : Byte) :
    AloneResult k (launch mode id f s) (launch mode id f v) := by
  unfold Machine.launch
  have h0 := h.mReadRom
  have h1 := h.mResetExchange
  generalize Machine.mReadRom s = r0 at h0 ⊢
  generalize Machine.mReadRom v = q0 at h0 ⊢
  generalize Machine.mResetExchange s = r1 at h1 ⊢
  generalize Machine.mResetExchange v = q1 at h1 ⊢
  obtain ⟨st, s0⟩ := r0
  obtain ⟨st', v0⟩ := q0
  obtain ⟨p, s1⟩ := r1
  obtain ⟨p', v1⟩ := q1
  obtain ⟨e0, h0⟩ := h0
  obtain ⟨e1, h1⟩ := h1
  dsimp only at e0 e1 h0 h1 ⊢
  subst e0 e1
  split
  · split
    · exact ⟨rfl, h0.mSendByte f⟩
    · exact ⟨rfl, h0⟩
  · split
    · split
      · exact ⟨rfl, ((h1.mSendByte _).mSendBytes _).mSendByte _⟩
      · exact ⟨rfl, h1⟩
    · split
      · split
        · exact ⟨rfl, (h1.mSendByte _).mSendByte _⟩
        · exact ⟨rfl, h1⟩
      · exact ⟨rfl, h⟩

/-! ### Log frames -/

theorem Alone.mSendFolded (h : Alone k s v) (b : Byte) : Alone k (mSendFolded b s) (mSendFolded b v) := by
  have h1 := h.mSendByte b
  exact h1.withMaster _ _ (by simp only [h1.master, h1.cfg])

theorem Alone.mSendPayload (h : Alone k s v) (bs : List Byte) : Alone k (mSendPayload bs s) (mSendPayload bs v) := by
  induction bs generalizing s v with
  | nil => exact h
  | cons b bs ih => exact ih (h.mSendFolded b)

theorem Alone.mSendFrame (h : Alone k s v) (len : Byte) (bs : List Byte) :
    Alone k (mSendFrame len bs s) (mSendFrame len bs v) := by
  unfold Machine.mSendFrame
  rw [h.cfg]
  have h1 := h.mWait (tLogGap s.cfg)
  generalize Machine.mWait _ s = a at h1 ⊢
  generalize Machine.mWait _ v = b at h1 ⊢
  have h2 := h1.withMaster { a.master with crc16 := 0xFFFF } { b.master with crc16 := 0xFFFF } (by rw [h1.master])
  have h3 := (h2.mSendFolded len).mSendPayload bs
  simp only [h3.master]
  exact (h3.mSendByte _).mSendByte _

/-- Two ends of a poll agree. -/
def PollAlone (k : Nat) : PollEnd → PollEnd → Prop
  | .high s, .high v => Alone k s v
  | .timedOut s, .timedOut v => Alone k s v
  | .waits s, .waits v => Alone k s v
  | .unfinished s, .unfinished v => Alone k s v
  | _, _ => False

theorem Alone.pollRunsOut (h : Alone k s v) (l : Nat) : PollAlone k (pollRunsOut l s) (pollRunsOut l v) := by
  have hb : requestBy l v = requestBy l s := by simp only [requestBy, h.requests, h.now]
  unfold Machine.pollRunsOut
  rw [hb, h.now]
  split
  · exact h
  · exact h.pause _

theorem Alone.pollLoop (h : Alone k s v) (limit : Option Nat) (n : Nat) :
    PollAlone k (pollLoop limit n s) (pollLoop limit n v) := by
  induction n generalizing s v with
  | zero => exact h
  | succ n ih =>
    unfold Machine.pollLoop
    have h1 := h.settle
    simp only [h.line_eq, h1.line_eq, h1.nextEvent_eq]
    split
    · exact h
    · split
      · exact h1
      · split
        · exact h1
        · exact h1.pollRunsOut _
        · exact ih (h1.goTo _)
        · split
          · exact ih (h1.goTo _)
          · exact h1.pollRunsOut _

theorem Alone.mReadAck (h : Alone k s v) : Alone k (mReadAck s) (mReadAck v) := by
  unfold Machine.mReadAck
  have h1 := (h.mWait s.cfg.tMPoll).mReceiveByte
  simp only [h.cfg, h1.1]
  exact h1.2.mReport _ _

theorem Alone.mSuspend (h : Alone k s v) (limit : Option Nat) : Alone k (mSuspend limit s) (mSuspend limit v) :=
  h.withMaster _ _ (by rw [h.master])

theorem PollAlone.endPoll {a b : PollEnd} (h : PollAlone k a b) (limit : Option Nat) :
    Alone k (endPoll limit a) (endPoll limit b) := by
  cases a <;> cases b <;> try exact h.elim
  · exact Alone.mReadAck h
  · exact Alone.mReport h _ _
  · exact Alone.mSuspend h _
  · exact Alone.mSuspend h _

theorem Alone.mPoll (h : Alone k s v) (limit : Option Nat) : Alone k (mPoll limit s) (mPoll limit v) :=
  (h.pollLoop limit pollFuel).endPoll limit

theorem Alone.mAwaitAck (h : Alone k s v) : Alone k (mAwaitAck s) (mAwaitAck v) := by
  unfold Machine.mAwaitAck
  rw [h.cfg, h.now]
  dsimp only
  have hw := h.mSuspend (s.cfg.pollTimeout.map (s.now + ·))
  rw [hw.comesNow_eq]
  split
  · exact hw
  · exact h.mPoll _

theorem Alone.execMLogSend (h : Alone k s v) (mode : BitVec 2) (id : RomId) (len : Byte) (bs : List Byte) :
    OutcomeAlone k (execMLogSend mode id len bs s) (execMLogSend mode id len bs v) := by
  unfold Machine.execMLogSend
  have h1 := h.launch mode id logMessageByte
  simp only [h.cfg, h1.1]
  split
  · exact h.mReport _ _
  · split
    · exact h.mIllegal
    · split
      · exact (h1.2.mSendFrame len _).mAwaitAck
      · exact h1.2.mReport _ _

/-- An operation of the master on the bus and on slave `k`'s line alone. -/
theorem Alone.execMVerify (h : Alone k s v) (id : RomId) : OutcomeAlone k (execMVerify id s) (execMVerify id v) := by
  unfold Machine.execMVerify
  have h0 : Alone k (verifySetup id s) (verifySetup id v) := h.withMaster _ _ (by rw [h.master])
  have h1 := h0.searchRun searchCmd
  simp only [h1.1, h1.2.master, h.master]
  have h2 : Alone k (verifyRestore s.master (Machine.searchRun searchCmd (verifySetup id s)).2)
      (verifyRestore s.master (Machine.searchRun searchCmd (verifySetup id v)).2) :=
    h1.2.withMaster _ _ (by rw [h1.2.master])
  exact h2.mReport _ _

theorem Alone.execMStartTxn (h : Alone k s v) (mode : BitVec 2) (id : RomId) (arg : Byte) :
    OutcomeAlone k (execMStartTxn mode id arg s) (execMStartTxn mode id arg v) := by
  unfold Machine.execMStartTxn
  have h1 := h.launch mode id arg
  split
  · exact h.mIllegal
  · simp only [h1.1]
    exact h1.2.mReport _ _

/-! ### Requests of the slave -/

theorem Alone.runBegun (h : Alone k s v) : Alone k (runBegun k s) (runBegun 0 v) := by
  unfold Machine.runBegun
  rw [h.comesNow_eq]
  split
  · exact h
  · exact h.settle.runOp _

theorem Alone.setSlave (h : Alone k s v) (x : Slave) :
    Alone k { s with slaves := s.slaves.set k x } { v with slaves := v.slaves.set 0 x } := by
  obtain ⟨sl, hk, hv⟩ := h.slave
  have hlt : k < s.slaves.length := (List.getElem?_eq_some_iff.mp hk).1
  refine ⟨h.cfg, h.now, h.master, h.otherDrive, h.otherWave, h.requests, ⟨x, by simp [hlt], by simp [hv]⟩, ?_⟩
  intro j y hj hy
  rw [List.getElem?_set_ne (fun e => hj e.symm)] at hy
  exact h.rest j y hj hy

/-- A request of slave `k` that is not refused does the same on its line alone. -/
theorem Alone.requestOp (h : Alone k s v) (op : SlaveOp)
    (hi : ∀ sl, s.slaves[k]? = some sl → sl.intEnable = true ∨ op = .init ∨ op = .illegal) :
    OutcomeAlone k (requestOp k op s) (requestOp 0 op v) := by
  obtain ⟨sl, hk, hv⟩ := h.slave
  have hr : (!sl.intEnable && !sl.initComes && decide (op ≠ .init ∧ op ≠ .illegal)) = false := by
    rcases hi sl hk with e | e | e <;> simp [e]
  have hv0 : v.slaves[0]? = some sl := by simp [hv]
  unfold Machine.requestOp
  simp only [hk, hv0, hr]
  split
  · exact h
  · simp only [Bool.false_eq_true, if_false]
    split
    · exact (h.setSlave _).runBegun
    · exact h.setSlave _

end Sys2Proof.Machine
end

