-- ==== Sys2Proof/Laws/Pulse.lean ====
section
/-! SUPPORT. One slave and one pulse: what a falling and a rising edge do to a slave that waits for a pulse, and the class the
pulse gets (spec/42_slave_pulse_reset.md R191 to R197). -/

namespace Sys2Proof.Machine

variable {c : Ctx} {sl : Slave} {u : PulseUse} {g : Config}

/-! ### The classifier -/

/-- A slave's valid parameters, one by one. -/
theorem SlaveConfig.valid_iff (g : Config) (p : SlaveConfig) : p.valid g = true ↔
    2 ≤ p.ticksPerUs ∧ 16 ≤ p.tickWidth ∧ 360 * p.ticksPerUs < 2 ^ p.tickWidth ∧ 0 < p.tSResp ∧ p.tSResp < us g 9 ∧
      us g 46 ≤ p.tSSit ∧ p.tSSit ≤ us g 64 ∧ 0 < p.tSBusy ∧ p.tSBusy < us g 10 := by
  simp only [SlaveConfig.valid, Bool.and_eq_true, decide_eq_true_eq]
  tauto

/-- A threshold in ticks is the same threshold in time (R107, R195). -/
theorem le_ticksIn_iff (g : Config) (p : SlaveConfig) (x w : Nat) (hu : 0 < p.ticksPerUs) :
    x * p.ticksPerUs ≤ ticksIn g p w ↔ us g x ≤ w := by
  rw [ticksIn, Nat.le_div_iff_mul_le (perUs_pos g)]
  have : x * p.ticksPerUs * g.perUs = us g x * p.ticksPerUs := by simp only [us]; ring
  rw [this]
  exact Nat.mul_le_mul_right_iff hu

/-- R195 on the latched ticks is R107 on the width, whatever the valid parameters: a wrapped count has its overflow flag
set (R196). -/
theorem classify_width (p : SlaveConfig) (hp : p.valid g = true) (w : Nat) :
    classify p.ticksPerUs (ticksIn g p w % 2 ^ p.tickWidth) (decide (2 ^ p.tickWidth ≤ ticksIn g p w)) = widthClass g w := by
  obtain ⟨hu, -, h360, -⟩ := (SlaveConfig.valid_iff g p).mp hp
  have hu : 0 < p.ticksPerUs := by omega
  have h15 := le_ticksIn_iff g p 15 w hu
  have h70 := le_ticksIn_iff g p 70 w hu
  have h36 := le_ticksIn_iff g p 360 w hu
  have h1 : us g 15 < us g 70 := us_lt g (by decide)
  have h2 : us g 70 < us g 360 := us_lt g (by decide)
  unfold classify widthClass thReset thBad thZero
  generalize ticksIn g p w = x at *
  by_cases hx : 2 ^ p.tickWidth ≤ x
  · have : us g 360 ≤ w := h36.mp (by omega)
    simp [hx, show ¬ w < us g 15 by omega, show ¬ w < us g 70 by omega, show ¬ w < us g 360 by omega]
  · rw [Nat.mod_eq_of_lt (by omega)]
    simp only [hx, decide_false, Bool.false_eq_true, false_or, h36, h70, h15]
    split_ifs <;> first | rfl | omega

/-! ### Edges at a waiting slave -/

/-- The slave after a falling edge at `t` (R192). -/
def Slave.felled (t : Nat) (sl : Slave) : Slave := { sl with tReset := t, swStarted := true, linePrev := false }

/-- The slave after a pulse of `w` that began at `t`, its event consumed (R193, R194). -/
def Slave.measured (g : Config) (t w : Nat) (sl : Slave) : Slave :=
  { sl with tReset := t, swStarted := true, linePrev := true
            pulseLen := ticksIn g sl.cfg w % 2 ^ sl.cfg.tickWidth
            pulseOvf := decide (2 ^ sl.cfg.tickWidth ≤ ticksIn g sl.cfg w) }

/-- A pulse of a class is consumed. -/
def Slave.pulse (cl : PulseClass) (c : Ctx) (sl : Slave) : Slave :=
  match cl with
  | .one => Slave.pulseOne c sl
  | .zero => Slave.pulseZero c sl
  | .bad => Slave.pulseBad c sl
  | .reset => Slave.pulseReset c sl

theorem Slave.Listening.trapped (h : sl.Listening g u) : sl.trapped = false := by
  have := h.enabled
  simp only [Slave.takesEdges, Bool.and_eq_true, Bool.not_eq_true'] at this
  exact this.1.2

theorem Slave.settle_fall (h : sl.Listening c.cfg u) (hl : c.level = false) :
    Slave.settle c sl = Slave.felled c.now sl := by
  have ho : Slave.observe c sl = Slave.felled c.now sl := by
    simp [Slave.observe, h.line_prev, hl, Slave.edgeFall, h.enabled, Slave.isrFall, Slave.felled]
  rw [Slave.settle, ho, Slave.resume_eq]
  simp [Slave.felled, h.trapped, h.pos, h.no_event, Slave.due, h.wake]

theorem Slave.settle_rise (h : sl.Listening c.cfg u) (hl : c.level = true) (t w : Nat) (hw : c.now = t + w) :
    Slave.settle c (Slave.felled t sl) = Slave.pulse (widthClass c.cfg w) c (Slave.measured c.cfg t w sl) := by
  have he : (Slave.felled t sl).takesEdges = true := h.enabled
  have hn : c.now - t = w := by omega
  have ho : Slave.observe c (Slave.felled t sl) = { Slave.measured c.cfg t w sl with pulseNew := true } := by
    have h1 : Slave.observe c (Slave.felled t sl) = Slave.edgeRise c (Slave.felled t sl) := by
      simp [Slave.observe, hl, Slave.felled]
    have h2 : (Slave.felled t sl).pulseNew = false := h.no_event
    have h3 : swCount c (Slave.felled t sl) = ticksIn c.cfg sl.cfg w := by
      simp only [swCount, Slave.felled, hn]
    have h4 : Slave.latchPulse c (Slave.felled t sl) =
        { Slave.felled t sl with
          pulseLen := ticksIn c.cfg sl.cfg w % 2 ^ sl.cfg.tickWidth
          pulseOvf := decide (2 ^ sl.cfg.tickWidth ≤ ticksIn c.cfg sl.cfg w), pulseNew := true } := by
      unfold Slave.latchPulse swTicks swOvf
      rw [h3]
      rfl
    rw [h1, Slave.edgeRise, if_pos he, Slave.isrRise, h2, Bool.false_and, if_neg (by decide), h4]
    rfl
  have hm := (Slave.consume_moves c { Slave.measured c.cfg t w sl with pulseNew := true }).no_expire c h.no_timeout
    fun _ _ => h.wake
  rw [Slave.settle, ho, Slave.resume_eq]
  have hc : Slave.eventClass { Slave.measured c.cfg t w sl with pulseNew := true } = widthClass c.cfg w :=
    classify_width sl.cfg h.valid w
  have hp : (Slave.measured c.cfg t w sl).pulseNew = false := h.no_event
  have hz : ({ Slave.measured c.cfg t w sl with pulseNew := false } : Slave) = Slave.measured c.cfg t w sl := by
    rw [← hp]
  rw [hm]
  simp only [Slave.measured, h.trapped, h.pos] at *
  simp only [Bool.false_eq_true, if_false, if_true, Slave.consume, hc, Slave.pulse]
  cases widthClass c.cfg w <;> simp only [hz]

/-- Nothing happens at a slave that sees the level it saw and has nothing to go on with. -/
theorem Slave.settle_still (hl : sl.linePrev = c.level) (hr : Slave.resume c sl = sl) : Slave.settle c sl = sl := by
  simp [Slave.settle, Slave.observe, hl, hr]

theorem Slave.settle_listening (h : sl.Listening c.cfg u) (hl : c.level = true) : Slave.settle c sl = sl := by
  refine Slave.settle_still (h.line_prev.trans hl.symm) ?_
  simp [Slave.resume_eq, h.trapped, h.pos, h.no_event, Slave.due, h.wake]

theorem Slave.resume_sitOut (ht : sl.trapped = false) (hp : sl.pos = .delay .sitOut)
    (hn : sl.cfg.waitTimeout = none) :
    Slave.resume c sl = if sl.due c.now then Slave.returnValue c 0 { sl with pulseNew := false } else sl := by
  have hm : Slave.expire c (Slave.returnValue c 0 { sl with pulseNew := false }) =
      Slave.returnValue c 0 { sl with pulseNew := false } :=
    (Slave.returnValue_moves c 0 _).no_expire c hn (Slave.endless_of_pos _ (by simp [hp]))
  rw [Slave.resume_eq, if_neg (by simp [ht])]
  split
  case h_2 => exact if_congr Iff.rfl hm rfl
  all_goals simp_all

/-- In a self-timed interval whose end moves the line base level does nothing else (R314). -/
theorem Slave.resume_interval (x : DelayUse) (hp : sl.pos = .delay x) (h1 : x ≠ .sitOut) (h2 : x ≠ .busyLatency) :
    Slave.resume c sl = sl := by
  rw [Slave.resume_eq, hp]
  cases x <;> simp_all

theorem Slave.due_iff (n w : Nat) (h : sl.wake = some w) : sl.due n = decide (w ≤ n) := by simp [Slave.due, h]

theorem Slave.fire_due (e : Nat) (ht : sl.trapped = false) (hw : sl.wake = some e) (hn : c.now = e) :
    Slave.fire c sl =
      match sl.pos with
      | .delay .respond => Slave.waitFor c .hold (tSW0 c.cfg) (Slave.driveLow sl)
      | .delay .hold => Slave.await c .writeEnd (Slave.release sl)
      | .delay .quiet => Slave.waitFor c .presence (tSPres c.cfg) (Slave.driveLow sl)
      | .delay .presence => Slave.await c .presence (Slave.release sl)
      | .delay .busyLatency => Slave.logBusyBegin c sl
      | .delay .handler => Slave.endHold c sl
      | .between => Slave.startNext sl
      | .idle | .begun _ | .waitPulse _ | .delay .sitOut => sl := by
  unfold Slave.fire
  refine (if_neg (by simp [ht, Slave.due, hw, hn])).trans ?_
  rcases sl.pos with _ | _ | _ | u | u
  · rfl
  · rfl
  · rfl
  · rfl
  · cases u <;> rfl

theorem Slave.settle_released (c : Ctx) (h : sl.drive = false) : (Slave.settle c sl).drive = false := by
  rcases Slave.settle_sameDrive c sl with ⟨d, -, -⟩ | ⟨d, -, -⟩
  · exact d.trans h
  · exact d

theorem Slave.fire_asleep (h : sl.wake = none) : Slave.fire c sl = sl := by
  simp [Slave.fire, Slave.due, h]

theorem Slave.fire_early (t : Nat) (h : sl.wake = some t) (ht : c.now < t) : Slave.fire c sl = sl := by
  have : sl.due c.now = false := by simp [Slave.due, h, ht]
  simp [Slave.fire, this]

end Sys2Proof.Machine
end

