-- ==== Sys2Proof/Laws/Slot.lean ====
section
/-! SUPPORT. Slave `k`'s line alone with a master (Level S of spec/20_memory.md R76 to R78, proved from Level T): one slot of the
master against one waiting slave. -/

namespace Sys2Proof.Machine

/-- No driver outside the block acts, waits are exact (`DELAY_SLACK = 0`, R314), and the shared parameters are `g`. -/
def State.NoOthers (g : Config) (s : State) : Prop :=
  s.otherDrive = false ∧ s.otherWave = [] ∧ s.cfg.delaySlack = 0 ∧ s.cfg = g

theorem State.NoOthers.congr {g : Config} {s s' : State} (h : s.NoOthers g) (hc : s'.cfg = s.cfg)
    (hd : s'.otherDrive = s.otherDrive) (hw : s'.otherWave = s.otherWave) : s'.NoOthers g :=
  ⟨hd.trans h.1, hw.trans h.2.1, (congrArg Config.delaySlack hc).trans h.2.2.1, hc.trans h.2.2.2⟩

/-- `s` at instant `t` with one slave and the master's driver as given. -/
def shot (s : State) (t : Nat) (d : Bool) (sl : Slave) : State :=
  { s with now := t, master := { s.master with drive := d }, slaves := [sl] }

@[simp] theorem shot_cfg (s : State) (t : Nat) (d : Bool) (sl : Slave) : (shot s t d sl).cfg = s.cfg := rfl

/-- `wait` without its first edges. -/
def coast (d : Nat) (s : State) : State := goTo (s.now + d) (runBefore d (s.now + d) s)

theorem wait_eq (d : Nat) (s : State) : wait d s = coast d (settle s) := rfl

variable {g : Config} {s : State} {t : Nat} {d : Bool} {sl : Slave} {u : PulseUse}

/-- A `Wait` of the master on slave `k`'s line. -/
theorem mWait_shot (hq : s.NoOthers g) (n t : Nat) (d : Bool) (sl : Slave) :
    mWait n (shot s t d sl) = coast n (settle (shot s t d sl)) :=
  mWait_exact (shot s t d sl) hq.2.2.1 n

/-- A `Wait` of the slave there. -/
theorem Slave.waitFor_shot (hq : s.NoOthers g) (n : Nat) (l : Bool) (u : DelayUse) (d : Nat) (sl : Slave) :
    Slave.waitFor { now := n, level := l, cfg := s.cfg } u d sl =
      Slave.delay { now := n, level := l, cfg := s.cfg } u d sl :=
  Slave.waitFor_exact { now := n, level := l, cfg := s.cfg } hq.2.2.1 u d sl

/-- What the slave reads of the rest. -/
def shotCtx (s : State) (t : Nat) (d : Bool) (sl : Slave) : Ctx := { now := t, level := !(d || sl.drive), cfg := s.cfg }

theorem shot_eq (h : s.slaves = [sl]) (hd : s.master.drive = d) : s = shot s s.now d sl := by
  obtain ⟨c, n, m, l, od, ow, r⟩ := s
  obtain ⟨_, _, _, _, dr, _⟩ := m
  simp_all [shot]

theorem shot_ctx (hq : s.NoOthers g) : (shot s t d sl).ctx = shotCtx s t d sl := by
  simp [State.ctx, shot, shotCtx, line, hq.1]

theorem shot_nextEvent (hq : s.NoOthers g) : nextEvent (shot s t d sl) = sl.nextWake := by
  cases h : sl.nextWake <;> simp [nextEvent, nextOther, shot, hq.2.1, earlier, h]

theorem shot_settleOnce (hq : s.NoOthers g) :
    settleOnce (shot s t d sl) = shot s t d (Slave.settle (shotCtx s t d sl) sl) := by
  rw [settleOnce, shot_ctx hq]; rfl

theorem shot_settle (hq : s.NoOthers g) (hd : (Slave.settle (shotCtx s t d sl) sl).drive = sl.drive) :
    settle (shot s t d sl) = shot s t d (Slave.settle (shotCtx s t d sl) sl) := by
  have hl : line (settleOnce (shot s t d sl)) = line (shot s t d sl) := by
    rw [shot_settleOnce hq]
    simp [line, shot, hd]
  have : (shot s t d sl).slaves.length = 1 := rfl
  rw [settle, this, settleLoop_succ 0 _ fun h => absurd hl h, if_pos hl, shot_settleOnce hq]

theorem shot_goTo (hq : s.NoOthers g) (t' : Nat) (ht : t ≤ t') :
    goTo t' (shot s t d sl) = shot s t' d (Slave.fire (shotCtx s t' d sl) sl) := by
  have h1 : ({ shot s t d sl with now := max (shot s t d sl).now t' } : State) = shot s t' d sl := by
    simp [shot, Nat.max_eq_right ht]
  rw [goTo, h1, fireAll, shot_ctx hq]
  simp [moveOthers, shot, hq.2.1]

/-! ### Time without an event -/

/-- The slave's next event is later than `e`. -/
def Slave.QuietUntil (sl : Slave) (e : Nat) : Prop := ∀ w, sl.wake = some w → e < w

theorem Slave.fire_quiet {c : Ctx} (h : sl.QuietUntil c.now) : Slave.fire c sl = sl := by
  cases hw : sl.wake with
  | none => exact Slave.fire_asleep hw
  | some w => exact Slave.fire_early w hw (h w hw)

theorem shot_runBefore_quiet (hq : s.NoOthers g) (e fuel : Nat) (h : sl.QuietUntil e) :
    runBefore fuel e (shot s t d sl) = shot s t d sl := by
  cases fuel with
  | zero => rfl
  | succ n =>
    unfold runBefore
    rw [shot_nextEvent hq]
    unfold Slave.nextWake
    split
    · rfl
    · rename_i w hw
      have : e < w := by
        split at hw
        · simp at hw
        · exact h w hw
      rw [if_neg (by omega)]

theorem shot_coast_quiet (hq : s.NoOthers g) (d' : Nat) (h : sl.QuietUntil (t + d')) :
    coast d' (shot s t d sl) = shot s (t + d') d sl := by
  have hn : (shot s t d sl).now = t := rfl
  rw [coast, hn, shot_runBefore_quiet hq _ _ h, shot_goTo hq _ (by omega)]
  rw [Slave.fire_quiet (c := shotCtx s (t + d') d sl) h]

theorem Slave.quiet_of_asleep (e : Nat) (h : sl.wake = none) : sl.QuietUntil e := by simp [Slave.QuietUntil, h]

/-! ### One pulse of the master -/

theorem mDriveLow_shot : mDriveLow (shot s t d sl) = shot s t true sl := rfl

theorem mRelease_shot : mRelease (shot s t d sl) = shot s t false sl := rfl

/-- A pulse of the master at a waiting slave, up to the instant its rising edge has been taken. -/
theorem mPulse_shot (hq : s.NoOthers g) (h : sl.Listening g u) (low high : Nat) :
    mPulse low high (shot s t false sl) =
      coast high (shot s (t + low) false
        (Slave.pulse (widthClass g low) { now := t + low, level := true, cfg := s.cfg } (Slave.measured g t low sl))) := by
  obtain rfl := hq.2.2.2
  have hc1 : shotCtx s t true sl = { now := t, level := false, cfg := s.cfg } := by simp [shotCtx]
  have hc2 : shotCtx s (t + low) false (Slave.felled t sl) = { now := t + low, level := true, cfg := s.cfg } := by
    simp [shotCtx, Slave.felled, h.released]
  have hfd : (Slave.felled t sl).drive = false := h.released
  have hf : Slave.settle (shotCtx s t true sl) sl = Slave.felled t sl := by
    rw [hc1]; exact Slave.settle_fall h rfl
  have h1 : settle (shot s t true sl) = shot s t true (Slave.felled t sl) := by
    rw [shot_settle hq (by rw [Slave.settle_released _ h.released, h.released]), hf]
  have h2 : coast low (shot s t true (Slave.felled t sl)) = shot s (t + low) true (Slave.felled t sl) :=
    shot_coast_quiet hq low (Slave.quiet_of_asleep _ h.wake)
  have h3 : settle (shot s (t + low) false (Slave.felled t sl)) = _ :=
    shot_settle hq (by rw [Slave.settle_released _ hfd, hfd])
  rw [mPulse, mDriveLow_shot, mWait_shot hq low, h1, h2, mRelease_shot, mWait_shot hq high, h3, hc2,
    Slave.settle_rise h rfl t low rfl]

theorem Slave.pulse_released (h : sl.Listening g u) (t w : Nat) :
    (Slave.pulse (widthClass g w) { now := t + w, level := true, cfg := g } (Slave.measured g t w sl)).drive = false := by
  rw [← Slave.settle_rise (c := { now := t + w, level := true, cfg := g }) h rfl t w rfl]
  exact Slave.settle_released _ h.released

theorem Slave.measured_pos (t w : Nat) (sl : Slave) : (Slave.measured g t w sl).pos = sl.pos := rfl

/-- The class of a whole number of microseconds. -/
theorem widthClass_us (g : Config) (n : Nat) :
    widthClass g (us g n) = if n < 15 then .one else if n < 70 then .zero else if n < 360 then .bad else .reset := by
  simp only [widthClass, us_lt_iff]

theorem widthClass_w1 (g : Config) : widthClass g (tW1l g) = .one := widthClass_us g 6
theorem widthClass_w0 (g : Config) : widthClass g (tW0l g) = .zero := widthClass_us g 60
theorem widthClass_rl (g : Config) : widthClass g (tRl g) = .one := widthClass_us g 6
theorem widthClass_rstl (g : Config) : widthClass g (tRstl g) = .reset := widthClass_us g 480
theorem widthClass_sw0 (g : Config) : widthClass g (tSW0 g) = .zero := widthClass_us g 37
theorem widthClass_spres (g : Config) : widthClass g (tSPres g) = .bad := widthClass_us g 116

/-- A write slot at a slave in `S_READ_BIT`: the slave receives the bit at the rising edge (R77, R215). -/
theorem mWriteSlot_readBit (hq : s.NoOthers g) (h : sl.Listening g .readBit) (b : Bool) :
    mWriteSlot b (shot s t false sl) =
      coast (if b then (tW1h g) else (tW0h g)) (shot s (t + if b then (tW1l g) else (tW0l g)) false
        (Slave.returnValue { now := t + if b then (tW1l g) else (tW0l g), level := true, cfg := s.cfg } (bitByte b)
          (Slave.measured g t (if b then (tW1l g) else (tW0l g)) sl))) := by
  obtain rfl := hq.2.2.2
  have hp (w : Nat) : (Slave.measured s.cfg t w sl).pos = .waitPulse .readBit := h.pos
  cases b with
  | true =>
    have := mPulse_shot hq h (t := t) (tW1l s.cfg) (tW1h s.cfg)
    simp only [widthClass_w1, Slave.pulse, Slave.pulseOne, hp] at this
    exact this
  | false =>
    have := mPulse_shot hq h (t := t) (tW0l s.cfg) (tW0h s.cfg)
    simp only [widthClass_w0, Slave.pulse, Slave.pulseZero, hp] at this
    exact this

/-! ### One event -/

theorem shot_runBefore_event (hq : s.NoOthers g) (e E n : Nat) (ht : sl.trapped = false) (hw : sl.wake = some e)
    (h1 : t ≤ e) (h2 : e < E)
    (hd : (Slave.settle (shotCtx s e d (Slave.fire (shotCtx s e d sl) sl)) (Slave.fire (shotCtx s e d sl) sl)).drive =
      (Slave.fire (shotCtx s e d sl) sl).drive) :
    runBefore (n + 1) E (shot s t d sl) =
      runBefore n E (shot s e d
        (Slave.settle (shotCtx s e d (Slave.fire (shotCtx s e d sl) sl)) (Slave.fire (shotCtx s e d sl) sl))) := by
  have hn : nextEvent (shot s t d sl) = some e := by
    rw [shot_nextEvent hq, Slave.nextWake, ht, if_neg (by decide), hw]
  rw [runBefore, hn]
  simp only [h2, if_true]
  rw [shot_goTo hq e h1, shot_settle hq hd]

/-- A slave between two pulses: only what edges write, its position and the end of its wait differ from `sl`. -/
def Slave.after (tReset pulseLen : Nat) (pulseOvf : Bool) (pos : Pos) (wake : Option Nat) (sl : Slave) : Slave :=
  { sl with tReset := tReset, swStarted := true, linePrev := true, pulseLen := pulseLen, pulseOvf := pulseOvf
            pos := pos, wake := wake }

theorem Slave.returnValue_released (c : Ctx) (v : Byte) (h : sl.drive = false) :
    (Slave.returnValue c v sl).drive = false := by
  rcases (Slave.returnValue_moves c v sl).drive with ⟨e, -, -⟩ | ⟨e, -, -⟩
  · exact e.trans h
  · exact e

theorem deadline_pos (n x : Nat) (h : 0 < x) : deadline n x = n + x := by
  simp [deadline, Nat.max_eq_left (Nat.succ_le_of_lt h)]

/-- A read slot at a slave that writes 1: it stays silent, sits out the slot and goes on (R143, R216, R224). -/
theorem mReadSlot_writeOne (hq : s.NoOthers g) (h : sl.Listening g (.writeStart true)) (hs : sl.cfg.tSSit < us g 64)
    (hret : ∀ c tr pl po p w, c.cfg = s.cfg → (Slave.returnValue c 0 (Slave.after tr pl po p w sl)).wake = none) :
    ∃ c tr pl po p w, c.cfg = s.cfg ∧ mReadSlot (shot s t false sl) =
      (true, shot s (t + us g 70) false (Slave.returnValue c 0 (Slave.after tr pl po p w sl))) := by
  obtain rfl := hq.2.2.2
  obtain ⟨-, -, -, -, -, h46, -⟩ := (SlaveConfig.valid_iff _ _).mp h.valid
  have hsit : 0 < sl.cfg.tSSit := Nat.lt_of_lt_of_le (us_pos _ (by decide)) h46
  have hrs : tRs s.cfg < us s.cfg 46 := by exact us_lt s.cfg (by decide)
  have hsum : tRl s.cfg + tRs s.cfg + tRh s.cfg = us s.cfg 70 := by simp only [tRl, tRs, tRh, us_add]
  have hsum' : tRl s.cfg + us s.cfg 64 = us s.cfg 70 := by simp only [tRl, us_add]
  let c1 : Ctx := { now := t + tRl s.cfg, level := true, cfg := s.cfg }
  let e := t + tRl s.cfg + sl.cfg.tSSit
  let sl1 : Slave := Slave.delay c1 .sitOut sl.cfg.tSSit (Slave.measured s.cfg t (tRl s.cfg) sl)
  have hw1 : sl1.wake = some e := by
    show some (deadline (t + tRl s.cfg) sl.cfg.tSSit) = _
    rw [deadline_pos _ _ hsit]
  have hp : mPulse (tRl s.cfg) (tRs s.cfg) (shot s t false sl) = coast (tRs s.cfg) (shot s (t + tRl s.cfg) false sl1) := by
    have := mPulse_shot hq h (t := t) (tRl s.cfg) (tRs s.cfg)
    have hpos : (Slave.measured s.cfg t (tRl s.cfg) sl).pos = .waitPulse (.writeStart true) := h.pos
    simp only [widthClass_rl, Slave.pulse, Slave.pulseOne, hpos, Slave.waitFor_shot hq] at this
    exact this
  have hd1 : sl1.drive = false := h.released
  have ht1 : sl1.trapped = false := h.trapped
  have hp1 : sl1.pos = .delay .sitOut := rfl
  have hq1 : sl1.QuietUntil (t + tRl s.cfg + tRs s.cfg) := by
    intro w hw
    rw [hw1] at hw
    injection hw with hw
    omega
  have h2 : coast (tRs s.cfg) (shot s (t + tRl s.cfg) false sl1) = shot s (t + tRl s.cfg + tRs s.cfg) false sl1 := shot_coast_quiet hq (tRs s.cfg) hq1
  have hctx (n : Nat) : shotCtx s n false sl1 = { now := n, level := true, cfg := s.cfg } := by simp [shotCtx, hd1]
  have hobs (n : Nat) : Slave.observe { now := n, level := true, cfg := s.cfg } sl1 = sl1 := by
    unfold Slave.observe
    exact if_pos rfl
  have hl : line (shot s (t + tRl s.cfg + tRs s.cfg) false sl1) = true := by simp [line, shot, hq.1, hd1]
  have hst : Slave.settle (shotCtx s (t + tRl s.cfg + tRs s.cfg) false sl1) sl1 = sl1 := by
    rw [hctx, Slave.settle, hobs, Slave.resume_sitOut ht1 hp1 h.no_timeout, Slave.due_iff _ _ hw1]
    rw [if_neg]
    simp only [decide_eq_true_eq, e]
    omega
  have h3 : settle (shot s (t + tRl s.cfg + tRs s.cfg) false sl1) = shot s (t + tRl s.cfg + tRs s.cfg) false sl1 := by
    rw [shot_settle hq (by rw [hst]), hst]
  have hf : Slave.fire (shotCtx s e false sl1) sl1 = sl1 := by
    rw [Slave.fire_due e ht1 hw1 rfl, hp1]
  let c2 : Ctx := { now := e, level := true, cfg := s.cfg }
  let sl2 : Slave := Slave.returnValue c2 0 { sl1 with pulseNew := false }
  have hset : Slave.settle (shotCtx s e false sl1) sl1 = sl2 := by
    rw [hctx, Slave.settle, hobs, Slave.resume_sitOut ht1 hp1 h.no_timeout, Slave.due_iff _ _ hw1, if_pos (by simp)]
  have hpn : sl.pulseNew = false := h.no_event
  have hsl2 : ({ sl1 with pulseNew := false } : Slave) =
      Slave.after t (ticksIn s.cfg sl.cfg (tRl s.cfg) % 2 ^ sl.cfg.tickWidth)
        (decide (2 ^ sl.cfg.tickWidth ≤ ticksIn s.cfg sl.cfg (tRl s.cfg))) (.delay .sitOut) (some e) sl := by
    rw [← hw1, ← hpn]
    rfl
  have hd2 : sl2.drive = false := Slave.returnValue_released _ _ hd1
  have hw2 : sl2.wake = none := by
    show (Slave.returnValue c2 0 { sl1 with pulseNew := false }).wake = none
    rw [hsl2]
    exact hret _ _ _ _ _ _ rfl
  have hfuel : ∃ n, (tRh s.cfg) = n + 1 := Nat.exists_eq_succ_of_ne_zero (tRh_pos _).ne'
  obtain ⟨n, hn⟩ := hfuel
  have h4 : coast (tRh s.cfg) (shot s (t + tRl s.cfg + tRs s.cfg) false sl1) = shot s (t + us s.cfg 70) false sl2 := by
    have hnow : (shot s (t + tRl s.cfg + tRs s.cfg) false sl1).now = t + tRl s.cfg + (tRs s.cfg) := rfl
    have hE : t + tRl s.cfg + tRs s.cfg + tRh s.cfg = t + us s.cfg 70 := by omega
    rw [coast, hnow, hE]
    have hev := shot_runBefore_event (s := s) (d := false) (t := t + tRl s.cfg + tRs s.cfg) hq e (t + us s.cfg 70) n ht1 hw1
      (by simp only [e]; omega) (by simp only [e]; omega) (by rw [hf, hset, hd1, hd2])
    rw [hf, hset] at hev
    rw [hn, hev, shot_runBefore_quiet hq _ _ (Slave.quiet_of_asleep _ hw2),
      shot_goTo hq _ (by simp only [e]; omega), Slave.fire_asleep hw2]
  refine ⟨c2, t, ticksIn s.cfg sl.cfg (tRl s.cfg) % 2 ^ sl.cfg.tickWidth,
    decide (2 ^ sl.cfg.tickWidth ≤ ticksIn s.cfg sl.cfg (tRl s.cfg)), .delay .sitOut, some e, rfl, ?_⟩
  rw [← hsl2]
  simp only [mReadSlot, shot_cfg, hp, h2, hl, mWait_shot hq, h3, h4]
  rfl

/-- A read slot at a slave that writes 0: its low covers the sample (R106, R143, R216, R345). -/
theorem mReadSlot_writeZero (hq : s.NoOthers g) (h : sl.Listening g (.writeStart false))
    (hret : ∀ c tr pl po p w, c.cfg = s.cfg → (Slave.returnValue c 0 (Slave.after tr pl po p w sl)).wake = none) :
    ∃ c tr pl po p w, c.cfg = s.cfg ∧ mReadSlot (shot s t false sl) =
      (false, shot s (t + us g 70) false (Slave.returnValue c 0 (Slave.after tr pl po p w sl))) := by
  obtain rfl := hq.2.2.2
  obtain ⟨-, -, -, h0, h9, -⟩ := (SlaveConfig.valid_iff _ _).mp h.valid
  have hrs : tRs s.cfg = us s.cfg 9 := rfl
  have hsum : tRl s.cfg + tRs s.cfg + tRh s.cfg = us s.cfg 70 := by simp only [tRl, tRs, tRh, us_add]
  have hsum' : tRl s.cfg + tRs s.cfg + tSW0 s.cfg < us s.cfg 70 := by simp only [tRl, tRs, tSW0, us_add]; exact us_lt s.cfg (by decide)
  have hw0 : us s.cfg 9 < (tSW0 s.cfg) := by exact us_lt s.cfg (by decide)
  let c1 : Ctx := { now := t + tRl s.cfg, level := true, cfg := s.cfg }
  let e := t + tRl s.cfg + sl.cfg.tSResp
  let e2 := e + tSW0 s.cfg
  let sl1 : Slave := Slave.delay c1 .respond sl.cfg.tSResp (Slave.measured s.cfg t (tRl s.cfg) sl)
  have hw1 : sl1.wake = some e := by
    show some (deadline (t + tRl s.cfg) sl.cfg.tSResp) = _
    rw [deadline_pos _ _ h0]
  have hp : mPulse (tRl s.cfg) (tRs s.cfg) (shot s t false sl) = coast (tRs s.cfg) (shot s (t + tRl s.cfg) false sl1) := by
    have := mPulse_shot hq h (t := t) (tRl s.cfg) (tRs s.cfg)
    have hpos : (Slave.measured s.cfg t (tRl s.cfg) sl).pos = .waitPulse (.writeStart false) := h.pos
    simp only [widthClass_rl, Slave.pulse, Slave.pulseOne, hpos, Slave.waitFor_shot hq] at this
    exact this
  have hd1 : sl1.drive = false := h.released
  have ht1 : sl1.trapped = false := h.trapped
  -- the response begins
  have hctx1 : shotCtx s e false sl1 = { now := e, level := true, cfg := s.cfg } := by simp [shotCtx, hd1]
  let slh : Slave := Slave.delay { now := e, level := true, cfg := s.cfg } .hold (tSW0 s.cfg) (Slave.driveLow sl1)
  have hf : Slave.fire (shotCtx s e false sl1) sl1 = slh := by
    rw [Slave.fire_due e ht1 hw1 rfl, hctx1]
    exact Slave.waitFor_shot hq _ _ _ _ _
  have hdh : slh.drive = true := rfl
  let slf : Slave := Slave.felled e slh
  have hctxh (n : Nat) : shotCtx s n false slh = { now := n, level := false, cfg := s.cfg } := by simp [shotCtx, hdh]
  have heh : slh.takesEdges = true := h.enabled
  have hset1 : Slave.settle (shotCtx s e false slh) slh = slf := by
    have hlp : slh.linePrev = true := rfl
    have ho : Slave.observe (shotCtx s e false slh) slh = slf := by
      rw [hctxh]
      simp [Slave.observe, hlp, Slave.edgeFall, heh, Slave.isrFall, slf, Slave.felled]
    rw [Slave.settle, ho]
    exact Slave.resume_interval .hold rfl (by decide) (by decide)
  have hwf : slf.wake = some e2 := by
    show some (deadline e (tSW0 s.cfg)) = _
    rw [deadline_pos _ _ (tSW0_pos _)]
  have htf : slf.trapped = false := h.trapped
  have hdf : slf.drive = true := rfl
  have hqf : slf.QuietUntil (t + tRl s.cfg + tRs s.cfg) := by
    intro w hw
    rw [hwf] at hw
    injection hw with hw
    omega
  have hfuel : ∃ n, (tRs s.cfg) = n + 1 := Nat.exists_eq_succ_of_ne_zero (tRs_pos _).ne'
  obtain ⟨n, hn⟩ := hfuel
  have h2 : coast (tRs s.cfg) (shot s (t + tRl s.cfg) false sl1) = shot s (t + tRl s.cfg + tRs s.cfg) false slf := by
    have hnow : (shot s (t + tRl s.cfg) false sl1).now = t + (tRl s.cfg) := rfl
    rw [coast, hnow]
    have hev := shot_runBefore_event (s := s) (d := false) (t := t + tRl s.cfg) hq e (t + tRl s.cfg + tRs s.cfg) n ht1 hw1
      (by simp only [e]; omega) (by simp only [e]; omega) (by rw [hf, hset1, hdf, hdh])
    rw [hf, hset1] at hev
    have hrun : runBefore (tRs s.cfg) (t + tRl s.cfg + tRs s.cfg) (shot s (t + tRl s.cfg) false sl1) = shot s e false slf := by
      have := hev.trans (shot_runBefore_quiet hq _ _ hqf)
      rw [← hn] at this
      exact this
    rw [hrun, shot_goTo hq _ (by simp only [e]; omega), Slave.fire_quiet (c := shotCtx s (t + tRl s.cfg + tRs s.cfg) false slf) hqf]
  have hl : line (shot s (t + tRl s.cfg + tRs s.cfg) false slf) = false := by simp [line, shot, hdf]
  -- the tail of the slot: the response ends
  have hctxf (n : Nat) : shotCtx s n false slf = { now := n, level := false, cfg := s.cfg } := by simp [shotCtx, hdf]
  have hst : Slave.settle (shotCtx s (t + tRl s.cfg + tRs s.cfg) false slf) slf = slf := by
    rw [hctxf]
    exact Slave.settle_still rfl (Slave.resume_interval .hold rfl (by decide) (by decide))
  have h3 : settle (shot s (t + tRl s.cfg + tRs s.cfg) false slf) = shot s (t + tRl s.cfg + tRs s.cfg) false slf := by
    rw [shot_settle hq (by rw [hst]), hst]
  let slr : Slave := Slave.after t (ticksIn s.cfg sl.cfg (tRl s.cfg) % 2 ^ sl.cfg.tickWidth)
    (decide (2 ^ sl.cfg.tickWidth ≤ ticksIn s.cfg sl.cfg (tRl s.cfg))) (.waitPulse .writeEnd) none sl
  have hlr : slr.Listening s.cfg .writeEnd :=
    ⟨rfl, rfl, h.valid, h.no_timeout, h.enabled, h.no_event, rfl, h.released, h.not_busy⟩
  have hff : Slave.fire (shotCtx s e2 false slf) slf = Slave.felled e slr := by
    rw [Slave.fire_due e2 htf hwf rfl]
    have hwt : sl.cfg.waitTimeout = none := h.no_timeout
    have hb : sl.busy = false := h.not_busy
    show Slave.await _ .writeEnd (Slave.release slf) = _
    unfold Slave.await
    have e1 : (Slave.release slf).cfg.waitTimeout.map ((shotCtx s e2 false slf).now + ·) = none := by
      show sl.cfg.waitTimeout.map _ = none
      rw [hwt]; rfl
    have e3 : (Slave.release slf).drive = sl.drive := by
      show sl.busy = sl.drive
      rw [hb, h.released]
    rw [e1]
    show ({ slf with drive := sl.busy, pos := .waitPulse .writeEnd, wake := none } : Slave) = _
    rw [show sl.busy = sl.drive from e3]
    rfl
  have hdr : (Slave.felled e slr).drive = false := h.released
  have hctxr : shotCtx s e2 false (Slave.felled e slr) = { now := e2, level := true, cfg := s.cfg } := by
    simp [shotCtx, hdr]
  let c2 : Ctx := { now := e2, level := true, cfg := s.cfg }
  let sl2 : Slave := Slave.returnValue c2 0 (Slave.measured s.cfg e (tSW0 s.cfg) slr)
  have hset2 : Slave.settle (shotCtx s e2 false (Slave.felled e slr)) (Slave.felled e slr) = sl2 := by
    rw [hctxr, Slave.settle_rise hlr rfl e (tSW0 s.cfg) rfl]
    have : widthClass s.cfg (tSW0 s.cfg) = .zero := widthClass_sw0 _
    rw [this]
    rfl
  have hd2 : sl2.drive = false := Slave.returnValue_released _ _ h.released
  have hsl2 : Slave.measured s.cfg e (tSW0 s.cfg) slr =
      Slave.after e (ticksIn s.cfg sl.cfg (tSW0 s.cfg) % 2 ^ sl.cfg.tickWidth)
        (decide (2 ^ sl.cfg.tickWidth ≤ ticksIn s.cfg sl.cfg (tSW0 s.cfg))) (.waitPulse .writeEnd) none sl := rfl
  have hw2 : sl2.wake = none := by
    show (Slave.returnValue c2 0 (Slave.measured s.cfg e (tSW0 s.cfg) slr)).wake = none
    rw [hsl2]
    exact hret _ _ _ _ _ _ rfl
  have hfuel' : ∃ n, (tRh s.cfg) = n + 1 := Nat.exists_eq_succ_of_ne_zero (tRh_pos _).ne'
  obtain ⟨n', hn'⟩ := hfuel'
  have h4 : coast (tRh s.cfg) (shot s (t + tRl s.cfg + tRs s.cfg) false slf) = shot s (t + us s.cfg 70) false sl2 := by
    have hnow : (shot s (t + tRl s.cfg + tRs s.cfg) false slf).now = t + tRl s.cfg + (tRs s.cfg) := rfl
    have hE : t + tRl s.cfg + tRs s.cfg + tRh s.cfg = t + us s.cfg 70 := by omega
    rw [coast, hnow, hE]
    have hev := shot_runBefore_event (s := s) (d := false) (t := t + tRl s.cfg + tRs s.cfg) hq e2 (t + us s.cfg 70) n' htf hwf
      (by simp only [e, e2]; omega) (by simp only [e, e2]; omega) (by rw [hff, hset2, hdr, hd2])
    rw [hff, hset2] at hev
    rw [hn', hev, shot_runBefore_quiet hq _ _ (Slave.quiet_of_asleep _ hw2),
      shot_goTo hq _ (by simp only [e, e2]; omega), Slave.fire_asleep hw2]
  refine ⟨c2, e, ticksIn s.cfg sl.cfg (tSW0 s.cfg) % 2 ^ sl.cfg.tickWidth,
    decide (2 ^ sl.cfg.tickWidth ≤ ticksIn s.cfg sl.cfg (tSW0 s.cfg)), .waitPulse .writeEnd, none, rfl, ?_⟩
  rw [← hsl2]
  simp only [mReadSlot, shot_cfg, hp, h2, hl, mWait_shot hq, h3, h4]
  rfl

/-- Which procedure a reset pulse makes a waiting slave call the presence pulse from (R200, R202). -/
def resetCaller : PulseUse → Frame
  | .waitReset => .waitReset
  | _ => .handleReset

/-- The waits in which a reset pulse is a reset (R200, R202). -/
def takesReset : PulseUse → Bool
  | .waitReset | .readBit | .writeStart _ => true
  | _ => false

theorem Slave.pulse_reset (c : Ctx) (hu : takesReset u = true) (hp : sl.pos = .waitPulse u) :
    Slave.pulse .reset c sl = Slave.presencePulse c (resetCaller u) sl := by
  cases u <;> simp_all [takesReset, Slave.pulse, Slave.pulseReset, resetCaller, Slave.handleReset]

/-- The reset exchange at a waiting slave (R76, R101, R105, R141, R198): its presence pulse is seen, and it goes on in
`WAITING_ROM_CMD` with the procedure that called the presence pulse. -/
theorem mResetExchange_shot (hq : s.NoOthers g) (h : sl.Listening g u) (hu : takesReset u = true)
    (hret : ∀ c tr pl po p w, c.cfg = s.cfg →
      (Slave.returnValue c 0 { Slave.after tr pl po p w sl with
        stack := resetCaller u :: sl.stack, txnState := .waitingRomCmd }).wake = none) :
    ∃ c tr pl po p w, c.cfg = s.cfg ∧ mResetExchange (shot s t false sl) =
      (true, shot s (t + us g 960) false (Slave.returnValue c 0 { Slave.after tr pl po p w sl with
        stack := resetCaller u :: sl.stack, txnState := .waitingRomCmd })) := by
  obtain rfl := hq.2.2.2
  have hsum : tRstl s.cfg + tPds s.cfg + tRsth2 s.cfg = us s.cfg 960 := by simp only [tRstl, tPds, tRsth2, us_add]
  have hsum1 : tSQuiet s.cfg < (tPds s.cfg) := by exact us_lt s.cfg (by decide)
  have hsum2 : tPds s.cfg < tSQuiet s.cfg + (tSPres s.cfg) := by simp only [tPds, tSQuiet, tSPres, us_add]; exact us_lt s.cfg (by decide)
  have hsum3 : tSQuiet s.cfg + tSPres s.cfg < tPds s.cfg + (tRsth2 s.cfg) := by simp only [tPds, tRsth2, tSQuiet, tSPres, us_add]; exact us_lt s.cfg (by decide)
  let c1 : Ctx := { now := t + tRstl s.cfg, level := true, cfg := s.cfg }
  let e := t + tRstl s.cfg + tSQuiet s.cfg
  let e2 := e + tSPres s.cfg
  let sl1 : Slave := Slave.delay c1 .quiet (tSQuiet s.cfg)
    { Slave.measured s.cfg t (tRstl s.cfg) sl with stack := resetCaller u :: sl.stack }
  have hw1 : sl1.wake = some e := by
    show some (deadline (t + tRstl s.cfg) (tSQuiet s.cfg)) = _
    rw [deadline_pos _ _ (tSQuiet_pos _)]
  have hp : mPulse (tRstl s.cfg) (tPds s.cfg) (shot s t false sl) = coast (tPds s.cfg) (shot s (t + tRstl s.cfg) false sl1) := by
    have := mPulse_shot hq h (t := t) (tRstl s.cfg) (tPds s.cfg)
    have hpos : (Slave.measured s.cfg t (tRstl s.cfg) sl).pos = .waitPulse u := h.pos
    rw [widthClass_rstl, Slave.pulse_reset _ hu hpos, Slave.presencePulse, Slave.waitFor_shot hq] at this
    exact this
  have hd1 : sl1.drive = false := h.released
  have ht1 : sl1.trapped = false := h.trapped
  have hctx1 : shotCtx s e false sl1 = { now := e, level := true, cfg := s.cfg } := by simp [shotCtx, hd1]
  let slh : Slave := Slave.delay { now := e, level := true, cfg := s.cfg } .presence (tSPres s.cfg) (Slave.driveLow sl1)
  have hf : Slave.fire (shotCtx s e false sl1) sl1 = slh := by
    rw [Slave.fire_due e ht1 hw1 rfl, hctx1]
    exact Slave.waitFor_shot hq _ _ _ _ _
  have hdh : slh.drive = true := rfl
  let slf : Slave := Slave.felled e slh
  have hctxh (n : Nat) : shotCtx s n false slh = { now := n, level := false, cfg := s.cfg } := by simp [shotCtx, hdh]
  have heh : slh.takesEdges = true := h.enabled
  have hset1 : Slave.settle (shotCtx s e false slh) slh = slf := by
    have hlp : slh.linePrev = true := rfl
    have ho : Slave.observe (shotCtx s e false slh) slh = slf := by
      rw [hctxh]
      simp [Slave.observe, hlp, Slave.edgeFall, heh, Slave.isrFall, slf, Slave.felled]
    rw [Slave.settle, ho]
    exact Slave.resume_interval .presence rfl (by decide) (by decide)
  have hwf : slf.wake = some e2 := by
    show some (deadline e (tSPres s.cfg)) = _
    rw [deadline_pos _ _ (tSPres_pos _)]
  have htf : slf.trapped = false := h.trapped
  have hdf : slf.drive = true := rfl
  have hqf : slf.QuietUntil (t + tRstl s.cfg + tPds s.cfg) := by
    intro w hw
    rw [hwf] at hw
    injection hw with hw
    omega
  have hfuel : ∃ n, (tPds s.cfg) = n + 1 := Nat.exists_eq_succ_of_ne_zero (tPds_pos _).ne'
  obtain ⟨n, hn⟩ := hfuel
  have h2 : coast (tPds s.cfg) (shot s (t + tRstl s.cfg) false sl1) = shot s (t + tRstl s.cfg + tPds s.cfg) false slf := by
    have hnow : (shot s (t + tRstl s.cfg) false sl1).now = t + (tRstl s.cfg) := rfl
    rw [coast, hnow]
    have hev := shot_runBefore_event (s := s) (d := false) (t := t + tRstl s.cfg) hq e (t + tRstl s.cfg + tPds s.cfg) n ht1 hw1
      (by simp only [e]; omega) (by simp only [e]; omega) (by rw [hf, hset1, hdf, hdh])
    rw [hf, hset1] at hev
    have hrun : runBefore (tPds s.cfg) (t + tRstl s.cfg + tPds s.cfg) (shot s (t + tRstl s.cfg) false sl1) = shot s e false slf := by
      have := hev.trans (shot_runBefore_quiet hq _ _ hqf)
      rw [← hn] at this
      exact this
    rw [hrun, shot_goTo hq _ (by simp only [e]; omega), Slave.fire_quiet (c := shotCtx s (t + tRstl s.cfg + tPds s.cfg) false slf) hqf]
  have hl : line (shot s (t + tRstl s.cfg + tPds s.cfg) false slf) = false := by simp [line, shot, hdf]
  have hctxf (n : Nat) : shotCtx s n false slf = { now := n, level := false, cfg := s.cfg } := by simp [shotCtx, hdf]
  have hst : Slave.settle (shotCtx s (t + tRstl s.cfg + tPds s.cfg) false slf) slf = slf := by
    rw [hctxf]
    exact Slave.settle_still rfl (Slave.resume_interval .presence rfl (by decide) (by decide))
  have h3 : settle (shot s (t + tRstl s.cfg + tPds s.cfg) false slf) = shot s (t + tRstl s.cfg + tPds s.cfg) false slf := by
    rw [shot_settle hq (by rw [hst]), hst]
  let slr : Slave := { Slave.after t (ticksIn s.cfg sl.cfg (tRstl s.cfg) % 2 ^ sl.cfg.tickWidth)
    (decide (2 ^ sl.cfg.tickWidth ≤ ticksIn s.cfg sl.cfg (tRstl s.cfg))) (.waitPulse .presence) none sl with
    stack := resetCaller u :: sl.stack }
  have hlr : slr.Listening s.cfg .presence :=
    ⟨rfl, rfl, h.valid, h.no_timeout, h.enabled, h.no_event, rfl, h.released, h.not_busy⟩
  have hff : Slave.fire (shotCtx s e2 false slf) slf = Slave.felled e slr := by
    rw [Slave.fire_due e2 htf hwf rfl]
    have hwt : sl.cfg.waitTimeout = none := h.no_timeout
    have hb : sl.busy = false := h.not_busy
    show Slave.await _ .presence (Slave.release slf) = _
    unfold Slave.await
    have e1 : (Slave.release slf).cfg.waitTimeout.map ((shotCtx s e2 false slf).now + ·) = none := by
      show sl.cfg.waitTimeout.map _ = none
      rw [hwt]; rfl
    have e3 : (Slave.release slf).drive = sl.drive := by
      show sl.busy = sl.drive
      rw [hb, h.released]
    rw [e1]
    show ({ slf with drive := sl.busy, pos := .waitPulse .presence, wake := none } : Slave) = _
    rw [show sl.busy = sl.drive from e3]
    rfl
  have hdr : (Slave.felled e slr).drive = false := h.released
  have hctxr : shotCtx s e2 false (Slave.felled e slr) = { now := e2, level := true, cfg := s.cfg } := by
    simp [shotCtx, hdr]
  let c2 : Ctx := { now := e2, level := true, cfg := s.cfg }
  let sl2 : Slave := Slave.returnValue c2 0 { Slave.measured s.cfg e (tSPres s.cfg) slr with txnState := .waitingRomCmd }
  have hset2 : Slave.settle (shotCtx s e2 false (Slave.felled e slr)) (Slave.felled e slr) = sl2 := by
    rw [hctxr, Slave.settle_rise hlr rfl e (tSPres s.cfg) rfl]
    have : widthClass s.cfg (tSPres s.cfg) = .bad := widthClass_spres _
    rw [this]
    rfl
  have hd2 : sl2.drive = false := Slave.returnValue_released _ _ h.released
  have hsl2 : ({ Slave.measured s.cfg e (tSPres s.cfg) slr with txnState := .waitingRomCmd } : Slave) =
      { Slave.after e (ticksIn s.cfg sl.cfg (tSPres s.cfg) % 2 ^ sl.cfg.tickWidth)
        (decide (2 ^ sl.cfg.tickWidth ≤ ticksIn s.cfg sl.cfg (tSPres s.cfg))) (.waitPulse .presence) none sl with
        stack := resetCaller u :: sl.stack, txnState := .waitingRomCmd } := rfl
  have hw2 : sl2.wake = none := by
    show (Slave.returnValue c2 0 { Slave.measured s.cfg e (tSPres s.cfg) slr with txnState := .waitingRomCmd }).wake = none
    rw [hsl2]
    exact hret _ _ _ _ _ _ rfl
  have hfuel' : ∃ n, (tRsth2 s.cfg) = n + 1 := Nat.exists_eq_succ_of_ne_zero (tRsth2_pos _).ne'
  obtain ⟨n', hn'⟩ := hfuel'
  have h4 : coast (tRsth2 s.cfg) (shot s (t + tRstl s.cfg + tPds s.cfg) false slf) = shot s (t + us s.cfg 960) false sl2 := by
    have hnow : (shot s (t + tRstl s.cfg + tPds s.cfg) false slf).now = t + tRstl s.cfg + (tPds s.cfg) := rfl
    have hE : t + tRstl s.cfg + tPds s.cfg + tRsth2 s.cfg = t + us s.cfg 960 := by omega
    rw [coast, hnow, hE]
    have hev := shot_runBefore_event (s := s) (d := false) (t := t + tRstl s.cfg + tPds s.cfg) hq e2 (t + us s.cfg 960) n' htf hwf
      (by simp only [e, e2]; omega) (by simp only [e, e2]; omega) (by rw [hff, hset2, hdr, hd2])
    rw [hff, hset2] at hev
    rw [hn', hev, shot_runBefore_quiet hq _ _ (Slave.quiet_of_asleep _ hw2),
      shot_goTo hq _ (by simp only [e, e2]; omega), Slave.fire_asleep hw2]
  refine ⟨c2, e, ticksIn s.cfg sl.cfg (tSPres s.cfg) % 2 ^ sl.cfg.tickWidth,
    decide (2 ^ sl.cfg.tickWidth ≤ ticksIn s.cfg sl.cfg (tSPres s.cfg)), .waitPulse .presence, none, rfl, ?_⟩
  rw [← hsl2]
  simp only [mResetExchange, shot_cfg, hp, h2, hl, mWait_shot hq, h3, h4]
  rfl

end Sys2Proof.Machine
end

