-- ==== Sys2Proof/Laws/Bytes.lean ====
section
/-! SUPPORT. A byte of the master at one waiting slave: written to a slave in `S_READ_BYTE`, read from one in `S_WRITE_BYTE`
(spec/30_encoding.md R109, spec/40_master_bit_byte.md R144, R145, spec/43_slave_bit_byte.md R217, R218). -/

namespace Sys2Proof.Machine

/-- `sl'` is `sl` some pulses later: the edges', the shifter's and the wait's registers apart, nothing has changed. -/
def Slave.Drift (sl sl' : Slave) : Prop :=
  ∃ tReset swStarted pulseLen pulseOvf pos wake shift bitcnt,
    sl' = { sl with tReset := tReset, swStarted := swStarted, linePrev := true, pulseLen := pulseLen
                    pulseOvf := pulseOvf, pos := pos, wake := wake, shift := shift, bitcnt := bitcnt }

theorem Slave.Drift.trans {a b c : Slave} (h : Slave.Drift a b) (h' : Slave.Drift b c) : Slave.Drift a c := by
  obtain ⟨_, _, _, _, _, _, _, _, rfl⟩ := h
  obtain ⟨t, sw, pl, po, p, w, sh, bc, rfl⟩ := h'
  exact ⟨t, sw, pl, po, p, w, sh, bc, rfl⟩

theorem Slave.Drift.after (tr pl : Nat) (po : Bool) (p : Pos) (w : Option Nat) (sl : Slave) :
    Slave.Drift sl (Slave.after tr pl po p w sl) := ⟨tr, true, pl, po, p, w, sl.shift, sl.bitcnt, rfl⟩

variable {g : Config} {s : State} {t : Nat} {sl : Slave} {rest : List Frame}

/-- How long a write slot of bit `b` is low and how long its tail is (R102, R103). -/
def slotLow (g : Config) (b : Bool) : Nat := if b then tW1l g else tW0l g
def slotTail (g : Config) (b : Bool) : Nat := if b then tW1h g else tW0h g

theorem slot_length (b : Bool) : slotLow g b + slotTail g b = us g 70 := by
  cases b <;> exact us_add _ _ _

theorem us_le_slotTail (g : Config) (b : Bool) : us g 10 ≤ slotTail g b := by
  cases b
  · exact us_le g (by decide)
  · exact us_le g (by decide)

/-- A write slot up to its rising edge, the tail still to pass. -/
theorem mWriteSlot_tail (hq : s.NoOthers g) (h : sl.Listening g .readBit) (b : Bool) :
    ∃ tr pl po p w, mWriteSlot b (shot s t false sl) = coast (slotTail g b) (shot s (t + slotLow g b) false
      (Slave.returnValue { now := t + slotLow g b, level := true, cfg := s.cfg } (bitByte b)
        (Slave.after tr pl po p w sl))) :=
  ⟨t, ticksIn g sl.cfg (slotLow g b) % 2 ^ sl.cfg.tickWidth,
    decide (2 ^ sl.cfg.tickWidth ≤ ticksIn g sl.cfg (slotLow g b)), sl.pos, sl.wake,
    mWriteSlot_readBit hq h b (t := t)⟩

theorem mWriteSlot_shot (hq : s.NoOthers g) (h : sl.Listening g .readBit) (b : Bool)
    (hret : ∀ c tr pl po p w, c.cfg = s.cfg →
      (Slave.returnValue c (bitByte b) (Slave.after tr pl po p w sl)).wake = none) :
    ∃ c tr pl po p w, c.cfg = s.cfg ∧ mWriteSlot b (shot s t false sl) =
      shot s (t + us g 70) false (Slave.returnValue c (bitByte b) (Slave.after tr pl po p w sl)) := by
  obtain ⟨tr, pl, po, p, w, he⟩ := mWriteSlot_tail hq h b (t := t)
  refine ⟨{ now := t + slotLow g b, level := true, cfg := s.cfg }, tr, pl, po, p, w, rfl, ?_⟩
  rw [he, shot_coast_quiet hq _ (Slave.quiet_of_asleep _ (hret _ _ _ _ _ _ rfl)), Nat.add_assoc, slot_length]

theorem mReadSlot_shot (hq : s.NoOthers g) (b : Bool) (h : sl.Listening g (.writeStart b)) (hs : sl.cfg.tSSit < us g 64)
    (hret : ∀ c tr pl po p w, c.cfg = s.cfg → (Slave.returnValue c 0 (Slave.after tr pl po p w sl)).wake = none) :
    ∃ c tr pl po p w, c.cfg = s.cfg ∧ mReadSlot (shot s t false sl) =
      (b, shot s (t + us g 70) false (Slave.returnValue c 0 (Slave.after tr pl po p w sl))) := by
  cases b with
  | true => exact mReadSlot_writeOne hq h hs hret
  | false => exact mReadSlot_writeZero hq h hret

/-- `n` bits of `v`, least significant first, shifted into `acc` (R144, R145, R217). -/
def shiftInBits : Nat → Byte → Byte → Byte
  | 0, _, acc => acc
  | n + 1, v, acc => shiftInBits n (v >>> 1) (shiftIn acc (v.getLsbD 0))

/-- Eight slots carry a byte exactly (R118(a), R266(g)). -/
theorem shiftInBits_eight (v : Byte) : shiftInBits 8 v 0 = v := by
  revert v; decide

theorem byteBit_bitByte (b : Bool) : byteBit (bitByte b) = b := by cases b <;> decide

theorem bitcnt_succ (b : BitVec 4) (n : Nat) (h : b.toNat + (n + 1) = 8) : (b + 1).toNat + n = 8 := by
  have : (b + 1).toNat = b.toNat + 1 := by
    rw [BitVec.toNat_add]
    simp
    omega
  omega

theorem bitcnt_last (b : BitVec 4) (n : Nat) (h : b.toNat + (n + 1) = 8) : (b + 1 = 8) ↔ n = 0 := by
  have := bitcnt_succ b n h
  constructor
  · intro e
    rw [e] at this
    simpa using this
  · rintro rfl
    apply BitVec.eq_of_toNat_eq
    simpa using this

/-- The slave's end of a read bit inside a byte (R217). -/
theorem Slave.ret_readByte (c : Ctx) (b : Bool) (sl : Slave) (n : Nat) (h : sl.bitcnt.toNat + (n + 1) = 8) :
    Slave.ret c (bitByte b) (.readByte :: rest) sl =
      if n = 0 then Slave.ret c (shiftIn sl.shift b) rest (Slave.shiftInBit b sl)
      else Slave.await c .readBit { Slave.shiftInBit b sl with stack := .readByte :: rest } := by
  rw [Slave.ret]
  simp only [byteBit_bitByte, Slave.shiftInBit, bitcnt_last _ n h]

/-- The slave's end of a written bit inside a byte (R218). -/
theorem Slave.ret_writeByte (c : Ctx) (v : Byte) (sl : Slave) (n : Nat) (h : sl.bitcnt.toNat + (n + 1) = 8) :
    Slave.ret c v (.writeByte :: rest) sl =
      if n = 0 then Slave.ret c 0 rest (Slave.shiftOutBit sl)
      else Slave.await c (.writeStart ((sl.shift >>> 1).getLsbD 0))
        { Slave.shiftOutBit sl with stack := .writeByte :: rest } := by
  rw [Slave.ret]
  simp only [Slave.shiftOutBit, bitcnt_last _ n h]

/-- The master's shifter after `n` write slots. -/
def State.shiftedOut (n : Nat) (s : State) : State :=
  { s with master := { s.master with shift := s.master.shift >>> n, bitcnt := s.master.bitcnt + BitVec.ofNat 4 n } }

/-- `n` bits written to a slave that reads a byte and misses `n` of it, up to the last rising edge. -/
theorem mShiftOut_shot (n : Nat) (hq : s.NoOthers g) (h : sl.Listening g .readBit) (hst : sl.stack = .readByte :: rest)
    (hb : sl.bitcnt.toNat + (n + 1) = 8) :
    ∃ c sl' s', c.cfg = s.cfg ∧ c.now + slotTail g (s.master.shift.getLsbD n) = t + (n + 1) * us g 70 ∧ Slave.Drift sl sl' ∧
      (s'.cfg = s.cfg ∧ s'.otherDrive = s.otherDrive ∧ s'.otherWave = s.otherWave ∧ s'.requests = s.requests) ∧
      mShiftOut (n + 1) (shot s t false sl) = State.shiftedOut 1 (coast (slotTail g (s.master.shift.getLsbD n)) (shot s' c.now false
        (Slave.ret c (shiftInBits (n + 1) s.master.shift sl.shift) rest sl'))) := by
  induction n generalizing s t sl with
  | zero =>
    have hr (c : Ctx) (tr pl : Nat) (po : Bool) (p : Pos) (w : Option Nat) :
        Slave.returnValue c (bitByte (s.master.shift.getLsbD 0)) (Slave.after tr pl po p w sl) =
          Slave.ret c (shiftInBits 1 s.master.shift sl.shift) rest
            (Slave.shiftInBit (s.master.shift.getLsbD 0) (Slave.after tr pl po p w sl)) := by
      show Slave.ret c _ sl.stack _ = _
      rw [hst, Slave.ret_readByte c _ (Slave.after tr pl po p w sl) 0 hb, if_pos rfl]
      rfl
    have hdr (tr pl : Nat) (po : Bool) (p : Pos) (w : Option Nat) :
        Slave.Drift sl (Slave.shiftInBit (s.master.shift.getLsbD 0) (Slave.after tr pl po p w sl)) :=
      ⟨tr, true, pl, po, p, w, _, _, rfl⟩
    obtain ⟨tr, pl, po, p, w, he⟩ := mWriteSlot_tail hq h (t := t) (s.master.shift.getLsbD 0)
    refine ⟨{ now := t + slotLow g (s.master.shift.getLsbD 0), level := true, cfg := s.cfg }, _,
      s, rfl, ?_, hdr tr pl po p w, ⟨rfl, rfl, rfl, rfl⟩, ?_⟩
    · rw [Nat.zero_add, Nat.one_mul]
      show t + slotLow g _ + slotTail g _ = _
      rw [Nat.add_assoc, slot_length]
    · have hm : (shot s t false sl).master.shift = s.master.shift := rfl
      simp only [mShiftOut, hm, he, hr]
      rfl
  | succ n ih =>
    have hr (c : Ctx) (tr pl : Nat) (po : Bool) (p : Pos) (w : Option Nat) :
        Slave.returnValue c (bitByte (s.master.shift.getLsbD 0)) (Slave.after tr pl po p w sl) =
          Slave.await c .readBit { Slave.shiftInBit (s.master.shift.getLsbD 0) (Slave.after tr pl po p w sl) with
            stack := .readByte :: rest } := by
      show Slave.ret c _ sl.stack _ = _
      rw [hst, Slave.ret_readByte c _ (Slave.after tr pl po p w sl) (n + 1) hb, if_neg (by omega)]
    have hwk (c : Ctx) (tr pl : Nat) (po : Bool) (p : Pos) (w : Option Nat) :
        (Slave.await c .readBit { Slave.shiftInBit (s.master.shift.getLsbD 0) (Slave.after tr pl po p w sl) with
            stack := .readByte :: rest }).wake = none := by
      show sl.cfg.waitTimeout.map _ = none
      rw [h.no_timeout]; rfl
    obtain ⟨c, tr, pl, po, p, w, hc, he⟩ := mWriteSlot_shot hq h (t := t) (s.master.shift.getLsbD 0)
      (fun c tr pl po p w _ => by rw [hr]; exact hwk c tr pl po p w)
    rw [hr] at he
    generalize hx : Slave.await c .readBit _ = x at he
    have hdx : Slave.Drift sl x := by
      rw [← hx]
      exact ⟨tr, true, pl, po, .waitPulse .readBit, _, _, _, by rw [← hst]; rfl⟩
    have hlx : x.Listening g .readBit := by
      rw [← hx]
      exact ⟨rfl, hwk c tr pl po p w, h.valid, h.no_timeout, h.enabled, h.no_event, rfl, h.released, h.not_busy⟩
    have hxs : x.stack = .readByte :: rest := by rw [← hx]; rfl
    have hxb : x.bitcnt.toNat + (n + 1) = 8 := by
      rw [← hx]
      exact bitcnt_succ sl.bitcnt (n + 1) hb
    have hxh : x.shift = shiftIn sl.shift (s.master.shift.getLsbD 0) := by rw [← hx]; rfl
    let s1 : State := State.shiftedOut 1 s
    have hv : shiftInBits (n + 1) s1.master.shift x.shift = shiftInBits (n + 2) s.master.shift sl.shift := by
      rw [hxh]; rfl
    obtain ⟨c', sl', s', hc', hn', hd', hs', he'⟩ := ih (s := s1) (t := t + us g 70) (sl := x) hq hlx hxs hxb
    have hbit : s1.master.shift.getLsbD n = s.master.shift.getLsbD (n + 1) := by
      show (s.master.shift >>> 1).getLsbD n = _
      rw [BitVec.getLsbD_ushiftRight, Nat.add_comm]
    rw [hbit] at hn' he'
    refine ⟨c', sl', s', hc', ?_, hdx.trans hd', hs', ?_⟩
    · rw [hn', Nat.add_mul (n + 1) 1]
      omega
    · have hm : (shot s t false sl).master.shift = s.master.shift := rfl
      have hstep : mShiftOut (n + 1 + 1) (shot s t false sl) = mShiftOut (n + 1) (shot s1 (t + us g 70) false x) := by
        rw [mShiftOut]
        simp only [hm, he]
        rfl
      rw [hstep, he', hv]

/-- `s` with the master's shifter as a byte operation leaves it. -/
def State.shifter (sh : Byte) (bc : BitVec 4) (s : State) : State :=
  { s with master := { s.master with shift := sh, bitcnt := bc } }

theorem shot_congr {s s' : State} (t : Nat) (x : Slave) (hc : s'.cfg = s.cfg) (ho : s'.otherDrive = s.otherDrive)
    (hw : s'.otherWave = s.otherWave) (hr : s'.requests = s.requests)
    (hm : ({ s'.master with drive := false } : Master) = { s.master with drive := false }) :
    shot s' t false x = shot s t false x := by
  simp only [shot, hc, ho, hw, hr, hm]

/-- The master writes a byte to a slave that begins to read one, up to the last rising edge, where the slave has it (R77,
R144, R217). -/
theorem mSendByte_tail (hq : s.NoOthers g) (h : sl.Listening g .readBit) (hst : sl.stack = .readByte :: rest)
    (hb : sl.bitcnt = 0) (hsh : sl.shift = 0) (v : Byte) :
    ∃ c sl' s', c.cfg = s.cfg ∧ c.now + slotTail g (v.getLsbD 7) = t + us g 560 ∧ Slave.Drift sl sl' ∧
      (s'.cfg = s.cfg ∧ s'.otherDrive = s.otherDrive ∧ s'.otherWave = s.otherWave ∧ s'.requests = s.requests) ∧
      mSendByte v (shot s t false sl) =
        State.shiftedOut 1 (coast (slotTail g (v.getLsbD 7)) (shot s' c.now false (Slave.ret c v rest sl'))) := by
  have hv : shiftInBits (7 + 1) (s.shifter v 0).master.shift sl.shift = v := by
    rw [hsh]; exact shiftInBits_eight v
  obtain ⟨c, sl', s', hc, hn, hd, hs', he⟩ := mShiftOut_shot (s := s.shifter v 0) (t := t) 7 hq h hst
    (by rw [hb]; rfl)
  rw [hv] at he
  have e : (7 + 1) * us g 70 = us g 560 := us_mul g 8 70
  rw [e] at hn
  exact ⟨c, sl', s', hc, hn, hd, hs', he⟩

/-- The same with the tail, where nothing happens in it. -/
theorem mSendByte_shot (hq : s.NoOthers g) (h : sl.Listening g .readBit) (hst : sl.stack = .readByte :: rest)
    (hb : sl.bitcnt = 0) (hsh : sl.shift = 0) (v : Byte)
    (hret : ∀ c sl', c.cfg = s.cfg → Slave.Drift sl sl' → (Slave.ret c v rest sl').wake = none) :
    ∃ c sl', c.cfg = s.cfg ∧ Slave.Drift sl sl' ∧
      mSendByte v (shot s t false sl) = shot (s.shifter 0 8) (t + us g 560) false (Slave.ret c v rest sl') := by
  obtain ⟨c, sl', s', hc, hn, hd, ⟨h1, h2, h3, h4⟩, he⟩ := mSendByte_tail (t := t) hq h hst hb hsh v
  refine ⟨c, sl', hc, hd, ?_⟩
  have hq' : s'.NoOthers g := hq.congr h1 h2 h3
  have hm := mSendByte_master v (shot s t false sl)
  rw [shot_coast_quiet hq' _ (Slave.quiet_of_asleep _ (hret c sl' hc hd)), hn] at he
  rw [he] at hm ⊢
  exact shot_congr (s := s.shifter 0 8) (s' := State.shiftedOut 1 s') _ _ h1 h2 h3 h4 hm

/-- `n` bits read from a slave that writes a byte and has `n` of it left. -/
theorem mShiftIn_shot (n : Nat) (hq : s.NoOthers g) (h : sl.Listening g (.writeStart (sl.shift.getLsbD 0)))
    (hs : sl.cfg.tSSit < us g 64) (hst : sl.stack = .writeByte :: rest) (hb : sl.bitcnt.toNat + (n + 1) = 8)
    (hret : ∀ c sl', c.cfg = s.cfg → Slave.Drift sl sl' → (Slave.ret c 0 rest sl').wake = none) :
    ∃ c sl' s', c.cfg = s.cfg ∧ Slave.Drift sl sl' ∧
      (s'.cfg = s.cfg ∧ s'.otherDrive = s.otherDrive ∧ s'.otherWave = s.otherWave ∧ s'.requests = s.requests) ∧
      s'.master.shift = shiftInBits (n + 1) sl.shift s.master.shift ∧
      mShiftIn (n + 1) (shot s t false sl) = shot s' (t + (n + 1) * us g 70) false (Slave.ret c 0 rest sl') := by
  induction n generalizing s t sl with
  | zero =>
    have hr (c : Ctx) (tr pl : Nat) (po : Bool) (p : Pos) (w : Option Nat) :
        Slave.returnValue c 0 (Slave.after tr pl po p w sl) =
          Slave.ret c 0 rest (Slave.shiftOutBit (Slave.after tr pl po p w sl)) := by
      show Slave.ret c _ sl.stack _ = _
      rw [hst, Slave.ret_writeByte c _ (Slave.after tr pl po p w sl) 0 hb, if_pos rfl]
    have hdr (tr pl : Nat) (po : Bool) (p : Pos) (w : Option Nat) :
        Slave.Drift sl (Slave.shiftOutBit (Slave.after tr pl po p w sl)) := ⟨tr, true, pl, po, p, w, _, _, rfl⟩
    obtain ⟨c, tr, pl, po, p, w, hc, he⟩ := mReadSlot_shot hq (t := t) _ h hs
      (fun c tr pl po p w hc => by rw [hr]; exact hret _ _ hc (hdr tr pl po p w))
    refine ⟨c, _, s.shifter (shiftIn s.master.shift (sl.shift.getLsbD 0)) (s.master.bitcnt + 1), hc,
      hdr tr pl po p w, ⟨rfl, rfl, rfl, rfl⟩, rfl, ?_⟩
    simp only [mShiftIn, he, hr]
    rw [Nat.zero_add, Nat.one_mul]
    rfl
  | succ n ih =>
    have hr (c : Ctx) (tr pl : Nat) (po : Bool) (p : Pos) (w : Option Nat) :
        Slave.returnValue c 0 (Slave.after tr pl po p w sl) =
          Slave.await c (.writeStart ((sl.shift >>> 1).getLsbD 0))
            { Slave.shiftOutBit (Slave.after tr pl po p w sl) with stack := .writeByte :: rest } := by
      show Slave.ret c _ sl.stack _ = _
      rw [hst, Slave.ret_writeByte c _ (Slave.after tr pl po p w sl) (n + 1) hb, if_neg (by omega)]
      rfl
    have hwk (c : Ctx) (tr pl : Nat) (po : Bool) (p : Pos) (w : Option Nat) :
        (Slave.await c (.writeStart ((sl.shift >>> 1).getLsbD 0))
            { Slave.shiftOutBit (Slave.after tr pl po p w sl) with stack := .writeByte :: rest }).wake = none := by
      show sl.cfg.waitTimeout.map _ = none
      rw [h.no_timeout]; rfl
    obtain ⟨c, tr, pl, po, p, w, hc, he⟩ := mReadSlot_shot hq (t := t) _ h hs
      (fun c tr pl po p w _ => by rw [hr]; exact hwk c tr pl po p w)
    rw [hr] at he
    generalize hx : Slave.await c _ _ = x at he
    have hxh : x.shift = sl.shift >>> 1 := by rw [← hx]; rfl
    have hdx : Slave.Drift sl x := by
      rw [← hx]
      exact ⟨tr, true, pl, po, .waitPulse (.writeStart ((sl.shift >>> 1).getLsbD 0)), _, _, _, by rw [← hst]; rfl⟩
    have hlx : x.Listening g (.writeStart (x.shift.getLsbD 0)) := by
      rw [hxh, ← hx]
      exact ⟨rfl, hwk c tr pl po p w, h.valid, h.no_timeout, h.enabled, h.no_event, rfl, h.released, h.not_busy⟩
    have hxs : x.stack = .writeByte :: rest := by rw [← hx]; rfl
    have hxc : x.cfg.tSSit < us g 64 := by rw [← hx]; exact hs
    have hxb : x.bitcnt.toNat + (n + 1) = 8 := by
      rw [← hx]
      exact bitcnt_succ sl.bitcnt (n + 1) hb
    let s1 : State := s.shifter (shiftIn s.master.shift (sl.shift.getLsbD 0)) (s.master.bitcnt + 1)
    obtain ⟨c', sl', s', hc', hd', hs', hm', he'⟩ := ih (s := s1) (t := t + us g 70) (sl := x) hq hlx hxc hxs hxb
      (fun c sl' hc hd => hret c sl' hc (hdx.trans hd))
    refine ⟨c', sl', s', hc', hdx.trans hd', hs', ?_, ?_⟩
    · rw [hm', hxh]; rfl
    · have hstep : mShiftIn (n + 1 + 1) (shot s t false sl) = mShiftIn (n + 1) (shot s1 (t + us g 70) false x) := by
        rw [mShiftIn]
        simp only [he]
        rfl
      rw [hstep, he']
      congr 1
      rw [Nat.add_mul (n + 1) 1]
      omega

/-- The master reads a byte from a slave that begins to write one: it gets the slave's byte (R78, R145, R218). -/
theorem mReceiveByte_shot (hq : s.NoOthers g) (h : sl.Listening g (.writeStart (sl.shift.getLsbD 0)))
    (hs : sl.cfg.tSSit < us g 64) (hst : sl.stack = .writeByte :: rest) (hb : sl.bitcnt = 0)
    (hret : ∀ c sl', c.cfg = s.cfg → Slave.Drift sl sl' → (Slave.ret c 0 rest sl').wake = none) :
    ∃ c sl', c.cfg = s.cfg ∧ Slave.Drift sl sl' ∧ mReceiveByte (shot s t false sl) =
      (sl.shift, shot (s.shifter sl.shift 8) (t + us g 560) false (Slave.ret c 0 rest sl')) := by
  obtain ⟨c, sl', s', hc, hd, ⟨h1, h2, h3, h4⟩, hm', he⟩ := mShiftIn_shot (s := s.shifter 0 0) (t := t) 7 hq h hs hst
    (by rw [hb]; rfl) hret
  have hv : s'.master.shift = sl.shift := hm'.trans (shiftInBits_eight sl.shift)
  refine ⟨c, sl', hc, hd, ?_⟩
  have hm := mReceiveByte_master (shot s t false sl)
  have e : (7 + 1) * us g 70 = us g 560 := us_mul g 8 70
  rw [e] at he
  have h0 : ({ shot s t false sl with
      master := { (shot s t false sl).master with shift := 0, bitcnt := 0 } } : State) =
        shot (s.shifter 0 0) t false sl := rfl
  have hs : mReceiveByte (shot s t false sl) = (s'.master.shift, shot s' (t + us g 560) false (Slave.ret c 0 rest sl')) := by
    unfold mReceiveByte
    rw [h0]
    exact congrArg (fun x : State => (x.master.shift, x)) he
  rw [hs, hv] at hm ⊢
  rw [shot_congr (s := s.shifter sl.shift 8) _ _ h1 h2 h3 h4 hm]

end Sys2Proof.Machine
end

