-- ==== Sys2Proof/Laws/Transaction.lean ====
section
/-! SUPPORT. A transaction of the master with one slave in its dispatcher (spec/41_master_search_txn.md R160, R173,
spec/44_slave_dispatch.md R230 to R241): reset and presence, READ_ROM, MATCH_ROM, SKIP_ROM and the function command. -/

namespace Sys2Proof.Machine

variable {g : Config} {s : State} {t : Nat} {sl : Slave} {u : PulseUse} {rest fs : List Frame}

/-- What every wait of a slave that takes part has in common. -/
structure Slave.Base (g : Config) (sl : Slave) : Prop where
  valid : sl.cfg.valid g = true
  no_timeout : sl.cfg.waitTimeout = none
  enabled : sl.takesEdges = true
  no_event : sl.pulseNew = false
  line_prev : sl.linePrev = true
  released : sl.drive = false
  not_busy : sl.busy = false

theorem Slave.Listening.base (h : sl.Listening g u) : sl.Base g :=
  ⟨h.valid, h.no_timeout, h.enabled, h.no_event, h.line_prev, h.released, h.not_busy⟩

theorem Slave.Base.listening (h : sl.Base g) (hp : sl.pos = .waitPulse u) (hw : sl.wake = none) : sl.Listening g u :=
  ⟨hp, hw, h.valid, h.no_timeout, h.enabled, h.no_event, h.line_prev, h.released, h.not_busy⟩

theorem Slave.Base.drift {x : Slave} (h : sl.Base g) (hd : Slave.Drift sl x) : x.Base g := by
  obtain ⟨_, _, _, _, _, _, _, _, rfl⟩ := hd
  exact ⟨h.valid, h.no_timeout, h.enabled, h.no_event, rfl, h.released, h.not_busy⟩

theorem Slave.Same.refl (sl : Slave) : Slave.Same sl sl :=
  ⟨rfl, rfl, rfl, rfl, rfl, rfl, rfl, .inl ⟨rfl, rfl⟩, rfl, rfl, rfl, rfl, rfl, rfl⟩

theorem Slave.SameResult.trans {a b c : Slave} (h : Slave.SameResult a b) (h' : Slave.SameResult b c) :
    Slave.SameResult a c := by
  rcases h' with ⟨h1, h2⟩ | h'
  · rcases h with ⟨h3, h4⟩ | ⟨h3, h4⟩
    · exact .inl ⟨h1.trans h3, h2.trans h4⟩
    · exact .inr ⟨h1.trans h3, h2.trans h4⟩
  · exact .inr h'

theorem Slave.Same.trans {a b c : Slave} (h : Slave.Same a b) (h' : Slave.Same b c) : Slave.Same a c :=
  ⟨h'.1.trans h.1, h'.2.trans h.2, h'.3.trans h.3, h'.4.trans h.4, h'.5.trans h.5, h'.6.trans h.6, h'.7.trans h.7,
   h.8.trans h'.8, h'.9.trans h.9, h'.10.trans h.10, h'.11.trans h.11, h'.12.trans h.12, h'.13.trans h.13,
   h'.14.trans h.14⟩

theorem Slave.Drift.same {x : Slave} (hd : Slave.Drift sl x) : Slave.Same sl x := by
  obtain ⟨_, _, _, _, _, _, _, _, rfl⟩ := hd
  exact ⟨rfl, rfl, rfl, rfl, rfl, rfl, rfl, .inl ⟨rfl, rfl⟩, rfl, rfl, rfl, rfl, rfl, rfl⟩

theorem Slave.Drift.stack {x : Slave} (hd : Slave.Drift sl x) : x.stack = sl.stack := by
  obtain ⟨_, _, _, _, _, _, _, _, rfl⟩ := hd; rfl

theorem Slave.Drift.txnState {x : Slave} (hd : Slave.Drift sl x) : x.txnState = sl.txnState := by
  obtain ⟨_, _, _, _, _, _, _, _, rfl⟩ := hd; rfl

theorem Slave.Drift.crc16 {x : Slave} (hd : Slave.Drift sl x) : x.crc16 = sl.crc16 := by
  obtain ⟨_, _, _, _, _, _, _, _, rfl⟩ := hd; rfl

/-- The slave begins to read a byte for `fs` (R217). -/
structure Slave.Reads (g : Config) (fs : List Frame) (sl : Slave) : Prop where
  listening : sl.Listening g .readBit
  stack : sl.stack = .readByte :: fs
  bitcnt : sl.bitcnt = 0
  shift : sl.shift = 0

/-- The slave begins to write byte `v` for `fs` (R218). -/
structure Slave.Writes (g : Config) (v : Byte) (fs : List Frame) (sl : Slave) : Prop where
  listening : sl.Listening g (.writeStart (v.getLsbD 0))
  stack : sl.stack = .writeByte :: fs
  bitcnt : sl.bitcnt = 0
  shift : sl.shift = v

theorem Slave.await_forever (c : Ctx) (h : sl.cfg.waitTimeout = none) : (Slave.await c u sl).wake = none := by
  simp [Slave.await, h]

theorem Slave.await_listening (c : Ctx) (h : sl.Base g) : (Slave.await c u sl).Listening g u :=
  ⟨rfl, Slave.await_forever c h.no_timeout, h.valid, h.no_timeout, h.enabled, h.no_event, h.line_prev, h.released,
    h.not_busy⟩

theorem Slave.startReadByte_reads (c : Ctx) (h : sl.Base g) : Slave.Reads g fs (Slave.startReadByte c fs sl) :=
  ⟨⟨rfl, Slave.await_forever c h.no_timeout, h.valid, h.no_timeout, h.enabled, h.no_event, h.line_prev, h.released,
    h.not_busy⟩, rfl, rfl, rfl⟩

theorem Slave.startWriteByte_writes (c : Ctx) (v : Byte) (h : sl.Base g) :
    Slave.Writes g v fs (Slave.startWriteByte c v fs sl) :=
  ⟨⟨rfl, Slave.await_forever c h.no_timeout, h.valid, h.no_timeout, h.enabled, h.no_event, h.line_prev, h.released,
    h.not_busy⟩, rfl, rfl, rfl⟩

theorem Slave.startReadByte_same (c : Ctx) (fs : List Frame) (sl : Slave) :
    Slave.Same sl (Slave.startReadByte c fs sl) :=
  ⟨rfl, rfl, rfl, rfl, rfl, rfl, rfl, .inl ⟨rfl, rfl⟩, rfl, rfl, rfl, rfl, rfl, rfl⟩

theorem Slave.startWriteByte_same (c : Ctx) (v : Byte) (fs : List Frame) (sl : Slave) :
    Slave.Same sl (Slave.startWriteByte c v fs sl) :=
  ⟨rfl, rfl, rfl, rfl, rfl, rfl, rfl, .inl ⟨rfl, rfl⟩, rfl, rfl, rfl, rfl, rfl, rfl⟩

/-! ### Bytes -/

/-- The master writes a byte to a slave that reads one, and the slave goes on at once. -/
theorem Slave.Reads.send (h : sl.Reads g fs) (hq : s.NoOthers g) (t : Nat) (v : Byte)
    (hret : ∀ c x, c.cfg = s.cfg → Slave.Drift sl x → (Slave.ret c v fs x).wake = none) :
    ∃ c x, c.cfg = s.cfg ∧ Slave.Drift sl x ∧
      mSendByte v (shot s t false sl) = shot (s.shifter 0 8) (t + us g 560) false (Slave.ret c v fs x) :=
  mSendByte_shot hq h.listening h.stack h.bitcnt h.shift v hret

/-- The master reads a byte from a slave that writes one, and the slave goes on at once. -/
theorem Slave.Writes.receive {v : Byte} (h : sl.Writes g v fs) (hq : s.NoOthers g) (t : Nat) (hs : sl.cfg.tSSit < us g 64)
    (hret : ∀ c x, c.cfg = s.cfg → Slave.Drift sl x → (Slave.ret c 0 fs x).wake = none) :
    ∃ c x, c.cfg = s.cfg ∧ Slave.Drift sl x ∧ mReceiveByte (shot s t false sl) =
      (v, shot (s.shifter v 8) (t + us g 560) false (Slave.ret c 0 fs x)) := by
  obtain ⟨hl, hst, hb, hsh⟩ := h
  subst hsh
  exact mReceiveByte_shot hq hl hs hst hb hret

/-! ### The dispatcher -/

/-- The slave is somewhere in `S_WAIT_FUNCTION_CMD`, waiting for a pulse: a reset brings the dispatcher back to its loop
(R236). -/
structure Slave.Serving (g : Config) (rest : List Frame) (sl : Slave) : Prop where
  waits : ∃ u, sl.Listening g u ∧ takesReset u = true ∧
    ∀ c x, ∃ st v, Slave.SameResult x { x with status := st, data := v } ∧
      Slave.ret c 0 (resetCaller u :: sl.stack) x = Slave.dispatch c rest { x with status := st, data := v }

theorem Slave.dispatch_waitingRomCmd (c : Ctx) (h : sl.txnState = .waitingRomCmd) :
    Slave.dispatch c rest sl = Slave.startReadByte c (.romCommand :: .dispatcher :: rest) sl := by
  simp [Slave.dispatch, h]

theorem Slave.dispatch_waitingFunctionCmd (c : Ctx) (h : sl.txnState = .waitingFunctionCmd) :
    Slave.dispatch c rest sl = Slave.startReadByte c (.functionCommand :: .dispatcher :: rest) sl := by
  simp [Slave.dispatch, h]

/-- A reset brings a slave in its dispatcher to `WAITING_ROM_CMD`, reading a ROM command (R232, R236). -/
theorem Slave.Serving.reset (h : sl.Serving g rest) (hq : s.NoOthers g) (t : Nat) :
    ∃ x, mResetExchange (shot s t false sl) = (true, shot s (t + us g 960) false x) ∧ Slave.Same sl x ∧
      x.Reads g (.romCommand :: .dispatcher :: rest) ∧ x.txnState = .waitingRomCmd := by
  obtain ⟨u, hl, hu, hst⟩ := h.waits
  have hr (c : Ctx) (tr pl : Nat) (po : Bool) (p : Pos) (w : Option Nat) :
      ∃ st v, Slave.SameResult sl { sl with status := st, data := v } ∧
        Slave.returnValue c 0 { Slave.after tr pl po p w sl with
          stack := resetCaller u :: sl.stack, txnState := .waitingRomCmd } =
        Slave.startReadByte c (.romCommand :: .dispatcher :: rest) { Slave.after tr pl po p w sl with
          stack := resetCaller u :: sl.stack, txnState := .waitingRomCmd, status := st, data := v } := by
    obtain ⟨st, v, hsv, e⟩ := hst c { Slave.after tr pl po p w sl with
      stack := resetCaller u :: sl.stack, txnState := .waitingRomCmd }
    exact ⟨st, v, hsv, e.trans (Slave.dispatch_waitingRomCmd c rfl)⟩
  obtain ⟨c, tr, pl, po, p, w, -, he⟩ := mResetExchange_shot (t := t) hq hl hu
    (fun c tr pl po p w _ => by
      obtain ⟨st, v, -, e⟩ := hr c tr pl po p w
      rw [e]
      exact Slave.await_forever c hl.no_timeout)
  obtain ⟨st, v, hsv, e⟩ := hr c tr pl po p w
  rw [e] at he
  refine ⟨_, he, ⟨rfl, rfl, rfl, rfl, rfl, rfl, rfl, hsv, rfl, rfl, rfl, rfl, rfl, rfl⟩, ?_, rfl⟩
  exact Slave.startReadByte_reads c
    ⟨hl.valid, hl.no_timeout, hl.enabled, hl.no_event, rfl, hl.released, hl.not_busy⟩

/-! ### READ_ROM -/

theorem decodeRomCommand_encode (r : RomCommand) : decodeRomCommand (encodeRomCommand r) = some r := by
  cases r <;> decide

/-- READ_ROM's command byte: the slave begins to write its ROM-ID (R240). -/
theorem Slave.Reads.sendReadRom (h : sl.Reads g (.romCommand :: .dispatcher :: rest)) (hq : s.NoOthers g) (t : Nat) :
    ∃ x, mSendByte 0x33 (shot s t false sl) = shot (s.shifter 0 8) (t + us g 560) false x ∧ Slave.Same sl x ∧
      x.Writes g (romByte sl.romId 0) (.readRom 0 :: .dispatcher :: rest) := by
  have hr (c : Ctx) (x : Slave) : Slave.ret c 0x33 (.romCommand :: .dispatcher :: rest) x =
      Slave.startWriteByte c (romByte x.romId 0) (.readRom 0 :: .dispatcher :: rest) x := rfl
  obtain ⟨c, x, -, hd, he⟩ := h.send hq t 0x33
    (fun c x _ hd => by rw [hr]; exact Slave.await_forever c (hd.same.cfg ▸ h.listening.no_timeout))
  rw [hr] at he
  have hb : x.Base g := h.listening.base.drift hd
  refine ⟨_, he, hd.same.trans (Slave.startWriteByte_same c _ _ x), ?_⟩
  rw [← hd.same.romId]
  exact Slave.startWriteByte_writes c _ hb

/-- The bytes `i`, `i + 1`, ..., 7 of a ROM-ID put into `rom_buf`. -/
def putRomBytes (id : RomId) : Nat → Nat → RomId → RomId
  | 0, _, b => b
  | n + 1, i, b => putRomBytes id n (i + 1) (setRomByte b i (romByte id i))

/-- Bytes `i`, `i + 1`, ... of a ROM-ID folded into the CRC. -/
def foldRomBytes (id : RomId) : Nat → Nat → Byte → Byte
  | 0, _, c => c
  | n + 1, i, c => foldRomBytes id n (i + 1) (crc8Update c (romByte id i))

theorem mReadRomBytes_shot (n : Nat) (hq : s.NoOthers g) (i : Nat) (hi : i + (n + 1) = 8) (hs : sl.cfg.tSSit < us g 64)
    (h : sl.Writes g (romByte sl.romId i) (.readRom i :: .dispatcher :: rest)) :
    ∃ s' x, mReadRomBytes (n + 1) i (shot s t false sl) = shot s' (t + (n + 1) * us g 560) false x ∧ Slave.Same sl x ∧
      x.Reads g (.functionCommand :: .dispatcher :: rest) ∧ x.txnState = .waitingFunctionCmd ∧
      s' = { s with master := { s.master with
        shift := s'.master.shift, bitcnt := s'.master.bitcnt
        romBuf := putRomBytes sl.romId (n + 1) i s.master.romBuf
        crc8 := foldRomBytes sl.romId (n + 1) i s.master.crc8 } } := by
  induction n generalizing s t sl i with
  | zero =>
    have hi7 : i = 7 := by omega
    subst hi7
    have hr (c : Ctx) (x : Slave) : Slave.ret c 0 (.readRom 7 :: .dispatcher :: rest) x =
        Slave.startReadByte c (.functionCommand :: .dispatcher :: rest) { x with txnState := .waitingFunctionCmd } := rfl
    obtain ⟨c, x, -, hd, he⟩ := h.receive hq t hs
      (fun c x _ hd => by rw [hr]; exact Slave.await_forever c (hd.same.cfg ▸ h.listening.no_timeout))
    rw [hr] at he
    have hb : x.Base g := h.listening.base.drift hd
    refine ⟨{ s with master := { s.master with
      shift := romByte sl.romId 7, bitcnt := 8, romBuf := setRomByte s.master.romBuf 7 (romByte sl.romId 7)
      crc8 := crc8Update s.master.crc8 (romByte sl.romId 7) } },
      Slave.startReadByte c (.functionCommand :: .dispatcher :: rest) { x with txnState := .waitingFunctionCmd },
      ?_, ?_, ?_, rfl, rfl⟩
    · rw [mReadRomBytes]
      simp only [he, mReadRomBytes]
      rw [Nat.zero_add, Nat.one_mul]
      rfl
    · exact hd.same.trans ⟨rfl, rfl, rfl, rfl, rfl, rfl, rfl, .inl ⟨rfl, rfl⟩, rfl, rfl, rfl, rfl, rfl, rfl⟩
    · exact Slave.startReadByte_reads c ⟨hb.1, hb.2, hb.3, hb.4, hb.5, hb.6, hb.7⟩
  | succ n ih =>
    have hlt : i < 7 := by omega
    have hr (c : Ctx) (x : Slave) : Slave.ret c 0 (.readRom i :: .dispatcher :: rest) x =
        Slave.startWriteByte c (romByte x.romId (i + 1)) (.readRom (i + 1) :: .dispatcher :: rest) x := by
      show Slave.readRomNext c i _ x = _
      rw [Slave.readRomNext, if_pos hlt]
    obtain ⟨c, x, -, hd, he⟩ := h.receive hq t hs
      (fun c x _ hd => by rw [hr]; exact Slave.await_forever c (hd.same.cfg ▸ h.listening.no_timeout))
    rw [hr] at he
    have hb : x.Base g := h.listening.base.drift hd
    generalize hy : Slave.startWriteByte c _ _ x = y at he
    have hxy : Slave.Same sl y := by rw [← hy]; exact hd.same.trans (Slave.startWriteByte_same c _ _ x)
    have hwy : y.Writes g (romByte y.romId (i + 1)) (.readRom (i + 1) :: .dispatcher :: rest) := by
      rw [hxy.romId, ← hd.same.romId, ← hy]
      exact Slave.startWriteByte_writes c _ hb
    let s1 : State := { s with master := { s.master with
      shift := romByte sl.romId i, bitcnt := 8, romBuf := setRomByte s.master.romBuf i (romByte sl.romId i)
      crc8 := crc8Update s.master.crc8 (romByte sl.romId i) } }
    obtain ⟨s', z, he', hs', hrd, htx, hm⟩ := ih (s := s1) (t := t + us g 560) (sl := y) hq (i + 1) (by omega)
      (by rw [hxy.cfg]; exact hs) hwy
    refine ⟨s', z, ?_, hxy.trans hs', hrd, htx, ?_⟩
    · have hstep : mReadRomBytes (n + 1 + 1) i (shot s t false sl) =
          mReadRomBytes (n + 1) (i + 1) (shot s1 (t + us g 560) false y) := by
        rw [mReadRomBytes]
        simp only [he]
        rfl
      rw [hstep, he']
      congr 1
      rw [Nat.add_mul (n + 1) 1]
      omega
    · rw [hxy.romId] at hm
      exact hm

theorem getLsbD_ff (m : Nat) (h : m < 64) : (0xFF#64).getLsbD m = decide (m < 8) := by
  have : ∀ m : Fin 64, (0xFF#64).getLsbD m = decide (m.val < 8) := by decide
  exact this ⟨m, h⟩

theorem getLsbD_setRomByte (x : RomId) (i : Nat) (b : Byte) (j : Nat) (hj : j < 64) :
    (setRomByte x i b).getLsbD j = if 8 * i ≤ j ∧ j < 8 * i + 8 then b.getLsbD (j - 8 * i) else x.getLsbD j := by
  unfold setRomByte
  simp only [BitVec.getLsbD_or, BitVec.getLsbD_and, BitVec.getLsbD_not, BitVec.getLsbD_shiftLeft, hj, decide_true,
    Bool.true_and, BitVec.getLsbD_setWidth]
  rw [getLsbD_ff (j - 8 * i) (by omega)]
  by_cases h1 : j < 8 * i
  · simp [h1, show ¬ 8 * i ≤ j by omega]
  · by_cases h2 : j < 8 * i + 8
    · simp [h1, show 8 * i ≤ j by omega, h2, show j - 8 * i < 8 by omega, show j - 8 * i < 64 by omega]
    · rw [BitVec.getLsbD_of_ge b (j - 8 * i) (by omega)]
      simp [h1, h2, show ¬ j - 8 * i < 8 by omega]

theorem getLsbD_romByte (id : RomId) (i m : Nat) : (romByte id i).getLsbD m = (decide (m < 8) && id.getLsbD (8 * i + m)) := by
  simp [romByte, BitVec.getLsbD_extractLsb']

theorem getLsbD_putRomBytes (id : RomId) (n i : Nat) (b : RomId) (j : Nat) (hj : j < 64) :
    (putRomBytes id n i b).getLsbD j = if 8 * i ≤ j ∧ j < 8 * (i + n) then id.getLsbD j else b.getLsbD j := by
  induction n generalizing i b with
  | zero => rw [putRomBytes, if_neg (by omega)]
  | succ n ih =>
    rw [putRomBytes, ih, getLsbD_setRomByte _ _ _ _ hj, getLsbD_romByte]
    by_cases h1 : 8 * (i + 1) ≤ j ∧ j < 8 * (i + 1 + n)
    · rw [if_pos h1, if_pos (by omega)]
    · rw [if_neg h1]
      by_cases h2 : 8 * i ≤ j ∧ j < 8 * i + 8
      · rw [if_pos h2, if_pos (by omega), decide_eq_true (by omega), Bool.true_and]
        congr 1
        omega
      · rw [if_neg h2, if_neg (by omega)]

/-- Eight bytes put in index order make the ROM-ID (R82, R112). -/
theorem putRomBytes_all (id b : RomId) : putRomBytes id 8 0 b = id := by
  apply BitVec.eq_of_getLsbD_eq
  intro j hj
  rw [getLsbD_putRomBytes _ _ _ _ _ hj, if_pos (by omega)]

theorem foldRomBytes_all (id : RomId) (c : Byte) : foldRomBytes id 8 0 c = crc8Fold c (romBytes id) := rfl

/-- The master after `M_READ_ROM` on a bus with one answering slave (R160). -/
def Master.readRomOf (id : RomId) (m m' : Master) : Prop :=
  m' = { m with drive := false, shift := m'.shift, bitcnt := m'.bitcnt, romBuf := id, crc8 := crc8Fold 0 (romBytes id) }

/-- READ_ROM with one slave in its dispatcher: the master gets its ROM-ID, the slave goes on to the function command. -/
theorem Slave.Serving.readRom (h : sl.Serving g rest) (hq : s.NoOthers g) (hs : sl.cfg.tSSit < us g 64) (t : Nat) :
    ∃ s' x, mReadRom (shot s t false sl) =
        (if crc8Fold 0 (romBytes sl.romId) = 0 then .ok else .romCrcMismatch, shot s' (t + us g 6000) false x) ∧
      Slave.Same sl x ∧ x.Reads g (.functionCommand :: .dispatcher :: rest) ∧ x.txnState = .waitingFunctionCmd ∧
      s' = { s with master := { s.master with
        shift := s'.master.shift, bitcnt := s'.master.bitcnt
        romBuf := sl.romId, crc8 := crc8Fold 0 (romBytes sl.romId) } } := by
  obtain ⟨x1, e1, h1, hr1, -⟩ := h.reset hq t
  obtain ⟨x2, e2, h2, hw2⟩ := hr1.sendReadRom hq (t + us g 960)
  rw [← h2.romId] at hw2
  let s2 : State := { s.shifter 0 8 with master := { (s.shifter 0 8).master with crc8 := 0 } }
  obtain ⟨s', x3, e3, h3, hr3, ht3, hm⟩ := mReadRomBytes_shot (s := s2) (t := t + us g 960 + us g 560) 7 hq 0 rfl
    (by rw [h2.cfg, h1.cfg]; exact hs) hw2
  rw [h2.romId, h1.romId] at hm
  have hid : s'.master.romBuf = sl.romId := by
    rw [hm]
    exact putRomBytes_all _ _
  have hcrc : s'.master.crc8 = crc8Fold 0 (romBytes sl.romId) := by
    rw [hm]
    exact foldRomBytes_all _ _
  have htime : t + us g 960 + us g 560 + (7 + 1) * us g 560 = t + us g 6000 := by
    rw [us_mul, us_add₃]
  refine ⟨s', x3, ?_, (h1.trans h2).trans h3, hr3, ht3, ?_⟩
  · have he : mReadRom (shot s t false sl) =
        (if (shot s' (t + us g 6000) false x3).master.crc8 = 0 then .ok else .romCrcMismatch,
          shot s' (t + us g 6000) false x3) := by
      rw [htime] at e3
      unfold mReadRom
      simp only [e1, if_true, e2]
      exact congrArg (fun z : State => ((if z.master.crc8 = 0 then Status.ok else .romCrcMismatch), z)) e3
    have hz : (shot s' (t + us g 6000) false x3).master.crc8 = s'.master.crc8 := rfl
    rw [he, hz, hcrc]
  · have hput : putRomBytes sl.romId (7 + 1) 0 s2.master.romBuf = sl.romId := putRomBytes_all _ _
    have hfold : foldRomBytes sl.romId (7 + 1) 0 s2.master.crc8 = crc8Fold 0 (romBytes sl.romId) := rfl
    rw [hput, hfold] at hm
    exact hm

/-! ### MATCH_ROM and SKIP_ROM -/

/-- `s'` is `s` but for the master's shifter. -/
def State.Shifted (s s' : State) : Prop :=
  s' = { s with master := { s.master with shift := s'.master.shift, bitcnt := s'.master.bitcnt } }

theorem State.Shifted.trans {a b c : State} (h : State.Shifted a b) (h' : State.Shifted b c) : State.Shifted a c := by
  unfold State.Shifted at *
  rw [h', h]

theorem State.Shifted.noOthers {a b : State} (h : State.Shifted a b) (hq : a.NoOthers g) : b.NoOthers g := by
  unfold State.Shifted at h
  rw [h]
  exact hq

/-- The slave waits for bit `m` of an ID that has agreed so far, or all 64 bits have agreed (R241). -/
def Slave.Matching (g : Config) (rest : List Frame) (m : Nat) (sl : Slave) : Prop :=
  if m ≤ 64 then sl.Listening g .readBit ∧ sl.stack = .matchRom m :: .dispatcher :: rest
  else sl.Reads g (.functionCommand :: .dispatcher :: rest) ∧ sl.txnState = .waitingFunctionCmd

theorem Slave.Matching.slot {m : Nat} (h : sl.Matching g rest m) (hm : m ≤ 64) (hq : s.NoOthers g) (t : Nat) :
    ∃ x, mWriteSlot (romBit sl.romId m) (shot s t false sl) = shot s (t + us g 70) false x ∧ Slave.Same sl x ∧
      x.Matching g rest (m + 1) := by
  unfold Slave.Matching at h
  rw [if_pos hm] at h
  obtain ⟨hl, hst⟩ := h
  have hr (c : Ctx) (tr pl : Nat) (po : Bool) (p : Pos) (w : Option Nat) :
      Slave.returnValue c (bitByte (romBit sl.romId m)) (Slave.after tr pl po p w sl) =
        if m < 64 then
          Slave.await c .readBit { Slave.after tr pl po p w sl with stack := .matchRom (m + 1) :: .dispatcher :: rest }
        else Slave.startReadByte c (.functionCommand :: .dispatcher :: rest)
          { Slave.after tr pl po p w sl with txnState := .waitingFunctionCmd } := by
    show Slave.ret c _ sl.stack _ = _
    rw [hst]
    show Slave.matchRomNext c m (byteBit (bitByte (romBit sl.romId m))) _ _ = _
    rw [byteBit_bitByte, Slave.matchRomNext]
    exact if_pos rfl
  have hwk (c : Ctx) (tr pl : Nat) (po : Bool) (p : Pos) (w : Option Nat) :
      (Slave.returnValue c (bitByte (romBit sl.romId m)) (Slave.after tr pl po p w sl)).wake = none := by
    rw [hr]
    split <;> exact Slave.await_forever c hl.no_timeout
  obtain ⟨c, tr, pl, po, p, w, -, he⟩ := mWriteSlot_shot hq hl (t := t) (romBit sl.romId m)
    (fun c tr pl po p w _ => hwk c tr pl po p w)
  refine ⟨_, he, ?_, ?_⟩
  · rw [hr]
    split <;> exact ⟨rfl, rfl, rfl, rfl, rfl, rfl, rfl, .inl ⟨rfl, rfl⟩, rfl, rfl, rfl, rfl, rfl, rfl⟩
  · unfold Slave.Matching
    rw [hr]
    by_cases h64 : m < 64
    · rw [if_pos h64, if_pos (by omega)]
      exact ⟨⟨rfl, Slave.await_forever c hl.no_timeout, hl.valid, hl.no_timeout, hl.enabled, hl.no_event, rfl, hl.released,
        hl.not_busy⟩, rfl⟩
    · rw [if_neg h64, if_neg (by omega)]
      exact ⟨Slave.startReadByte_reads c
        ⟨hl.valid, hl.no_timeout, hl.enabled, hl.no_event, rfl, hl.released, hl.not_busy⟩, rfl⟩

theorem mShiftOut_match (n m : Nat) (h : sl.Matching g rest m) (hm : m + n ≤ 65) (hq : s.NoOthers g)
    (hv : ∀ i, i < n → s.master.shift.getLsbD i = romBit sl.romId (m + i)) :
    ∃ s' x, mShiftOut n (shot s t false sl) = shot s' (t + n * us g 70) false x ∧ Slave.Same sl x ∧
      x.Matching g rest (m + n) ∧ State.Shifted s s' := by
  induction n generalizing s t sl m with
  | zero => exact ⟨s, sl, by simp [mShiftOut], Slave.Same.refl sl, h, rfl⟩
  | succ n ih =>
    obtain ⟨x, he, hx, hmx⟩ := h.slot (by omega) hq t
    have hb : s.master.shift.getLsbD 0 = romBit sl.romId m := hv 0 (by omega)
    let s1 : State := State.shiftedOut 1 s
    obtain ⟨s', y, he', hy, hmy, hs'⟩ := ih (s := s1) (t := t + us g 70) (m + 1) hmx (by omega) hq (by
      intro i hi
      show (s.master.shift >>> 1).getLsbD i = _
      rw [BitVec.getLsbD_ushiftRight, hx.romId, hv (1 + i) (by omega)]
      congr 1
      omega)
    refine ⟨s', y, ?_, hx.trans hy, by rw [show m + (n + 1) = m + 1 + n by omega]; exact hmy,
      State.Shifted.trans (a := s) (b := s1) rfl hs'⟩
    have hstep : mShiftOut (n + 1) (shot s t false sl) = mShiftOut n (shot s1 (t + us g 70) false x) := by
      have hm0 : (shot s t false sl).master.shift.getLsbD 0 = romBit sl.romId m := hb
      rw [mShiftOut]
      simp only [hm0, he]
      rfl
    rw [hstep, he']
    congr 1
    rw [Nat.add_mul n 1]
    omega

theorem romByte_bits (id : RomId) (j i : Nat) (hi : i < 8) :
    (romByte id j).getLsbD i = romBit id (8 * j + 1 + i) := by
  rw [getLsbD_romByte, decide_eq_true hi, Bool.true_and, romBit]
  congr 1
  omega

/-- The bytes of a ROM-ID from index `i` on. -/
def romBytesFrom (id : RomId) : Nat → Nat → List Byte
  | 0, _ => []
  | n + 1, i => romByte id i :: romBytesFrom id n (i + 1)

theorem mSendBytes_match (n i : Nat) (hi : i + n = 8) (h : sl.Matching g rest (8 * i + 1)) (hq : s.NoOthers g) :
    ∃ s' x, mSendBytes (romBytesFrom sl.romId n i) (shot s t false sl) = shot s' (t + n * us g 560) false x ∧
      Slave.Same sl x ∧ x.Matching g rest 65 ∧ State.Shifted s s' := by
  induction n generalizing s t sl i with
  | zero =>
    have : i = 8 := by omega
    subst this
    exact ⟨s, sl, by simp [mSendBytes, romBytesFrom], Slave.Same.refl sl, h, rfl⟩
  | succ n ih =>
    let s0 : State := s.shifter (romByte sl.romId i) 0
    obtain ⟨s1, x, he, hx, hmx, hs1⟩ := mShiftOut_match (s := s0) (t := t) 8 (8 * i + 1) h (by omega) hq
      (fun j hj => romByte_bits sl.romId i j hj)
    have hq1 : s1.NoOthers g := hs1.noOthers hq
    have he0 : mSendByte (romByte sl.romId i) (shot s t false sl) = shot s1 (t + us g 560) false x := by
      have : mSendByte (romByte sl.romId i) (shot s t false sl) = mShiftOut 8 (shot s0 t false sl) := rfl
      rw [this, he, us_mul]
    obtain ⟨s', y, he', hy, hmy, hs'⟩ := ih (s := s1) (t := t + us g 560) (sl := x) (i + 1) (by omega)
      (by rw [show 8 * (i + 1) + 1 = 8 * i + 1 + 8 by omega]; exact hmx) hq1
    refine ⟨s', y, ?_, hx.trans hy, hmy, State.Shifted.trans (State.Shifted.trans (a := s) (b := s0) rfl hs1) hs'⟩
    rw [hx.romId] at he'
    rw [romBytesFrom, mSendBytes, he0, he']
    congr 1
    rw [Nat.add_mul n 1]
    omega

/-- MATCH_ROM's command byte (R241). -/
theorem Slave.Reads.sendMatchRom (h : sl.Reads g (.romCommand :: .dispatcher :: rest)) (hq : s.NoOthers g) (t : Nat) :
    ∃ x, mSendByte 0x55 (shot s t false sl) = shot (s.shifter 0 8) (t + us g 560) false x ∧ Slave.Same sl x ∧
      x.Matching g rest 1 := by
  have hr (c : Ctx) (x : Slave) : Slave.ret c 0x55 (.romCommand :: .dispatcher :: rest) x =
      Slave.await c .readBit { x with stack := .matchRom 1 :: .dispatcher :: rest } := rfl
  obtain ⟨c, x, -, hd, he⟩ := h.send hq t 0x55
    (fun c x _ hd => by rw [hr]; exact Slave.await_forever c (hd.same.cfg ▸ h.listening.no_timeout))
  rw [hr] at he
  have hb : x.Base g := h.listening.base.drift hd
  refine ⟨_, he, hd.same.trans ⟨rfl, rfl, rfl, rfl, rfl, rfl, rfl, .inl ⟨rfl, rfl⟩, rfl, rfl, rfl, rfl, rfl, rfl⟩, ?_⟩
  unfold Slave.Matching
  rw [if_pos (by decide)]
  exact ⟨⟨rfl, Slave.await_forever c hb.no_timeout, hb.valid, hb.no_timeout, hb.enabled, hb.no_event, hb.line_prev,
    hb.released, hb.not_busy⟩, rfl⟩

/-- SKIP_ROM's command byte (R242). -/
theorem Slave.Reads.sendSkipRom (h : sl.Reads g (.romCommand :: .dispatcher :: rest)) (hq : s.NoOthers g) (t : Nat) :
    ∃ x, mSendByte 0xCC (shot s t false sl) = shot (s.shifter 0 8) (t + us g 560) false x ∧ Slave.Same sl x ∧
      x.Reads g (.functionCommand :: .dispatcher :: rest) ∧ x.txnState = .waitingFunctionCmd := by
  have hr (c : Ctx) (x : Slave) : Slave.ret c 0xCC (.romCommand :: .dispatcher :: rest) x =
      Slave.startReadByte c (.functionCommand :: .dispatcher :: rest) { x with txnState := .waitingFunctionCmd } := rfl
  obtain ⟨c, x, -, hd, he⟩ := h.send hq t 0xCC
    (fun c x _ hd => by rw [hr]; exact Slave.await_forever c (hd.same.cfg ▸ h.listening.no_timeout))
  rw [hr] at he
  have hb : x.Base g := h.listening.base.drift hd
  exact ⟨_, he, hd.same.trans ⟨rfl, rfl, rfl, rfl, rfl, rfl, rfl, .inl ⟨rfl, rfl⟩, rfl, rfl, rfl, rfl, rfl, rfl⟩,
    Slave.startReadByte_reads c ⟨hb.1, hb.2, hb.3, hb.4, hb.5, hb.6, hb.7⟩, rfl⟩

/-! ### The launcher -/

/-- The master and its shifter after a launch that addressed slave `id`. -/
def launchBuffer (mode : BitVec 2) (id : RomId) (s : State) : State :=
  if mode = 0 then { s with master := { s.master with romBuf := id, crc8 := crc8Fold 0 (romBytes id) } } else s

/-- The launcher up to its function command, to a slave in its dispatcher that it addresses (R173). -/
theorem Slave.Serving.launch (h : sl.Serving g rest) (hq : s.NoOthers g) (hs : sl.cfg.tSSit < us g 64) (t : Nat)
    (mode : BitVec 2) (id : RomId) (f : Byte) (h3 : mode ≠ 3) (h0 : mode = 0 → crc8Fold 0 (romBytes sl.romId) = 0)
    (h1 : mode = 1 → id = sl.romId) :
    ∃ s' x t', Machine.launch mode id f (shot s t false sl) = (.ok, mSendByte f (shot s' t' false x)) ∧
      t' + us g 560 = t + us g (if mode = 2 then 2080 else 6560) ∧ Slave.Same sl x ∧
      x.Reads g (.functionCommand :: .dispatcher :: rest) ∧ x.txnState = .waitingFunctionCmd ∧
      State.Shifted (launchBuffer mode sl.romId s) s' := by
  obtain ⟨x1, e1, hs1, hr1, -⟩ := h.reset hq t
  have hm : ∀ m : BitVec 2, m ≠ 3 → m = 0 ∨ m = 1 ∨ m = 2 := by decide
  rcases hm mode h3 with rfl | rfl | rfl
  · obtain ⟨s', x, e, hsx, hrx, htx, hms⟩ := h.readRom hq hs t
    refine ⟨s', x, t + us g 6000, ?_, us_add₂ g t 6000 560, hsx, hrx, htx, hms⟩
    simp only [Machine.launch, e, h0 rfl, if_true]
  · obtain ⟨x2, e2, hs2, hm2⟩ := hr1.sendMatchRom hq (t + us g 960)
    obtain ⟨s', x, e3, hs3, hm3, hsh⟩ := mSendBytes_match (s := s.shifter 0 8) (t := t + us g 960 + us g 560) 8 0 rfl hm2 hq
    have hid : romBytes id = romBytesFrom x2.romId 8 0 := by rw [h1 rfl, hs2.romId, hs1.romId]; rfl
    unfold Slave.Matching at hm3
    rw [if_neg (by decide)] at hm3
    rw [← hid] at e3
    refine ⟨s', x, t + us g 960 + us g 560 + 8 * us g 560, ?_, ?_, (hs1.trans hs2).trans hs3, hm3.1, hm3.2,
      State.Shifted.trans (a := s) (b := s.shifter 0 8) rfl hsh⟩
    · have d0 : ¬ ((1 : BitVec 2) = 0) := by decide
      unfold Machine.launch
      simp only [if_neg d0, if_true, e1, e2, e3]
    · rw [us_mul, us_add₃, us_add₂]
      rfl
  · obtain ⟨x2, e2, hs2, hr2, ht2⟩ := hr1.sendSkipRom hq (t + us g 960)
    refine ⟨s.shifter 0 8, x2, t + us g 960 + us g 560, ?_, us_add₃ g t 960 560 560, hs1.trans hs2, hr2, ht2, rfl⟩
    have d0 : ¬ ((2 : BitVec 2) = 0) := by decide
    have d1 : ¬ ((2 : BitVec 2) = 1) := by decide
    unfold Machine.launch
    simp only [if_neg d0, if_neg d1, if_true, e1, e2]

end Sys2Proof.Machine
end

