-- ==== Sys2Proof/Laws/Composite.lean ====
section
/-! SUPPORT. What the master's composite operations can do, whatever the slaves do: how long they last, what they write
of the master's registers, and that the slaves only see time pass (spec/41_master_search_txn.md R160 to R173). -/

namespace Sys2Proof.Machine

variable {R : Slave → Slave → Prop} {s t : State}

/-- The master's registers do not matter to `Serves`. -/
theorem Serves.withMaster (h : Serves R s t) (m : Master) : Serves R s { t with master := m } :=
  ⟨h.cfg, h.requests, h.slaves⟩

theorem Serves.ofMaster {m : Master} (h : Serves R { s with master := m } t) : Serves R s t :=
  ⟨h.cfg, h.requests, h.slaves⟩

theorem Serves.refl (hR : Closed s.cfg R) : Serves R s s := ⟨rfl, rfl, forall₂_refl hR.refl _⟩

theorem Serves.then {u : State} (hR : Closed s.cfg R) (h : Serves R s t) (h' : Closed t.cfg R → Serves R t u) :
    Serves R s u :=
  h.trans hR.trans (h' (h.cfg ▸ hR))

/-! ### READ_ROM -/

/-- The bytes `bs` stored into the ROM-ID buffer from index `i` up. -/
def placeBytes : List Byte → Nat → RomId → RomId
  | [], _, b => b
  | x :: xs, i, b => placeBytes xs (i + 1) (setRomByte b i x)

theorem romByte_setRomByte (x : RomId) (i j : Nat) (b : Byte) (hi : i < 8) (hj : j < 8) :
    romByte (setRomByte x i b) j = if j = i then b else romByte x j := by
  apply BitVec.eq_of_getLsbD_eq
  intro m hm
  rw [getLsbD_romByte, getLsbD_setRomByte _ _ _ _ (by omega)]
  by_cases e : j = i
  · subst e
    simp only [hm, decide_true, Bool.true_and, if_true]
    rw [if_pos (by omega)]
    congr 1
    omega
  · rw [if_neg (by omega), if_neg e, getLsbD_romByte]

theorem romBytes_placeBytes (bs : List Byte) (b : RomId) (h : bs.length = 8) : romBytes (placeBytes bs 0 b) = bs := by
  match bs, h with
  | [b0, b1, b2, b3, b4, b5, b6, b7], _ =>
    simp only [placeBytes, romBytes]
    simp [romByte_setRomByte]

theorem mReadRomBytes_serves (n i : Nat) (hR : Closed s.cfg R) : Serves R s (mReadRomBytes n i s) := by
  induction n generalizing s i with
  | zero => exact .refl hR
  | succ n ih => exact ((mReceiveByte_serves hR).withMaster _).then hR fun h => ih (i + 1) h

theorem mReadRomBytes_took (n i : Nat) (s : State) : Took s (mReadRomBytes n i s) (n * 24) (n * us s.cfg 560) := by
  induction n generalizing s i with
  | zero => exact (Took.refl s).of_eq (by simp) (by simp)
  | succ n ih =>
    rw [mReadRomBytes]
    refine Took.of_eq ((mReceiveByte_took s).trans (mReceiveByte_cfg s) (ih (i + 1) _).ofMaster) ?_ ?_
    · omega
    · simp only [mReceiveByte_cfg]
      rw [Nat.succ_mul, Nat.add_comm]

theorem mReadRomBytes_master (n i : Nat) (s : State) :
    ∃ bs sh bc, bs.length = n + 1 ∧ (mReadRomBytes (n + 1) i s).master =
      { s.master with drive := false, shift := sh, bitcnt := bc, romBuf := placeBytes bs i s.master.romBuf
                      crc8 := crc8Fold s.master.crc8 bs } := by
  induction n generalizing s i with
  | zero =>
    refine ⟨[(mReceiveByte s).1], (mReceiveByte s).1, 8, rfl, ?_⟩
    simp only [mReadRomBytes, mReceiveByte_master, placeBytes, crc8Fold, List.foldl]
  | succ n ih =>
    rw [mReadRomBytes]
    obtain ⟨bs, sh, bc, hl, hm⟩ := ih (i + 1) { (mReceiveByte s).2 with
      master := { (mReceiveByte s).2.master with
        romBuf := setRomByte (mReceiveByte s).2.master.romBuf i (mReceiveByte s).1
        crc8 := crc8Update (mReceiveByte s).2.master.crc8 (mReceiveByte s).1 } }
    refine ⟨(mReceiveByte s).1 :: bs, sh, bc, by simp [hl], ?_⟩
    rw [hm]
    simp only [mReceiveByte_master, placeBytes, crc8Fold, List.foldl]

/-- The state in which `M_READ_ROM` begins to read. -/
def romReadStart (s : State) : State :=
  { mSendByte 0x33 (mResetExchange s).2 with
    master := { (mSendByte 0x33 (mResetExchange s).2).master with crc8 := 0 } }

theorem mReadRom_absent (h : (mResetExchange s).1 = false) :
    mReadRom s = (.noSlavePresent, (mResetExchange s).2) := by
  unfold mReadRom
  dsimp only
  rw [h]
  rfl

theorem mReadRom_present (h : (mResetExchange s).1 = true) :
    mReadRom s = (if (mReadRomBytes 8 0 (romReadStart s)).master.crc8 = 0 then .ok else .romCrcMismatch,
      mReadRomBytes 8 0 (romReadStart s)) := by
  unfold mReadRom romReadStart
  simp only [h, if_true]

theorem romReadStart_serves (hR : Closed s.cfg R) : Serves R s (romReadStart s) :=
  (mResetExchange_serves hR).then hR fun h => (mSendByte_serves 0x33 h).withMaster _

theorem romReadStart_cfg (s : State) : (romReadStart s).cfg = s.cfg := (romReadStart_serves (evolves_closed s.cfg)).cfg

theorem romReadStart_took (s : State) : Took s (romReadStart s) 19 (us s.cfg 1520) :=
  (((mResetExchange_took s).trans (mResetExchange_cfg s) (mSendByte_took 0x33 _)).of_eq rfl
    (by rw [mResetExchange_cfg, us_add])).withMaster _

theorem mReadRom_serves (hR : Closed s.cfg R) : Serves R s (mReadRom s).2 := by
  cases hp : (mResetExchange s).1
  · rw [mReadRom_absent hp]
    exact mResetExchange_serves hR
  · rw [mReadRom_present hp]
    exact (romReadStart_serves hR).then hR fun h => mReadRomBytes_serves 8 0 h

/-- `M_READ_ROM` (R160): nobody present, or eight bytes read and their CRC8 computed. -/
theorem mReadRom_cases (s : State) :
    ((mResetExchange s).1 = false ∧ (mReadRom s).1 = .noSlavePresent ∧ Took s (mReadRom s).2 3 (us s.cfg 960) ∧
      (mReadRom s).2.master = { s.master with drive := false }) ∨
    ((mResetExchange s).1 = true ∧ Took s (mReadRom s).2 211 (us s.cfg 6000) ∧
      ∃ rom sh bc, (mReadRom s).1 = (if crc8Fold 0 (romBytes rom) = 0 then .ok else .romCrcMismatch) ∧
        (mReadRom s).2.master =
          { s.master with drive := false, shift := sh, bitcnt := bc, romBuf := rom
                          crc8 := crc8Fold 0 (romBytes rom) }) := by
  cases hp : (mResetExchange s).1
  · rw [mReadRom_absent hp]
    exact .inl ⟨rfl, rfl, mResetExchange_took s, mResetExchange_master s⟩
  · rw [mReadRom_present hp]
    obtain ⟨bs, sh, bc, hl, hm⟩ := mReadRomBytes_master 7 0 (romReadStart s)
    refine .inr ⟨rfl, ?_, placeBytes bs 0 (romReadStart s).master.romBuf, sh, bc, ?_, ?_⟩
    · exact ((romReadStart_took s).trans (romReadStart_cfg s) (mReadRomBytes_took 8 0 _)).of_eq rfl (by
      rw [romReadStart_cfg, us_mul, us_add])
    · rw [hm, romBytes_placeBytes _ _ hl]
      rfl
    · rw [hm, romBytes_placeBytes _ _ hl]
      simp only [romReadStart, mSendByte_master, mResetExchange_master]

/-! ### The search -/

/-- After the two read slots of a position: the bits are in `b1`, `b2`. -/
def searchRead (s : State) : State :=
  { (mReadSlot (mReadSlot s).2).2 with
    master := { (mReadSlot (mReadSlot s).2).2.master with b1 := (mReadSlot s).1, b2 := (mReadSlot (mReadSlot s).2).1 } }

/-- After the direction of position `n` is chosen. -/
def searchChosen (n : Nat) (s : State) : State :=
  { s with master := chooseDirection s.master.b1 s.master.b2 n s.master }

/-- After the direction of position `n` is written and folded. -/
def searchWrote (n : Nat) (s : State) : State :=
  { mWriteSlot (searchChosen n s).master.dir (searchChosen n s) with
    master := { (mWriteSlot (searchChosen n s).master.dir (searchChosen n s)).master with
      crc8 := crc8Bit (mWriteSlot (searchChosen n s).master.dir (searchChosen n s)).master.crc8
        (mWriteSlot (searchChosen n s).master.dir (searchChosen n s)).master.dir
      idBitNumber := BitVec.ofNat 7 (n + 1) } }

theorem searchBits_silent (left n : Nat) (h : ((searchRead s).master.b1 && (searchRead s).master.b2) = true) :
    searchBits (left + 1) n s = (false, searchRead s) := by
  unfold searchRead at h ⊢
  unfold searchBits
  dsimp only at h ⊢
  rw [if_pos h]

theorem searchBits_answered (left n : Nat) (h : ((searchRead s).master.b1 && (searchRead s).master.b2) = false) :
    searchBits (left + 1) n s = searchBits left (n + 1) (searchWrote n (searchRead s)) := by
  have h' : ¬ ((mReadSlot s).1 && (mReadSlot (mReadSlot s).2).1) = true := by
    unfold searchRead at h
    dsimp only at h
    simp [h]
  rw [searchBits]
  dsimp only
  rw [if_neg h']
  unfold searchWrote searchChosen searchRead
  dsimp only

theorem searchRead_serves (hR : Closed s.cfg R) : Serves R s (searchRead s) :=
  ((mReadSlot_serves hR).then hR fun h => mReadSlot_serves h).withMaster _

theorem searchWrote_serves (n : Nat) (hR : Closed s.cfg R) : Serves R s (searchWrote n s) :=
  (Serves.ofMaster (m := (searchChosen n s).master)
    (mWriteSlot_serves (s := searchChosen n s) _ hR)).withMaster _

theorem searchRead_cfg (s : State) : (searchRead s).cfg = s.cfg := (searchRead_serves (evolves_closed s.cfg)).cfg

theorem searchWrote_cfg (n : Nat) (s : State) : (searchWrote n s).cfg = s.cfg :=
  (searchWrote_serves n (evolves_closed s.cfg)).cfg

theorem searchRead_took (s : State) : Took s (searchRead s) 6 (us s.cfg 140) :=
  (((mReadSlot_took s).trans (mReadSlot_cfg s) (mReadSlot_took _)).of_eq rfl
    (by rw [mReadSlot_cfg, us_add])).withMaster _

theorem searchWrote_took (n : Nat) (s : State) : Took s (searchWrote n s) 2 (us s.cfg 70) :=
  (Took.ofMaster (m := (searchChosen n s).master)
    (mWriteSlot_took (searchChosen n s).master.dir (searchChosen n s))).withMaster _

theorem searchBits_serves (left n : Nat) (hR : Closed s.cfg R) : Serves R s (searchBits left n s).2 := by
  induction left generalizing s n with
  | zero => exact .refl hR
  | succ left ih =>
    cases hb : (searchRead s).master.b1 && (searchRead s).master.b2
    · rw [searchBits_answered left n hb]
      exact (searchRead_serves hR).then hR fun h => (searchWrote_serves n h).then h fun h' => ih (n + 1) h'
    · rw [searchBits_silent left n hb]
      exact searchRead_serves hR

/-- A search run either is answered at all its positions, 210 µs each, or stops after the two reads of one of them. -/
theorem searchBits_took (left n : Nat) (s : State) :
    ((searchBits left n s).1 = true ∧ Took s (searchBits left n s).2 (left * 8) (left * us s.cfg 210)) ∨
    ((searchBits left n s).1 = false ∧
      ∃ j, j < left ∧ Took s (searchBits left n s).2 (j * 8 + 6) (j * us s.cfg 210 + us s.cfg 140)) := by
  induction left generalizing s n with
  | zero => exact .inl ⟨rfl, (Took.refl s).of_eq (by simp) (by simp)⟩
  | succ left ih =>
    cases hb : (searchRead s).master.b1 && (searchRead s).master.b2
    · rw [searchBits_answered left n hb]
      have hc : (searchWrote n (searchRead s)).cfg = s.cfg := (searchWrote_cfg n _).trans (searchRead_cfg s)
      have hn : Took s (searchWrote n (searchRead s)) 8 (us s.cfg 210) :=
        ((searchRead_took s).trans (searchRead_cfg s) (searchWrote_took n _)).of_eq rfl (by
          rw [searchRead_cfg, us_add])
      rcases ih (n + 1) (searchWrote n (searchRead s)) with ⟨h1, h2⟩ | ⟨h1, j, hj, h2⟩
      · refine .inl ⟨h1, (hn.trans hc h2).of_eq (by omega) ?_⟩
        rw [hc, Nat.succ_mul, Nat.add_comm]
      · refine .inr ⟨h1, j + 1, by omega, (hn.trans hc h2).of_eq (by omega) ?_⟩
        rw [hc, Nat.succ_mul]
        omega
    · rw [searchBits_silent left n hb]
      exact .inr ⟨rfl, 0, by omega, (searchRead_took s).of_eq (by simp) (by simp)⟩

/-- The fold of the first `n` bits of a ROM-ID in wire order (R164, R261). -/
def crc8Wire : Nat → RomId → Byte
  | 0, _ => 0
  | n + 1, id => crc8Bit (crc8Wire n id) (romBit id (n + 1))

theorem crc8Wire_all (id : RomId) : crc8Wire 64 id = crc8Fold 0 (romBytes id) := by
  simp only [crc8Fold, romBytes, List.foldl, crc8Update, crc8Bits, getLsbD_romByte]
  simp only [crc8Wire, romBit]
  rfl

theorem romBit_setRomBit (id : RomId) (n m : Nat) (d : Bool) (hn : 1 ≤ n) (hn' : n ≤ 64) (hm : 1 ≤ m) (hm' : m ≤ 64) :
    romBit (setRomBit id n d) m = if m = n then d else romBit id m := by
  have e : (1#64 <<< (n - 1)).getLsbD (m - 1) = decide (m = n) := by
    simp only [BitVec.getLsbD_shiftLeft, BitVec.getLsbD_one]
    by_cases h : m = n
    · subst h; simp; omega
    · simp [h]; omega
  unfold setRomBit romBit
  split
  · rw [BitVec.getLsbD_or, e]
    by_cases h : m = n <;> simp [*]
  · rw [BitVec.getLsbD_and, BitVec.getLsbD_not, e]
    have : m - 1 < 64 := by omega
    by_cases h : m = n <;> simp [*]

theorem crc8Wire_setRomBit (k n : Nat) (id : RomId) (d : Bool) (hk : k < n) (hn : n ≤ 64) :
    crc8Wire k (setRomBit id n d) = crc8Wire k id := by
  induction k with
  | zero => rfl
  | succ k ih =>
    rw [crc8Wire, crc8Wire, ih (by omega), romBit_setRomBit _ _ _ _ (by omega) hn (by omega) (by omega),
      if_neg (by omega)]

/-- What a search run may write of the master's registers. -/
structure SearchKeeps (m m' : Master) : Prop where
  lastDiscrepancy : m'.lastDiscrepancy = m.lastDiscrepancy
  lastDeviceFlag : m'.lastDeviceFlag = m.lastDeviceFlag
  status : m'.status = m.status
  data : m'.data = m.data
  crc16 : m'.crc16 = m.crc16
  family : m.lastFamilyDiscrepancy.toNat ≤ 8 → m'.lastFamilyDiscrepancy.toNat ≤ 8

theorem SearchKeeps.refl (m : Master) : SearchKeeps m m := ⟨rfl, rfl, rfl, rfl, rfl, id⟩

theorem SearchKeeps.trans {a b c : Master} (h : SearchKeeps a b) (h' : SearchKeeps b c) : SearchKeeps a c :=
  ⟨h'.1.trans h.1, h'.2.trans h.2, h'.3.trans h.3, h'.4.trans h.4, h'.5.trans h.5, fun x => h'.6 (h.6 x)⟩

theorem searchRead_master (s : State) :
    (searchRead s).master =
      { s.master with drive := false, b1 := (searchRead s).master.b1, b2 := (searchRead s).master.b2 } := by
  simp only [searchRead, mReadSlot_master]

theorem searchWrote_master (n : Nat) (s : State) :
    (searchWrote n s).master =
      { chooseDirection s.master.b1 s.master.b2 n s.master with
        drive := false
        crc8 := crc8Bit s.master.crc8 (chooseDirection s.master.b1 s.master.b2 n s.master).dir
        idBitNumber := BitVec.ofNat 7 (n + 1) } := by
  simp only [searchWrote, mWriteSlot_master, searchChosen]
  congr 1
  unfold chooseDirection recordZero
  dsimp only
  split <;> rfl

theorem chooseDirection_rom (b1 b2 : Bool) (n : Nat) (m : Master) :
    (chooseDirection b1 b2 n m).dir = direction m b1 b2 n ∧
    (chooseDirection b1 b2 n m).romBuf = setRomBit m.romBuf n (direction m b1 b2 n) := by
  unfold chooseDirection recordZero
  dsimp only
  split <;> exact ⟨rfl, rfl⟩

theorem chooseDirection_keeps (b1 b2 : Bool) (n : Nat) (m : Master) :
    SearchKeeps m (chooseDirection b1 b2 n m) := by
  unfold chooseDirection recordZero
  dsimp only
  split
  · refine ⟨rfl, rfl, rfl, rfl, rfl, fun h => ?_⟩
    dsimp only
    split
    · rename_i hn
      simp only [BitVec.toNat_ofNat]
      omega
    · exact h
  · exact ⟨rfl, rfl, rfl, rfl, rfl, id⟩

theorem chooseDirection_lastZero (b1 b2 : Bool) (n : Nat) (m : Master) (hn : n ≤ 64) (h : m.lastZero.toNat ≤ 64) :
    (chooseDirection b1 b2 n m).lastZero.toNat ≤ 64 := by
  unfold chooseDirection recordZero
  dsimp only
  split
  · simp only [BitVec.toNat_ofNat]
    omega
  · exact h

/-- A search run keeps what is not its own, its CRC8 is that of the bits it stored, and its ranges hold (R30). -/
theorem searchBits_master (left n : Nat) (s : State) (hn : 1 ≤ n) (hl : n + left = 65)
    (hc : s.master.crc8 = crc8Wire (n - 1) s.master.romBuf) (hz : s.master.lastZero.toNat ≤ 64)
    (hi : s.master.idBitNumber.toNat ≤ 65) :
    SearchKeeps s.master (searchBits left n s).2.master ∧
    (searchBits left n s).2.master.lastZero.toNat ≤ 64 ∧ (searchBits left n s).2.master.idBitNumber.toNat ≤ 65 ∧
    (searchBits left n s).2.master.bitcnt = s.master.bitcnt ∧
    (s.master.drive = false → (searchBits left n s).2.master.drive = false) ∧
    ((searchBits left n s).1 = true →
      (searchBits left n s).2.master.crc8 = crc8Wire 64 (searchBits left n s).2.master.romBuf) := by
  induction left generalizing s n with
  | zero =>
    obtain rfl : n = 65 := by omega
    exact ⟨.refl _, hz, hi, rfl, id, fun _ => hc⟩
  | succ left ih =>
    have hr := searchRead_master s
    have hkr : SearchKeeps s.master (searchRead s).master := by
      rw [hr]
      exact ⟨rfl, rfl, rfl, rfl, rfl, id⟩
    have hzr : (searchRead s).master.lastZero = s.master.lastZero := by rw [hr]
    have hir : (searchRead s).master.idBitNumber = s.master.idBitNumber := by rw [hr]
    have hcr : (searchRead s).master.crc8 = s.master.crc8 := by rw [hr]
    have hbr : (searchRead s).master.bitcnt = s.master.bitcnt := by rw [hr]
    have hdr : (searchRead s).master.drive = false := by rw [hr]
    have hrr : (searchRead s).master.romBuf = s.master.romBuf := by rw [hr]
    cases hb : (searchRead s).master.b1 && (searchRead s).master.b2
    · rw [searchBits_answered left n hb]
      generalize searchRead s = r at *
      have hw := searchWrote_master n r
      obtain ⟨hd, hrom⟩ := chooseDirection_rom r.master.b1 r.master.b2 n r.master
      have hk := chooseDirection_keeps r.master.b1 r.master.b2 n r.master
      have hlz := chooseDirection_lastZero r.master.b1 r.master.b2 n r.master (by omega) (hzr ▸ hz)
      have hbc : (chooseDirection r.master.b1 r.master.b2 n r.master).bitcnt = r.master.bitcnt := by
        unfold chooseDirection recordZero
        dsimp only
        split <;> rfl
      obtain ⟨h1, h2, h3, h4, h5, h6⟩ := ih (n + 1) (searchWrote n r) (by omega) (by omega)
        (by
          rw [hw]
          dsimp only
          rw [hd, hrom, hcr, hc, hrr]
          obtain ⟨j, rfl⟩ : ∃ j, n = j + 1 := ⟨n - 1, by omega⟩
          rw [Nat.add_sub_cancel, Nat.add_sub_cancel, crc8Wire, crc8Wire_setRomBit _ _ _ _ (by omega) (by omega),
            romBit_setRomBit _ _ _ _ (by omega) (by omega) (by omega) (by omega), if_pos rfl])
        (by rw [hw]; exact hlz)
        (by
          rw [hw]
          simp only [BitVec.toNat_ofNat]
          omega)
      have hkw : SearchKeeps s.master (searchWrote n r).master := by
        rw [hw]
        have := hkr.trans hk
        exact ⟨this.1, this.2, this.3, this.4, this.5, this.6⟩
      refine ⟨hkw.trans h1, h2, h3, ?_, fun _ => h5 (by rw [hw]), h6⟩
      rw [h4, hw]
      exact hbc.trans hbr
    · rw [searchBits_silent left n hb]
      dsimp only
      rw [hzr, hir, hbr]
      exact ⟨hkr, hz, hi, rfl, fun _ => hdr, nofun⟩

end Sys2Proof.Machine
end

