-- ==== Sys2Proof/Laws/Memory.lean ====
section
/-! SUPPORT. The laws of memory: a read after a write, and the canonical form. -/

namespace Sys2Proof.Machine

/-- A write is read back at its own address and nowhere else. -/
theorem memRead_memWrite (m : Memory) (a : Nat) (b : Byte) (x : Nat) (h : memoryWf m = true) :
    memRead (memWrite m a b) x = if x = a then b else memRead m x := by
  induction m with
  | nil =>
    unfold memWrite
    split <;> rename_i hb
    · subst hb; simp [memRead]
    · simp only [memRead]; split <;> rename_i hx <;> split <;> simp_all
  | cons c m ih =>
    obtain ⟨k, v⟩ := c
    simp only [memoryWf, Bool.and_eq_true, decide_eq_true_eq, List.all_eq_true] at h
    obtain ⟨⟨_, hall⟩, hwf⟩ := h
    have hlow : ∀ m : Memory, (∀ c ∈ m, k < c.1) → ∀ y, y ≤ k → memRead m y = memoryDefault := by
      intro m
      induction m with
      | nil => intros; rfl
      | cons d m ihm =>
        intro hd y hy
        obtain ⟨k', v'⟩ := d
        have := hd (k', v') (by simp)
        simp only [memRead]
        rw [if_neg (by simp at this; omega)]
        exact ihm (fun c hc => hd c (by simp [hc])) y hy
    unfold memWrite
    split
    · rename_i hak
      split <;> rename_i hb
      · subst hb
        split <;> rename_i hx
        · subst hx; simp only [memRead]; rw [if_neg (by omega)]; exact hlow m hall _ (by omega)
        · rfl
      · simp only [memRead]
        by_cases hx : x = a
        · subst hx; simp
        · rw [if_neg (by omega), if_neg hx]
    · rename_i hak
      split <;> rename_i hka
      · subst hka
        split <;> rename_i hb
        · subst hb
          split <;> rename_i hx
          · subst hx; exact hlow m hall _ (by omega)
          · simp only [memRead]; rw [if_neg (by omega)]
        · simp only [memRead]
          by_cases hx : x = a
          · subst hx; simp
          · rw [if_neg (by omega), if_neg hx, if_neg (by omega)]
      · simp only [memRead]
        by_cases hx : k = x
        · subst hx; rw [if_pos rfl, if_neg (by omega), if_pos rfl]
        · rw [if_neg hx, ih hwf, if_neg hx]

/-- The addresses a write lists are its own and the old ones. -/
theorem mem_memWrite (m : Memory) (a : Nat) (b : Byte) (c : Host.Cell) (h : c ∈ memWrite m a b) :
    c.1 = a ∨ c ∈ m := by
  induction m with
  | nil =>
    unfold memWrite at h
    split at h
    · simp at h
    · simp at h; simp [h]
  | cons d m ih =>
    obtain ⟨k, v⟩ := d
    unfold memWrite at h
    split at h
    · split at h
      · exact .inr h
      · rcases List.mem_cons.mp h with h | h
        · simp [h]
        · exact .inr h
    · split at h
      · split at h
        · exact .inr (List.mem_cons_of_mem _ h)
        · rcases List.mem_cons.mp h with h | h
          · simp [h]
          · exact .inr (List.mem_cons_of_mem _ h)
      · rcases List.mem_cons.mp h with h | h
        · simp [h]
        · rcases ih h with h | h
          · exact .inl h
          · exact .inr (List.mem_cons_of_mem _ h)

/-- A write keeps the canonical form. -/
theorem memWrite_wf (m : Memory) (a : Nat) (b : Byte) (h : memoryWf m = true) : memoryWf (memWrite m a b) = true := by
  induction m with
  | nil =>
    unfold memWrite
    split <;> rename_i hb
    · rfl
    · simp [memoryWf, hb]
  | cons d m ih =>
    obtain ⟨k, v⟩ := d
    have h' := h
    simp only [memoryWf, Bool.and_eq_true, decide_eq_true_eq, List.all_eq_true] at h
    obtain ⟨⟨hv, hall⟩, hwf⟩ := h
    unfold memWrite
    split
    · rename_i hak
      split <;> rename_i hb
      · exact h'
      · rw [memoryWf, h']
        simp only [Bool.and_eq_true, decide_eq_true_eq, List.all_eq_true, and_true]
        refine ⟨hb, ?_⟩
        intro c hc
        rcases List.mem_cons.mp hc with hc | hc
        · simp [hc, hak]
        · exact lt_trans hak (hall c hc)
    · split <;> rename_i hka
      · subst hka
        split <;> rename_i hb
        · exact hwf
        · simp only [memoryWf, Bool.and_eq_true, decide_eq_true_eq, List.all_eq_true]
          exact ⟨⟨hb, hall⟩, hwf⟩
      · rw [memoryWf, ih hwf]
        simp only [Bool.and_eq_true, decide_eq_true_eq, List.all_eq_true, and_true]
        refine ⟨hv, ?_⟩
        intro c hc
        rcases mem_memWrite m a b c hc with hc | hc
        · rw [hc]; omega
        · exact hall c hc

end Sys2Proof.Machine
end

