-- ==== Sys2Proof/Laws/Ok.lean ====
section
/-! SUPPORT. Every procedure of a slave keeps `Slave.Ok` (Sys2Proof/Safety.lean). `Body` is `Ok` without the call path, for a
slave that drives the line exactly when it is busy; `Calm` is `Body` with the call path. -/

namespace Sys2Proof.Machine

structure Slave.Body (cfg : Config) (sl : Slave) : Prop where
  status_code : sl.status.toNat ≤ 14 ∧ sl.status ≠ statusCode .notAlarmed
  pulse_len : sl.pulseLen < 2 ^ sl.cfg.tickWidth
  bitcnt_range : sl.bitcnt.toNat ≤ 8
  log_buf_wf : memoryWf sl.logBuf = true
  log_buf_range : ∀ c ∈ sl.logBuf, c.1 ≤ cfg.maxMessageLength
  drive_eq : sl.drive = sl.busy
  trapped_released : sl.trapped = true → sl.drive = false ∧ sl.busy = false
  unmasked : sl.intMask = false
  rom_id : sl.intEnable = true → sl.romId = configRomId sl.cfg

/-- The call path `fs` of a slave. -/
abbrev pathOk (cfg : Config) (sl : Slave) (fs : List Frame) : Prop :=
  stackOk cfg.maxMessageLength sl.logLen sl.bitcnt fs = true

structure Slave.Calm (cfg : Config) (sl : Slave) : Prop where
  body : Slave.Body cfg sl
  path : pathOk cfg sl sl.stack

variable {cfg : Config}

theorem Slave.Calm.ok {sl : Slave} (h : Slave.Calm cfg sl) : Slave.Ok cfg sl where
  status_code := h.body.status_code
  pulse_len := h.body.pulse_len
  bitcnt_range := h.body.bitcnt_range
  log_buf_wf := h.body.log_buf_wf
  log_buf_range := h.body.log_buf_range
  stack_ok := h.path
  busy_drives := fun x => h.body.drive_eq.trans x
  drive_when := fun x => .inl (h.body.drive_eq.symm.trans x)
  trapped_released := h.body.trapped_released
  unmasked := h.body.unmasked
  rom_id := h.body.rom_id

theorem Slave.Ok.calm {sl : Slave} (h : Slave.Ok cfg sl) (h1 : sl.pos ≠ .delay .hold) (h2 : sl.pos ≠ .delay .presence) :
    Slave.Calm cfg sl where
  body :=
    { status_code := h.status_code
      pulse_len := h.pulse_len
      bitcnt_range := h.bitcnt_range
      log_buf_wf := h.log_buf_wf
      log_buf_range := h.log_buf_range
      drive_eq := by
        have hb := h.busy_drives
        have hd := h.drive_when
        cases hx : sl.drive <;> cases hy : sl.busy <;> simp_all
      trapped_released := h.trapped_released
      unmasked := h.unmasked
      rom_id := h.rom_id }
  path := h.stack_ok

/-! ### The call path -/

/-- A path without a byte operation does not depend on the bit counter. -/
theorem stackOk_bitcnt (m : Nat) (l : Byte) (b b' : BitVec 4) (fs : List Frame) (h : fs.any isByteFrame = false)
    (hs : stackOk m l b fs = true) : stackOk m l b' fs = true := by
  induction fs with
  | nil => rfl
  | cons f fs ih =>
    simp only [List.any_cons, Bool.or_eq_false_iff] at h
    simp only [stackOk, Bool.and_eq_true] at hs ⊢
    refine ⟨⟨⟨?_, hs.1.1.2⟩, hs.1.2⟩, ih h.2 hs.2⟩
    have hf := hs.1.1.1
    cases f <;> simp_all [frameOk, isByteFrame]

theorem stackOk_tail {m : Nat} {l : Byte} {b : BitVec 4} {f : Frame} {fs : List Frame}
    (h : stackOk m l b (f :: fs) = true) : stackOk m l b fs = true := by
  simp only [stackOk, Bool.and_eq_true] at h
  exact h.2

theorem stackOk_noByte {m : Nat} {l : Byte} {b : BitVec 4} {f : Frame} {fs : List Frame}
    (h : stackOk m l b (f :: fs) = true) (hf : isResetFrame f = false) : fs.any isByteFrame = false := by
  simp only [stackOk, Bool.and_eq_true, hf, Bool.false_or] at h
  simpa using h.1.2

theorem stackOk_log {m : Nat} {l : Byte} {b : BitVec 4} {f : Frame} {fs : List Frame}
    (h : stackOk m l b (f :: fs) = true) (hf : isLogFrame f = true) : fs = [] := by
  simp only [stackOk, Bool.and_eq_true, hf, Bool.not_true, Bool.false_or] at h
  simpa using h.1.1.2

/-- A frame on top of a path without a byte operation. -/
theorem stackOk_push {m : Nat} {l : Byte} {b : BitVec 4} {f : Frame} {fs : List Frame}
    (hs : stackOk m l b fs = true) (hb : fs.any isByteFrame = false) (hf : frameOk m l b f = true)
    (hl : isLogFrame f = true → fs = []) : stackOk m l b (f :: fs) = true := by
  simp only [stackOk, Bool.and_eq_true, hs, hf, hb, Bool.not_false, Bool.or_true, and_true, true_and]
  cases h : isLogFrame f
  · rfl
  · simp [hl h]

/-! ### The small procedures -/

theorem Slave.await_calm {sl : Slave} (c : Ctx) (u : PulseUse) (h : Slave.Calm cfg sl) :
    Slave.Calm cfg (Slave.await c u sl) :=
  ⟨⟨h.body.status_code, h.body.pulse_len, h.body.bitcnt_range, h.body.log_buf_wf, h.body.log_buf_range, h.body.drive_eq,
    h.body.trapped_released, h.body.unmasked, h.body.rom_id⟩, h.path⟩

theorem Slave.delay_calm {sl : Slave} (c : Ctx) (u : DelayUse) (d : Nat) (h : Slave.Calm cfg sl) :
    Slave.Calm cfg (Slave.delay c u d sl) :=
  ⟨⟨h.body.status_code, h.body.pulse_len, h.body.bitcnt_range, h.body.log_buf_wf, h.body.log_buf_range, h.body.drive_eq,
    h.body.trapped_released, h.body.unmasked, h.body.rom_id⟩, h.path⟩

theorem Slave.Body.withStack {sl : Slave} (h : Slave.Body cfg sl) (fs : List Frame) :
    Slave.Body cfg { sl with stack := fs } :=
  ⟨h.status_code, h.pulse_len, h.bitcnt_range, h.log_buf_wf, h.log_buf_range, h.drive_eq, h.trapped_released, h.unmasked,
   h.rom_id⟩

theorem Slave.Body.withTxn {sl : Slave} (h : Slave.Body cfg sl) (x : TxnState) :
    Slave.Body cfg { sl with txnState := x } :=
  ⟨h.status_code, h.pulse_len, h.bitcnt_range, h.log_buf_wf, h.log_buf_range, h.drive_eq, h.trapped_released, h.unmasked,
   h.rom_id⟩

theorem Slave.Body.withPulseNew {sl : Slave} (h : Slave.Body cfg sl) (x : Bool) :
    Slave.Body cfg { sl with pulseNew := x } :=
  ⟨h.status_code, h.pulse_len, h.bitcnt_range, h.log_buf_wf, h.log_buf_range, h.drive_eq, h.trapped_released, h.unmasked,
   h.rom_id⟩

theorem Slave.Body.withShift {sl : Slave} (h : Slave.Body cfg sl) (x : Byte) (b : BitVec 4) (hb : b.toNat ≤ 8) :
    Slave.Body cfg { sl with shift := x, bitcnt := b } :=
  ⟨h.status_code, h.pulse_len, hb, h.log_buf_wf, h.log_buf_range, h.drive_eq, h.trapped_released, h.unmasked, h.rom_id⟩

theorem Slave.Body.withCrc {sl : Slave} (h : Slave.Body cfg sl) (x : Word16) : Slave.Body cfg { sl with crc16 := x } :=
  ⟨h.status_code, h.pulse_len, h.bitcnt_range, h.log_buf_wf, h.log_buf_range, h.drive_eq, h.trapped_released, h.unmasked,
   h.rom_id⟩

theorem Slave.Body.withLogLen {sl : Slave} (h : Slave.Body cfg sl) (x : Byte) : Slave.Body cfg { sl with logLen := x } :=
  ⟨h.status_code, h.pulse_len, h.bitcnt_range, h.log_buf_wf, h.log_buf_range, h.drive_eq, h.trapped_released, h.unmasked,
   h.rom_id⟩

theorem Slave.Body.withAlarm {sl : Slave} (h : Slave.Body cfg sl) (x : Bool) : Slave.Body cfg { sl with alarmed := x } :=
  ⟨h.status_code, h.pulse_len, h.bitcnt_range, h.log_buf_wf, h.log_buf_range, h.drive_eq, h.trapped_released, h.unmasked,
   h.rom_id⟩

theorem Slave.Body.withUpstream {sl : Slave} (h : Slave.Body cfg sl) (x : List (Nat × SlaveOp)) :
    Slave.Body cfg { sl with upstream := x } :=
  ⟨h.status_code, h.pulse_len, h.bitcnt_range, h.log_buf_wf, h.log_buf_range, h.drive_eq, h.trapped_released, h.unmasked,
   h.rom_id⟩

theorem Slave.Body.withResult {sl : Slave} (h : Slave.Body cfg sl) (st : Status) (v : Byte) (hs : st ≠ .notAlarmed) :
    Slave.Body cfg { sl with status := statusCode st, data := v } :=
  ⟨by cases st <;> simp_all [statusCode], h.pulse_len, h.bitcnt_range, h.log_buf_wf, h.log_buf_range, h.drive_eq,
   h.trapped_released, h.unmasked, h.rom_id⟩

theorem Slave.Body.withLogByte {sl : Slave} (h : Slave.Body cfg sl) (a : Nat) (b : Byte)
    (ha : a ≤ cfg.maxMessageLength) : Slave.Body cfg { sl with logBuf := memWrite sl.logBuf a b } :=
  ⟨h.status_code, h.pulse_len, h.bitcnt_range, memWrite_wf _ _ _ h.log_buf_wf,
   fun c hc => by
     rcases mem_memWrite _ _ _ _ hc with e | e
     · rw [e]; exact ha
     · exact h.log_buf_range c e,
   h.drive_eq, h.trapped_released, h.unmasked, h.rom_id⟩

theorem Slave.opDone_calm {sl : Slave} (c : Ctx) (h : Slave.Body cfg sl) : Slave.Calm cfg (Slave.opDone c sl) := by
  unfold Slave.opDone
  split <;> exact ⟨⟨h.status_code, h.pulse_len, h.bitcnt_range, h.log_buf_wf, h.log_buf_range, h.drive_eq,
    h.trapped_released, h.unmasked, h.rom_id⟩, rfl⟩

theorem Slave.finish_calm {sl : Slave} (c : Ctx) (st : Status) (v : Byte) (hs : st ≠ .notAlarmed)
    (h : Slave.Body cfg sl) : Slave.Calm cfg (Slave.finish c st v sl) :=
  Slave.opDone_calm c (h.withResult st v hs)

theorem Slave.trap_calm {sl : Slave} (h : Slave.Ok cfg sl) : Slave.Calm cfg sl.trap :=
  ⟨⟨h.status_code, h.pulse_len, h.bitcnt_range, h.log_buf_wf, h.log_buf_range, rfl, fun _ => ⟨rfl, rfl⟩, h.unmasked,
    h.rom_id⟩, rfl⟩

theorem Slave.startReadByte_calm {sl : Slave} (c : Ctx) (fs : List Frame) (h : Slave.Body cfg sl) (hp : pathOk cfg sl fs)
    (hb : fs.any isByteFrame = false) : Slave.Calm cfg (Slave.startReadByte c fs sl) := by
  refine Slave.await_calm c _ ⟨(h.withShift 0 0 (by decide)).withStack _, ?_⟩
  exact stackOk_push (stackOk_bitcnt _ _ _ _ _ hb hp) hb (by rfl) (by simp [isLogFrame])

theorem Slave.startWriteByte_calm {sl : Slave} (c : Ctx) (v : Byte) (fs : List Frame) (h : Slave.Body cfg sl)
    (hp : pathOk cfg sl fs) (hb : fs.any isByteFrame = false) : Slave.Calm cfg (Slave.startWriteByte c v fs sl) := by
  refine Slave.await_calm c _ ⟨(h.withShift v 0 (by decide)).withStack _, ?_⟩
  exact stackOk_push (stackOk_bitcnt _ _ _ _ _ hb hp) hb (by rfl) (by simp [isLogFrame])

theorem Slave.presencePulse_calm {sl : Slave} (c : Ctx) (f : Frame) (hf : isResetFrame f = true) (h : Slave.Calm cfg sl) :
    Slave.Calm cfg (Slave.presencePulse c f sl) := by
  refine Slave.delay_calm c _ _ ⟨h.body.withStack _, ?_⟩
  have hp := h.path
  unfold pathOk at hp ⊢
  simp only [stackOk, hp, hf, Bool.true_or, Bool.and_true]
  cases f <;> simp_all [isResetFrame, isLogFrame, frameOk]

/-- A frame that relies on nothing, on top of a path without a byte operation. -/
theorem pathOk_push {sl : Slave} {f : Frame} {fs : List Frame} (hp : pathOk cfg sl fs) (hb : fs.any isByteFrame = false)
    (hf : ∀ m l b, frameOk m l b f = true) (hl : isLogFrame f = false) : pathOk cfg sl (f :: fs) :=
  stackOk_push hp hb (hf _ _ _) (by simp [hl])

theorem Slave.dispatch_calm {sl : Slave} (c : Ctx) (fs : List Frame) (h : Slave.Body cfg sl) (hp : pathOk cfg sl fs)
    (hb : fs.any isByteFrame = false) : Slave.Calm cfg (Slave.dispatch c fs sl) := by
  have hd : pathOk cfg sl (.dispatcher :: fs) := pathOk_push hp hb (fun _ _ _ => rfl) rfl
  have hdb : (Frame.dispatcher :: fs).any isByteFrame = false := by simp [isByteFrame, hb]
  unfold Slave.dispatch
  split
  · exact Slave.await_calm c _ ⟨h.withStack _, hd⟩
  · exact Slave.startReadByte_calm c _ h (pathOk_push hd hdb (fun _ _ _ => rfl) rfl) (by simp [isByteFrame, hb])
  · exact Slave.startReadByte_calm c _ h (pathOk_push hd hdb (fun _ _ _ => rfl) rfl) (by simp [isByteFrame, hb])

theorem Slave.resumeDispatcher_calm {sl : Slave} (c : Ctx) (fs : List Frame) (h : Slave.Body cfg sl)
    (hp : pathOk cfg sl fs) : Slave.Calm cfg (Slave.resumeDispatcher c fs sl) := by
  unfold Slave.resumeDispatcher
  split
  · exact Slave.dispatch_calm c _ h (stackOk_tail hp) (stackOk_noByte hp rfl)
  · exact Slave.finish_calm c _ _ (by decide) h

theorem Slave.startLogReceive_calm {sl : Slave} (c : Ctx) (h : Slave.Body cfg sl) :
    Slave.Calm cfg (Slave.startLogReceive c [] sl) :=
  Slave.startReadByte_calm c _ (h.withCrc _) rfl rfl

theorem Slave.dispatcherReturns_calm {sl : Slave} (c : Ctx) (st : Status) (v : Byte) (fs : List Frame)
    (hs : st ≠ .notAlarmed) (h : Slave.Body cfg sl) (hp : pathOk cfg sl fs) :
    Slave.Calm cfg (Slave.dispatcherReturns c st v fs sl) := by
  unfold Slave.dispatcherReturns
  split
  · have := stackOk_log hp rfl
    subst this
    split
    · split
      · exact Slave.startLogReceive_calm c (h.withResult st v hs)
      · exact Slave.finish_calm c _ _ (by decide) h
    · exact Slave.finish_calm c _ _ hs h
  · exact Slave.finish_calm c _ _ hs h

theorem Slave.unwind_calm {sl : Slave} (c : Ctx) (e : Status) (info : Byte) (fs : List Frame) (he : e ≠ .notAlarmed)
    (h : Slave.Body cfg sl) (hp : pathOk cfg sl fs) : Slave.Calm cfg (Slave.unwind c e info fs sl) := by
  induction fs with
  | nil => exact Slave.finish_calm c _ _ he h
  | cons f fs ih =>
    unfold Slave.unwind
    split
    · exact Slave.finish_calm c _ _ he h
    · rename_i rest heq
      injection heq with h1 h2
      subst h1 h2
      split
      · exact Slave.dispatch_calm c _ h (stackOk_tail hp) (stackOk_noByte hp rfl)
      · exact Slave.dispatcherReturns_calm c _ _ _ he (h.withTxn _) (stackOk_tail hp)
    · rename_i heq
      injection heq with _ heq
      subst heq
      exact ih (stackOk_tail hp)

theorem Slave.raise_calm {sl : Slave} (c : Ctx) (e : Status) (info : Byte) (he : e ≠ .notAlarmed)
    (h : Slave.Calm cfg sl) : Slave.Calm cfg (Slave.raise c e info sl) :=
  Slave.unwind_calm c e info _ he h.body h.path

theorem Slave.handleBad_calm {sl : Slave} (c : Ctx) (h : Slave.Calm cfg sl) : Slave.Calm cfg (Slave.handleBad c sl) := by
  unfold Slave.handleBad
  split
  · exact Slave.trap_calm h.ok
  · exact Slave.raise_calm c _ _ (by decide) ⟨h.body.withTxn _, h.path⟩

theorem Slave.timeout_calm {sl : Slave} (c : Ctx) (h : Slave.Calm cfg sl) : Slave.Calm cfg (Slave.timeout c sl) :=
  Slave.raise_calm c _ _ (by decide) ⟨h.body.withTxn _, h.path⟩

/-! ### The responders and the log receiver -/

section
variable {sl : Slave} (c : Ctx) (fs : List Frame)

theorem Slave.awaitFrame_calm (u : PulseUse) (f : Frame) (h : Slave.Body cfg sl) (hp : pathOk cfg sl fs)
    (hb : fs.any isByteFrame = false) (hf : ∀ m l b, frameOk m l b f = true) (hl : isLogFrame f = false) :
    Slave.Calm cfg (Slave.await c u { sl with stack := f :: fs }) :=
  Slave.await_calm c _ ⟨h.withStack _, pathOk_push hp hb hf hl⟩

theorem Slave.writeByteFrame_calm (v : Byte) (f : Frame) (h : Slave.Body cfg sl) (hp : pathOk cfg sl fs)
    (hb : fs.any isByteFrame = false) (hf : ∀ m l b, frameOk m l b f = true) (hl : isLogFrame f = false)
    (hbf : isByteFrame f = false) : Slave.Calm cfg (Slave.startWriteByte c v (f :: fs) sl) :=
  Slave.startWriteByte_calm c v _ h (pathOk_push hp hb hf hl) (by simp [hbf, hb])

theorem Slave.gotRomCommand_calm (v : Byte) (h : Slave.Body cfg sl) (hp : pathOk cfg sl fs)
    (hb : fs.any isByteFrame = false) : Slave.Calm cfg (Slave.gotRomCommand c v fs sl) := by
  unfold Slave.gotRomCommand
  split
  · exact Slave.writeByteFrame_calm c fs _ _ h hp hb (fun _ _ _ => rfl) rfl rfl
  · exact Slave.awaitFrame_calm c fs _ _ h hp hb (fun _ _ _ => rfl) rfl
  · exact Slave.resumeDispatcher_calm c _ (h.withTxn _) hp
  · exact Slave.awaitFrame_calm c fs _ _ h hp hb (fun _ _ _ => rfl) rfl
  · unfold Slave.romAlarmSearch
    split
    · exact Slave.awaitFrame_calm c fs _ _ h hp hb (fun _ _ _ => rfl) rfl
    · exact Slave.resumeDispatcher_calm c _ (h.withTxn _) hp
  · exact Slave.unwind_calm c _ _ _ (by decide) h hp

theorem Slave.readRomNext_calm (i : Nat) (h : Slave.Body cfg sl) (hp : pathOk cfg sl fs)
    (hb : fs.any isByteFrame = false) : Slave.Calm cfg (Slave.readRomNext c i fs sl) := by
  unfold Slave.readRomNext
  split
  · exact Slave.writeByteFrame_calm c fs _ _ h hp hb (fun _ _ _ => rfl) rfl rfl
  · exact Slave.resumeDispatcher_calm c _ (h.withTxn _) hp

theorem Slave.matchRomNext_calm (n : Nat) (b : Bool) (h : Slave.Body cfg sl) (hp : pathOk cfg sl fs)
    (hb : fs.any isByteFrame = false) : Slave.Calm cfg (Slave.matchRomNext c n b fs sl) := by
  unfold Slave.matchRomNext
  split
  · split
    · exact Slave.awaitFrame_calm c fs _ _ h hp hb (fun _ _ _ => rfl) rfl
    · exact Slave.resumeDispatcher_calm c _ (h.withTxn _) hp
  · exact Slave.unwind_calm c _ _ _ (by decide) h hp

theorem Slave.searchNext_calm (n : Nat) (d : Bool) (h : Slave.Body cfg sl) (hp : pathOk cfg sl fs)
    (hb : fs.any isByteFrame = false) : Slave.Calm cfg (Slave.searchNext c n d fs sl) := by
  unfold Slave.searchNext
  split
  · exact Slave.awaitFrame_calm c fs _ _ h hp hb (fun _ _ _ => rfl) rfl
  · exact Slave.resumeDispatcher_calm c _ (h.withTxn _) hp

theorem Slave.gotFunctionCommand_calm (v : Byte) (h : Slave.Body cfg sl) (hp : pathOk cfg sl fs) :
    Slave.Calm cfg (Slave.gotFunctionCommand c v fs sl) := by
  unfold Slave.gotFunctionCommand
  split
  · exact Slave.dispatcherReturns_calm c _ _ _ (by decide) (h.withTxn _) (stackOk_tail hp)
  · exact Slave.finish_calm c _ _ (by decide) (h.withTxn _)

/-- A log frame alone is a path when what it relies on holds. -/
theorem pathOk_log (f : Frame) (h : frameOk cfg.maxMessageLength sl.logLen sl.bitcnt f = true) : pathOk cfg sl [f] := by
  simp [pathOk, stackOk, h]

theorem Slave.logGotLength_calm (v : Byte) (hc : c.cfg = cfg) (h : Slave.Body cfg sl) :
    Slave.Calm cfg (Slave.logGotLength c v [] sl) := by
  unfold Slave.logGotLength
  split
  · exact Slave.finish_calm c _ _ (by decide) ((h.withLogLen v).withTxn .waitingReset)
  · rename_i hv
    rw [hc] at hv
    refine Slave.startReadByte_calm c _ ((h.withLogLen v).withCrc (crc16Update c.cfg.crc16 sl.crc16 v)) (pathOk_log _ ?_) ?_
    · split <;> rename_i h0
      · simp [frameOk]; omega
      · have : v.toNat ≠ 0 := fun x => h0 (BitVec.eq_of_toNat_eq (by simpa using x))
        simp [frameOk]; omega
    · split <;> rfl

theorem Slave.logGotPayload_calm (i : Nat) (b : Byte) (h : Slave.Body cfg sl) (hi : i < sl.logLen.toNat)
    (hl : sl.logLen.toNat ≤ cfg.maxMessageLength) : Slave.Calm cfg (Slave.logGotPayload c i b [] sl) := by
  unfold Slave.logGotPayload
  refine Slave.startReadByte_calm c _ ((h.withLogByte i b (by omega)).withCrc (crc16Update c.cfg.crc16 sl.crc16 b))
    (pathOk_log _ ?_) ?_
  · split <;> simp [frameOk] <;> omega
  · split <;> rfl

theorem Slave.logCheckCrc_calm (hi lo : Byte) (h : Slave.Body cfg sl) (hl : sl.logLen.toNat ≤ cfg.maxMessageLength) :
    Slave.Calm cfg (Slave.logCheckCrc c hi lo [] sl) := by
  unfold Slave.logCheckCrc
  split
  · exact Slave.delay_calm c _ _ ⟨(h.withLogByte _ _ hl).withStack _, pathOk_log _ (by simp [frameOk, hl])⟩
  · exact Slave.finish_calm c _ _ (by decide) (h.withTxn _)

/-! ### Returning and consuming -/

theorem Slave.ret_calm (v : Byte) (hc : c.cfg = cfg) (h : Slave.Body cfg sl) (hp : pathOk cfg sl fs) :
    Slave.Calm cfg (Slave.ret c v fs sl) := by
  induction fs generalizing v sl with
  | nil => exact Slave.finish_calm c _ _ (by decide) h
  | cons f fs ih =>
    have ht := stackOk_tail hp
    have hn := fun x => stackOk_noByte hp x
    have hlog := fun x => stackOk_log hp x
    have hf : frameOk cfg.maxMessageLength sl.logLen sl.bitcnt f = true := by
      have this : stackOk cfg.maxMessageLength sl.logLen sl.bitcnt (f :: fs) = true := hp
      simp only [stackOk, Bool.and_eq_true] at this
      exact this.1.1.1
    have byte : f = .readByte ∨ f = .writeByte → ∀ x : Byte,
        Slave.Body cfg { sl with shift := x, bitcnt := sl.bitcnt + 1 } ∧ sl.bitcnt.toNat < 8 ∧
          (sl.bitcnt + 1).toNat = sl.bitcnt.toNat + 1 := by
      intro hx x
      have hlt : sl.bitcnt.toNat < 8 := by
        rcases hx with hx | hx <;> subst hx <;> simpa [frameOk] using hf
      have hadd : (sl.bitcnt + 1).toNat = sl.bitcnt.toNat + 1 := by
        rw [BitVec.toNat_add]
        exact Nat.mod_eq_of_lt (show sl.bitcnt.toNat + 1 < 16 by omega)
      exact ⟨h.withShift _ _ (by omega), hlt, hadd⟩
    have again : ∀ x : Byte, f = .readByte ∨ f = .writeByte → ¬(sl.bitcnt + 1 = 8) →
        ∀ u, Slave.Calm cfg (Slave.await c u { sl with shift := x, bitcnt := sl.bitcnt + 1, stack := f :: fs }) := by
      intro x hx hne u
      obtain ⟨hb, hlt, hadd⟩ := byte hx x
      have hne' : (sl.bitcnt + 1).toNat ≠ 8 := fun y => hne (BitVec.eq_of_toNat_eq (by simpa using y))
      have hnb : fs.any isByteFrame = false := hn (by rcases hx with hx | hx <;> subst hx <;> rfl)
      refine Slave.await_calm c _ ⟨hb.withStack _, ?_⟩
      refine stackOk_push (stackOk_bitcnt _ _ _ _ _ hnb ht) hnb ?_ ?_
      · rcases hx with hx | hx <;> subst hx <;> simp only [frameOk, decide_eq_true_eq] <;> omega
      · rcases hx with hx | hx <;> subst hx <;> simp [isLogFrame]
    cases f with
    | readByte =>
      simp only [Slave.ret]
      split
      · exact ih _ (byte (.inl rfl) _).1 (stackOk_bitcnt _ _ _ _ _ (hn rfl) ht)
      · rename_i hne
        exact again _ (.inl rfl) hne _
    | writeByte =>
      simp only [Slave.ret]
      split
      · exact ih _ (byte (.inr rfl) _).1 (stackOk_bitcnt _ _ _ _ _ (hn rfl) ht)
      · rename_i hne
        exact again _ (.inr rfl) hne _
    | handleReset => exact Slave.unwind_calm c _ _ _ (by decide) h ht
    | waitReset => exact ih _ (h.withResult .ok 0 (by decide)) ht
    | busyEnd => exact Slave.finish_calm c .ok 0 (by decide) h
    | dispatcher => exact Slave.dispatch_calm c _ h ht (hn rfl)
    | romCommand => exact Slave.gotRomCommand_calm c fs v h ht (hn rfl)
    | functionCommand => exact Slave.gotFunctionCommand_calm c fs v h ht
    | readRom i => exact Slave.readRomNext_calm c fs i h ht (hn rfl)
    | matchRom n => exact Slave.matchRomNext_calm c fs n _ h ht (hn rfl)
    | searchBit n => exact Slave.awaitFrame_calm c fs _ _ h ht (hn rfl) (fun _ _ _ => rfl) rfl
    | searchComplement n => exact Slave.awaitFrame_calm c fs _ _ h ht (hn rfl) (fun _ _ _ => rfl) rfl
    | searchDirection n => exact Slave.searchNext_calm c fs n _ h ht (hn rfl)
    | logServe => exact Slave.dispatcherReturns_calm c _ _ _ (by decide) h hp
    | logLength =>
      have := hlog rfl
      subst this
      exact Slave.logGotLength_calm c v hc h
    | logPayload i =>
      have := hlog rfl
      subst this
      simp only [frameOk, Bool.and_eq_true, decide_eq_true_eq] at hf
      exact Slave.logGotPayload_calm c i v h hf.1 hf.2
    | logCrcHigh =>
      have := hlog rfl
      subst this
      exact Slave.startReadByte_calm c _ h (pathOk_log _ (by simpa [frameOk] using hf)) rfl
    | logCrcLow hi =>
      have := hlog rfl
      subst this
      exact Slave.logCheckCrc_calm c hi v h (by simpa [frameOk] using hf)
    | logHold =>
      have := hlog rfl
      subst this
      exact Slave.startWriteByte_calm c _ _ (h.withResult .ok 0 (by decide)) (pathOk_log _ (by simpa [frameOk] using hf)) rfl
    | logAck => exact ih _ h ht

end

section
variable {sl : Slave} (c : Ctx)

theorem Slave.returnValue_calm (v : Byte) (hc : c.cfg = cfg) (h : Slave.Calm cfg sl) :
    Slave.Calm cfg (Slave.returnValue c v sl) := Slave.ret_calm c _ v hc h.body h.path

theorem Slave.presenceOver_calm (hc : c.cfg = cfg) (h : Slave.Calm cfg sl) : Slave.Calm cfg (Slave.presenceOver c sl) :=
  Slave.returnValue_calm c 0 hc ⟨h.body.withTxn _, h.path⟩

theorem Slave.pulseOne_calm (hc : c.cfg = cfg) (h : Slave.Calm cfg sl) : Slave.Calm cfg (Slave.pulseOne c sl) := by
  unfold Slave.pulseOne
  split
  · exact Slave.returnValue_calm c _ hc h
  · exact Slave.delay_calm c _ _ h
  · exact Slave.delay_calm c _ _ h
  · exact Slave.returnValue_calm c _ hc h
  · exact Slave.presenceOver_calm c hc h
  · exact Slave.await_calm c _ h
  · exact Slave.returnValue_calm c _ hc h
  all_goals exact h

theorem Slave.pulseZero_calm (hc : c.cfg = cfg) (h : Slave.Calm cfg sl) : Slave.Calm cfg (Slave.pulseZero c sl) := by
  unfold Slave.pulseZero
  split
  · exact Slave.returnValue_calm c _ hc h
  · exact Slave.handleBad_calm c h
  · exact Slave.returnValue_calm c _ hc h
  · exact Slave.presenceOver_calm c hc h
  · exact Slave.await_calm c _ h
  · exact Slave.returnValue_calm c _ hc h
  all_goals exact h

theorem Slave.pulseBad_calm (hc : c.cfg = cfg) (h : Slave.Calm cfg sl) : Slave.Calm cfg (Slave.pulseBad c sl) := by
  unfold Slave.pulseBad
  split
  · exact Slave.handleBad_calm c h
  · exact Slave.handleBad_calm c h
  · exact Slave.returnValue_calm c _ hc h
  · exact Slave.presenceOver_calm c hc h
  · exact Slave.await_calm c _ h
  · exact Slave.returnValue_calm c _ hc h
  all_goals exact h

theorem Slave.pulseReset_calm (hc : c.cfg = cfg) (h : Slave.Calm cfg sl) : Slave.Calm cfg (Slave.pulseReset c sl) := by
  unfold Slave.pulseReset
  split
  · exact Slave.presencePulse_calm c _ rfl h
  · exact Slave.presencePulse_calm c _ rfl h
  · split
    · exact Slave.trap_calm h.ok
    · exact Slave.presencePulse_calm c _ rfl h
  · exact Slave.presenceOver_calm c hc h
  · exact Slave.presencePulse_calm c _ rfl h
  · exact Slave.returnValue_calm c _ hc h
  all_goals exact h

theorem Slave.consume_calm (hc : c.cfg = cfg) (h : Slave.Calm cfg sl) : Slave.Calm cfg (Slave.consume c sl) := by
  have h' : Slave.Calm cfg { sl with pulseNew := false } := ⟨h.body.withPulseNew _, h.path⟩
  unfold Slave.consume
  split
  · exact Slave.pulseOne_calm c hc h'
  · exact Slave.pulseZero_calm c hc h'
  · exact Slave.pulseBad_calm c hc h'
  · exact Slave.pulseReset_calm c hc h'

/-! ### The interrupt actions and the passing of time -/

theorem Slave.observe_ok (h : Slave.Ok cfg sl) : Slave.Ok cfg (Slave.observe c sl) := by
  unfold Slave.observe
  split
  · exact h
  · split
    · unfold Slave.edgeRise
      split
      · unfold Slave.isrRise
        split
        · have h' := (Slave.trap_calm h).ok
          exact ⟨h'.1, h'.2, h'.3, h'.4, h'.5, h'.6, h'.7, h'.8, h'.9, h'.10, h'.11⟩
        · unfold Slave.latchPulse
          have pos : 0 < 2 ^ sl.cfg.tickWidth := Nat.pow_pos (by decide)
          split <;> exact ⟨h.1, Nat.mod_lt _ pos, h.3, h.4, h.5, h.6, h.7, h.8, h.9, h.10, h.11⟩
      · exact h
    · unfold Slave.edgeFall
      split
      · exact ⟨h.1, h.2, h.3, h.4, h.5, h.6, h.7, h.8, h.9, h.10, h.11⟩
      · exact h

theorem Slave.initialise_calm (h : Slave.Body cfg sl) : Slave.Calm cfg (Slave.initialise c sl) :=
  Slave.finish_calm c _ _ (by decide)
    ⟨h.status_code, h.pulse_len, h.bitcnt_range, h.log_buf_wf, h.log_buf_range, h.drive_eq, h.trapped_released, h.unmasked,
     fun _ => rfl⟩

theorem Slave.takeEvent_ok (hc : c.cfg = cfg) (h : Slave.Ok cfg sl) : Slave.Ok cfg (Slave.takeEvent c sl) := by
  unfold Slave.takeEvent
  split
  · rename_i hp
    split
    · exact (Slave.consume_calm c hc (h.calm (by simp [hp]) (by simp [hp]))).ok
    · exact h
  all_goals exact h

theorem Slave.start_calm (op : SlaveOp) (h : Slave.Calm cfg sl) : Slave.Calm cfg (Slave.start c op sl) := by
  cases op with
  | init => exact Slave.initialise_calm c h.body
  | waitReset => exact Slave.await_calm c _ ⟨h.body.withStack _, rfl⟩
  | readBit => exact Slave.await_calm c _ ⟨h.body.withStack _, rfl⟩
  | writeBit arg => exact Slave.await_calm c _ ⟨h.body.withStack _, rfl⟩
  | readByte => exact Slave.startReadByte_calm c _ h.body rfl rfl
  | writeByte arg => exact Slave.startWriteByte_calm c _ _ h.body rfl rfl
  | waitFunctionCmd => exact Slave.dispatch_calm c _ h.body rfl rfl
  | setAlarm arg => exact Slave.finish_calm c _ _ (by decide) (h.body.withAlarm _)
  | busyBegin => exact Slave.finish_calm c .ok 0 (by decide) h.body
  | busyEnd => exact Slave.await_calm c _ ⟨h.body.withStack _, rfl⟩
  | logReceive => exact Slave.startLogReceive_calm c h.body
  | logServe => exact Slave.dispatch_calm c _ h.body rfl rfl
  | illegal => exact Slave.finish_calm c .illegalOperation 0 (by decide) h.body

theorem Slave.emptyHold_ok (h : Slave.Calm cfg sl) : Slave.Ok cfg (Slave.emptyHold c sl) := by
  have hs : (statusCode .ok).toNat ≤ 14 ∧ statusCode .ok ≠ statusCode .notAlarmed := by decide
  unfold Slave.emptyHold
  split
  · have b := h.body
    exact (Slave.await_calm c _ (sl := Slave.callHandler sl) ⟨⟨hs, b.2, b.3, b.4, b.5, b.6, b.7, b.8, b.9⟩, h.path⟩).ok
  · exact h.ok

theorem Slave.proceed_ok (hc : c.cfg = cfg) (h : Slave.Ok cfg sl) : Slave.Ok cfg (Slave.proceed c sl) := by
  unfold Slave.proceed
  split
  · exact h
  · split
    · exact Slave.takeEvent_ok c hc h
    · rename_i hp
      exact Slave.takeEvent_ok c hc (Slave.start_calm c _ (h.calm (by simp [hp]) (by simp [hp]))).ok
    · rename_i hp
      have hcalm := h.calm (by simp [hp]) (by simp [hp])
      split
      · exact (Slave.returnValue_calm c 0 hc ⟨hcalm.body.withPulseNew false, hcalm.path⟩).ok
      · exact h
    · rename_i hp
      exact Slave.takeEvent_ok c hc (Slave.emptyHold_ok c (h.calm (by simp [hp]) (by simp [hp])))
    all_goals exact h

theorem Slave.expire_ok (h : Slave.Ok cfg sl) : Slave.Ok cfg (Slave.expire c sl) := by
  unfold Slave.expire
  split
  · exact h
  · split
    · rename_i hp
      split
      · exact (Slave.timeout_calm c (h.calm (by simp [hp]) (by simp [hp]))).ok
      · exact h
    all_goals exact h

theorem Slave.resume_ok (hc : c.cfg = cfg) (h : Slave.Ok cfg sl) : Slave.Ok cfg (Slave.resume c sl) :=
  Slave.expire_ok c (Slave.proceed_ok c hc h)

theorem Slave.settle_ok (hc : c.cfg = cfg) (h : Slave.Ok cfg sl) : Slave.Ok cfg (Slave.settle c sl) :=
  Slave.resume_ok c hc (Slave.observe_ok c h)

theorem Slave.release_calm (h : Slave.Ok cfg sl) : Slave.Calm cfg sl.release :=
  ⟨⟨h.status_code, h.pulse_len, h.bitcnt_range, h.log_buf_wf, h.log_buf_range, rfl,
    fun x => ⟨(h.trapped_released x).2, (h.trapped_released x).2⟩, h.unmasked, h.rom_id⟩, h.stack_ok⟩

theorem Slave.endHold_calm (h : Slave.Ok cfg sl) : Slave.Calm cfg (Slave.endHold c sl) :=
  Slave.await_calm c _
    ⟨⟨h.status_code, h.pulse_len, h.bitcnt_range, h.log_buf_wf, h.log_buf_range, rfl, fun _ => ⟨rfl, rfl⟩, h.unmasked,
      h.rom_id⟩, h.stack_ok⟩

theorem Slave.begun_ok (op : SlaveOp) (ht : sl.trapped = false) (h : Slave.Calm cfg sl) :
    Slave.Ok cfg (Slave.begun op sl) := by
  have hf (x : sl.trapped = true) : False := by simp [ht] at x
  have b := h.ok
  cases op with
  | init | busyEnd =>
    exact ⟨b.1, b.2, b.3, b.4, b.5, b.6, by simp [Slave.begun, Slave.moveLine], by simp [Slave.begun, Slave.moveLine],
      fun _ => ⟨rfl, rfl⟩, b.10, b.11⟩
  | busyBegin => exact ⟨b.1, b.2, b.3, b.4, b.5, b.6, fun _ => rfl, fun _ => .inl rfl, fun x => (hf x).elim, b.10, b.11⟩
  | _ =>
    exact ⟨b.1, b.2, b.3, b.4, b.5, b.6, b.7, fun x => .inl (h.body.drive_eq.symm.trans x), fun x => (hf x).elim, b.10,
      b.11⟩

theorem Slave.logBusyBegin_ok (ht : sl.trapped = false) (h : Slave.Ok cfg sl) :
    Slave.Ok cfg (Slave.logBusyBegin c sl) := by
  have hs : (statusCode .ok).toNat ≤ 14 ∧ statusCode .ok ≠ statusCode .notAlarmed := by decide
  have hf (x : sl.trapped = true) : False := by simp [ht] at x
  unfold Slave.logBusyBegin Slave.callHandler
  split
  · exact ⟨h.1, h.2, h.3, h.4, h.5, h.6, by simp, by simp, fun _ => ⟨rfl, rfl⟩, h.10, h.11⟩
  · exact ⟨hs, h.2, h.3, h.4, h.5, h.6, fun _ => rfl, fun _ => .inl rfl, fun x => (hf x).elim, h.10, h.11⟩
  · exact ⟨hs, h.2, h.3, h.4, h.5, h.6, fun _ => rfl, fun _ => .inl rfl, fun x => (hf x).elim, h.10, h.11⟩

theorem Slave.startNext_ok (ht : sl.trapped = false) (h : Slave.Calm cfg sl) : Slave.Ok cfg (Slave.startNext sl) := by
  unfold Slave.startNext
  split
  · have b := h.ok
    exact ⟨b.1, b.2, b.3, b.4, b.5, b.6, b.7, fun x => .inl (h.body.drive_eq.symm.trans x), b.9, b.10, b.11⟩
  · split
    · exact Slave.begun_ok (sl := { sl with upstream := _ }) _ ht ⟨h.body.withUpstream _, h.path⟩
    · have b := h.ok
      exact ⟨b.1, b.2, b.3, b.4, b.5, b.6, b.7, b.8, b.9, b.10, b.11⟩

theorem Slave.fire_ok (h : Slave.Ok cfg sl) : Slave.Ok cfg (Slave.fire c sl) := by
  unfold Slave.fire
  split
  · exact h
  · rename_i ht
    have ht : sl.trapped = false := by
      cases hx : sl.trapped
      · rfl
      · simp [hx] at ht
    split
    · exact ⟨h.1, h.2, h.3, h.4, h.5, h.6, fun _ => rfl, fun _ => .inr (.inl rfl), fun x => absurd (ht.symm.trans x) (by decide), h.10, h.11⟩
    · exact (Slave.await_calm c _ (Slave.release_calm h)).ok
    · exact ⟨h.1, h.2, h.3, h.4, h.5, h.6, fun _ => rfl, fun _ => .inr (.inr rfl), fun x => absurd (ht.symm.trans x) (by decide), h.10, h.11⟩
    · exact (Slave.await_calm c _ (Slave.release_calm h)).ok
    · exact Slave.logBusyBegin_ok c ht h
    · exact (Slave.endHold_calm c h).ok
    · rename_i hp
      exact Slave.startNext_ok ht (h.calm (by simp [hp]) (by simp [hp]))
    all_goals exact h

end

end Sys2Proof.Machine
end

