-- ==== Sys2Proof/Laws/MasterOps.lean ====
section
/-! SUPPORT. Every master operation as a whole: the slaves only see time pass, and the master's invariant is kept. -/

namespace Sys2Proof.Machine

variable {R : Slave → Slave → Prop} {s t : State}

/-! ### The search -/

/-- The state in which a search's positions begin. -/
def searchStart (cmd : Byte) (s : State) : State :=
  { mSendByte cmd (mResetExchange s).2 with
    master := { (mSendByte cmd (mResetExchange s).2).master with idBitNumber := 1, lastZero := 0, crc8 := 0 } }

/-- The 64 positions of a search run. -/
@[irreducible] def searchAll (cmd : Byte) (s : State) : Bool × State := searchBits 64 1 (searchStart cmd s)

theorem searchRun_over (cmd : Byte) (h : s.master.lastDeviceFlag = true) :
    searchRun cmd s = (.noSuchSlave, clearSearch s) := by
  unfold searchRun
  rw [if_pos h]

theorem searchRun_absent (cmd : Byte) (h : s.master.lastDeviceFlag = false) (hp : (mResetExchange s).1 = false) :
    searchRun cmd s = (.noSlavePresent, clearSearch (mResetExchange s).2) := by
  unfold searchRun
  simp only [h, hp, Bool.false_eq_true, if_false]

theorem searchRun_silent (cmd : Byte) (h : s.master.lastDeviceFlag = false) (hp : (mResetExchange s).1 = true)
    (hq : (searchAll cmd s).1 = false) : searchRun cmd s = (.noSuchSlave, clearSearch (searchAll cmd s).2) := by
  unfold searchAll searchStart at hq ⊢
  unfold searchRun
  simp only [h, hp, hq, Bool.false_eq_true, if_false, if_true]

theorem searchRun_answered (cmd : Byte) (h : s.master.lastDeviceFlag = false) (hp : (mResetExchange s).1 = true)
    (hq : (searchAll cmd s).1 = true) : searchRun cmd s = searchEnd (searchAll cmd s).2 := by
  unfold searchAll searchStart at hq ⊢
  unfold searchRun
  simp only [h, hp, hq, Bool.false_eq_true, if_false, if_true]

theorem searchStart_serves (cmd : Byte) (hR : Closed s.cfg R) : Serves R s (searchStart cmd s) :=
  (mResetExchange_serves hR).then hR fun h => (mSendByte_serves cmd h).withMaster _

theorem searchStart_cfg (cmd : Byte) (s : State) : (searchStart cmd s).cfg = s.cfg :=
  (searchStart_serves cmd (evolves_closed s.cfg)).cfg

theorem searchStart_took (cmd : Byte) (s : State) : Took s (searchStart cmd s) 19 (us s.cfg 1520) :=
  (((mResetExchange_took s).trans (mResetExchange_cfg s) (mSendByte_took cmd _)).of_eq rfl
    (by rw [mResetExchange_cfg, us_add])).withMaster _

theorem searchStart_master (cmd : Byte) (s : State) :
    (searchStart cmd s).master =
      { s.master with drive := false, shift := 0, bitcnt := 8, idBitNumber := 1, lastZero := 0, crc8 := 0 } := by
  simp only [searchStart, mSendByte_master, mResetExchange_master]

theorem clearSearch_serves (h : Serves R s t) : Serves R s (clearSearch t) := h.withMaster _

theorem searchRun_serves (cmd : Byte) (hR : Closed s.cfg R) : Serves R s (searchRun cmd s).2 := by
  cases hf : s.master.lastDeviceFlag
  · cases hp : (mResetExchange s).1
    · rw [searchRun_absent cmd hf hp]
      exact clearSearch_serves (mResetExchange_serves hR)
    · have hb : Serves R s (searchAll cmd s).2 := by
        unfold searchAll
        exact (searchStart_serves cmd hR).then hR fun h => searchBits_serves 64 1 h
      cases hq : (searchAll cmd s).1
      · rw [searchRun_silent cmd hf hp hq]
        exact clearSearch_serves hb
      · rw [searchRun_answered cmd hf hp hq]
        unfold searchEnd
        split
        · exact hb.withMaster _
        · exact clearSearch_serves hb
  · rw [searchRun_over cmd hf]
    exact clearSearch_serves (.refl hR)

/-- The positions of a search run from its start. -/
theorem searchRun_bits (cmd : Byte) (s : State) :
    SearchKeeps s.master (searchAll cmd s).2.master ∧
    (searchAll cmd s).2.master.lastZero.toNat ≤ 64 ∧
    (searchAll cmd s).2.master.idBitNumber.toNat ≤ 65 ∧
    (searchAll cmd s).2.master.bitcnt = 8 ∧
    (searchAll cmd s).2.master.drive = false ∧
    ((searchAll cmd s).1 = true →
      (searchAll cmd s).2.master.crc8 =
        crc8Fold 0 (romBytes (searchAll cmd s).2.master.romBuf)) := by
  unfold searchAll
  have hm := searchStart_master cmd s
  have hk : SearchKeeps s.master (searchStart cmd s).master := by
    rw [hm]
    exact ⟨rfl, rfl, rfl, rfl, rfl, id⟩
  obtain ⟨h1, h2, h3, h4, h5, h6⟩ := searchBits_master 64 1 (searchStart cmd s) (by omega) (by omega)
    (by rw [hm]; rfl) (by rw [hm]; show (0#7).toNat ≤ 64; decide) (by rw [hm]; show (1#7).toNat ≤ 65; decide)
  refine ⟨hk.trans h1, h2, h3, h4.trans (by rw [hm]), h5 (by rw [hm]), fun h => ?_⟩
  rw [← crc8Wire_all]
  exact h6 h

/-- A run whose positions are all answered takes `960 + 560 + 64 * 210` µs (R161). -/
theorem searchAll_took (cmd : Byte) (s : State) :
    ((searchAll cmd s).1 = true ∧ Took s (searchAll cmd s).2 531 (us s.cfg 14960)) ∨
    ((searchAll cmd s).1 = false ∧
      ∃ j, j < 64 ∧ Took s (searchAll cmd s).2 (j * 8 + 25) (us s.cfg (1520 + j * 210 + 140))) := by
  have h0 := searchStart_took cmd s
  have hc := searchStart_cfg cmd s
  unfold searchAll
  rcases searchBits_took 64 1 (searchStart cmd s) with ⟨hq, hn⟩ | ⟨hq, j, hj, hn⟩
  · exact .inl ⟨hq, (h0.trans hc hn).of_eq rfl (by rw [hc, us_mul, us_add])⟩
  · refine .inr ⟨hq, j, hj, (h0.trans hc hn).of_eq (by omega) ?_⟩
    rw [hc, us_mul, us_add, us_add, Nat.add_assoc]

/-- What a search run answers, and when (R161, R165 to R167). -/
theorem searchRun_cases (cmd : Byte) (s : State) :
    (s.master.lastDeviceFlag = true ∧ searchRun cmd s = (.noSuchSlave, clearSearch s)) ∨
    (s.master.lastDeviceFlag = false ∧ (mResetExchange s).1 = false ∧ (searchRun cmd s).1 = .noSlavePresent ∧
      (searchRun cmd s).2.master.Cleared ∧ Took s (searchRun cmd s).2 3 (us s.cfg 960)) ∨
    (s.master.lastDeviceFlag = false ∧ (mResetExchange s).1 = true ∧ (searchRun cmd s).1 = .noSuchSlave ∧
      (searchRun cmd s).2.master.Cleared ∧
      ∃ j, j < 64 ∧ Took s (searchRun cmd s).2 (j * 8 + 25) (us s.cfg (1520 + j * 210 + 140))) ∨
    (s.master.lastDeviceFlag = false ∧ (mResetExchange s).1 = true ∧ (searchRun cmd s).1 = .romCrcMismatch ∧
      (searchRun cmd s).2.master.Cleared ∧ Took s (searchRun cmd s).2 531 (us s.cfg 14960) ∧
      crc8Fold 0 (romBytes (searchRun cmd s).2.master.romBuf) ≠ 0) ∨
    (s.master.lastDeviceFlag = false ∧ (mResetExchange s).1 = true ∧ (searchRun cmd s).1 = .ok ∧
      Took s (searchRun cmd s).2 531 (us s.cfg 14960) ∧
      (searchRun cmd s).2.master.lastDeviceFlag = decide ((searchRun cmd s).2.master.lastDiscrepancy = 0) ∧
      crc8Fold 0 (romBytes (searchRun cmd s).2.master.romBuf) = 0) := by
  cases hf : s.master.lastDeviceFlag
  · right
    cases hp : (mResetExchange s).1
    · left
      rw [searchRun_absent cmd hf hp]
      exact ⟨rfl, rfl, rfl, ⟨rfl, rfl, rfl⟩, (mResetExchange_took s).withMaster _⟩
    · right
      obtain ⟨-, -, -, -, -, hc⟩ := searchRun_bits cmd s
      rcases searchAll_took cmd s with ⟨hq, hn⟩ | ⟨hq, j, hj, hn⟩
      · right
        rw [searchRun_answered cmd hf hp hq]
        have hc' := hc hq
        unfold searchEnd
        split
        · rename_i h0
          exact .inr ⟨rfl, rfl, rfl, hn.withMaster _, rfl, hc'.symm.trans h0⟩
        · rename_i h0
          exact .inl ⟨rfl, rfl, rfl, ⟨rfl, rfl, rfl⟩, hn.withMaster _, fun h => h0 (hc'.trans h)⟩
      · left
        rw [searchRun_silent cmd hf hp hq]
        exact ⟨rfl, rfl, rfl, ⟨rfl, rfl, rfl⟩, j, hj, hn.withMaster _⟩
  · left
    exact ⟨rfl, searchRun_over cmd hf⟩

/-- What a search run leaves alone of the master's registers. -/
theorem searchRun_keeps (cmd : Byte) (s : State) (h : s.master.drive = false) :
    (searchRun cmd s).2.master.status = s.master.status ∧ (searchRun cmd s).2.master.data = s.master.data ∧
    (searchRun cmd s).2.master.crc16 = s.master.crc16 ∧ (searchRun cmd s).2.master.drive = false := by
  obtain ⟨hk, -, -, -, hd, -⟩ := searchRun_bits cmd s
  cases hf : s.master.lastDeviceFlag
  · cases hp : (mResetExchange s).1
    · rw [searchRun_absent cmd hf hp]
      simp only [clearSearch, mResetExchange_master]
      exact ⟨trivial, trivial, trivial, trivial⟩
    · cases hq : (searchAll cmd s).1
      · rw [searchRun_silent cmd hf hp hq]
        exact ⟨hk.status, hk.data, hk.crc16, hd⟩
      · rw [searchRun_answered cmd hf hp hq]
        unfold searchEnd
        split <;> exact ⟨hk.status, hk.data, hk.crc16, hd⟩
  · rw [searchRun_over cmd hf]
    exact ⟨rfl, rfl, rfl, h⟩

theorem clearSearch_ok (h : s.master.Ok) : (clearSearch s).master.Ok where
  released := h.released
  status_code := h.status_code
  last_discrepancy := Nat.zero_le 64
  last_family_discrepancy := Nat.zero_le 8
  bitcnt_range := h.bitcnt_range
  id_bit_number := h.id_bit_number
  last_zero := h.last_zero

theorem mResetExchange_ok (h : s.master.Ok) : (mResetExchange s).2.master.Ok := by
  rw [mResetExchange_master]
  exact ⟨rfl, h.2, h.3, h.4, h.5, h.6, h.7⟩

theorem mSendByte_ok (v : Byte) (h : s.master.Ok) : (mSendByte v s).master.Ok := by
  rw [mSendByte_master]
  exact ⟨rfl, h.2, h.3, h.4, Nat.le_refl 8, h.6, h.7⟩

theorem mReceiveByte_ok (h : s.master.Ok) : (mReceiveByte s).2.master.Ok := by
  rw [mReceiveByte_master]
  exact ⟨rfl, h.2, h.3, h.4, Nat.le_refl 8, h.6, h.7⟩

theorem searchRun_ok (cmd : Byte) (h : s.master.Ok) : (searchRun cmd s).2.master.Ok := by
  obtain ⟨hk, hz, hi, hb, hd, -⟩ := searchRun_bits cmd s
  have hbits : (searchAll cmd s).2.master.Ok :=
    ⟨hd, hk.status ▸ h.2, hk.lastDiscrepancy ▸ h.3, hk.family h.4, by rw [hb]; exact Nat.le_refl 8, hi, hz⟩
  cases hf : s.master.lastDeviceFlag
  · cases hp : (mResetExchange s).1
    · rw [searchRun_absent cmd hf hp]
      exact clearSearch_ok (mResetExchange_ok h)
    · cases hq : (searchAll cmd s).1
      · rw [searchRun_silent cmd hf hp hq]
        exact clearSearch_ok hbits
      · rw [searchRun_answered cmd hf hp hq]
        unfold searchEnd
        split
        · exact ⟨hbits.1, hbits.2, hbits.7, hbits.4, hbits.5, hbits.6, hbits.7⟩
        · exact clearSearch_ok hbits
  · rw [searchRun_over cmd hf]
    exact clearSearch_ok h

theorem Master.Ok.withRom {m : Master} (h : m.Ok) (rom : RomId) (c : Byte) : ({ m with romBuf := rom, crc8 := c }).Ok :=
  ⟨h.1, h.2, h.3, h.4, h.5, h.6, h.7⟩

theorem mReadRomBytes_ok (n i : Nat) (h : s.master.Ok) : (mReadRomBytes n i s).master.Ok := by
  induction n generalizing s i with
  | zero => exact h
  | succ n ih =>
    rw [mReadRomBytes]
    apply ih
    exact (mReceiveByte_ok h).withRom _ _

theorem romReadStart_ok (h : s.master.Ok) : (romReadStart s).master.Ok := by
  have h1 := mSendByte_ok 0x33 (mResetExchange_ok h)
  unfold romReadStart
  exact ⟨h1.1, h1.2, h1.3, h1.4, h1.5, h1.6, h1.7⟩

theorem mReadRom_cfg (s : State) : (mReadRom s).2.cfg = s.cfg := (mReadRom_serves (evolves_closed s.cfg)).cfg

theorem mReadRom_ok (h : s.master.Ok) : (mReadRom s).2.master.Ok := by
  cases hp : (mResetExchange s).1
  · rw [mReadRom_absent hp]
    exact mResetExchange_ok h
  · have hk := mReadRomBytes_ok 8 0 (romReadStart_ok h)
    rw [mReadRom_present hp]
    generalize mReadRomBytes 8 0 (romReadStart s) = q at hk ⊢
    exact hk

/-! ### The launcher -/

theorem mSendBytes_ok (bs : List Byte) (h : s.master.Ok) : (mSendBytes bs s).master.Ok := by
  induction bs generalizing s with
  | nil => exact h
  | cons b bs ih => exact ih (mSendByte_ok b h)

theorem launch_zero (id : RomId) (f : Byte) (s : State) :
    launch 0 id f s = if (mReadRom s).1 = .ok then (.ok, mSendByte f (mReadRom s).2) else mReadRom s := by
  unfold launch
  rfl

theorem launch_one (id : RomId) (f : Byte) (s : State) :
    launch 1 id f s = if (mResetExchange s).1 then
      (.ok, mSendByte f (mSendBytes (romBytes id) (mSendByte 0x55 (mResetExchange s).2)))
      else (.noSlavePresent, (mResetExchange s).2) := by
  unfold launch
  rw [if_neg (by decide), if_pos rfl]

theorem launch_two (id : RomId) (f : Byte) (s : State) :
    launch 2 id f s = if (mResetExchange s).1 then (.ok, mSendByte f (mSendByte 0xCC (mResetExchange s).2))
      else (.noSlavePresent, (mResetExchange s).2) := by
  unfold launch
  rw [if_neg (by decide), if_neg (by decide), if_pos rfl]

theorem launch_three (id : RomId) (f : Byte) (s : State) : launch 3 id f s = (.illegalOperation, s) := by
  unfold launch
  rw [if_neg (by decide), if_neg (by decide), if_neg (by decide)]

theorem mode_cases (mode : BitVec 2) : mode = 0 ∨ mode = 1 ∨ mode = 2 ∨ mode = 3 := by
  revert mode
  decide

theorem launch_serves (mode : BitVec 2) (id : RomId) (f : Byte) (hR : Closed s.cfg R) :
    Serves R s (launch mode id f s).2 := by
  have hx := mResetExchange_serves hR
  rcases mode_cases mode with rfl | rfl | rfl | rfl
  · rw [launch_zero]
    split
    · exact (mReadRom_serves hR).then hR fun h => mSendByte_serves f h
    · exact mReadRom_serves hR
  · rw [launch_one]
    split
    · refine hx.then hR fun h => (mSendByte_serves 0x55 h).then h fun h' => ?_
      exact (mSendBytes_serves (romBytes id) h').then h' fun h'' => mSendByte_serves f h''
    · exact hx
  · rw [launch_two]
    split
    · exact hx.then hR fun h => (mSendByte_serves 0xCC h).then h fun h' => mSendByte_serves f h'
    · exact hx
  · rw [launch_three]
    exact .refl hR

theorem launch_ok (mode : BitVec 2) (id : RomId) (f : Byte) (h : s.master.Ok) : (launch mode id f s).2.master.Ok := by
  have hx := mResetExchange_ok h
  rcases mode_cases mode with rfl | rfl | rfl | rfl
  · rw [launch_zero]
    split
    · exact mSendByte_ok f (mReadRom_ok h)
    · exact mReadRom_ok h
  · rw [launch_one]
    split
    · exact mSendByte_ok f (mSendBytes_ok _ (mSendByte_ok _ hx))
    · exact hx
  · rw [launch_two]
    split
    · exact mSendByte_ok f (mSendByte_ok _ hx)
    · exact hx
  · rw [launch_three]
    exact h

/-- What the launcher answers, and when (R173): its durations, and that it leaves the search triple alone. -/
theorem launch_cases (mode : BitVec 2) (id : RomId) (f : Byte) (s : State) (h3 : mode ≠ 3) :
    ((mResetExchange s).1 = false ∧ (launch mode id f s).1 = .noSlavePresent ∧
      Took s (launch mode id f s).2 3 (us s.cfg 960) ∧
      (launch mode id f s).2.master = { s.master with drive := false }) ∨
    ((mResetExchange s).1 = true ∧ ∃ rom sh bc c8,
      (launch mode id f s).2.master =
        { s.master with drive := false, shift := sh, bitcnt := bc, romBuf := rom, crc8 := c8 } ∧
      (mode ≠ 0 → rom = s.master.romBuf ∧ c8 = s.master.crc8) ∧
      ((launch mode id f s).1 = .ok ∧ (mode = 0 → crc8Fold 0 (romBytes rom) = 0) ∧
        Took s (launch mode id f s).2 (if mode = 2 then 35 else if mode = 1 then 163 else 227)
          (us s.cfg (if mode = 2 then 2080 else 6560)) ∨
       (launch mode id f s).1 = .romCrcMismatch ∧ mode = 0 ∧ crc8Fold 0 (romBytes rom) ≠ 0 ∧
        Took s (launch mode id f s).2 211 (us s.cfg 6000))) := by
  rcases mode_cases mode with rfl | rfl | rfl | rfl
  · rw [launch_zero]
    rcases mReadRom_cases s with ⟨hp, h1, hn, hm⟩ | ⟨hp, hn, rom, sh, bc, h1, hm⟩
    · rw [h1]
      exact .inl ⟨hp, h1, hn, hm⟩
    · right
      refine ⟨hp, rom, ?_⟩
      split
      · rename_i hok
        rw [h1] at hok
        have h0 : crc8Fold 0 (romBytes rom) = 0 := by
          by_contra hc
          rw [if_neg hc] at hok
          exact absurd hok (by decide)
        refine ⟨0, 8, crc8Fold 0 (romBytes rom), ?_, by simp, .inl ⟨rfl, fun _ => h0, ?_⟩⟩
        · rw [mSendByte_master, hm]
        · exact (hn.trans (mReadRom_cfg s) (mSendByte_took f _)).of_eq rfl (by rw [mReadRom_cfg, us_add]; rfl)
      · rename_i hok
        rw [h1] at hok
        have h0 : crc8Fold 0 (romBytes rom) ≠ 0 := fun hc => hok (by rw [if_pos hc])
        exact ⟨sh, bc, crc8Fold 0 (romBytes rom), hm, by simp, .inr ⟨h1.trans (if_neg h0), rfl, h0, hn⟩⟩
  · rw [launch_one]
    cases hp : (mResetExchange s).1
    · exact .inl ⟨rfl, rfl, mResetExchange_took s, mResetExchange_master s⟩
    · refine .inr ⟨rfl, s.master.romBuf, 0, 8, s.master.crc8, ?_, by simp, .inl ⟨rfl, by simp, ?_⟩⟩
      · simp only [if_true, mSendByte_master, romBytes, mSendBytes_master, mResetExchange_master]
      · have h1 := (mResetExchange_took s).trans (mResetExchange_cfg s) (mSendByte_took 0x55 _)
        have h2 := h1.trans (by simp) (mSendBytes_took (romBytes id) _)
        have h3 := h2.trans (by simp) (mSendByte_took f _)
        have hl : (romBytes id).length = 8 := rfl
        refine h3.of_eq rfl ?_
        simp only [mSendBytes_cfg, mSendByte_cfg, mResetExchange_cfg, hl, us_mul, us_add]
        rfl
  · rw [launch_two]
    cases hp : (mResetExchange s).1
    · exact .inl ⟨rfl, rfl, mResetExchange_took s, mResetExchange_master s⟩
    · refine .inr ⟨rfl, s.master.romBuf, 0, 8, s.master.crc8, ?_, by simp, .inl ⟨rfl, by simp, ?_⟩⟩
      · simp only [if_true, mSendByte_master, mResetExchange_master]
      · have h1 := (mResetExchange_took s).trans (mResetExchange_cfg s) (mSendByte_took 0xCC _)
        refine (h1.trans (by simp) (mSendByte_took f _)).of_eq rfl ?_
        simp only [mSendByte_cfg, mResetExchange_cfg, us_add]
        rfl
  · exact absurd rfl h3

/-! ### Log frames -/

theorem mSendFolded_serves (b : Byte) (hR : Closed s.cfg R) : Serves R s (mSendFolded b s) :=
  (mSendByte_serves b hR).withMaster _

theorem mSendFolded_ok (b : Byte) (h : s.master.Ok) : (mSendFolded b s).master.Ok := by
  have h1 := mSendByte_ok b h
  exact ⟨h1.1, h1.2, h1.3, h1.4, h1.5, h1.6, h1.7⟩

theorem mSendPayload_serves (bs : List Byte) (hR : Closed s.cfg R) : Serves R s (mSendPayload bs s) := by
  induction bs generalizing s with
  | nil => exact .refl hR
  | cons b bs ih => exact (mSendFolded_serves b hR).then hR fun h => ih h

theorem mSendPayload_ok (bs : List Byte) (h : s.master.Ok) : (mSendPayload bs s).master.Ok := by
  induction bs generalizing s with
  | nil => exact h
  | cons b bs ih => exact ih (mSendFolded_ok b h)

theorem mSendFrame_serves (len : Byte) (bs : List Byte) (hR : Closed s.cfg R) : Serves R s (mSendFrame len bs s) := by
  unfold mSendFrame
  refine ((mWait_passes (tLogGap s.cfg) hR).serves.withMaster { (mWait (tLogGap s.cfg) s).master with crc16 := 0xFFFF }).then hR fun h => ?_
  refine (mSendFolded_serves len h).then h fun h1 => (mSendPayload_serves bs h1).then h1 fun h2 => ?_
  exact (mSendByte_serves _ h2).then h2 fun h3 => mSendByte_serves _ h3

theorem mSendPayload_took (bs : List Byte) (s : State) :
    Took s (mSendPayload bs s) (bs.length * 16) (bs.length * us s.cfg 560) := by
  induction bs generalizing s with
  | nil => exact (Took.refl s).of_eq (by simp) (by simp)
  | cons b bs ih =>
    have hc : (mSendFolded b s).cfg = s.cfg := mSendByte_cfg b s
    refine Took.of_eq (((mSendByte_took b s).withMaster _).trans hc (ih (mSendFolded b s))) ?_ ?_
    · simp only [List.length_cons]; omega
    · rw [List.length_cons, Nat.add_mul, Nat.one_mul, Nat.add_comm, hc]

/-- A frame takes the gap and its bytes' slots (R270, R83). -/
theorem mSendFrame_took (len : Byte) (bs : List Byte) (s : State) :
    Took s (mSendFrame len bs s) (1 + (bs.length + 3) * 16) (tLogGap s.cfg + (bs.length + 3) * us s.cfg 560) := by
  have hR := evolves_closed s.cfg
  let s1 : State := { mWait (tLogGap s.cfg) s with master := { (mWait (tLogGap s.cfg) s).master with crc16 := 0xFFFF } }
  have h1 : Took s s1 1 (tLogGap s.cfg) := (mWait_took _ s).withMaster _
  have c1 : s1.cfg = s.cfg := mWait_cfg _ s
  have c2 : (mSendFolded len s1).cfg = s.cfg := (mSendByte_cfg len s1).trans c1
  have c3 : (mSendPayload bs (mSendFolded len s1)).cfg = s.cfg := (mSendPayload_serves bs (c2 ▸ hR)).cfg.trans c2
  have hb (v : Byte) {x : State} (hx : x.cfg = s.cfg) : Took x (mSendByte v x) 16 (us s.cfg 560) :=
    hx ▸ mSendByte_took v x
  have h2 : Took s1 (mSendFolded len s1) 16 (us s.cfg 560) := (hb len c1).withMaster _
  have h3 : Took (mSendFolded len s1) _ _ (bs.length * us s.cfg 560) := c2 ▸ mSendPayload_took bs _
  refine (((((h1.trans c1 h2).trans c2 h3).trans c3 (hb _ c3)).trans ((mSendByte_cfg _ _).trans c3)
    (hb _ ((mSendByte_cfg _ _).trans c3))).of_eq (by omega) ?_)
  rw [Nat.add_mul]
  omega

theorem mSendFrame_ok (len : Byte) (bs : List Byte) (h : s.master.Ok) : (mSendFrame len bs s).master.Ok := by
  unfold mSendFrame
  refine mSendByte_ok _ (mSendByte_ok _ (mSendPayload_ok bs (mSendFolded_ok len ?_)))
  dsimp only
  rw [mWait_master]
  exact ⟨h.1, h.2, h.3, h.4, h.5, h.6, h.7⟩

/-- The state a poll ends in, or is suspended in. -/
def PollEnd.state : PollEnd → State
  | .high t => t
  | .timedOut t => t
  | .waits t => t
  | .unfinished t => t

theorem pollRunsOut_passes (l : Nat) (hR : Closed s.cfg R) : Passes R s (pollRunsOut l s).state := by
  unfold pollRunsOut
  split
  · exact .refl hR.refl _
  · exact pause_passes _ hR

/-- The end of a poll at its timeout is not a high line. -/
theorem pollRunsOut_low (l : Nat) (s t : State) : pollRunsOut l s ≠ .high t := by
  unfold pollRunsOut
  split <;> simp

theorem pollLoop_passes (limit : Option Nat) (n : Nat) (hR : Closed s.cfg R) :
    Passes R s (pollLoop limit n s).state := by
  induction n generalizing s with
  | zero => exact .refl hR.refl _
  | succ n ih =>
    have hs : Passes R s (settle s) := settle_passes hR
    have hR' : Closed (settle s).cfg R := hs.cfg ▸ hR
    have hg (e : Nat) : Passes R s (goTo e (settle s)) := hs.trans hR.trans (goTo_passes _ hR')
    have hi (e : Nat) : Passes R s (pollLoop limit n (goTo e (settle s))).state :=
      (hg e).trans hR.trans (ih ((hg e).cfg ▸ hR))
    have hw (l : Nat) : Passes R s (pollRunsOut l (settle s)).state := hs.trans hR.trans (pollRunsOut_passes _ hR')
    unfold pollLoop
    split
    · exact .refl hR.refl _
    · dsimp only
      split
      · exact hs
      · split
        · exact hs
        · exact hw _
        · exact hi _
        · split
          · exact hi _
          · exact hw _

theorem pollLoop_high (limit : Option Nat) (n : Nat) (s t : State) (h : pollLoop limit n s = .high t) :
    line t = true := by
  induction n generalizing s with
  | zero => cases h
  | succ n ih =>
    unfold pollLoop at h
    split at h
    · cases h
      assumption
    · dsimp only at h
      split at h
      · cases h
        assumption
      · split at h
        · cases h
        · exact absurd h (pollRunsOut_low _ _ _)
        · exact ih _ h
        · split at h
          · exact ih _ h
          · exact absurd h (pollRunsOut_low _ _ _)

/-- The line is high at the poll's first instant. -/
theorem pollLoop_now (limit : Option Nat) (hl : line s = true) : pollLoop limit pollFuel s = .high s := by
  obtain ⟨n, hn⟩ : ∃ n, pollFuel = n + 1 := ⟨999999999, rfl⟩
  rw [hn, pollLoop, if_pos hl]

/-- The line is low, and nothing scheduled can raise it. -/
theorem pollLoop_stuck (limit : Option Nat) (hl : line s = false) (hl1 : line (settle s) = false)
    (hne : nextEvent (settle s) = none) : pollLoop limit pollFuel s =
      match limit with
      | none => .waits (settle s)
      | some l => pollRunsOut l (settle s) := by
  obtain ⟨n, hn⟩ : ∃ n, pollFuel = n + 1 := ⟨999999999, rfl⟩
  rw [hn, pollLoop, if_neg (by rw [hl]; decide)]
  simp only [hl1, hne, Bool.false_eq_true, if_false]
  cases limit <;> rfl

/-- A poll may be cut anywhere: what is left unfinished goes on to the same end (R272). -/
theorem pollLoop_add (limit : Option Nat) (m n : Nat) (s : State) : pollLoop limit (m + n) s =
    match pollLoop limit m s with
    | .unfinished u => pollLoop limit n u
    | e => e := by
  induction m generalizing s with
  | zero => rw [Nat.zero_add]; rfl
  | succ m ih =>
    have hw (l : Nat) (x : State) : pollRunsOut l x =
        match pollRunsOut l x with
        | .unfinished u => pollLoop limit n u
        | e => e := by
      unfold pollRunsOut
      split <;> rfl
    rw [Nat.succ_add, pollLoop, pollLoop]
    split
    · rfl
    · dsimp only
      split
      · rfl
      · split
        · rfl
        · exact hw _ _
        · exact ih _
        · split
          · exact ih _
          · exact hw _ _

theorem mReadAck_eq (s : State) : mReadAck s =
    mReport (if (mReceiveByte (mWait s.cfg.tMPoll s)).1 = ackByteValue then .ok else .ackMismatch)
      (mReceiveByte (mWait s.cfg.tMPoll s)).1 (mReceiveByte (mWait s.cfg.tMPoll s)).2 := rfl

/-- Where a busy poll leads (R272): the ack read at a high line, `Timeout`, or a master that still polls. -/
theorem mPoll_cases (limit : Option Nat) (hR : Closed s.cfg R) :
    ∃ u, Passes R s u ∧ (mPoll limit s = mSuspend limit u ∨ mPoll limit s = mReport .timeout 0 u ∨
      line u = true ∧ mPoll limit s = mReadAck u) := by
  have hp := pollLoop_passes limit pollFuel hR
  unfold mPoll
  cases he : pollLoop limit pollFuel s with
  | waits u => exact ⟨u, by rw [he] at hp; exact hp, .inl rfl⟩
  | unfinished u => exact ⟨u, by rw [he] at hp; exact hp, .inl rfl⟩
  | timedOut u => exact ⟨u, by rw [he] at hp; exact hp, .inr (.inl rfl)⟩
  | high u => exact ⟨u, by rw [he] at hp; exact hp, .inr (.inr ⟨pollLoop_high _ _ _ _ he, rfl⟩)⟩

/-! ### Whole operations -/

theorem statusCode_le (st : Status) : (statusCode st).toNat ≤ 14 := by
  cases st <;> decide

theorem mReport_ok (st : Status) (v : Byte) (h : s.master.Ok) : (mReport st v s).master.Ok := by
  rw [mReport_master]
  exact ⟨h.1, statusCode_le st, h.3, h.4, h.5, h.6, h.7⟩

theorem mIllegal_ok (h : s.master.Ok) : (mIllegal s).master.Ok := mReport_ok _ _ h

theorem mReadAck_serves (hR : Closed s.cfg R) : Serves R s (mReadAck s) :=
  (mWait_passes _ hR).serves.then hR fun h => (mReceiveByte_serves h).then h fun h' => mReport_serves _ _ h'

theorem mReadAck_ok (h : s.master.Ok) : (mReadAck s).master.Ok := by
  rw [mReadAck_eq]
  refine mReport_ok _ _ (mReceiveByte_ok ?_)
  rw [mWait_master]
  exact h

theorem mPoll_serves (limit : Option Nat) (hR : Closed s.cfg R) : Serves R s (mPoll limit s) := by
  obtain ⟨u, hu, e | e | ⟨-, e⟩⟩ := mPoll_cases limit hR
  · rw [e]
    exact hu.serves.withMaster _
  · rw [e]
    exact hu.serves.then hR fun h => mReport_serves _ _ h
  · rw [e]
    exact hu.serves.then hR fun h => mReadAck_serves h

theorem mPoll_ok (limit : Option Nat) (h : s.master.Ok) : (mPoll limit s).master.Ok := by
  obtain ⟨u, hu, e | e | ⟨-, e⟩⟩ := mPoll_cases limit (evolves_closed s.cfg)
  · rw [e]
    have := hu.master ▸ h
    exact ⟨this.1, this.2, this.3, this.4, this.5, this.6, this.7⟩
  · rw [e]
    exact mReport_ok _ _ (hu.master ▸ h)
  · rw [e]
    exact mReadAck_ok (hu.master ▸ h)

theorem mAwaitAck_serves (hR : Closed s.cfg R) : Serves R s (mAwaitAck s) := by
  unfold mAwaitAck
  dsimp only
  split
  · exact (Serves.refl hR).withMaster _
  · exact mPoll_serves _ hR

theorem mAwaitAck_ok (h : s.master.Ok) : (mAwaitAck s).master.Ok := by
  unfold mAwaitAck
  dsimp only
  split
  · exact ⟨h.1, h.2, h.3, h.4, h.5, h.6, h.7⟩
  · exact mPoll_ok _ h

end Sys2Proof.Machine
end

