-- ==== Sys2Proof/Laws/Whole.lean ====
section
/-! SUPPORT. Every instruction and the step as a whole: whatever relation a slave's own acts keep, the machine keeps. -/

namespace Sys2Proof.Machine

variable {R : Slave → Slave → Prop} {s t : State}

/-! ### What a slave can do by itself -/

/-- A code presented at a slave's port is acted on. -/
inductive Slave.WireStep (c : Ctx) (sl : Slave) : Slave → Prop where
  | rom (v : Byte) : WireStep c sl (Slave.atRomCommand (Slave.gotRomCommand c v) sl)
  | function (v : Byte) : WireStep c sl (Slave.atFunctionCommand (Slave.gotFunctionCommand c v) sl)
  | ack : WireStep c sl (Slave.atHoldEnd (Slave.writeAck c) sl)
  | one : WireStep c sl (Slave.atPulse (Slave.pulseOne c) sl)
  | zero : WireStep c sl (Slave.atPulse (Slave.pulseZero c) sl)
  | bad : WireStep c sl (Slave.atPulse (Slave.pulseBad c) sl)
  | reset : WireStep c sl (Slave.atPulse (Slave.pulseReset c) sl)
  | fall : WireStep c sl (Slave.edgeFall c sl)
  | rise : WireStep c sl (Slave.edgeRise c sl)

/-- A relation on a slave that everything it can do keeps, at parameters `cfg`. -/
structure Acts (cfg : Config) (R : Slave → Slave → Prop) : Prop extends Closed cfg R where
  begun : ∀ op (sl : Slave), sl.trapped = false → sl.pos = .idle → R sl (Slave.begun op sl)
  queue : ∀ op (sl : Slave), sl.trapped = false → R sl { sl with upstream := sl.upstream ++ [(0, op)] }
  wire : ∀ c sl sl', c.cfg = cfg → Slave.WireStep c sl sl' → R sl sl'

theorem forall₂_set (hr : ∀ a, R a a) (l : List Slave) (k : Nat) (x y : Slave) (hx : l[k]? = some x) (h : R x y) :
    List.Forall₂ R l (l.set k y) := by
  induction l generalizing k with
  | nil => simp at hx
  | cons a l ih =>
    cases k with
    | zero =>
      simp only [List.getElem?_cons_zero, Option.some.injEq] at hx
      subst hx
      exact .cons h (forall₂_refl hr l)
    | succ k => exact .cons (hr a) (ih k (by simpa using hx))

/-! ### The codes a slave decodes -/

theorem onSlave_cases (k : Nat) (s : State) (f : Ctx → Slave → Slave) :
    (s.slaves[k]? = none ∧ onSlave k s f = .fault (.noSuchSlave k)) ∨
    ∃ sl, s.slaves[k]? = some sl ∧ onSlave k s f = .next { s with slaves := s.slaves.set k (f s.ctx sl) } := by
  unfold onSlave
  cases h : s.slaves[k]? with
  | none => exact .inl ⟨rfl, rfl⟩
  | some sl => exact .inr ⟨sl, rfl, rfl⟩

/-- What a code at slave `k`'s port does: that slave acts, and nothing else differs. -/
def WireExec (k : Nat) (s : State) (o : Host.Outcome State Fault Refusal) : Prop :=
  (s.slaves[k]? = none ∧ o = .fault (.noSuchSlave k)) ∨
  ∃ sl sl', s.slaves[k]? = some sl ∧ Slave.WireStep s.ctx sl sl' ∧ o = .next { s with slaves := s.slaves.set k sl' }

theorem onSlave_wire (k : Nat) (s : State) (f : Ctx → Slave → Slave)
    (h : ∀ c sl, Slave.WireStep c sl (f c sl)) : WireExec k s (onSlave k s f) := by
  rcases onSlave_cases k s f with h0 | ⟨sl, hk, e⟩
  · exact .inl h0
  · exact .inr ⟨sl, _, hk, h _ _, e⟩

/-- The instruction is a wire byte, a pulse class or an edge kind, for this slave. -/
def wirePort : Instr → Option Nat
  | .readRom k | .matchRom k | .skipRom k | .searchRom k | .alarmSearch k | .logMessage k | .ack k
  | .pulseOne k | .pulseZero k | .pulseBad k | .pulseReset k | .isrFall k | .isrRise k => some k
  | _ => none

theorem exec_wire (i : Instr) (k : Nat) (s : State) (hi : wirePort i = some k) : WireExec k s (exec i s) := by
  cases i <;> simp only [wirePort, Option.some.injEq, reduceCtorEq] at hi <;> subst hi
  · exact onSlave_wire _ s _ fun c sl => .rom 0x33
  · exact onSlave_wire _ s _ fun c sl => .rom 0x55
  · exact onSlave_wire _ s _ fun c sl => .rom 0xCC
  · exact onSlave_wire _ s _ fun c sl => .rom 0xF0
  · exact onSlave_wire _ s _ fun c sl => .rom 0xEC
  · exact onSlave_wire _ s _ fun c sl => .function 0x44
  · exact onSlave_wire _ s _ fun c sl => .ack
  · exact onSlave_wire _ s _ fun c sl => .one
  · exact onSlave_wire _ s _ fun c sl => .zero
  · exact onSlave_wire _ s _ fun c sl => .bad
  · exact onSlave_wire _ s _ fun c sl => .reset
  · exact onSlave_wire _ s _ fun c sl => .fall
  · exact onSlave_wire _ s _ fun c sl => .rise

/-! ### Requests of upstream code -/

/-- How a request ends: in slave `k` differing before time passes, if at all. -/
theorem requestOp_cases (k : Nat) (op : SlaveOp) (s : State) :
    (s.slaves[k]? = none ∧ requestOp k op s = .fault (.noSuchSlave k)) ∨
    ∃ sl, s.slaves[k]? = some sl ∧
      ((sl.trapped = true ∧ requestOp k op s = .next s) ∨
       (sl.trapped = false ∧ sl.intEnable = false ∧ op ≠ .init ∧ op ≠ .illegal ∧
         requestOp k op s = .refused (.slaveNotInitialised k)) ∨
       (sl.trapped = false ∧ sl.pos ≠ .idle ∧
         requestOp k op s = .next { s with slaves := s.slaves.set k { sl with upstream := sl.upstream ++ [(0, op)] } }) ∨
       (sl.trapped = false ∧ sl.pos = .idle ∧
         requestOp k op s = .next (runBegun k { s with slaves := s.slaves.set k (Slave.begun op sl) }))) := by
  unfold requestOp
  cases h : s.slaves[k]? with
  | none => exact .inl ⟨rfl, rfl⟩
  | some sl =>
    refine .inr ⟨sl, rfl, ?_⟩
    dsimp only
    split
    · rename_i ht
      exact .inl ⟨ht, rfl⟩
    · rename_i ht
      have ht : sl.trapped = false := by simpa using ht
      split
      · rename_i hn
        simp only [Bool.and_eq_true, Bool.not_eq_true', decide_eq_true_eq] at hn
        exact .inr (.inl ⟨ht, hn.1.1, hn.2.1, hn.2.2, rfl⟩)
      · split
        · rename_i hp
          exact .inr (.inr (.inr ⟨ht, hp, rfl⟩))
        · rename_i hp
          exact .inr (.inr (.inl ⟨ht, hp, rfl⟩))

/-- A request: slave `k` begins, queues or ignores the operation, then time passes. -/
theorem requestOp_passes (k : Nat) (op : SlaveOp) (s t : State) (h : requestOp k op s = .next t) :
    ∃ sl x, s.slaves[k]? = some sl ∧
      (x = sl ∨ (sl.trapped = false ∧ x = { sl with upstream := sl.upstream ++ [(0, op)] }) ∨
       (sl.trapped = false ∧ sl.pos = .idle ∧ x = Slave.begun op sl)) ∧
      ∀ R, Closed s.cfg R → Passes R { s with slaves := s.slaves.set k x } t := by
  rcases requestOp_cases k op s with ⟨-, e⟩ | ⟨sl, hk, h1⟩
  · rw [e] at h; cases h
  · rcases h1 with ⟨ht, e⟩ | ⟨ht, he, hi, hj, e⟩ | ⟨ht, hp, e⟩ | ⟨ht, hp, e⟩
    · obtain rfl := Host.Outcome.next.inj (e.symm.trans h)
      refine ⟨sl, sl, hk, .inl rfl, fun R hR => ?_⟩
      have : s.slaves.set k sl = s.slaves := by
        obtain ⟨hlt, hv⟩ := List.getElem?_eq_some_iff.mp hk
        rw [← hv]
        exact List.set_getElem_self hlt
      rw [this]
      exact .refl hR.refl _
    · rw [e] at h; cases h
    · obtain rfl := Host.Outcome.next.inj (e.symm.trans h)
      exact ⟨sl, _, hk, .inr (.inl ⟨ht, rfl⟩), fun R hR => .refl hR.refl _⟩
    · obtain rfl := Host.Outcome.next.inj (e.symm.trans h)
      refine ⟨sl, _, hk, .inr (.inr ⟨ht, hp, rfl⟩), fun R hR => ?_⟩
      exact runBegun_passes k hR

/-- The operation upstream code requests by this instruction, and of which slave. -/
def slavePort : Instr → Option (Nat × SlaveOp)
  | .sInit k => some (k, .init)
  | .sWaitReset k => some (k, .waitReset)
  | .sReadBit k => some (k, .readBit)
  | .sWriteBit k arg => some (k, .writeBit arg)
  | .sReadByte k => some (k, .readByte)
  | .sWriteByte k arg => some (k, .writeByte arg)
  | .sWaitFunctionCmd k => some (k, .waitFunctionCmd)
  | .sSetAlarm k arg => some (k, .setAlarm arg)
  | .sBusyBegin k => some (k, .busyBegin)
  | .sBusyEnd k => some (k, .busyEnd)
  | .sLogReceive k => some (k, .logReceive)
  | .sLogServe k => some (k, .logServe)
  | _ => none

theorem exec_slave (i : Instr) (k : Nat) (op : SlaveOp) (s : State) (hi : slavePort i = some (k, op)) :
    exec i s = requestOp k op s := by
  cases i <;> simp only [slavePort, Option.some.injEq, Prod.mk.injEq, reduceCtorEq] at hi <;>
    obtain ⟨rfl, rfl⟩ := hi <;> rfl

/-! ### Master operations -/

theorem exec_master (i : Instr) (hw : wirePort i = none) (hs : slavePort i = none) (hR : Closed s.cfg R)
    (h : exec i s = .next t) : Serves R s t ∧ (s.master.Ok → t.master.Ok) := by
  cases i <;> simp only [wirePort, slavePort, reduceCtorEq] at hw hs <;> unfold exec at h
  case mReset =>
    obtain rfl := Host.Outcome.next.inj h
    exact ⟨(mResetExchange_serves hR).then hR fun h1 => mReport_serves _ _ h1,
      fun hm => mReport_ok _ _ (mResetExchange_ok hm)⟩
  case mWriteBit arg =>
    obtain rfl := Host.Outcome.next.inj h
    refine ⟨(mWriteSlot_serves _ hR).then hR fun h1 => mReport_serves _ _ h1, fun hm => mReport_ok _ _ ?_⟩
    rw [mWriteSlot_master]
    exact ⟨rfl, hm.2, hm.3, hm.4, hm.5, hm.6, hm.7⟩
  case mReadBit =>
    obtain rfl := Host.Outcome.next.inj h
    refine ⟨(mReadSlot_serves hR).then hR fun h1 => mReport_serves _ _ h1, fun hm => mReport_ok _ _ ?_⟩
    rw [mReadSlot_master]
    exact ⟨rfl, hm.2, hm.3, hm.4, hm.5, hm.6, hm.7⟩
  case mWriteByte arg =>
    obtain rfl := Host.Outcome.next.inj h
    exact ⟨(mSendByte_serves _ hR).then hR fun h1 => mReport_serves _ _ h1,
      fun hm => mReport_ok _ _ (mSendByte_ok _ hm)⟩
  case mReadByte =>
    obtain rfl := Host.Outcome.next.inj h
    exact ⟨(mReceiveByte_serves hR).then hR fun h1 => mReport_serves _ _ h1,
      fun hm => mReport_ok _ _ (mReceiveByte_ok hm)⟩
  case mReadRom =>
    obtain rfl := Host.Outcome.next.inj h
    exact ⟨(mReadRom_serves hR).then hR fun h1 => mReport_serves _ _ h1,
      fun hm => mReport_ok _ _ (mReadRom_ok hm)⟩
  case mSearchFirst =>
    obtain rfl := Host.Outcome.next.inj h
    exact ⟨(Serves.ofMaster (m := (clearSearch s).master) (searchRun_serves (s := clearSearch s) searchCmd hR)).then hR
      fun h1 => mReport_serves _ _ h1, fun hm => mReport_ok _ _ (searchRun_ok _ (clearSearch_ok hm))⟩
  case mSearchNext =>
    obtain rfl := Host.Outcome.next.inj h
    exact ⟨(searchRun_serves searchCmd hR).then hR fun h1 => mReport_serves _ _ h1,
      fun hm => mReport_ok _ _ (searchRun_ok _ hm)⟩
  case mAlarmFirst =>
    obtain rfl := Host.Outcome.next.inj h
    exact ⟨(Serves.ofMaster (m := (clearSearch s).master) (searchRun_serves (s := clearSearch s) alarmCmd hR)).then hR
      fun h1 => mReport_serves _ _ h1, fun hm => mReport_ok _ _ (searchRun_ok _ (clearSearch_ok hm))⟩
  case mAlarmNext =>
    obtain rfl := Host.Outcome.next.inj h
    exact ⟨(searchRun_serves alarmCmd hR).then hR fun h1 => mReport_serves _ _ h1,
      fun hm => mReport_ok _ _ (searchRun_ok _ hm)⟩
  case mVerify id =>
    obtain rfl := Host.Outcome.next.inj h
    have h0 : Serves R s (searchRun searchCmd (verifySetup id s)).2 :=
      Serves.ofMaster (m := (verifySetup id s).master) (searchRun_serves (s := verifySetup id s) searchCmd hR)
    refine ⟨(h0.withMaster (verifyRestore s.master (searchRun searchCmd (verifySetup id s)).2).master).then hR
      fun h1 => mReport_serves _ _ h1, fun hm => mReport_ok _ _ ?_⟩
    have hv : (verifySetup id s).master.Ok := ⟨hm.1, hm.2, Nat.le_refl 64, hm.4, hm.5, hm.6, hm.7⟩
    have hr := searchRun_ok searchCmd hv
    exact ⟨hr.1, hr.2, hm.3, hm.4, hr.5, hr.6, hr.7⟩
  case mStartTxn mode id arg =>
    change execMStartTxn mode id arg s = _ at h
    unfold execMStartTxn at h
    split at h
    · obtain rfl := Host.Outcome.next.inj h
      exact ⟨(Serves.refl hR).withMaster _, mIllegal_ok⟩
    · obtain rfl := Host.Outcome.next.inj h
      exact ⟨(launch_serves mode id arg hR).then hR fun h1 => mReport_serves _ _ h1,
        fun hm => mReport_ok _ _ (launch_ok mode id arg hm)⟩
  case mLogSend mode id len payload =>
    change execMLogSend mode id len payload s = _ at h
    unfold execMLogSend at h
    split at h
    · obtain rfl := Host.Outcome.next.inj h
      exact ⟨mReport_serves _ _ hR, mReport_ok _ _⟩
    · split at h
      · obtain rfl := Host.Outcome.next.inj h
        exact ⟨(Serves.refl hR).withMaster _, mIllegal_ok⟩
      · dsimp only at h
        have hl := launch_serves mode id logMessageByte hR
        split at h
        · obtain rfl := Host.Outcome.next.inj h
          exact ⟨hl.then hR fun h1 => (mSendFrame_serves len _ h1).then h1 fun h2 => mAwaitAck_serves h2,
            fun hm => mAwaitAck_ok (mSendFrame_ok len _ (launch_ok mode id logMessageByte hm))⟩
        · obtain rfl := Host.Outcome.next.inj h
          exact ⟨hl.then hR fun h1 => mReport_serves _ _ h1,
            fun hm => mReport_ok _ _ (launch_ok mode id logMessageByte hm)⟩

/-! ### Every instruction -/

/-- A request makes a slave act by its own rules. -/
theorem requestOp_acts (k : Nat) (op : SlaveOp) (s t : State) (hR : Acts s.cfg R) (h : requestOp k op s = .next t) :
    Serves R s t ∧ t.master = s.master := by
  obtain ⟨sl, x, hk, hx, hp⟩ := requestOp_passes k op s t h
  have h1 := hp R hR.toClosed
  refine ⟨⟨h1.cfg, h1.requests, forall₂_trans hR.trans (forall₂_set hR.refl s.slaves k sl x hk ?_) h1.slaves⟩, h1.master⟩
  rcases hx with rfl | ⟨ht, rfl⟩ | ⟨ht, hi, rfl⟩
  · exact hR.refl _
  · exact hR.queue op sl ht
  · exact hR.begun op sl ht hi

theorem WireExec.acts {k : Nat} {o : Host.Outcome State Fault Refusal} (hw : WireExec k s o) (hR : Acts s.cfg R)
    (h : o = .next t) : Serves R s t ∧ t.master = s.master := by
  rcases hw with ⟨-, e⟩ | ⟨sl, sl', hk, hw, e⟩
  · rw [e] at h; cases h
  · obtain rfl := Host.Outcome.next.inj (e.symm.trans h)
    exact ⟨⟨rfl, rfl, forall₂_set hR.refl _ k sl sl' hk (hR.wire _ _ _ rfl hw)⟩, rfl⟩

theorem exec_acts (i : Instr) (s t : State) (hR : Acts s.cfg R) (h : exec i s = .next t) :
    Serves R s t ∧ (s.master.Ok → t.master.Ok) := by
  cases hw : wirePort i with
  | some k =>
    obtain ⟨h1, h2⟩ := (exec_wire i k s hw).acts hR h
    exact ⟨h1, fun hm => h2 ▸ hm⟩
  | none =>
    cases hs : slavePort i with
    | some p =>
      obtain ⟨h1, h2⟩ := requestOp_acts p.1 p.2 s t hR ((exec_slave i p.1 p.2 s hs).symm.trans h)
      exact ⟨h1, fun hm => h2 ▸ hm⟩
    | none => exact exec_master i hw hs hR.toClosed h

theorem reject_acts (e : Reject) (s t : State) (hR : Acts s.cfg R) (h : reject e s = .next t) :
    Serves R s t ∧ (s.master.Ok → t.master.Ok) := by
  cases e <;> unfold reject at h
  case reservedMasterOp =>
    obtain rfl := Host.Outcome.next.inj h
    exact ⟨(Serves.refl hR.toClosed).withMaster _, mIllegal_ok⟩
  case reservedSlaveOp k =>
    obtain ⟨h1, h2⟩ := requestOp_acts k .illegal s t hR h
    exact ⟨h1, fun hm => h2 ▸ hm⟩
  case notRomCommand k b =>
    obtain ⟨h1, h2⟩ := (onSlave_wire k s (fun c => Slave.atRomCommand (Slave.gotRomCommand c b))
      fun c sl => .rom b).acts hR h
    exact ⟨h1, fun hm => h2 ▸ hm⟩
  case otherFunctionCommand k b =>
    obtain ⟨h1, h2⟩ := (onSlave_wire k s (fun c => Slave.atFunctionCommand (Slave.gotFunctionCommand c b))
      fun c sl => .function b).acts hR h
    exact ⟨h1, fun hm => h2 ▸ hm⟩
  all_goals cases h

/-- A request that is taken and run. -/
theorem runRequest_acts (r : Request) (later : List Request) (s t : State) (hR : Acts s.cfg R)
    (h : runRequest r later s = .next t) :
    t.cfg = s.cfg ∧ List.Forall₂ R s.slaves t.slaves ∧ (s.master.Ok → t.master.Ok) := by
  have h0 := pause_passes (s := { s with requests := later }) r.gap hR.toClosed
  have hR' : Acts (takeRequest r later s).cfg R := (show (takeRequest r later s).cfg = s.cfg from h0.cfg) ▸ hR
  have hm0 : (takeRequest r later s).master = s.master := h0.master
  have key (hk : Serves R (takeRequest r later s) t ∧ ((takeRequest r later s).master.Ok → t.master.Ok)) :
      t.cfg = s.cfg ∧ List.Forall₂ R s.slaves t.slaves ∧ (s.master.Ok → t.master.Ok) :=
    ⟨hk.1.cfg.trans h0.cfg, forall₂_trans hR.trans h0.slaves hk.1.slaves, fun hm => hk.2 (hm0 ▸ hm)⟩
  unfold runRequest at h
  split at h
  · exact key (exec_acts _ _ _ hR' h)
  · exact key (reject_acts _ _ _ hR' h)

theorem idleStep_acts (s : State) (hR : Closed s.cfg R) :
    (idleStep s).cfg = s.cfg ∧ List.Forall₂ R s.slaves (idleStep s).slaves ∧
      (s.master.Ok → (idleStep s).master.Ok) :=
  have h := idleStep_passes (s := s) hR
  ⟨h.cfg, h.slaves, fun hm => h.master ▸ hm⟩

/-- A step of a master that goes on polling. -/
theorem stepPolling_acts (s t : State) (hR : Acts s.cfg R) (h : stepPolling s = .next t) :
    t.cfg = s.cfg ∧ List.Forall₂ R s.slaves t.slaves ∧ (s.master.Ok → t.master.Ok) := by
  unfold stepPolling at h
  split at h
  · obtain rfl := Host.Outcome.next.inj h
    exact idleStep_acts s hR.toClosed
  · exact runRequest_acts _ _ s t hR h

/-- A step of a polling master, by where its poll ends. -/
theorem step_poll {limit : Option Nat} {e : PollEnd} (hp : s.master.pos = .polling limit) (hc : comesNow s = false)
    (he : pollLoop limit pollFuel s = e) :
    step s = if pollWaits e then stepPolling (endPoll limit e) else .next (endPoll limit e) := by
  subst he
  unfold step
  rw [hp]
  simp only [hc, Bool.false_eq_true, if_false]

/-- A step: the slaves act by their own rules, the shared parameters stay, and the master's invariant is kept. -/
theorem step_acts (s t : State) (hR : Acts s.cfg R) (h : step s = .next t) :
    t.cfg = s.cfg ∧ List.Forall₂ R s.slaves t.slaves ∧ (s.master.Ok → t.master.Ok) := by
  unfold step at h
  split at h
  · rename_i limit _
    have h1 := mPoll_serves (s := s) limit hR.toClosed
    have hm := mPoll_ok (s := s) limit
    split at h
    · exact stepPolling_acts s t hR h
    · dsimp only at h
      split at h
      · obtain ⟨h2, h3, h4⟩ := stepPolling_acts (mPoll limit s) t (h1.cfg ▸ hR) h
        exact ⟨h2.trans h1.cfg, forall₂_trans hR.trans h1.slaves h3, fun x => h4 (hm x)⟩
      · obtain rfl := Host.Outcome.next.inj h
        exact ⟨h1.cfg, h1.slaves, hm⟩
  · split at h
    · obtain rfl := Host.Outcome.next.inj h
      exact idleStep_acts s hR.toClosed
    · exact runRequest_acts _ _ s t hR h

end Sys2Proof.Machine
end

