-- ==== Sys2Proof/Laws/Acts.lean ====
section
/-! SUPPORT. Two relations that everything a slave can do keeps: what lasts for the slave's lifetime, and its
invariant. -/

namespace Sys2Proof.Machine

/-! ### A code at a slave's port -/

theorem Slave.atRomCommand_cases (f : List Frame → Slave → Slave) (sl : Slave) :
    Slave.atRomCommand f sl = sl ∨ (sl.trapped = false ∧ sl.pos = .waitPulse .readBit ∧
      ∃ rest, sl.stack = .readByte :: .romCommand :: rest ∧ Slave.atRomCommand f sl = f rest sl) := by
  unfold Slave.atRomCommand
  split
  · exact .inl rfl
  · rename_i ht
    split
    · rename_i rest hp hs
      exact .inr ⟨by simpa using ht, hp, rest, hs, rfl⟩
    · exact .inl rfl

theorem Slave.atFunctionCommand_cases (f : List Frame → Slave → Slave) (sl : Slave) :
    Slave.atFunctionCommand f sl = sl ∨ (sl.trapped = false ∧ sl.pos = .waitPulse .readBit ∧
      ∃ rest, sl.stack = .readByte :: .functionCommand :: rest ∧ Slave.atFunctionCommand f sl = f rest sl) := by
  unfold Slave.atFunctionCommand
  split
  · exact .inl rfl
  · rename_i ht
    split
    · rename_i rest hp hs
      exact .inr ⟨by simpa using ht, hp, rest, hs, rfl⟩
    · exact .inl rfl

theorem Slave.atHoldEnd_cases (f : List Frame → Slave → Slave) (sl : Slave) :
    Slave.atHoldEnd f sl = sl ∨ (sl.trapped = false ∧ sl.pos = .waitPulse .busyEnd ∧
      ∃ rest, sl.stack = .logHold :: rest ∧ Slave.atHoldEnd f sl = f rest sl) := by
  unfold Slave.atHoldEnd
  split
  · exact .inl rfl
  · rename_i ht
    split
    · rename_i rest hp hs
      exact .inr ⟨by simpa using ht, hp, rest, hs, rfl⟩
    · exact .inl rfl

theorem Slave.atPulse_cases (f : Slave → Slave) (sl : Slave) :
    Slave.atPulse f sl = sl ∨ (sl.trapped = false ∧ (∃ u, sl.pos = .waitPulse u) ∧
      Slave.atPulse f sl = f { sl with pulseNew := false }) := by
  unfold Slave.atPulse
  split
  · exact .inl rfl
  · rename_i ht
    split
    · rename_i u hp
      exact .inr ⟨by simpa using ht, ⟨u, hp⟩, rfl⟩
    all_goals exact .inl rfl

/-- A code acted on is one of a procedure's moves, or nothing. -/
theorem Slave.WireStep.keeps {c : Ctx} {sl sl' : Slave} (h : Slave.WireStep c sl sl') :
    sl' = sl ∨ (sl.trapped = false ∧ Slave.Keeps sl sl') := by
  cases h with
  | rom v =>
    rcases Slave.atRomCommand_cases (Slave.gotRomCommand c v) sl with e | ⟨ht, -, rest, -, e⟩
    · exact .inl e
    · exact .inr ⟨ht, e ▸ (Slave.gotRomCommand_moves c v rest sl).toKeeps⟩
  | function v =>
    rcases Slave.atFunctionCommand_cases (Slave.gotFunctionCommand c v) sl with e | ⟨ht, -, rest, -, e⟩
    · exact .inl e
    · exact .inr ⟨ht, e ▸ (Slave.gotFunctionCommand_moves c v rest sl).toKeeps⟩
  | ack =>
    rcases Slave.atHoldEnd_cases (Slave.writeAck c) sl with e | ⟨ht, -, rest, -, e⟩
    · exact .inl e
    · exact .inr ⟨ht, e ▸ (Slave.startWriteByte_moves c ackByteValue (.logAck :: rest) sl).toKeeps⟩
  | one =>
    rcases Slave.atPulse_cases (Slave.pulseOne c) sl with e | ⟨ht, -, e⟩
    · exact .inl e
    · exact .inr ⟨ht, e ▸ (Slave.pulseOne_moves c _).toKeeps.from_update rfl rfl rfl rfl rfl rfl rfl⟩
  | zero =>
    rcases Slave.atPulse_cases (Slave.pulseZero c) sl with e | ⟨ht, -, e⟩
    · exact .inl e
    · exact .inr ⟨ht, e ▸ (Slave.pulseZero_moves c _).toKeeps.from_update rfl rfl rfl rfl rfl rfl rfl⟩
  | bad =>
    rcases Slave.atPulse_cases (Slave.pulseBad c) sl with e | ⟨ht, -, e⟩
    · exact .inl e
    · exact .inr ⟨ht, e ▸ (Slave.pulseBad_moves c _).toKeeps.from_update rfl rfl rfl rfl rfl rfl rfl⟩
  | reset =>
    rcases Slave.atPulse_cases (Slave.pulseReset c) sl with e | ⟨ht, -, e⟩
    · exact .inl e
    · exact .inr ⟨ht, e ▸ (Slave.pulseReset_moves c _).toKeeps.from_update rfl rfl rfl rfl rfl rfl rfl⟩
  | fall =>
    cases ht : sl.trapped
    · exact .inr ⟨rfl, (Slave.edgeFall_moves c sl).toKeeps⟩
    · exact .inl (by simp [Slave.edgeFall, Slave.takesEdges, ht])
  | rise =>
    cases ht : sl.trapped
    · exact .inr ⟨rfl, (Slave.edgeRise_moves c sl).toKeeps⟩
    · exact .inl (by simp [Slave.edgeRise, Slave.takesEdges, ht])

/-! ### What lasts -/

theorem Slave.Lasts.trans {a b c : Slave} (h : Slave.Lasts a b) (h' : Slave.Lasts b c) : Slave.Lasts a c where
  cfg := h'.cfg.trans h.cfg
  romId := by
    rcases h'.romId with e | e
    · rcases h.romId with e' | e'
      · exact .inl (e.trans e')
      · exact .inr (e.trans e')
    · exact .inr (by rw [e, h.cfg])
  enabled := fun x => h'.enabled (h.enabled x)
  trapped := fun x => by
    have e := h.trapped x
    subst e
    exact h'.trapped x

theorem Slave.Evolves.lasts {a b : Slave} (h : Slave.Evolves a b) : Slave.Lasts a b :=
  ⟨h.cfg, h.romId, h.enabled, h.trapped⟩

theorem lasts_acts (cfg : Config) : Acts cfg Slave.Lasts where
  refl := fun sl => (Slave.Evolves.refl sl).lasts
  trans := fun _ _ _ => Slave.Lasts.trans
  settle := fun c sl _ => (Slave.settle_evolves c sl).lasts
  fire := fun c sl _ => (Slave.fire_evolves c sl).lasts
  begun := fun op sl ht _ =>
    have h := Slave.begun_keeps op sl
    ⟨h.1, .inl h.2.2.1, fun x => h.2.2.2.1.trans x, fun x => by simp [ht] at x⟩
  queue := fun op sl ht => ⟨rfl, .inl rfl, id, fun x => by simp [ht] at x⟩
  wire := fun c sl sl' _ h => by
    rcases h.keeps with rfl | ⟨ht, h⟩
    · exact (Slave.Evolves.refl sl').lasts
    · exact (h.evolves ht).lasts

/-! ### The invariant -/

theorem Slave.Ok.waiting {cfg : Config} {sl : Slave} {u : PulseUse} (h : sl.Ok cfg) (hp : sl.pos = .waitPulse u) :
    Slave.Calm cfg sl :=
  h.calm (by simp [hp]) (by simp [hp])

theorem Slave.Calm.withPulseNew {cfg : Config} {sl : Slave} (h : Slave.Calm cfg sl) (x : Bool) :
    Slave.Calm cfg { sl with pulseNew := x } :=
  ⟨h.body.withPulseNew x, h.path⟩

theorem Slave.edge_ok {cfg : Config} {sl : Slave} (c : Ctx) (h : sl.Ok cfg) :
    Slave.Ok cfg (Slave.edgeFall c sl) ∧ Slave.Ok cfg (Slave.edgeRise c sl) := by
  have hf : sl.takesEdges = false → Slave.edgeFall c sl = sl ∧ Slave.edgeRise c sl = sl := by
    intro h0
    simp [Slave.edgeFall, Slave.edgeRise, h0]
  cases ht : sl.takesEdges
  · rw [(hf ht).1, (hf ht).2]
    exact ⟨h, h⟩
  · constructor
    · have h1 := Slave.observe_ok { c with level := !sl.linePrev } h
      cases hl : sl.linePrev
      · unfold Slave.edgeFall
        rw [if_pos ht]
        exact ⟨h.1, h.2, h.3, h.4, h.5, h.6, h.7, h.8, h.9, h.10, h.11⟩
      · rw [hl] at h1
        simpa [Slave.observe, hl, Slave.edgeFall, Slave.isrFall] using h1
    · have h0 : Slave.Ok cfg { sl with linePrev := false } :=
        ⟨h.1, h.2, h.3, h.4, h.5, h.6, h.7, h.8, h.9, h.10, h.11⟩
      have h1 := Slave.observe_ok { c with level := true } h0
      have e : Slave.observe { c with level := true } { sl with linePrev := false } = Slave.edgeRise c sl := by
        have ht' : Slave.takesEdges { sl with linePrev := false } = true := ht
        simp only [Slave.observe, Bool.false_eq_true, if_false, if_true, Slave.edgeRise, ht, ht']
        unfold Slave.isrRise Slave.latchPulse Slave.trap
        dsimp only [swTicks, swOvf, swCount]
        split
        · rfl
        · split <;> rfl
      rw [← e]
      exact h1

theorem ok_acts (cfg : Config) : Acts cfg (fun a b => a.Ok cfg → b.Ok cfg) where
  refl := fun _ h => h
  trans := fun _ _ _ h h' x => h' (h x)
  settle := fun c _ hc h => Slave.settle_ok c hc h
  fire := fun c _ _ h => Slave.fire_ok c h
  begun := fun op sl ht hp h => Slave.begun_ok op ht (h.calm (by simp [hp]) (by simp [hp]))
  queue := fun _ _ _ h => ⟨h.1, h.2, h.3, h.4, h.5, h.6, h.7, h.8, h.9, h.10, h.11⟩
  wire := fun c sl sl' hc hw h => by
    cases hw with
    | rom v =>
      rcases Slave.atRomCommand_cases (Slave.gotRomCommand c v) sl with e | ⟨ht, hp, rest, hs, e⟩
      · rw [e]; exact h
      · rw [e]
        have hcalm := h.waiting hp
        have hpath := hcalm.path
        rw [hs] at hpath
        exact (Slave.gotRomCommand_calm c rest v hcalm.body (stackOk_tail (stackOk_tail hpath))
          (stackOk_noByte (stackOk_tail hpath) rfl)).ok
    | function v =>
      rcases Slave.atFunctionCommand_cases (Slave.gotFunctionCommand c v) sl with e | ⟨ht, hp, rest, hs, e⟩
      · rw [e]; exact h
      · rw [e]
        have hcalm := h.waiting hp
        have hpath := hcalm.path
        rw [hs] at hpath
        exact (Slave.gotFunctionCommand_calm c rest v hcalm.body (stackOk_tail (stackOk_tail hpath))).ok
    | ack =>
      rcases Slave.atHoldEnd_cases (Slave.writeAck c) sl with e | ⟨ht, hp, rest, hs, e⟩
      · rw [e]; exact h
      · rw [e]
        have hcalm := h.waiting hp
        have hpath := hcalm.path
        rw [hs] at hpath
        obtain rfl := stackOk_log hpath rfl
        have hl : frameOk cfg.maxMessageLength sl.logLen sl.bitcnt .logAck = true := by
          simpa [pathOk, stackOk, frameOk, isLogFrame, isResetFrame] using hpath
        exact (Slave.startWriteByte_calm c ackByteValue [.logAck] hcalm.body (pathOk_log .logAck hl) rfl).ok
    | one =>
      rcases Slave.atPulse_cases (Slave.pulseOne c) sl with e | ⟨ht, ⟨u, hp⟩, e⟩
      · rw [e]; exact h
      · rw [e]; exact (Slave.pulseOne_calm c hc ((h.waiting hp).withPulseNew false)).ok
    | zero =>
      rcases Slave.atPulse_cases (Slave.pulseZero c) sl with e | ⟨ht, ⟨u, hp⟩, e⟩
      · rw [e]; exact h
      · rw [e]; exact (Slave.pulseZero_calm c hc ((h.waiting hp).withPulseNew false)).ok
    | bad =>
      rcases Slave.atPulse_cases (Slave.pulseBad c) sl with e | ⟨ht, ⟨u, hp⟩, e⟩
      · rw [e]; exact h
      · rw [e]; exact (Slave.pulseBad_calm c hc ((h.waiting hp).withPulseNew false)).ok
    | reset =>
      rcases Slave.atPulse_cases (Slave.pulseReset c) sl with e | ⟨ht, ⟨u, hp⟩, e⟩
      · rw [e]; exact h
      · rw [e]; exact (Slave.pulseReset_calm c hc ((h.waiting hp).withPulseNew false)).ok
    | fall => exact (Slave.edge_ok c h).1
    | rise => exact (Slave.edge_ok c h).2

end Sys2Proof.Machine
end

