-- ==== Sys2Proof/Laws/Decode.lean ====
section
/-! SUPPORT. The encoder and the decoders (spec/30_encoding.md), a ROM-ID's bytes (spec/20_memory.md R82) and its CRC8
(spec/45_crc_log_frame.md R261, R262). -/

namespace Sys2Proof

theorem romByte_zero (b : Byte) (bs : List Byte) : romByte (romOfBytes (b :: bs)) 0 = b := by
  apply BitVec.eq_of_getLsbD_eq
  intro j hj
  simp only [romByte, romOfBytes, BitVec.getLsbD_extractLsb', BitVec.getLsbD_or, BitVec.getLsbD_setWidth,
    BitVec.getLsbD_shiftLeft]
  simp only [hj, decide_true, Bool.true_and, Nat.mul_zero, Nat.zero_add]
  have h : j < 64 := by omega
  simp [h, hj]

theorem romByte_succ (b : Byte) (bs : List Byte) (i : Nat) (hi : i < 7) :
    romByte (romOfBytes (b :: bs)) (i + 1) = romByte (romOfBytes bs) i := by
  apply BitVec.eq_of_getLsbD_eq
  intro j hj
  simp only [romByte, romOfBytes, BitVec.getLsbD_extractLsb', BitVec.getLsbD_or, BitVec.getLsbD_setWidth,
    BitVec.getLsbD_shiftLeft]
  simp only [hj, decide_true, Bool.true_and]
  have h1 : 8 * (i + 1) + j < 64 := by omega
  have h2 : ¬ 8 * (i + 1) + j < 8 := by omega
  have h3 : 8 * (i + 1) + j - 8 = 8 * i + j := by omega
  have h4 : b.getLsbD (8 * (i + 1) + j) = false := BitVec.getLsbD_of_ge _ _ (by omega)
  simp only [h1, h2, h3, h4, decide_true, decide_false, Bool.true_and, Bool.not_false, Bool.and_false, Bool.false_or]

theorem romBytes_romOfBytes (b0 b1 b2 b3 b4 b5 b6 b7 : Byte) :
    romBytes (romOfBytes [b0, b1, b2, b3, b4, b5, b6, b7]) = [b0, b1, b2, b3, b4, b5, b6, b7] := by
  have h (i : Nat) (x : Byte) (l : List Byte) (hi : i < 7) := romByte_succ x l i hi
  unfold romBytes
  rw [h 0 _ _ (by omega), h 1 _ _ (by omega), h 2 _ _ (by omega), h 3 _ _ (by omega), h 4 _ _ (by omega),
    h 5 _ _ (by omega), h 6 _ _ (by omega), h 0 _ _ (by omega), h 1 _ _ (by omega), h 2 _ _ (by omega),
    h 3 _ _ (by omega), h 4 _ _ (by omega), h 5 _ _ (by omega), h 0 _ _ (by omega), h 1 _ _ (by omega),
    h 2 _ _ (by omega), h 3 _ _ (by omega), h 4 _ _ (by omega), h 0 _ _ (by omega), h 1 _ _ (by omega),
    h 2 _ _ (by omega), h 3 _ _ (by omega), h 0 _ _ (by omega), h 1 _ _ (by omega), h 2 _ _ (by omega),
    h 0 _ _ (by omega), h 1 _ _ (by omega), h 0 _ _ (by omega)]
  simp only [romByte_zero]

theorem romBytes_inj {a b : RomId} (h : romBytes a = romBytes b) : a = b := by
  simp only [romBytes, List.cons.injEq, and_true] at h
  apply BitVec.eq_of_getLsbD_eq
  intro j hj
  have key : ∀ i, romByte a i = romByte b i → ∀ m, m < 8 → a.getLsbD (8 * i + m) = b.getLsbD (8 * i + m) := by
    intro i e m hm
    have := congrArg (·.getLsbD m) e
    simpa [romByte, BitVec.getLsbD_extractLsb', hm] using this
  obtain ⟨h0, h1, h2, h3, h4, h5, h6, h7⟩ := h
  have hj8 : j = 8 * (j / 8) + j % 8 := by omega
  have hm : j % 8 < 8 := by omega
  have hd : j / 8 < 8 := by omega
  rw [hj8]
  generalize j / 8 = i at hd
  generalize j % 8 = m at hm
  match i, hd with
  | 0, _ => exact key 0 h0 m hm
  | 1, _ => exact key 1 h1 m hm
  | 2, _ => exact key 2 h2 m hm
  | 3, _ => exact key 3 h3 m hm
  | 4, _ => exact key 4 h4 m hm
  | 5, _ => exact key 5 h5 m hm
  | 6, _ => exact key 6 h6 m hm
  | 7, _ => exact key 7 h7 m hm

/-- A ROM-ID is its eight bytes. -/
theorem romOfBytes_romBytes (id : RomId) : romOfBytes (romBytes id) = id :=
  romBytes_inj (romBytes_romOfBytes _ _ _ _ _ _ _ _)

theorem takeId_romBytes (id : RomId) (bs : List Byte) : takeId (romBytes id ++ bs) = some (id, bs) := by
  have : takeId (romBytes id ++ bs) = some (romOfBytes (romBytes id), bs) := rfl
  rw [this, romOfBytes_romBytes]

theorem takeBytes_append (ps bs : List Byte) : takeBytes ps.length (ps ++ bs) = some (ps, bs) := by
  induction ps with
  | nil => rfl
  | cons p ps ih => simp only [List.length_cons, List.cons_append, takeBytes, ih]

theorem takeModeId_encoded (mode : BitVec 2) (id : RomId) (bs : List Byte) :
    takeModeId (mode.setWidth 8 :: (romBytes id ++ bs)) = .ok (mode, id, bs) := by
  have hm : ∀ m : BitVec 2, (m.setWidth 8).toNat < 4 ∧ (m.setWidth 8).setWidth 2 = m := by decide
  unfold takeModeId takeByte
  simp only [takeId_romBytes, (hm mode).1, (hm mode).2, if_true]

/-! ### The CRC8 of a ROM-ID -/

namespace Machine

/-- The CRC of a byte over itself is zero: what makes the eighth byte's fold end at zero (R261, R262). -/
theorem crc8Update_self : ∀ c : Byte, crc8Update c c = 0 := by decide +kernel

theorem crc8Fold_append (crc : Byte) (as bs : List Byte) : crc8Fold crc (as ++ bs) = crc8Fold (crc8Fold crc as) bs := by
  simp [crc8Fold]

/-- Any bytes with their CRC8 after them fold to zero. -/
theorem crc8Fold_with_crc (bs : List Byte) : crc8Fold 0 (bs ++ [crc8Fold 0 bs]) = 0 := by
  rw [crc8Fold_append]
  exact crc8Update_self _

theorem romBytes_makeRomId (f p0 p1 p2 p3 p4 p5 : Byte) :
    romBytes (makeRomId f [p0, p1, p2, p3, p4, p5]) =
      [f, p0, p1, p2, p3, p4, p5, crc8Fold 0 [f, p0, p1, p2, p3, p4, p5]] :=
  romBytes_romOfBytes _ _ _ _ _ _ _ _

/-- The six part bytes of R332. -/
theorem configPart_eq (p : SlaveConfig) :
    configPart p = [0, 1, 2, 3, 4, 5].map fun j =>
      if p.usePersistedId then memRead p.store (p.partIdStorageOffset + j) else partByte p.defaultPartId j := by
  unfold configPart
  cases p.usePersistedId <;> rfl

end Machine

end Sys2Proof
end

