-- ==== Sys2Proof/Laws/MasterBlind.lean ====
section
/-! SUPPORT. The line and the slaves read nothing of the master but its driver (R25, R71): the passing of time is the same
whatever its other registers hold. So a byte operation is eight slots (R144, R145). -/

namespace Sys2Proof.Machine

/-- `s` with these registers of the master. -/
abbrev State.withMaster (s : State) (m : Master) : State := { s with master := m }

variable {s : State} {m : Master}

theorem settleOnce_blind (h : m.drive = s.master.drive) : settleOnce (s.withMaster m) = (settleOnce s).withMaster m := by
  simp only [settleOnce, State.ctx, line, h]

theorem settleLoop_blind (n : Nat) (h : m.drive = s.master.drive) :
    settleLoop n (s.withMaster m) = (settleLoop n s).withMaster m := by
  induction n generalizing s with
  | zero => exact settleOnce_blind h
  | succ n ih =>
    have h1 : line ((settleOnce s).withMaster m) = line (settleOnce s) := by
      simp only [line, h, settleOnce_master]
    have h2 : line (s.withMaster m) = line s := by simp only [line, h]
    unfold settleLoop
    rw [settleOnce_blind h, h1, h2]
    split
    · rfl
    · exact ih h

theorem settle_blind (h : m.drive = s.master.drive) : settle (s.withMaster m) = (settle s).withMaster m :=
  settleLoop_blind _ h

theorem goTo_blind (t : Nat) (h : m.drive = s.master.drive) : goTo t (s.withMaster m) = (goTo t s).withMaster m := by
  unfold goTo fireAll moveOthers
  simp only [State.ctx, line, h]
  split
  · rfl
  · split <;> rfl

theorem runBefore_blind (n t : Nat) (h : m.drive = s.master.drive) :
    runBefore n t (s.withMaster m) = (runBefore n t s).withMaster m := by
  induction n generalizing s with
  | zero => rfl
  | succ n ih =>
    unfold runBefore
    rw [show nextEvent (s.withMaster m) = nextEvent s from rfl]
    cases nextEvent s with
    | none => rfl
    | some e =>
      dsimp only
      split
      · have hg : m.drive = (goTo e s).master.drive := by
          rw [(goTo_passes e (evolves_closed s.cfg)).master]; exact h
        rw [goTo_blind e h, settle_blind hg]
        exact ih (by rw [settle_master]; exact hg)
      · rfl

theorem wait_blind (d : Nat) (h : m.drive = s.master.drive) : wait d (s.withMaster m) = (wait d s).withMaster m := by
  unfold wait
  have h1 : m.drive = (settle s).master.drive := by rw [settle_master]; exact h
  dsimp only
  rw [settle_blind h, runBefore_blind _ _ h1]
  refine goTo_blind _ ?_
  rw [(runBefore_passes d _ (evolves_closed (settle s).cfg)).master]
  exact h1

theorem mWait_blind (d : Nat) (h : m.drive = s.master.drive) : mWait d (s.withMaster m) = (mWait d s).withMaster m :=
  wait_blind _ h

/-- A pulse of the master reads none of its registers and leaves its driver released. -/
theorem mPulse_blind (low high : Nat) : mPulse low high (s.withMaster m) =
    (mPulse low high s).withMaster { m with drive := false } := by
  have h1 : mWait low (mDriveLow (s.withMaster m)) = (mWait low (mDriveLow s)).withMaster { m with drive := true } :=
    mWait_blind (s := mDriveLow s) (m := { m with drive := true }) low rfl
  unfold mPulse
  rw [h1]
  exact mWait_blind (s := mRelease (mWait low (mDriveLow s))) (m := { m with drive := false }) high rfl

theorem mWriteSlot_blind (b : Bool) : mWriteSlot b (s.withMaster m) =
    (mWriteSlot b s).withMaster { m with drive := false } := by
  unfold mWriteSlot
  split <;> exact mPulse_blind _ _

theorem mReadSlot_blind : mReadSlot (s.withMaster m) =
    ((mReadSlot s).1, (mReadSlot s).2.withMaster { m with drive := false }) := by
  unfold mReadSlot
  dsimp only
  rw [mPulse_blind]
  have h : ({ m with drive := false } : Master).drive = (mPulse (tRl s.cfg) (tRs s.cfg) s).master.drive := by rw [mPulse_master]
  rw [mWait_blind _ h]
  simp only [line, mPulse_master]

theorem writeSlots_blind (bs : List Bool) : ∃ d, writeSlots bs (s.withMaster m) =
    (writeSlots bs s).withMaster { m with drive := d } ∧ (bs ≠ [] → d = false) := by
  induction bs generalizing s m with
  | nil => exact ⟨m.drive, rfl, fun h => absurd rfl h⟩
  | cons b bs ih =>
    obtain ⟨d, h, hd⟩ := ih (s := mWriteSlot b s) (m := { m with drive := false })
    simp only [writeSlots, mWriteSlot_blind]
    cases bs with
    | nil => exact ⟨false, rfl, fun _ => rfl⟩
    | cons c cs => exact ⟨d, h, fun _ => hd (by simp)⟩

/-- The bits the shifter sends, least significant first (R144). -/
theorem mShiftOut_slots (n : Nat) (s : State) : ∃ d, mShiftOut n s =
    (writeSlots ((List.range n).map fun i => s.master.shift.getLsbD i) s).withMaster
      { s.master with drive := d, shift := s.master.shift >>> n, bitcnt := s.master.bitcnt + BitVec.ofNat 4 n } ∧
    (0 < n → d = false) := by
  induction n generalizing s with
  | zero => exact ⟨s.master.drive, by simp [mShiftOut, writeSlots], by simp⟩
  | succ n ih =>
    let s1 := (mWriteSlot (s.master.shift.getLsbD 0) s).withMaster
      { s.master with drive := false, shift := s.master.shift >>> 1, bitcnt := s.master.bitcnt + 1 }
    have e : mShiftOut (n + 1) s = mShiftOut n s1 := by
      rw [mShiftOut]
      dsimp only [s1]
      rw [mWriteSlot_master]
    obtain ⟨d, h, -⟩ := ih s1
    have hl : ((List.range (n + 1)).map fun i => s.master.shift.getLsbD i) =
        s.master.shift.getLsbD 0 :: (List.range n).map fun i => s1.master.shift.getLsbD i := by
      rw [List.range_succ_eq_map]
      simp [s1, BitVec.getLsbD_ushiftRight, Nat.add_comm, Function.comp_def]
    obtain ⟨d', h', hd'⟩ := writeSlots_blind (s := mWriteSlot (s.master.shift.getLsbD 0) s)
      (m := { s.master with drive := false, shift := s.master.shift >>> 1, bitcnt := s.master.bitcnt + 1 })
      ((List.range n).map fun i => s1.master.shift.getLsbD i)
    obtain ⟨d2, h2, hd2⟩ := mShiftOut_master (n + 1) s
    refine ⟨d2, ?_, hd2⟩
    have hm : (mShiftOut (n + 1) s).master = _ := h2
    rw [e, h] at hm ⊢
    rw [hl, writeSlots]
    rw [show writeSlots _ s1 = _ from h']
    show _ = State.withMaster _ _
    rw [← hm]

/-- `M_WRITE_BYTE`'s line activity is eight write slots (R144). -/
theorem mSendByte_slots (v : Byte) (s : State) : mSendByte v s =
    (writeSlots (byteBits v) s).withMaster { s.master with drive := false, shift := 0, bitcnt := 8 } := by
  obtain ⟨d, h, -⟩ := mShiftOut_slots 8 (s.withMaster { s.master with shift := v, bitcnt := 0 })
  obtain ⟨d', h', -⟩ := writeSlots_blind (s := s) (m := { s.master with shift := v, bitcnt := 0 }) (byteBits v)
  have e : mSendByte v s = _ := h
  have hm := mSendByte_master v s
  rw [e] at hm ⊢
  rw [show writeSlots ((List.range 8).map fun i =>
    (s.withMaster { s.master with shift := v, bitcnt := 0 }).master.shift.getLsbD i)
    (s.withMaster { s.master with shift := v, bitcnt := 0 }) = _ from h']
  show State.withMaster _ _ = _
  rw [← hm]

theorem readSlots_blind (n : Nat) : ∃ d, readSlots n (s.withMaster m) =
    ((readSlots n s).1, (readSlots n s).2.withMaster { m with drive := d }) := by
  induction n generalizing s m with
  | zero => exact ⟨m.drive, rfl⟩
  | succ n ih =>
    obtain ⟨d, h⟩ := ih (s := (mReadSlot s).2) (m := { m with drive := false })
    refine ⟨d, ?_⟩
    simp only [readSlots, mReadSlot_blind, h]

/-- The bits the shifter receives, the first into the lowest place (R145). -/
theorem mShiftIn_slots (n : Nat) (s : State) : ∃ m, mShiftIn n s = (readSlots n s).2.withMaster m ∧
    m.shift = (readSlots n s).1.foldl shiftIn s.master.shift := by
  induction n generalizing s with
  | zero => exact ⟨s.master, rfl, rfl⟩
  | succ n ih =>
    obtain ⟨m, h, hs⟩ := ih ((mReadSlot s).2.withMaster { (mReadSlot s).2.master with
      shift := shiftIn (mReadSlot s).2.master.shift (mReadSlot s).1, bitcnt := (mReadSlot s).2.master.bitcnt + 1 })
    obtain ⟨d, h'⟩ := readSlots_blind (s := (mReadSlot s).2) (m := { (mReadSlot s).2.master with
      shift := shiftIn (mReadSlot s).2.master.shift (mReadSlot s).1, bitcnt := (mReadSlot s).2.master.bitcnt + 1 }) n
    rw [h'] at h hs
    refine ⟨m, h, hs.trans ?_⟩
    simp only [readSlots, List.foldl_cons, mReadSlot_master]

theorem readSlots_length (n : Nat) (s : State) : (readSlots n s).1.length = n := by
  induction n generalizing s with
  | zero => rfl
  | succ n ih => simp [readSlots, ih]

theorem byteBits_foldl_shiftIn (bs : List Bool) (h : bs.length = 8) : byteBits (bs.foldl shiftIn 0) = bs := by
  match bs, h with
  | [b0, b1, b2, b3, b4, b5, b6, b7], _ =>
    revert b0 b1 b2 b3 b4 b5 b6 b7
    decide

/-- `M_READ_BYTE`'s line activity is eight read slots, and its value is the bits they sample (R145). -/
theorem mReceiveByte_slots (s : State) : byteBits (mReceiveByte s).1 = (readSlots 8 s).1 ∧
    (mReceiveByte s).2 = (readSlots 8 s).2.withMaster
      { s.master with drive := false, shift := (mReceiveByte s).1, bitcnt := 8 } := by
  obtain ⟨m, h, hs⟩ := mShiftIn_slots 8 (s.withMaster { s.master with shift := 0, bitcnt := 0 })
  obtain ⟨d, h'⟩ := readSlots_blind (s := s) (m := { s.master with shift := 0, bitcnt := 0 }) 8
  have hl := readSlots_length 8 s
  have hm := mReceiveByte_master s
  unfold mReceiveByte at hm ⊢
  rw [h'] at h hs
  simp only [h, hs] at hm ⊢
  generalize readSlots 8 s = r at hl hm ⊢
  exact ⟨byteBits_foldl_shiftIn _ hl, by rw [← hm]⟩

theorem readSlots_add (n j : Nat) (s : State) : (readSlots (n + j) s).1 =
    (readSlots n s).1 ++ (readSlots j (readSlots n s).2).1 := by
  induction n generalizing s with
  | zero => simp [readSlots]
  | succ n ih => rw [Nat.succ_add, readSlots, readSlots, ih]; rfl

theorem readSlots_bits (s : State) (m : Master) (n : Nat) : (readSlots n (s.withMaster m)).1 = (readSlots n s).1 := by
  obtain ⟨d, e⟩ := readSlots_blind (s := s) (m := m) n
  rw [e]

/-- The bytes that `M_READ_ROM` stores are the bits it samples (R160). -/
theorem mReadRomBytes_slots (n i : Nat) (s : State) : ∃ bs : List Byte, bs.length = n ∧
    (mReadRomBytes n i s).master.romBuf = placeBytes bs i s.master.romBuf ∧
    bs.flatMap byteBits = (readSlots (8 * n) s).1 := by
  induction n generalizing s i with
  | zero => exact ⟨[], rfl, rfl, rfl⟩
  | succ n ih =>
    obtain ⟨hb, hs⟩ := mReceiveByte_slots s
    rw [mReadRomBytes]
    obtain ⟨bs, hl, hr, hbits⟩ := ih (i + 1) { (mReceiveByte s).2 with
      master := { (mReceiveByte s).2.master with
        romBuf := setRomByte (mReceiveByte s).2.master.romBuf i (mReceiveByte s).1
        crc8 := crc8Update (mReceiveByte s).2.master.crc8 (mReceiveByte s).1 } }
    refine ⟨(mReceiveByte s).1 :: bs, by simp [hl], ?_, ?_⟩
    · rw [hr]
      simp only [mReceiveByte_master, placeBytes]
    · rw [List.flatMap_cons, hbits, hb, show 8 * (n + 1) = 8 + 8 * n by omega, readSlots_add, hs]
      generalize readSlots 8 s = r
      exact congrArg (r.1 ++ ·) (readSlots_bits r.2 _ _)

set_option maxRecDepth 4000 in
/-- A ROM-ID's bits in wire order (R80, R81). -/
theorem romBytes_flatMap (id : RomId) :
    (romBytes id).flatMap byteBits = (List.range 64).map fun i => romBit id (i + 1) := by
  simp only [byteBits, List.range, List.range.loop, List.map, romBytes, List.flatMap_cons, List.flatMap_nil,
    List.cons_append, List.nil_append, romBit, romByte, BitVec.getLsbD_extractLsb']
  rfl

end Sys2Proof.Machine
end

