-- ==== Sys2Proof/Laws/Rest.lean ====
section
/-! SUPPORT. A slave at rest through the passing of time: only the registers an edge writes change (R192, R193, R204), or a
strict-mode slave traps on an overrun (R297). -/

namespace Sys2Proof.Machine

theorem Slave.OnlyEdges.refl (sl : Slave) : Slave.OnlyEdges sl sl :=
  ⟨sl.pulseNew, sl.pulseLen, sl.pulseOvf, sl.tReset, sl.swStarted, sl.linePrev, sl.draws, .inl rfl⟩

theorem Slave.OnlyEdges.trans {a b c : Slave} (h : Slave.OnlyEdges a b) (h' : Slave.OnlyEdges b c) :
    Slave.OnlyEdges a c := by
  obtain ⟨_, _, _, _, _, _, _, h⟩ := h
  obtain ⟨pn, pl, po, tr, sw, lp, dr, h'⟩ := h'
  refine ⟨pn, pl, po, tr, sw, lp, dr, ?_⟩
  rcases h with rfl | ⟨hs, rfl⟩
  · rcases h' with rfl | ⟨hs', rfl⟩
    · exact .inl rfl
    · exact .inr ⟨hs', rfl⟩
  · rcases h' with rfl | ⟨-, rfl⟩ <;> exact .inr ⟨hs, rfl⟩

theorem Slave.settle_onlyEdges (c : Ctx) (sl : Slave) (h : sl.AtRest) : Slave.OnlyEdges sl (Slave.settle c sl) := by
  obtain ⟨hp, hw, hd⟩ := h
  have ho : Slave.OnlyEdges sl (Slave.observe c sl) ∧ (Slave.observe c sl).pos = .idle := by
    unfold Slave.observe
    split
    · exact ⟨.refl sl, hp⟩
    · split
      · unfold Slave.edgeRise Slave.isrRise Slave.latchPulse
        split
        · split
          · rename_i hs
            simp only [Bool.and_eq_true] at hs
            refine ⟨⟨sl.pulseNew, sl.pulseLen, sl.pulseOvf, sl.tReset, sl.swStarted, true, sl.draws, .inr ⟨hs.2, ?_⟩⟩, rfl⟩
            simp only [Slave.trap, hp, hw]
          · split
            · exact ⟨⟨_, _, _, _, _, _, _, .inl rfl⟩, hp⟩
            · exact ⟨⟨_, _, _, _, _, _, _, .inl rfl⟩, hp⟩
        · exact ⟨.refl sl, hp⟩
      · unfold Slave.edgeFall Slave.isrFall
        split
        · exact ⟨⟨_, _, _, _, _, _, _, .inl rfl⟩, hp⟩
        · exact ⟨.refl sl, hp⟩
  unfold Slave.settle
  rw [Slave.resume_atRest c _ ho.2]
  exact ho.1

/-- A slave at rest stays at rest, and only its edge registers change. -/
theorem rest_closed (cfg : Config) : Closed cfg (fun a b => a.AtRest → b.AtRest ∧ Slave.OnlyEdges a b) where
  refl := fun sl h => ⟨h, .refl sl⟩
  trans := fun _ _ _ h h' x => ⟨(h' (h x).1).1, (h x).2.trans (h' (h x).1).2⟩
  settle := fun c sl _ h => ⟨Slave.settle_atRest c sl h, Slave.settle_onlyEdges c sl h⟩
  fire := fun c sl _ h => by
    rw [Slave.fire_atRest c sl h]
    exact ⟨h, .refl sl⟩

/-- What the slaves do serves the resting ones: they only hear. -/
theorem Serves.hear {k : Nat} {s t : State} (h : Serves (fun a b => a.AtRest → b.AtRest ∧ Slave.OnlyEdges a b) s t)
    (hr : OthersAtRest k s) : OthersHear k s t := fun j sl hj hs => by
  obtain ⟨x, hx, hh⟩ := forall₂_getElem? h.slaves j sl hs
  exact ⟨x, hx, (hh (hr j sl hj hs)).2⟩

theorem OthersHear.trans {k : Nat} {s t u : State} (h : OthersHear k s t) (h' : OthersHear k t u) : OthersHear k s u :=
  fun j sl hj hs => by
    obtain ⟨x, hx, hh⟩ := h j sl hj hs
    obtain ⟨y, hy, hh'⟩ := h' j x hj hx
    exact ⟨y, hy, hh.trans hh'⟩

/-- A request to slave `k` leaves the others hearing. -/
theorem OthersAtRest.hearOp {k : Nat} {s t : State} {op : SlaveOp} (hr : OthersAtRest k s)
    (h : requestOp k op s = .next t) : OthersHear k s t := by
  obtain ⟨-, x, -, -, hp⟩ := requestOp_passes k op s t h
  have hS := (hp _ (rest_closed s.cfg)).serves
  have set_ne (j : Nat) (hj : j ≠ k) : (s.slaves.set k x)[j]? = s.slaves[j]? := List.getElem?_set_ne (Ne.symm hj)
  intro j sl hj hs
  exact hS.hear (fun j sl hj hs => hr j sl hj ((set_ne j hj).symm.trans hs)) j sl hj ((set_ne j hj).trans hs)

/-- So does an operation of the master. -/
theorem OthersAtRest.hearMaster {k : Nat} {s t : State} {i : Instr} (hr : OthersAtRest k s) (hi : isMasterOp i = true)
    (h : exec i s = .next t) : OthersHear k s t := by
  have hw : wirePort i = none ∧ slavePort i = none := by
    cases i <;> simp only [isMasterOp, Bool.false_eq_true] at hi <;> exact ⟨rfl, rfl⟩
  exact (exec_master i hw.1 hw.2 (rest_closed s.cfg) h).1.hear hr

end Sys2Proof.Machine
end

