-- ==== Sys2Proof/Laws/Silent.lean ====
section
/-! SUPPORT. A line whose slaves are all at rest and that no outside driver moves: it is high whenever the master has released
it (R71), so a read slot samples 1 and a reset finds nobody (R148). -/

namespace Sys2Proof.Machine

variable {s : State}

/-- No slave runs an operation, and no outside traffic is to come; nothing is said of the master. -/
structure Hushed (s : State) : Prop where
  otherDrive : s.otherDrive = false
  otherWave : s.otherWave = []
  rest : ∀ sl ∈ s.slaves, sl.AtRest

theorem Silent.hushed (h : Silent s) : Hushed s := ⟨h.otherDrive, h.otherWave, h.rest⟩

theorem Hushed.line (h : Hushed s) : line s = !s.master.drive := by
  have : s.slaves.any (·.drive) = false := by
    rw [List.any_eq_false]
    intro sl hs
    simp [(h.rest sl hs).2.2]
  simp [Machine.line, h.otherDrive, this]

theorem Hushed.withMaster (h : Hushed s) (m : Master) : Hushed (s.withMaster m) := ⟨h.1, h.2, h.3⟩

theorem Hushed.settleOnce (h : Hushed s) : Hushed (settleOnce s) := by
  refine ⟨h.1, h.2, ?_⟩
  simp only [settleOnce_slaves, List.mem_map, forall_exists_index, and_imp, forall_apply_eq_imp_iff₂]
  exact fun sl hs => Slave.settle_atRest _ sl (h.rest sl hs)

theorem Hushed.settleLoop (h : Hushed s) (n : Nat) : Hushed (settleLoop n s) := by
  induction n generalizing s with
  | zero => exact h.settleOnce
  | succ n ih =>
    unfold Machine.settleLoop
    split
    · exact h.settleOnce
    · exact ih h.settleOnce

theorem Hushed.settle (h : Hushed s) : Hushed (settle s) := h.settleLoop _

theorem Hushed.nextEvent (h : Hushed s) : nextEvent s = none := by
  unfold Machine.nextEvent nextOther
  rw [h.otherWave, foldr_earlier_none _ _ fun sl hs => (h.rest sl hs).nextWake]
  rfl

theorem Hushed.goTo (h : Hushed s) (t : Nat) : Hushed (goTo t s) := by
  unfold Machine.goTo fireAll moveOthers
  simp only [h.otherWave]
  refine ⟨h.1, rfl, ?_⟩
  simp only [List.mem_map, forall_exists_index, and_imp, forall_apply_eq_imp_iff₂]
  exact fun sl hs => Slave.fire_keeps_atRest _ sl (h.rest sl hs)

theorem Hushed.runBefore (h : Hushed s) (n t : Nat) : Hushed (runBefore n t s) := by
  cases n with
  | zero => exact h
  | succ n =>
    unfold Machine.runBefore
    rw [h.nextEvent]
    exact h

theorem Hushed.wait (h : Hushed s) (d : Nat) : Hushed (wait d s) := (h.settle.runBefore _ _).goTo _

theorem Hushed.mWait (h : Hushed s) (d : Nat) : Hushed (mWait d s) := h.wait _

theorem Hushed.mPulse (h : Hushed s) (low high : Nat) : Hushed (mPulse low high s) :=
  (((h.withMaster _).mWait low).withMaster _).mWait high

theorem Hushed.mPulse_line (h : Hushed s) (low high : Nat) : Machine.line (Machine.mPulse low high s) = true := by
  rw [(h.mPulse low high).line, mPulse_master]
  rfl

theorem Hushed.mResetExchange (h : Hushed s) :
    (mResetExchange s).1 = false ∧ Hushed (Machine.mResetExchange s).2 := by
  unfold Machine.mResetExchange
  exact ⟨by simp [h.mPulse_line], (h.mPulse _ _).mWait _⟩

theorem Hushed.mReadSlot (h : Hushed s) : (mReadSlot s).1 = true ∧ Hushed (Machine.mReadSlot s).2 := by
  unfold Machine.mReadSlot
  exact ⟨h.mPulse_line _ _, (h.mPulse _ _).mWait _⟩

theorem Hushed.readSlots (h : Hushed s) (n : Nat) :
    (readSlots n s).1 = List.replicate n true ∧ Hushed (Machine.readSlots n s).2 := by
  induction n generalizing s with
  | zero => exact ⟨rfl, h⟩
  | succ n ih =>
    obtain ⟨h1, h2⟩ := h.mReadSlot
    obtain ⟨h3, h4⟩ := ih h2
    exact ⟨by simp [Machine.readSlots, h1, h3, List.replicate_succ], h4⟩

theorem byteBits_inj (v w : Byte) (h : byteBits v = byteBits w) : v = w := by
  apply BitVec.eq_of_getLsbD_eq
  intro i hi
  have := congrArg (fun l => l[i]?) h
  simpa [byteBits, List.getElem?_range hi] using this

theorem Hushed.mReceiveByte (h : Hushed s) :
    (mReceiveByte s).1 = 0xFF ∧ Hushed (Machine.mReceiveByte s).2 := by
  obtain ⟨h1, h2⟩ := h.readSlots 8
  obtain ⟨h3, h4⟩ := mReceiveByte_slots s
  refine ⟨byteBits_inj _ _ (h3.trans (h1.trans (by decide))), ?_⟩
  rw [h4]
  exact h2.withMaster _

end Sys2Proof.Machine
end

