-- ==== Sys2Proof/Laws/Lasted.lean ====
section
/-! SUPPORT. What the master's operations leave of the slaves and the time, as one structure (`Lasted`), for the statements
about the operations' results. -/

namespace Sys2Proof.Machine

variable {s t : State} {n d : Nat}

theorem lasts_closed (cfg : Config) : Closed cfg Slave.Lasts := (lasts_acts cfg).toClosed

theorem Serves.lasted (h : Serves Slave.Lasts s t) (hn : Took s t n d) : Lasted s t n d :=
  ⟨h.cfg, h.requests, h.slaves, hn⟩

/-- The end of an operation takes no time. -/
theorem Serves.reported (st : Status) (v : Byte) (h : Serves Slave.Lasts s t) (hn : Took s t n d) :
    Lasted s (mReport st v t) n d :=
  ⟨h.cfg, h.requests, h.slaves, hn.withMaster _⟩

theorem presence_eq (s : State) : presence s = (mResetExchange s).1 := rfl

theorem Master.released_eq {m : Master} (h : m.drive = false) : { m with drive := false } = m := by
  cases m
  cases h
  rfl

theorem Hushed.silent (st : Status) (v : Byte) (h : Hushed s) (hm : s.master.drive = false) :
    Silent (mReport st v s) := by
  have := h.withMaster { s.master with status := statusCode st, data := v, pos := .ready }
  exact ⟨hm, this.1, this.2, this.3⟩

theorem launch_absent (mode : BitVec 2) (id : RomId) (f : Byte) (h3 : mode ≠ 3) (hp : (mResetExchange s).1 = false) :
    launch mode id f s = (.noSlavePresent, (mResetExchange s).2) := by
  rcases mode_cases mode with rfl | rfl | rfl | rfl
  · rw [launch_zero, mReadRom_absent hp]
    rfl
  · rw [launch_one, hp]
    rfl
  · rw [launch_two, hp]
    rfl
  · exact absurd rfl h3

theorem statusCode_inj {a b : Status} (h : statusCode a = statusCode b) : a = b := by
  revert h; cases a <;> cases b <;> decide

theorem searchRun_crc16 (cmd : Byte) (s : State) : (searchRun cmd s).2.master.crc16 = s.master.crc16 := by
  obtain ⟨hk, -, -, -, -, -⟩ := searchRun_bits cmd s
  cases hf : s.master.lastDeviceFlag
  · cases hp : (mResetExchange s).1
    · rw [searchRun_absent cmd hf hp]
      simp only [clearSearch, mResetExchange_master]
    · cases hq : (searchAll cmd s).1
      · rw [searchRun_silent cmd hf hp hq]; exact hk.crc16
      · rw [searchRun_answered cmd hf hp hq]
        unfold searchEnd
        split <;> exact hk.crc16
  · rw [searchRun_over cmd hf]; rfl

/-- Whether a slave answers does not depend on the master's registers. -/
theorem presence_with (s : State) (m : Master) : presence (s.withMaster m) = presence s := by
  unfold presence
  rw [mPulse_blind]
  simp only [line, mPulse_master]

end Sys2Proof.Machine
end

