-- ==== Sys2Proof/Laws/LogFrame.lean ====
section
/-! SUPPORT. A log frame from the master to one log slave (spec/45_crc_log_frame.md R270 to R282): length, payload, CRC, busy hold,
poll and ack. -/

namespace Sys2Proof.Machine

variable {g : Config} {s : State} {t : Nat} {sl : Slave} {fs : List Frame}

/-- The payload bytes stored from address `i` on (R275). -/
def putPayload : Nat → List Byte → Memory → Memory
  | _, [], m => m
  | i, b :: bs, m => putPayload (i + 1) bs (memWrite m i b)

theorem putPayload_wf (bs : List Byte) (i : Nat) (m : Memory) (h : memoryWf m = true) :
    memoryWf (putPayload i bs m) = true := by
  induction bs generalizing i m with
  | nil => exact h
  | cons b bs ih => exact ih _ _ (memWrite_wf m i b h)

theorem memRead_putPayload (bs : List Byte) (i : Nat) (m : Memory) (a : Nat) (h : memoryWf m = true) :
    memRead (putPayload i bs m) a = if i ≤ a then (bs[a - i]?).getD (memRead m a) else memRead m a := by
  induction bs generalizing i m with
  | nil => simp [putPayload]
  | cons b bs ih =>
    rw [putPayload, ih _ _ (memWrite_wf m i b h), memRead_memWrite m i b a h]
    by_cases h1 : i + 1 ≤ a
    · rw [if_pos h1, if_pos (show i ≤ a by omega), if_neg (show ¬ a = i by omega)]
      rw [show a - i = (a - (i + 1)) + 1 by omega, List.getElem?_cons_succ]
    · rw [if_neg h1]
      by_cases h2 : a = i
      · subst h2
        simp
      · rw [if_neg h2, if_neg (show ¬ i ≤ a by omega)]

theorem crcOfBytes_split (x : Word16) : crcOfBytes (crcHigh x) (crcLow x) = x := by
  apply BitVec.eq_of_getLsbD_eq
  intro i hi
  unfold crcOfBytes crcHigh crcLow
  simp only [BitVec.getLsbD_or, BitVec.getLsbD_shiftLeft, BitVec.getLsbD_setWidth, BitVec.getLsbD_extractLsb', hi,
    decide_true, Bool.true_and]
  by_cases h : i < 8
  · simp [h]
  · simp [h, show i - 8 < 8 by omega, show i - 8 < 16 by omega, show 8 + (i - 8) = i by omega]

/-- What a log slave keeps while it receives a frame. -/
structure Slave.SameLog (sl sl' : Slave) : Prop where
  cfg : sl'.cfg = sl.cfg
  romId : sl'.romId = sl.romId
  alarmed : sl'.alarmed = sl.alarmed
  trapped : sl'.trapped = sl.trapped
  intEnable : sl'.intEnable = sl.intEnable
  intMask : sl'.intMask = sl.intMask
  upstream : sl'.upstream = sl.upstream
  txnState : sl'.txnState = sl.txnState
  draws : sl'.draws = sl.draws

theorem Slave.SameLog.trans {a b c : Slave} (h : Slave.SameLog a b) (h' : Slave.SameLog b c) : Slave.SameLog a c :=
  ⟨h'.1.trans h.1, h'.2.trans h.2, h'.3.trans h.3, h'.4.trans h.4, h'.5.trans h.5, h'.6.trans h.6, h'.7.trans h.7,
   h'.8.trans h.8, h'.9.trans h.9⟩

theorem Slave.Drift.sameLog {x : Slave} (hd : Slave.Drift sl x) : Slave.SameLog sl x := by
  obtain ⟨_, _, _, _, _, _, _, _, rfl⟩ := hd
  exact ⟨rfl, rfl, rfl, rfl, rfl, rfl, rfl, rfl, rfl⟩

theorem Slave.Base.same {x : Slave} (h : sl.Base g) (hc : x.cfg = sl.cfg) (he : x.takesEdges = sl.takesEdges)
    (hn : x.pulseNew = sl.pulseNew) (hl : x.linePrev = sl.linePrev) (hd : x.drive = sl.drive) (hb : x.busy = sl.busy) :
    x.Base g :=
  ⟨hc ▸ h.valid, hc ▸ h.no_timeout, he.trans h.enabled, hn.trans h.no_event, hl.trans h.line_prev, hd.trans h.released,
   hb.trans h.not_busy⟩

/-- The frame a log slave waits for when `i` of `len` payload bytes are stored. -/
def logFrame (len i : Nat) : Frame := if i < len then .logPayload i else .logCrcHigh

/-- The slave has received the length and `i` payload bytes. -/
structure Slave.LogReading (g : Config) (len : Byte) (i : Nat) (crc : Word16) (m : Memory) (calls : List Byte) (times : List (Option Nat))
    (fs : List Frame) (sl : Slave) : Prop where
  reads : sl.Reads g (logFrame len.toNat i :: fs)
  logLen : sl.logLen = len
  crc16 : sl.crc16 = crc
  logBuf : sl.logBuf = m
  calls : sl.handlerCalls = calls
  times : sl.handlerTimes = times

theorem Slave.sendLength (h : sl.Reads g (.logLength :: fs)) (hcrc : sl.crc16 = 0xFFFF) (hq : s.NoOthers g) (t : Nat)
    (len : Byte) (hlen : len.toNat ≤ s.cfg.maxMessageLength) :
    ∃ x, mSendByte len (shot s t false sl) = shot (s.shifter 0 8) (t + us g 560) false x ∧ Slave.SameLog sl x ∧
      x.LogReading g len 0 (crc16Update s.cfg.crc16 0xFFFF len) sl.logBuf sl.handlerCalls sl.handlerTimes fs := by
  have hr (c : Ctx) (hc : c.cfg = s.cfg) (x : Slave) : Slave.ret c len (.logLength :: fs) x =
      Slave.startReadByte c (logFrame len.toNat 0 :: fs)
        { x with logLen := len, crc16 := crc16Update s.cfg.crc16 x.crc16 len } := by
    show Slave.logGotLength c len fs x = _
    rw [Slave.logGotLength, hc, if_neg (by omega)]
    have : (if len = 0 then Frame.logCrcHigh else .logPayload 0) = logFrame len.toNat 0 := by
      unfold logFrame
      by_cases h0 : len = 0
      · subst h0; rfl
      · rw [if_neg h0, if_pos]
        rcases Nat.eq_zero_or_pos len.toNat with e | e
        · exact absurd (BitVec.eq_of_toNat_eq (by simpa using e)) h0
        · exact e
    rw [this]
  obtain ⟨c, x, hc, hd, he⟩ := h.send hq t len
    (fun c x hc hd => by rw [hr c hc]; exact Slave.await_forever c (hd.same.cfg ▸ h.listening.no_timeout))
  rw [hr c hc] at he
  have hb : x.Base g := h.listening.base.drift hd
  refine ⟨_, he, hd.sameLog.trans ⟨rfl, rfl, rfl, rfl, rfl, rfl, rfl, rfl, rfl⟩,
    Slave.startReadByte_reads c (hb.same rfl rfl rfl rfl rfl rfl), rfl, ?_, ?_, ?_, ?_⟩
  · show crc16Update s.cfg.crc16 x.crc16 len = _
    rw [hd.crc16, hcrc]
  · exact hd.same.logBuf
  · exact hd.same.handlerCalls
  · exact hd.same.handlerTimes

variable {len : Byte} {i : Nat} {crc : Word16} {m : Memory} {calls : List Byte} {times : List (Option Nat)}

theorem Slave.LogReading.payload (h : sl.LogReading g len i crc m calls times fs) (hi : i < len.toNat) (hq : s.NoOthers g)
    (t : Nat) (b : Byte) :
    ∃ x, mSendByte b (shot s t false sl) = shot (s.shifter 0 8) (t + us g 560) false x ∧ Slave.SameLog sl x ∧
      x.LogReading g len (i + 1) (crc16Update s.cfg.crc16 crc b) (memWrite m i b) calls times fs := by
  have hrd : sl.Reads g (.logPayload i :: fs) := by
    have := h.reads
    rwa [logFrame, if_pos hi] at this
  have hr (c : Ctx) (hc : c.cfg = s.cfg) (x : Slave) (hx : x.logLen = len) : Slave.ret c b (.logPayload i :: fs) x =
      Slave.startReadByte c (logFrame len.toNat (i + 1) :: fs)
        { x with logBuf := memWrite x.logBuf i b, crc16 := crc16Update s.cfg.crc16 x.crc16 b } := by
    show Slave.logGotPayload c i b fs x = _
    rw [Slave.logGotPayload, hc, hx]
    rfl
  have hl {x : Slave} (hd : Slave.Drift sl x) : x.logLen = len := hd.same.logLen.trans h.logLen
  obtain ⟨c, x, hc, hd, he⟩ := hrd.send hq t b
    (fun c x hc hd => by rw [hr c hc x (hl hd)]; exact Slave.await_forever c (hd.same.cfg ▸ hrd.listening.no_timeout))
  rw [hr c hc x (hl hd)] at he
  have hb : x.Base g := hrd.listening.base.drift hd
  refine ⟨_, he, hd.sameLog.trans ⟨rfl, rfl, rfl, rfl, rfl, rfl, rfl, rfl, rfl⟩,
    Slave.startReadByte_reads c (hb.same rfl rfl rfl rfl rfl rfl), hd.same.logLen.trans h.logLen, ?_, ?_, ?_, ?_⟩
  · show crc16Update s.cfg.crc16 x.crc16 b = _
    rw [hd.crc16, h.crc16]
  · show memWrite x.logBuf i b = _
    rw [hd.same.logBuf, h.logBuf]
  · exact hd.same.handlerCalls.trans h.calls
  · exact hd.same.handlerTimes.trans h.times

/-- `s'` is `s` but for the master's shifter and CRC. -/
def State.Folded (crc : Word16) (s s' : State) : Prop :=
  s' = { s with master := { s.master with
    shift := s'.master.shift, bitcnt := s'.master.bitcnt, crc16 := crc } }

theorem mSendPayload_shot (bs : List Byte) (h : sl.LogReading g len i crc m calls times fs)
    (hb : i + bs.length = len.toNat) (hcrc : s.master.crc16 = crc) (hq : s.NoOthers g) :
    ∃ s' x, mSendPayload bs (shot s t false sl) = shot s' (t + bs.length * us g 560) false x ∧ Slave.SameLog sl x ∧
      x.LogReading g len len.toNat (bs.foldl (crc16Update s.cfg.crc16) crc) (putPayload i bs m) calls times fs ∧
      State.Folded (bs.foldl (crc16Update s.cfg.crc16) crc) s s' := by
  induction bs generalizing s t sl i crc m with
  | nil =>
    have : i = len.toNat := hb
    subst this
    exact ⟨s, sl, by simp [mSendPayload], ⟨rfl, rfl, rfl, rfl, rfl, rfl, rfl, rfl, rfl⟩, h,
      by rw [State.Folded, List.foldl_nil, ← hcrc]⟩
  | cons b bs ih =>
    simp only [List.length_cons] at hb
    obtain ⟨x, he, hx, hlx⟩ := h.payload (by omega) hq t b
    let s1 : State := { s.shifter 0 8 with master := { (s.shifter 0 8).master with
      crc16 := crc16Update s.cfg.crc16 s.master.crc16 b } }
    obtain ⟨s', y, he', hy, hly, hs'⟩ := ih (s := s1) (t := t + us g 560) hlx (by omega) (by
      show crc16Update s.cfg.crc16 s.master.crc16 b = _
      rw [hcrc]) hq
    refine ⟨s', y, ?_, hx.trans hy, hly, ?_⟩
    · have hstep : mSendPayload (b :: bs) (shot s t false sl) = mSendPayload bs (shot s1 (t + us g 560) false x) := by
        rw [mSendPayload, mSendFolded]
        simp only [he]
        rfl
      rw [hstep, he', List.length_cons]
      congr 1
      rw [Nat.add_mul bs.length 1]
      omega
    · exact hs'

/-- The high CRC byte (R275, R277). -/
theorem Slave.LogReading.crcHigh (h : sl.LogReading g len len.toNat crc m calls times fs) (hq : s.NoOthers g) (t : Nat)
    (hi : Byte) :
    ∃ x, mSendByte hi (shot s t false sl) = shot (s.shifter 0 8) (t + us g 560) false x ∧ Slave.SameLog sl x ∧
      x.Reads g (.logCrcLow hi :: fs) ∧ x.logLen = len ∧ x.crc16 = crc ∧ x.logBuf = m ∧ x.handlerCalls = calls ∧
      x.handlerTimes = times := by
  have hrd : sl.Reads g (.logCrcHigh :: fs) := by
    have := h.reads
    rwa [logFrame, if_neg (by omega)] at this
  have hr (c : Ctx) (x : Slave) : Slave.ret c hi (.logCrcHigh :: fs) x =
      Slave.startReadByte c (.logCrcLow hi :: fs) x := rfl
  obtain ⟨c, x, -, hd, he⟩ := hrd.send hq t hi
    (fun c x _ hd => by rw [hr]; exact Slave.await_forever c (hd.same.cfg ▸ hrd.listening.no_timeout))
  rw [hr] at he
  have hb : x.Base g := hrd.listening.base.drift hd
  exact ⟨_, he, hd.sameLog.trans ⟨rfl, rfl, rfl, rfl, rfl, rfl, rfl, rfl, rfl⟩, Slave.startReadByte_reads c hb,
    hd.same.logLen.trans h.logLen, hd.crc16.trans h.crc16, hd.same.logBuf.trans h.logBuf,
    hd.same.handlerCalls.trans h.calls, hd.same.handlerTimes.trans h.times⟩

/-- The same, and the CRC is no longer folded. -/
structure Slave.SameAck (sl sl' : Slave) : Prop where
  cfg : sl'.cfg = sl.cfg
  romId : sl'.romId = sl.romId
  alarmed : sl'.alarmed = sl.alarmed
  trapped : sl'.trapped = sl.trapped
  intEnable : sl'.intEnable = sl.intEnable
  intMask : sl'.intMask = sl.intMask
  upstream : sl'.upstream = sl.upstream
  txnState : sl'.txnState = sl.txnState
  draws : sl'.draws = sl.draws
  crc16 : sl'.crc16 = sl.crc16

theorem Slave.SameAck.trans {a b c : Slave} (h : Slave.SameAck a b) (h' : Slave.SameAck b c) : Slave.SameAck a c :=
  ⟨h'.1.trans h.1, h'.2.trans h.2, h'.3.trans h.3, h'.4.trans h.4, h'.5.trans h.5, h'.6.trans h.6, h'.7.trans h.7,
   h'.8.trans h.8, h'.9.trans h.9, h'.10.trans h.10⟩

theorem Slave.SameAck.log {a b : Slave} (h : Slave.SameAck a b) : Slave.SameLog a b :=
  ⟨h.1, h.2, h.3, h.4, h.5, h.6, h.7, h.8, h.9⟩

theorem Slave.Drift.sameAck {x : Slave} (hd : Slave.Drift sl x) : Slave.SameAck sl x := by
  obtain ⟨_, _, _, _, _, _, _, _, rfl⟩ := hd
  exact ⟨rfl, rfl, rfl, rfl, rfl, rfl, rfl, rfl, rfl, rfl⟩

/-! ### The busy hold -/

/-- The slave between a good CRC and its busy hold (R275, R280). -/
structure Slave.BusySoon (g : Config) (n : Nat) (len : Byte) (m : Memory) (calls : List Byte) (times : List (Option Nat)) (fs : List Frame)
    (sl : Slave) : Prop where
  base : sl.Base g
  pos : sl.pos = .delay .busyLatency
  wake : sl.wake = some (n + sl.cfg.tSBusy)
  stack : sl.stack = .logHold :: fs
  logLen : sl.logLen = len
  logBuf : sl.logBuf = m
  calls : sl.handlerCalls = calls
  times : sl.handlerTimes = times

/-- The slave after its hold, writing the ack byte (R281, R282). -/
structure Slave.Acking (g : Config) (len : Byte) (m : Memory) (calls : List Byte) (times : List (Option Nat)) (fs : List Frame) (sl : Slave) :
    Prop where
  writes : sl.Writes g ackByteValue (.logAck :: fs)
  logLen : sl.logLen = len
  logBuf : sl.logBuf = m
  calls : sl.handlerCalls = calls
  times : sl.handlerTimes = times

/-- The slave in its hold, and at the hold's end its rising edge still to come. -/
def Slave.holding (e H : Nat) (sl : Slave) : Slave :=
  Slave.felled e { Slave.callHandler sl with busy := true, drive := true, pos := .delay .handler
                                             wake := some (e + H) }

def Slave.holdEnded (sl : Slave) : Slave := { Slave.callHandler sl with pos := .waitPulse .busyEnd, wake := none }

theorem Slave.handlerTime_congr {x : Slave} (now : Nat) (hc : x.cfg = sl.cfg) (ht : x.handlerTimes = sl.handlerTimes) :
    Slave.handlerTime now x = Slave.handlerTime now sl := by
  unfold Slave.handlerTime
  rw [hc, ht]

/-- The call of a handler that runs for some time (R279, R280). -/
theorem Slave.logBusyBegin_hold (c : Ctx) (sl : Slave) {H : Nat} (ht : Slave.handlerTime c.now sl = some H) (h : 0 < H) :
    Slave.logBusyBegin c sl = Slave.delay c .handler H { Slave.callHandler sl with busy := true, drive := true } := by
  obtain ⟨d, rfl⟩ : ∃ d, H = d + 1 := ⟨_, (Nat.succ_pred_eq_of_pos h).symm⟩
  unfold Slave.logBusyBegin
  rw [ht]

theorem Slave.Base.trapped (h : sl.Base g) : sl.trapped = false := by
  have := h.enabled
  simp only [Slave.takesEdges, Bool.and_eq_true, Bool.not_eq_true'] at this
  exact this.1.2

variable {n H : Nat}

/-- The hold begins. -/
theorem Slave.BusySoon.begins (h : sl.BusySoon g n len m calls times fs) (hT : Slave.handlerTime (n + sl.cfg.tSBusy) sl = some H)
    (hH : 0 < H) (s : State) :
    Slave.settle (shotCtx s (n + sl.cfg.tSBusy) false (Slave.fire (shotCtx s (n + sl.cfg.tSBusy) false sl) sl))
      (Slave.fire (shotCtx s (n + sl.cfg.tSBusy) false sl) sl) = Slave.holding (n + sl.cfg.tSBusy) H sl ∧
    (Slave.fire (shotCtx s (n + sl.cfg.tSBusy) false sl) sl).drive = true := by
  have hd : deadline (n + sl.cfg.tSBusy) H = n + sl.cfg.tSBusy + H := deadline_pos _ _ hH
  have hf : Slave.fire (shotCtx s (n + sl.cfg.tSBusy) false sl) sl =
      Slave.delay (shotCtx s (n + sl.cfg.tSBusy) false sl) .handler H
        { Slave.callHandler sl with busy := true, drive := true } := by
    rw [Slave.fire_due _ h.base.trapped h.wake rfl, h.pos]
    exact Slave.logBusyBegin_hold _ sl hT hH
  rw [hf]
  refine ⟨?_, rfl⟩
  generalize hx : Slave.delay (shotCtx s (n + sl.cfg.tSBusy) false sl) .handler H
    { Slave.callHandler sl with busy := true, drive := true } = x
  have hxd : x.drive = true := by rw [← hx]; rfl
  have hxl : x.linePrev = true := by rw [← hx]; exact h.base.line_prev
  have hxe : x.takesEdges = true := by rw [← hx]; exact h.base.enabled
  have hc : shotCtx s (n + sl.cfg.tSBusy) false x = { now := n + sl.cfg.tSBusy, level := false, cfg := s.cfg } := by
    simp [shotCtx, hxd]
  have ho : Slave.observe (shotCtx s (n + sl.cfg.tSBusy) false x) x = Slave.felled (n + sl.cfg.tSBusy) x := by
    rw [hc]
    simp [Slave.observe, hxl, Slave.edgeFall, hxe, Slave.isrFall, Slave.felled]
  have hp : (Slave.felled (n + sl.cfg.tSBusy) x).pos = .delay .handler := by rw [← hx]; rfl
  rw [Slave.settle, ho, Slave.resume_interval .handler hp (by decide) (by decide), ← hx, Slave.holding, ← hd]
  rfl

/-- The hold ends: the driver is released. -/
theorem Slave.BusySoon.ends (h : sl.BusySoon g n len m calls times fs) (s : State) (e H : Nat) :
    Slave.fire (shotCtx s (e + H) false (Slave.holding e H sl)) (Slave.holding e H sl) =
      Slave.felled e (Slave.holdEnded sl) := by
  have ht : (Slave.holding e H sl).trapped = false := h.base.trapped
  rw [Slave.fire_due (e + H) ht rfl rfl]
  have hw : sl.cfg.waitTimeout.map (e + H + ·) = none := by rw [h.base.no_timeout]; rfl
  have hb : sl.busy = false := h.base.not_busy
  have hd : sl.drive = false := h.base.released
  show ({ Slave.holding e H sl with
    busy := false, drive := false, pos := .waitPulse .busyEnd, wake := sl.cfg.waitTimeout.map (e + H + ·) } : Slave) = _
  rw [hw]
  have : ∀ b d, b = sl.busy → d = sl.drive →
      ({ Slave.holding e H sl with busy := b, drive := d, pos := .waitPulse .busyEnd, wake := none } : Slave) =
        Slave.felled e (Slave.holdEnded sl) := by
    rintro _ _ rfl rfl
    rfl
  exact this false false hb.symm hd.symm

theorem Slave.BusySoon.listens (h : sl.BusySoon g n len m calls times fs) : (Slave.holdEnded sl).Listening g .busyEnd :=
  (h.base.same (x := Slave.holdEnded sl) rfl rfl rfl rfl rfl rfl).listening rfl rfl

/-- The rising edge that ends the hold: the slave begins to write the ack byte, whatever the hold's length. -/
theorem Slave.BusySoon.rises (h : sl.BusySoon g n len m calls times fs) (hg : s.cfg = g) (e w : Nat) :
    ∃ x, Slave.settle (shotCtx s (e + w) false (Slave.felled e (Slave.holdEnded sl)))
        (Slave.felled e (Slave.holdEnded sl)) = x ∧
      Slave.SameAck sl x ∧ x.Acking g len m (len :: calls) times.tail fs := by
  subst hg
  have hl := h.listens
  have hd : (Slave.felled e (Slave.holdEnded sl)).drive = false := hl.released
  have hc : shotCtx s (e + w) false (Slave.felled e (Slave.holdEnded sl)) =
      { now := e + w, level := true, cfg := s.cfg } := by simp [shotCtx, hd]
  have hm : ∀ cl, Slave.pulse cl { now := e + w, level := true, cfg := s.cfg } (Slave.measured s.cfg e w (Slave.holdEnded sl)) =
      Slave.startWriteByte { now := e + w, level := true, cfg := s.cfg } ackByteValue (.logAck :: fs)
        { Slave.measured s.cfg e w (Slave.holdEnded sl) with status := statusCode .ok, data := 0 } := by
    intro cl
    have hst : (Slave.measured s.cfg e w (Slave.holdEnded sl)).stack = .logHold :: fs := h.stack
    have : Slave.pulse cl { now := e + w, level := true, cfg := s.cfg } (Slave.measured s.cfg e w (Slave.holdEnded sl)) =
        Slave.returnValue { now := e + w, level := true, cfg := s.cfg } 0 (Slave.measured s.cfg e w (Slave.holdEnded sl)) := by
      cases cl <;> rfl
    rw [this, Slave.returnValue, hst]
    rfl
  refine ⟨Slave.startWriteByte { now := e + w, level := true, cfg := s.cfg } ackByteValue (.logAck :: fs)
    { Slave.measured s.cfg e w (Slave.holdEnded sl) with status := statusCode .ok, data := 0 }, by rw [hc, Slave.settle_rise hl rfl e w rfl, hm],
    ⟨rfl, rfl, rfl, rfl, rfl, rfl, rfl, rfl, rfl, rfl⟩, ?_⟩
  refine ⟨Slave.startWriteByte_writes _ _ (hl.base.same rfl rfl rfl hl.line_prev.symm rfl rfl), h.logLen, h.logBuf,
    ?_, ?_⟩
  · show sl.logLen :: sl.handlerCalls = _
    rw [h.logLen, h.calls]
  · show sl.handlerTimes.tail = _
    rw [h.times]

/-! ### The last CRC byte, the poll and the ack -/

/-- The low CRC byte, up to its last rising edge: the slave has found the CRC good (R277, R278). -/
theorem Slave.sendCrcLow (hi lo : Byte) (h : sl.Reads g (.logCrcLow hi :: fs)) (hcrc : crcOfBytes hi lo = sl.crc16)
    (hlen : sl.logLen = len) (hbuf : sl.logBuf = m) (hcalls : sl.handlerCalls = calls) (htimes : sl.handlerTimes = times)
    (hq : s.NoOthers g) (t : Nat) :
    ∃ n x s', n + slotTail g (lo.getLsbD 7) = t + us g 560 ∧ Slave.SameAck sl x ∧
      x.BusySoon g n len (memWrite m len.toNat 0) calls times fs ∧
      (s'.cfg = s.cfg ∧ s'.otherDrive = s.otherDrive ∧ s'.otherWave = s.otherWave ∧ s'.requests = s.requests) ∧
      mSendByte lo (shot s t false sl) =
        State.shiftedOut 1 (coast (slotTail g (lo.getLsbD 7)) (shot s' n false x)) := by
  obtain ⟨c, x, s', hc, hn, hd, hs', he⟩ := mSendByte_tail (t := t) hq h.listening h.stack h.bitcnt h.shift lo
  have hr : Slave.ret c lo (.logCrcLow hi :: fs) x =
      Slave.delay c .busyLatency x.cfg.tSBusy
        { x with logBuf := memWrite x.logBuf x.logLen.toNat 0, stack := .logHold :: fs } := by
    show Slave.logCheckCrc c hi lo fs x = _
    rw [Slave.logCheckCrc, if_pos (by rw [hd.crc16]; exact hcrc)]
    exact Slave.waitFor_exact c (by rw [hc]; exact hq.2.2.1) _ _ _
  rw [hr] at he
  have hb : x.Base g := h.listening.base.drift hd
  obtain ⟨-, -, -, -, -, -, -, hbusy, -⟩ := (SlaveConfig.valid_iff _ _).mp hb.valid
  refine ⟨c.now, Slave.delay c .busyLatency x.cfg.tSBusy
    { x with logBuf := memWrite x.logBuf x.logLen.toNat 0, stack := .logHold :: fs }, s', hn, hd.sameAck.trans ⟨rfl, rfl, rfl, rfl, rfl, rfl, rfl, rfl, rfl, rfl⟩, ?_, hs', he⟩
  refine ⟨hb.same rfl rfl rfl rfl rfl rfl, rfl, ?_, rfl, hd.same.logLen.trans hlen, ?_, hd.same.handlerCalls.trans hcalls,
    hd.same.handlerTimes.trans htimes⟩
  · show some (deadline c.now x.cfg.tSBusy) = _
    rw [deadline_pos _ _ hbusy]
    rfl
  · show memWrite x.logBuf x.logLen.toNat 0 = _
    rw [hd.same.logBuf, hbuf, hd.same.logLen, hlen]

theorem Slave.BusySoon.drive (h : sl.BusySoon g n len m calls times fs) : sl.drive = false := h.base.released

/-- What the master meets at the end of the last slot, and after its poll (R272). -/
theorem Slave.BusySoon.poll (h : sl.BusySoon g n len m calls times fs)
    (hT : Slave.handlerTime (n + sl.cfg.tSBusy) sl = some H) (hH : 0 < H) (b : Bool)
    (hq : s.NoOthers g) (limit : Option Nat)
    (hlim : ∀ l, limit = some l → n + sl.cfg.tSBusy + H ≤ l) :
    ∃ s' x, pollLoop limit pollFuel (State.shiftedOut 1 (coast (slotTail g b) (shot s n false sl))) =
        .high (shot s' (max (n + slotTail g b) (n + sl.cfg.tSBusy + H)) false x) ∧
      State.Shifted s s' ∧
      ((x = Slave.felled (n + sl.cfg.tSBusy) (Slave.holdEnded sl) ∧
          n + slotTail g b ≤ n + sl.cfg.tSBusy + H) ∨
       (x.Acking g len m (len :: calls) times.tail fs ∧ Slave.SameAck sl x)) := by
  obtain ⟨-, -, -, -, -, -, -, -, hbusy⟩ := (SlaveConfig.valid_iff _ _).mp h.base.valid
  have htail : us g 10 ≤ slotTail g b := us_le_slotTail g b
  have hfuel : ∃ k, slotTail g b = k + 2 :=
    ⟨slotTail g b - 2, by have := le_us g 10; omega⟩
  obtain ⟨k, hk⟩ := hfuel
  have hpf : ∃ k, pollFuel = k + 2 := ⟨999999998, rfl⟩
  obtain ⟨pk, hpk⟩ := hpf
  obtain ⟨hb1, hb2⟩ := h.begins hT hH s
  let e := n + sl.cfg.tSBusy
  let E := n + slotTail g b
  let F := e + H
  let s' : State := State.shiftedOut 1 s
  have hsh : State.Shifted s s' := rfl
  have hq' : s'.NoOthers g := hq
  have hhw : (Slave.holding e H sl).wake = some F := by
    rfl
  have hhd : (Slave.holding e H sl).drive = true := rfl
  have hht' : (Slave.holding e H sl).trapped = false := h.base.trapped
  have hev1 : ∀ j, runBefore (j + 1) E (shot s n false sl) = runBefore j E (shot s e false (Slave.holding e H sl)) := by
    intro j
    have := shot_runBefore_event (s := s) (d := false) (t := n) hq e E j h.base.trapped h.wake
      (by simp only [e]; omega) (by simp only [e, E]; omega) (by rw [hb1, hb2]; rfl)
    rw [hb1] at this
    exact this
  have hnow : (shot s n false sl).now = n := rfl
  have hends : Slave.fire (shotCtx s F false (Slave.holding e H sl)) (Slave.holding e H sl) =
      Slave.felled e (Slave.holdEnded sl) := by
    have := h.ends s e H
    exact this
  have hends' : Slave.fire (shotCtx s' F false (Slave.holding e H sl)) (Slave.holding e H sl) =
      Slave.felled e (Slave.holdEnded sl) := by
    have := h.ends s' e H
    exact this
  have hrd : (Slave.felled e (Slave.holdEnded sl)).drive = false := h.listens.released
  rcases Nat.lt_trichotomy F E with hlt | heq | hgt
  · -- the hold is over before the slot is
    obtain ⟨x, hx, hsx, hax⟩ := h.rises hq.2.2.2 e H
    have hxd : x.drive = false := hax.writes.listening.released
    have hxw : x.wake = none := hax.writes.listening.wake
    have hev2 := shot_runBefore_event (s := s) (d := false) (t := e) hq F E k hht' hhw (by simp only [F]; omega) hlt
      (by rw [hends, hx, hxd, hrd])
    rw [hends, hx] at hev2
    have hcoast : coast (slotTail g b) (shot s n false sl) = shot s E false x := by
      rw [coast, hnow]
      show goTo E (runBefore (slotTail g b) E (shot s n false sl)) = _
      rw [hk, hev1, hev2, shot_runBefore_quiet hq _ _ (Slave.quiet_of_asleep _ hxw), shot_goTo hq _ (Nat.le_of_lt hlt),
        Slave.fire_asleep hxw]
    refine ⟨s', x, ?_, hsh, .inr ⟨hax, hsx⟩⟩
    rw [hcoast]
    have hmax : max (n + slotTail g b) (n + sl.cfg.tSBusy + H) = E := Nat.max_eq_left (Nat.le_of_lt hlt)
    have hl : line (shot s' E false x) = true := by simp [line, shot, hq'.1, hxd]
    show pollLoop _ pollFuel (shot s' E false x) = _
    rw [hpk, pollLoop, if_pos hl, hmax]
  · -- it ends with the slot
    have hcoast : coast (slotTail g b) (shot s n false sl) = shot s E false (Slave.felled e (Slave.holdEnded sl)) := by
      rw [coast, hnow]
      show goTo E (runBefore (slotTail g b) E (shot s n false sl)) = _
      have hev2 : runBefore (k + 1) E (shot s e false (Slave.holding e H sl)) = shot s e false (Slave.holding e H sl) := by
        rw [runBefore, shot_nextEvent hq, Slave.nextWake, hht', if_neg (by decide), hhw]
        simp only
        rw [if_neg (by omega)]
      rw [hk, hev1, hev2, shot_goTo hq _ (by simp only [e, E]; omega), ← heq, hends]
    refine ⟨s', _, ?_, hsh, .inl ⟨rfl, Nat.le_of_eq heq.symm⟩⟩
    rw [hcoast]
    have hmax : max (n + slotTail g b) (n + sl.cfg.tSBusy + H) = E :=
      Nat.max_eq_left (Nat.le_of_eq heq)
    have hl : line (shot s' E false (Slave.felled e (Slave.holdEnded sl))) = true := by
      simp [line, shot, hq'.1, hrd]
    show pollLoop _ pollFuel (shot s' E false (Slave.felled e (Slave.holdEnded sl))) = _
    rw [hpk, pollLoop, if_pos hl, hmax]
  · -- the poll waits for it
    have hqu : (Slave.holding e H sl).QuietUntil E := by
      intro w hw
      rw [hhw] at hw
      injection hw with hw
      omega
    have hcoast : coast (slotTail g b) (shot s n false sl) = shot s E false (Slave.holding e H sl) := by
      rw [coast, hnow]
      show goTo E (runBefore (slotTail g b) E (shot s n false sl)) = _
      rw [hk, hev1, shot_runBefore_quiet hq _ _ hqu, shot_goTo hq _ (by simp only [e, E]; omega),
        Slave.fire_quiet (c := shotCtx s E false (Slave.holding e H sl)) hqu]
    refine ⟨s', _, ?_, hsh, .inl ⟨rfl, Nat.le_of_lt hgt⟩⟩
    rw [hcoast]
    have hmax : max (n + slotTail g b) (n + sl.cfg.tSBusy + H) = F := Nat.max_eq_right (Nat.le_of_lt hgt)
    have hl0 : line (shot s' E false (Slave.holding e H sl)) = false := by simp [line, shot, hhd]
    have hst : Slave.settle (shotCtx s' E false (Slave.holding e H sl)) (Slave.holding e H sl) = Slave.holding e H sl := by
      have hc : shotCtx s' E false (Slave.holding e H sl) = { now := E, level := false, cfg := s'.cfg } := by
        simp [shotCtx, hhd]
      rw [hc]
      exact Slave.settle_still rfl (Slave.resume_interval .handler rfl (by decide) (by decide))
    have h3 : Machine.settle (shot s' E false (Slave.holding e H sl)) = shot s' E false (Slave.holding e H sl) := by
      rw [shot_settle hq' (by rw [hst]), hst]
    have hne : nextEvent (shot s' E false (Slave.holding e H sl)) = some F := by
      rw [shot_nextEvent hq', Slave.nextWake, hht', if_neg (by decide), hhw]
    have hl : line (shot s' F false (Slave.felled e (Slave.holdEnded sl))) = true := by
      simp [line, shot, hq'.1, hrd]
    show pollLoop limit pollFuel (shot s' E false (Slave.holding e H sl)) = _
    have hgo : pollLoop limit (pk + 1) (goTo F (shot s' E false (Slave.holding e H sl))) =
        .high (shot s' F false (Slave.felled e (Slave.holdEnded sl))) := by
      rw [shot_goTo hq' _ (Nat.le_of_lt hgt), hends', pollLoop, if_pos hl]
    rw [hpk, pollLoop, if_neg (by rw [hl0]; decide), h3]
    simp only [hl0, hne]
    rw [if_neg (by decide), hmax, ← hgo]
    cases limit with
    | none => rfl
    | some l => exact if_pos (hlim l rfl)

/-- The delay `T_M_POLL` after the poll: the slave is writing its ack byte when it ends (R272, R282). -/
theorem Slave.BusySoon.ready (h : sl.BusySoon g n len m calls times fs) (hq : s.NoOthers g) (T : Nat) (x : Slave)
    (hx : (x = Slave.felled (n + sl.cfg.tSBusy) (Slave.holdEnded sl) ∧ n + sl.cfg.tSBusy ≤ T) ∨
      (x.Acking g len m (len :: calls) times.tail fs ∧ Slave.SameAck sl x)) (d : Nat) :
    ∃ y, mWait d (shot s T false x) = shot s (T + d) false y ∧ y.Acking g len m (len :: calls) times.tail fs ∧
      Slave.SameAck sl y := by
  rcases hx with ⟨rfl, hT⟩ | ⟨hax, hsx⟩
  · obtain ⟨y, hy, hsy, hay⟩ := h.rises hq.2.2.2 (n + sl.cfg.tSBusy) (T - (n + sl.cfg.tSBusy))
    rw [show n + sl.cfg.tSBusy + (T - (n + sl.cfg.tSBusy)) = T by omega] at hy
    refine ⟨y, ?_, hay, hsy⟩
    have hrd : (Slave.felled (n + sl.cfg.tSBusy) (Slave.holdEnded sl)).drive = false := h.listens.released
    rw [mWait_shot hq, shot_settle hq (by rw [hy, hrd]; exact hay.writes.listening.released), hy,
      shot_coast_quiet hq _ (Slave.quiet_of_asleep _ hay.writes.listening.wake)]
  · refine ⟨x, ?_, hax, hsx⟩
    have hl := hax.writes.listening
    have hst : Slave.settle (shotCtx s T false x) x = x :=
      Slave.settle_listening (c := shotCtx s T false x) (hq.2.2.2 ▸ hl) (by simp [shotCtx, hl.released])
    rw [mWait_shot hq, shot_settle hq (by rw [hst]), hst, shot_coast_quiet hq _ (Slave.quiet_of_asleep _ hl.wake)]

/-- The ack byte is read and the slave's operation ends (R273, R275, R282). -/
theorem Slave.Acking.receive (h : sl.Acking g len m calls times []) (hu : sl.upstream = []) (hs : sl.cfg.tSSit < us g 64)
    (hq : s.NoOthers g) (t : Nat) :
    ∃ x, mReceiveByte (shot s t false sl) = (ackByteValue, shot (s.shifter ackByteValue 8) (t + us g 560) false x) ∧
      Slave.SameAck sl x ∧ x.AtRest ∧ x.Base g ∧ x.status = statusCode .ok ∧ x.data = len ∧ x.logLen = len ∧
      x.logBuf = m ∧ x.handlerCalls = calls ∧ x.handlerTimes = times ∧ x.stack = [] := by
  have hr (c : Ctx) (x : Slave) (hx : x.upstream = []) : Slave.ret c 0 [.logAck] x =
      { x with status := statusCode .ok, data := x.logLen, pos := .idle, stack := [], wake := none } := by
    show Slave.opDone c { x with status := statusCode .ok, data := x.logLen } = _
    simp only [Slave.opDone]
    rw [hx]
  obtain ⟨c, x, -, hd, he⟩ := h.writes.receive hq t hs
    (fun c x _ hd => by rw [hr c x (hd.same.upstream.trans hu)])
  rw [hr c x (hd.same.upstream.trans hu)] at he
  have hb : x.Base g := h.writes.listening.base.drift hd
  exact ⟨_, he, hd.sameAck.trans ⟨rfl, rfl, rfl, rfl, rfl, rfl, rfl, rfl, rfl, rfl⟩, ⟨rfl, rfl, hb.released⟩,
    hb.same rfl rfl rfl rfl rfl rfl, rfl, hd.same.logLen.trans h.logLen, hd.same.logLen.trans h.logLen,
    hd.same.logBuf.trans h.logBuf, hd.same.handlerCalls.trans h.calls, hd.same.handlerTimes.trans h.times, rfl⟩

end Sys2Proof.Machine
end

