-- ==== Sys2Proof/Laws/Traffic.lean ====
section
/-! SUPPORT. A requested slave operation and the pulses some driver outside the block makes (`pulseTrain`): what each pulse and each
self-timed interval does to a slave alone on the line (spec/42_slave_pulse_reset.md R194 to R200,
spec/43_slave_bit_byte.md R215 to R224). -/

namespace Sys2Proof.Machine

/-- `s` at instant `t` with an outside driver and one slave as given. -/
def scene (s : State) (t : Nat) (od : Bool) (ow : List Nat) (sl : Slave) : State :=
  { s with now := t, otherDrive := od, otherWave := ow, slaves := [sl] }

variable {s : State} {t : Nat} {od : Bool} {ow : List Nat} {sl : Slave} {u : PulseUse} {rest fs : List Frame}

/-- The master is between two operations. -/
def Master.Rests (m : Master) : Prop := m.drive = false ∧ m.pos = .ready

def sceneCtx (s : State) (t : Nat) (od : Bool) (sl : Slave) : Ctx := { now := t, level := !(od || sl.drive), cfg := s.cfg }

theorem scene_ctx (hm : s.master.Rests) : (scene s t od ow sl).ctx = sceneCtx s t od sl := by
  simp [State.ctx, scene, sceneCtx, line, hm.1]

theorem scene_nextEvent : nextEvent (scene s t od ow sl) = earlier sl.nextWake (ow.head?.map (max (t + 1))) := rfl

theorem scene_settleOnce (hm : s.master.Rests) :
    settleOnce (scene s t od ow sl) = scene s t od ow (Slave.settle (sceneCtx s t od sl) sl) := by
  rw [settleOnce, scene_ctx hm]; rfl

theorem scene_settle (hm : s.master.Rests) (hd : (Slave.settle (sceneCtx s t od sl) sl).drive = sl.drive) :
    settle (scene s t od ow sl) = scene s t od ow (Slave.settle (sceneCtx s t od sl) sl) := by
  have hl : line (settleOnce (scene s t od ow sl)) = line (scene s t od ow sl) := by
    rw [scene_settleOnce hm]
    simp [line, scene, hd]
  have : (scene s t od ow sl).slaves.length = 1 := rfl
  rw [settle, this, settleLoop_succ 0 _ fun h => absurd hl h, if_pos hl, scene_settleOnce hm]

theorem scene_goTo (hm : s.master.Rests) (t' : Nat) (ht : t ≤ t') :
    goTo t' (scene s t od ow sl) = moveOthers (scene s t' od ow (Slave.fire (sceneCtx s t' od sl) sl)) := by
  have h1 : ({ scene s t od ow sl with now := max (scene s t od ow sl).now t' } : State) = scene s t' od ow sl := by
    simp [scene, Nat.max_eq_right ht]
  rw [goTo, h1, fireAll, scene_ctx hm]
  rfl

/-- A slave's `Wait` is exact without `DELAY_SLACK`. -/
theorem Slave.waitFor_ctx (hz : s.cfg.delaySlack = 0) (n : Nat) (l : Bool) (u : DelayUse) (d : Nat) (sl : Slave) :
    Slave.waitFor { now := n, level := l, cfg := s.cfg } u d sl =
      Slave.delay { now := n, level := l, cfg := s.cfg } u d sl :=
  Slave.waitFor_exact { now := n, level := l, cfg := s.cfg } hz u d sl

/-! ### Turns of `runOp` -/

/-- In `j` turns `s` comes to `s'`. -/
def Turns (j : Nat) (s s' : State) : Prop := ∀ f, runOp 0 (f + j) s = runOp 0 f s'

theorem Turns.refl (s : State) : Turns 0 s s := fun _ => rfl

theorem Turns.trans {a b : Nat} {s s' s'' : State} (h : Turns a s s') (h' : Turns b s' s'') : Turns (a + b) s s'' := by
  intro f
  rw [show f + (a + b) = f + b + a by omega, h, h']

theorem Turns.one {s s' : State} {e : Nat} (hm : s.master.Rests) (hmv : movesOn 0 s = true) (hn : nextEvent s = some e)
    (hs : settle (goTo e s) = s') : Turns 1 s s' := by
  intro f
  rw [runOp, if_pos (by simp [hmv, pollEnds, hm.2]), hn]
  exact congrArg (runOp 0 f) hs

/-- The turns end where the operation does not move on. -/
theorem Turns.run {j : Nat} {s s' : State} (h : Turns j s s') (hj : j ≤ requestFuel) (hend : movesOn 0 s' = false) :
    runOp 0 requestFuel s = s' := by
  obtain ⟨f, hf⟩ := Nat.exists_eq_add_of_le hj
  rw [hf, Nat.add_comm, h f]
  cases f with
  | zero => rfl
  | succ f => rw [runOp, hend, Bool.false_and, if_neg (by decide)]

theorem earlier_wake {e : Nat} (h : WaveAfter e ow) : earlier (some e) (ow.head?.map (max (t + 1))) = some e := by
  cases hh : ow.head? with
  | none => rfl
  | some a =>
    have := h a hh
    simp only [Option.map_some, earlier, Option.some.injEq]
    omega

/-- The outside driver's next change, later than now. -/
theorem nextOther_head {a : Nat} (hta : t < a) : ((a :: ow).head?.map (max (t + 1))) = some a := by
  rw [List.head?_cons, Option.map_some, Nat.max_eq_right hta]

theorem moveOthers_after {e : Nat} (h : WaveAfter e ow) : moveOthers (scene s e od ow sl) = scene s e od ow sl := by
  cases ow with
  | nil => rfl
  | cons a l =>
    have : e < a := h a rfl
    unfold moveOthers
    show (if a ≤ e then _ else _) = _
    rw [if_neg (by omega)]

/-- The slave's own interval ends. -/
theorem Turns.wake (hm : s.master.Rests) (e : Nat) (ht : sl.trapped = false) (hp : ∃ x, sl.pos = .delay x)
    (hw : sl.wake = some e) (hte : t ≤ e) (ha : WaveAfter e ow) {y : Slave}
    (hs : Slave.settle (sceneCtx s e od (Slave.fire (sceneCtx s e od sl) sl)) (Slave.fire (sceneCtx s e od sl) sl) = y)
    (hd : y.drive = (Slave.fire (sceneCtx s e od sl) sl).drive) :
    Turns 1 (scene s t od ow sl) (scene s e od ow y) := by
  obtain ⟨x, hp⟩ := hp
  refine Turns.one (e := e) hm ?_ ?_ ?_
  · simp [movesOn, scene, Slave.movesOn, ht, hp, hw]
  · rw [scene_nextEvent, Slave.nextWake, ht, if_neg (by decide), hw, earlier_wake ha]
  · rw [scene_goTo hm e hte, moveOthers_after ha, scene_settle hm (by rw [hs, hd]), hs]

/-- One pulse of the outside driver at a waiting slave. -/
theorem Turns.pulse (hm : s.master.Rests) (h : sl.Listening s.cfg u) (a w : Nat) (hta : t < a) (hw0 : 0 < w) :
    Turns 2 (scene s t false (a :: (a + w) :: ow) sl)
      (scene s (a + w) false ow
        (Slave.pulse (widthClass s.cfg w) { now := a + w, level := true, cfg := s.cfg } (Slave.measured s.cfg a w sl))) := by
  have hf : Slave.fire (sceneCtx s a false sl) sl = sl := Slave.fire_asleep h.wake
  have hc1 : sceneCtx s a true sl = { now := a, level := false, cfg := s.cfg } := by simp [sceneCtx]
  have hfd : (Slave.felled a sl).drive = false := h.released
  have h1 : Turns 1 (scene s t false (a :: (a + w) :: ow) sl) (scene s a true ((a + w) :: ow) (Slave.felled a sl)) := by
    refine Turns.one (e := a) hm ?_ ?_ ?_
    · simp [movesOn, scene, Slave.movesOn, h.trapped, h.pos]
    · rw [scene_nextEvent, Slave.nextWake, h.trapped, if_neg (by decide), h.wake, nextOther_head hta]; rfl
    · rw [scene_goTo hm a (Nat.le_of_lt hta), hf]
      have hmv : moveOthers (scene s a false (a :: (a + w) :: ow) sl) = scene s a true ((a + w) :: ow) sl := by
        unfold moveOthers
        exact if_pos (Nat.le_refl a)
      have hst : Slave.settle (sceneCtx s a true sl) sl = Slave.felled a sl := by
        rw [hc1]; exact Slave.settle_fall (c := { now := a, level := false, cfg := s.cfg }) h rfl
      rw [hmv, scene_settle hm (by rw [hst, hfd, h.released]), hst]
  have hfw : (Slave.felled a sl).wake = none := h.wake
  have hf2 : Slave.fire (sceneCtx s (a + w) true (Slave.felled a sl)) (Slave.felled a sl) = Slave.felled a sl :=
    Slave.fire_asleep hfw
  have hc2 : sceneCtx s (a + w) false (Slave.felled a sl) = { now := a + w, level := true, cfg := s.cfg } := by
    simp [sceneCtx, hfd]
  have h2 : Turns 1 (scene s a true ((a + w) :: ow) (Slave.felled a sl)) (scene s (a + w) false ow
        (Slave.pulse (widthClass s.cfg w) { now := a + w, level := true, cfg := s.cfg } (Slave.measured s.cfg a w sl))) := by
    refine Turns.one (e := a + w) hm ?_ ?_ ?_
    · have htr : (Slave.felled a sl).trapped = false := h.trapped
      have hps : (Slave.felled a sl).pos = .waitPulse u := h.pos
      simp [movesOn, scene, Slave.movesOn, htr, hps]
    · have htr : (Slave.felled a sl).trapped = false := h.trapped
      rw [scene_nextEvent, Slave.nextWake, htr, if_neg (by decide), hfw, nextOther_head (by omega)]; rfl
    · rw [scene_goTo hm (a + w) (by omega), hf2]
      have hmv : moveOthers (scene s (a + w) true ((a + w) :: ow) (Slave.felled a sl)) =
          scene s (a + w) false ow (Slave.felled a sl) := by
        unfold moveOthers
        exact if_pos (Nat.le_refl (a + w))
      have hst : Slave.settle (sceneCtx s (a + w) false (Slave.felled a sl)) (Slave.felled a sl) =
          Slave.pulse (widthClass s.cfg w) { now := a + w, level := true, cfg := s.cfg } (Slave.measured s.cfg a w sl) := by
        rw [hc2]; exact Slave.settle_rise (c := { now := a + w, level := true, cfg := s.cfg }) h rfl a w rfl
      rw [hmv, scene_settle hm (by rw [hst, Slave.pulse_released h, hfd]), hst]
  exact h1.trans h2

/-! ### Bits -/

/-- `S_READ_BIT` and one pulse (R215). -/
theorem Turns.readBit (hm : s.master.Rests) (h : sl.Listening s.cfg .readBit) (a w : Nat) (hta : t < a) (hw0 : 0 < w) (b : Bool)
    (hb : bitOfWidth s.cfg w = some b) :
    ∃ c x, c.cfg = s.cfg ∧ c.now = a + w ∧ Slave.Drift sl x ∧ x.shift = sl.shift ∧ x.bitcnt = sl.bitcnt ∧
      Turns 2 (scene s t false (a :: (a + w) :: ow) sl)
        (scene s (a + w) false ow (Slave.returnValue c (bitByte b) x)) := by
  refine ⟨{ now := a + w, level := true, cfg := s.cfg }, Slave.measured s.cfg a w sl, rfl, rfl,
    ⟨a, true, _, _, sl.pos, sl.wake, sl.shift, sl.bitcnt, rfl⟩, rfl, rfl, ?_⟩
  have hp := Turns.pulse (ow := ow) hm h a w hta hw0
  have hpos : (Slave.measured s.cfg a w sl).pos = .waitPulse .readBit := h.pos
  unfold bitOfWidth at hb
  cases hc : widthClass s.cfg w with
  | one =>
    rw [hc] at hb hp
    simp only [Option.some.injEq] at hb
    subst hb
    simp only [Slave.pulse, Slave.pulseOne, hpos] at hp
    exact hp
  | zero =>
    rw [hc] at hb hp
    simp only [Option.some.injEq] at hb
    subst hb
    simp only [Slave.pulse, Slave.pulseZero, hpos] at hp
    exact hp
  | bad => simp [hc] at hb
  | reset => simp [hc] at hb

/-- `S_WRITE_BIT 1` and a start pulse (R216, R224). -/
theorem Turns.writeOne (hm : s.master.Rests) (hz : s.cfg.delaySlack = 0) (h : sl.Listening s.cfg (.writeStart true)) (a w : Nat) (hta : t < a) (hw0 : 0 < w)
    (hw : w < us s.cfg 15) (ha : WaveAfter (a + w + us s.cfg 64) ow) :
    ∃ c x, c.cfg = s.cfg ∧ c.now = a + w + sl.cfg.tSSit ∧ Slave.Drift sl x ∧ x.shift = sl.shift ∧ x.bitcnt = sl.bitcnt ∧
      Turns 3 (scene s t false (a :: (a + w) :: ow) sl)
        (scene s (a + w + sl.cfg.tSSit) false ow (Slave.returnValue c 0 x)) := by
  obtain ⟨-, -, -, -, -, h46, h64, -⟩ := (SlaveConfig.valid_iff _ _).mp h.valid
  have hsit : 0 < sl.cfg.tSSit := Nat.lt_of_lt_of_le (us_pos _ (by decide)) h46
  let c1 : Ctx := { now := a + w, level := true, cfg := s.cfg }
  let e := a + w + sl.cfg.tSSit
  let sl1 : Slave := Slave.delay c1 .sitOut sl.cfg.tSSit (Slave.measured s.cfg a w sl)
  have hw1 : sl1.wake = some e := by
    show some (deadline (a + w) sl.cfg.tSSit) = _
    rw [deadline_pos _ _ hsit]
  have hp := Turns.pulse (ow := ow) hm h a w hta hw0
  have hpos : (Slave.measured s.cfg a w sl).pos = .waitPulse (.writeStart true) := h.pos
  have hcl : widthClass s.cfg w = .one := by simp [widthClass, hw]
  simp only [hcl, Slave.pulse, Slave.pulseOne, hpos, Slave.waitFor_ctx hz] at hp
  have hp : Turns 2 _ (scene s (a + w) false ow sl1) := hp
  have ht1 : sl1.trapped = false := h.trapped
  have hd1 : sl1.drive = false := h.released
  have hf : Slave.fire (sceneCtx s e false sl1) sl1 = sl1 := by
    rw [Slave.fire_due e ht1 hw1 rfl]; rfl
  have hctx : sceneCtx s e false sl1 = { now := e, level := true, cfg := s.cfg } := by simp [sceneCtx, hd1]
  let c2 : Ctx := { now := e, level := true, cfg := s.cfg }
  let x : Slave := { sl1 with pulseNew := false }
  have hset : Slave.settle (sceneCtx s e false sl1) sl1 = Slave.returnValue c2 0 x := by
    have hobs : Slave.observe c2 sl1 = sl1 := by
      unfold Slave.observe
      exact if_pos rfl
    rw [hctx, Slave.settle, hobs, Slave.resume_sitOut ht1 rfl h.no_timeout, Slave.due_iff _ _ hw1, if_pos (by simp)]
  have h2 := Turns.wake (od := false) (ow := ow) hm e ht1 ⟨_, rfl⟩ hw1 (t := a + w) (by simp only [e]; omega)
    (fun b hb => by have := ha b hb; simp only [e]; omega) (y := Slave.returnValue c2 0 x) (by rw [hf, hset])
    (by rw [hf, hd1]; exact Slave.returnValue_released _ _ hd1)
  have hpn : sl.pulseNew = false := h.no_event
  refine ⟨c2, x, rfl, rfl, ⟨a, true, ticksIn s.cfg sl.cfg w % 2 ^ sl.cfg.tickWidth,
    decide (2 ^ sl.cfg.tickWidth ≤ ticksIn s.cfg sl.cfg w), .delay .sitOut, some e, sl.shift, sl.bitcnt, ?_⟩,
    rfl, rfl, hp.trans h2⟩
  rw [← hw1]
  show ({ sl1 with pulseNew := false } : Slave) = _
  rw [← hpn]
  rfl

/-- `S_WRITE_BIT 0` and a start pulse (R216). -/
theorem Turns.writeZero (hm : s.master.Rests) (hz : s.cfg.delaySlack = 0) (h : sl.Listening s.cfg (.writeStart false)) (a w : Nat) (hta : t < a) (hw0 : 0 < w)
    (hw : w < us s.cfg 15) (ha : WaveAfter (a + w + us s.cfg 64) ow) :
    ∃ c x, c.cfg = s.cfg ∧ c.now = a + w + sl.cfg.tSResp + tSW0 s.cfg ∧ Slave.Drift sl x ∧ x.shift = sl.shift ∧
      x.bitcnt = sl.bitcnt ∧ Turns 4 (scene s t false (a :: (a + w) :: ow) sl)
        (scene s (a + w + sl.cfg.tSResp + tSW0 s.cfg) false ow (Slave.returnValue c 0 x)) := by
  obtain ⟨-, -, -, h0, h9, -⟩ := (SlaveConfig.valid_iff _ _).mp h.valid
  have hsum : us s.cfg 9 + tSW0 s.cfg < us s.cfg 64 := by simp only [tSW0, us_add]; exact us_lt s.cfg (by decide)
  let c1 : Ctx := { now := a + w, level := true, cfg := s.cfg }
  let e := a + w + sl.cfg.tSResp
  let e2 := e + tSW0 s.cfg
  let sl1 : Slave := Slave.delay c1 .respond sl.cfg.tSResp (Slave.measured s.cfg a w sl)
  have hw1 : sl1.wake = some e := by
    show some (deadline (a + w) sl.cfg.tSResp) = _
    rw [deadline_pos _ _ h0]
  have hp := Turns.pulse (ow := ow) hm h a w hta hw0
  have hpos : (Slave.measured s.cfg a w sl).pos = .waitPulse (.writeStart false) := h.pos
  have hcl : widthClass s.cfg w = .one := by simp [widthClass, hw]
  simp only [hcl, Slave.pulse, Slave.pulseOne, hpos, Slave.waitFor_ctx hz] at hp
  have hp : Turns 2 _ (scene s (a + w) false ow sl1) := hp
  have hd1 : sl1.drive = false := h.released
  have ht1 : sl1.trapped = false := h.trapped
  have hctx1 : sceneCtx s e false sl1 = { now := e, level := true, cfg := s.cfg } := by simp [sceneCtx, hd1]
  let slh : Slave := Slave.delay { now := e, level := true, cfg := s.cfg } .hold (tSW0 s.cfg) (Slave.driveLow sl1)
  have hf : Slave.fire (sceneCtx s e false sl1) sl1 = slh := by
    rw [Slave.fire_due e ht1 hw1 rfl, hctx1]
    exact Slave.waitFor_ctx hz _ _ _ _ _
  have hdh : slh.drive = true := rfl
  let slf : Slave := Slave.felled e slh
  have heh : slh.takesEdges = true := h.enabled
  have hset1 : Slave.settle (sceneCtx s e false slh) slh = slf := by
    have hlp : slh.linePrev = true := rfl
    have hc : sceneCtx s e false slh = { now := e, level := false, cfg := s.cfg } := by simp [sceneCtx, hdh]
    have ho : Slave.observe (sceneCtx s e false slh) slh = slf := by
      rw [hc]
      simp [Slave.observe, hlp, Slave.edgeFall, heh, Slave.isrFall, slf, Slave.felled]
    rw [Slave.settle, ho]
    exact Slave.resume_interval .hold rfl (by decide) (by decide)
  have h2 := Turns.wake (od := false) (ow := ow) hm e ht1 ⟨_, rfl⟩ hw1 (t := a + w) (by simp only [e]; omega)
    (fun b hb => by have := ha b hb; simp only [e]; omega) (y := slf) (by rw [hf, hset1]) (by rw [hf]; rfl)
  have hwf : slf.wake = some e2 := by
    show some (deadline e (tSW0 s.cfg)) = _
    rw [deadline_pos _ _ (tSW0_pos _)]
  have htf : slf.trapped = false := h.trapped
  let slr : Slave := Slave.after a (ticksIn s.cfg sl.cfg w % 2 ^ sl.cfg.tickWidth)
    (decide (2 ^ sl.cfg.tickWidth ≤ ticksIn s.cfg sl.cfg w)) (.waitPulse .writeEnd) none sl
  have hlr : slr.Listening s.cfg .writeEnd :=
    ⟨rfl, rfl, h.valid, h.no_timeout, h.enabled, h.no_event, rfl, h.released, h.not_busy⟩
  have hff : Slave.fire (sceneCtx s e2 false slf) slf = Slave.felled e slr := by
    rw [Slave.fire_due e2 htf hwf rfl]
    have hwt : sl.cfg.waitTimeout.map (e2 + ·) = none := by rw [h.no_timeout]; rfl
    have hb : sl.busy = false := h.not_busy
    show ({ slf with drive := sl.busy, pos := .waitPulse .writeEnd, wake := sl.cfg.waitTimeout.map (e2 + ·) } :
      Slave) = _
    rw [hwt, show sl.busy = sl.drive from hb.trans h.released.symm]
    rfl
  have hdr : (Slave.felled e slr).drive = false := h.released
  have hctxr : sceneCtx s e2 false (Slave.felled e slr) = { now := e2, level := true, cfg := s.cfg } := by
    simp [sceneCtx, hdr]
  let c2 : Ctx := { now := e2, level := true, cfg := s.cfg }
  let sl2 : Slave := Slave.returnValue c2 0 (Slave.measured s.cfg e (tSW0 s.cfg) slr)
  have hset2 : Slave.settle (sceneCtx s e2 false (Slave.felled e slr)) (Slave.felled e slr) = sl2 := by
    rw [hctxr, Slave.settle_rise (c := { now := e2, level := true, cfg := s.cfg }) hlr rfl e (tSW0 s.cfg) rfl]
    rw [widthClass_sw0]
    rfl
  have hd2 : sl2.drive = false := Slave.returnValue_released _ _ h.released
  have h3 := Turns.wake (od := false) (ow := ow) hm e2 htf ⟨_, rfl⟩ hwf (t := e) (by simp only [e2]; omega)
    (fun b hb => by have := ha b hb; simp only [e, e2]; omega) (y := sl2) (by rw [hff, hset2]) (by rw [hff, hdr, hd2])
  exact ⟨c2, Slave.measured s.cfg e (tSW0 s.cfg) slr, rfl, rfl, ⟨e, true, ticksIn s.cfg sl.cfg (tSW0 s.cfg) % 2 ^ sl.cfg.tickWidth,
    decide (2 ^ sl.cfg.tickWidth ≤ ticksIn s.cfg sl.cfg (tSW0 s.cfg)), .waitPulse .writeEnd, none, sl.shift, sl.bitcnt,
    rfl⟩, rfl, rfl, (hp.trans h2).trans h3⟩

/-- `S_WRITE_BIT b` and a start pulse. -/
theorem Turns.writeBit (hm : s.master.Rests) (hz : s.cfg.delaySlack = 0) (b : Bool) (h : sl.Listening s.cfg (.writeStart b)) (a w : Nat)
    (hta : t < a) (hw0 : 0 < w) (hw : w < us s.cfg 15) (ha : WaveAfter (a + w + us s.cfg 64) ow) :
    ∃ j t' c x, j ≤ 4 ∧ a + w ≤ t' ∧ t' ≤ a + w + us s.cfg 64 ∧ c.cfg = s.cfg ∧ c.now = t' ∧ Slave.Drift sl x ∧
      x.shift = sl.shift ∧ x.bitcnt = sl.bitcnt ∧ Turns j (scene s t false (a :: (a + w) :: ow) sl)
        (scene s t' false ow (Slave.returnValue c 0 x)) := by
  obtain ⟨-, -, -, h0, h9, h46, h64, -⟩ := (SlaveConfig.valid_iff _ _).mp h.valid
  have hsum : us s.cfg 9 + tSW0 s.cfg < us s.cfg 64 := by simp only [tSW0, us_add]; exact us_lt s.cfg (by decide)
  cases b with
  | true =>
    obtain ⟨c, x, h1, h2, h3, h4, h5, h6⟩ := Turns.writeOne hm hz h a w hta hw0 hw ha
    exact ⟨3, _, c, x, by omega, by omega, by omega, h1, h2, h3, h4, h5, h6⟩
  | false =>
    obtain ⟨c, x, h1, h2, h3, h4, h5, h6⟩ := Turns.writeZero hm hz h a w hta hw0 hw ha
    exact ⟨4, _, c, x, by omega, by omega, by omega, h1, h2, h3, h4, h5, h6⟩

/-! ### Bytes -/

/-- `n` bits of a byte carried by pulses to a slave that misses `n` of it (R217). -/
theorem Turns.readBits (n : Nat) (hm : s.master.Rests) (h : sl.Listening s.cfg .readBit)
    (hst : sl.stack = .readByte :: rest) (hb : sl.bitcnt.toNat + (n + 1) = 8) (v : Byte) (ps : List (Nat × Nat))
    (hv : carriesBits s.cfg (n + 1) v ps) :
    ∃ c x, c.cfg = s.cfg ∧ c.now = trainEnd t ps ∧ Slave.Drift sl x ∧
      Turns (2 * (n + 1)) (scene s t false (pulseTrain t ps ++ ow) sl)
        (scene s (trainEnd t ps) false ow (Slave.ret c (shiftInBits (n + 1) v sl.shift) rest x)) := by
  induction n generalizing t sl v ps with
  | zero =>
    match ps, hv with
    | [p], ⟨hi, hp, _⟩ =>
      obtain ⟨c, x, hc, hn, hd, hs1, hs2, ht⟩ := Turns.readBit (ow := ow) hm h (t + p.1) p.2
        (Nat.lt_add_of_pos_right hi.1) hi.2 _ hp
      have hr : Slave.returnValue c (bitByte (v.getLsbD 0)) x =
          Slave.ret c (shiftInBits 1 v sl.shift) rest (Slave.shiftInBit (v.getLsbD 0) x) := by
        show Slave.ret c _ x.stack x = _
        rw [hd.stack, hst, Slave.ret_readByte c _ x 0 (by rw [hs2]; exact hb), if_pos rfl, hs1]
        rfl
      rw [hr] at ht
      refine ⟨c, _, hc, hn, hd.trans ?_, ht⟩
      obtain ⟨_, _, _, _, _, _, _, _, rfl⟩ := hd
      exact ⟨_, _, _, _, _, _, _, _, rfl⟩
  | succ n ih =>
    match ps, hv with
    | p :: ps, ⟨hi, hp, hv'⟩ =>
      obtain ⟨c, x, hc, hn, hd, hs1, hs2, ht⟩ := Turns.readBit (ow := pulseTrain (t + p.1 + p.2) ps ++ ow) hm h (t + p.1)
        p.2 (Nat.lt_add_of_pos_right hi.1) hi.2 _ hp
      have hr : Slave.returnValue c (bitByte (v.getLsbD 0)) x =
          Slave.await c .readBit { Slave.shiftInBit (v.getLsbD 0) x with stack := .readByte :: rest } := by
        show Slave.ret c _ x.stack x = _
        rw [hd.stack, hst, Slave.ret_readByte c _ x (n + 1) (by rw [hs2]; exact hb), if_neg (by omega)]
      rw [hr] at ht
      have hxb : x.Base s.cfg := h.base.drift hd
      generalize hy : Slave.await c .readBit _ = y at ht
      have hly : y.Listening s.cfg .readBit := by
        rw [← hy]
        exact (hxb.same (x := { Slave.shiftInBit (v.getLsbD 0) x with stack := .readByte :: rest }) rfl rfl rfl rfl rfl
          rfl).same (x := Slave.await c .readBit { Slave.shiftInBit (v.getLsbD 0) x with stack := .readByte :: rest })
          rfl rfl rfl rfl rfl rfl |>.listening rfl (Slave.await_forever c hxb.no_timeout)
      have hys : y.stack = .readByte :: rest := by rw [← hy]; rfl
      have hyb : y.bitcnt.toNat + (n + 1) = 8 := by
        rw [← hy]
        exact bitcnt_succ x.bitcnt (n + 1) (by rw [hs2]; exact hb)
      have hyh : y.shift = shiftIn sl.shift (v.getLsbD 0) := by rw [← hy, ← hs1]; rfl
      have hdy : Slave.Drift sl y := by
        refine hd.trans ?_
        rw [← hy]
        have hxs : x.stack = .readByte :: rest := hd.stack.trans hst
        exact ⟨x.tReset, x.swStarted, x.pulseLen, x.pulseOvf, .waitPulse .readBit, _, _, _, by
          rw [← hxs, ← hxb.line_prev]; rfl⟩
      obtain ⟨c', x', hc', hn', hd', ht'⟩ := ih (t := t + p.1 + p.2) (sl := y) hly hys hyb (v >>> 1) ps hv'
      refine ⟨c', x', hc', hn', hdy.trans hd', ?_⟩
      rw [hyh] at ht'
      have := ht.trans ht'
      rw [show 2 + 2 * (n + 1) = 2 * (n + 1 + 1) by omega] at this
      exact this

/-- A byte carried by eight pulses to a slave that begins to read one. -/
theorem Slave.Reads.traffic (h : sl.Reads s.cfg fs) (hm : s.master.Rests) (t : Nat) (v : Byte) (ps : List (Nat × Nat))
    (hv : carriesBits s.cfg 8 v ps) (ow : List Nat) :
    ∃ c x, c.cfg = s.cfg ∧ c.now = trainEnd t ps ∧ Slave.Drift sl x ∧
      Turns 16 (scene s t false (pulseTrain t ps ++ ow) sl)
        (scene s (trainEnd t ps) false ow (Slave.ret c v fs x)) := by
  obtain ⟨c, x, hc, hn, hd, ht⟩ := Turns.readBits (t := t) (ow := ow) 7 hm h.listening h.stack
    (by rw [h.bitcnt]; rfl) v ps hv
  have hsh : shiftInBits (7 + 1) v sl.shift = v := by rw [h.shift]; exact shiftInBits_eight v
  rw [hsh] at ht
  exact ⟨c, x, hc, hn, hd, ht⟩

theorem waveAfter_train {e τ : Nat} {ps : List (Nat × Nat)} (h : ∀ p, ps.head? = some p → e < τ + p.1)
    (ho : ps = [] → WaveAfter e ow) : WaveAfter e (pulseTrain τ ps ++ ow) := by
  cases ps with
  | nil => exact ho rfl
  | cons p ps =>
    intro a ha
    simp only [pulseTrain, List.cons_append, List.head?_cons, Option.some.injEq] at ha
    have := h p rfl
    omega

/-- The outside driver's start pulses for a slave that has `n` bits of a byte left to write (R218). -/
theorem Turns.writeBits (n : Nat) (hm : s.master.Rests) (hz : s.cfg.delaySlack = 0) (h : sl.Listening s.cfg (.writeStart (sl.shift.getLsbD 0)))
    (hst : sl.stack = .writeByte :: rest) (hb : sl.bitcnt.toNat + (n + 1) = 8) (τ : Nat) (p : Nat × Nat)
    (ps : List (Nat × Nat)) (hl : ps.length = n) (ht : t < τ + p.1) (hw0 : 0 < p.2) (hw : p.2 < us s.cfg 15)
    (hps : ∀ q ∈ ps, us s.cfg 64 < q.1 ∧ 0 < q.2 ∧ q.2 < us s.cfg 15) (ho : WaveAfter (trainEnd τ (p :: ps) + us s.cfg 64) ow) :
    ∃ j t' c x, j ≤ 4 * (n + 1) ∧ trainEnd τ (p :: ps) ≤ t' ∧ t' ≤ trainEnd τ (p :: ps) + us s.cfg 64 ∧ c.cfg = s.cfg ∧
      c.now = t' ∧ Slave.Drift sl x ∧
      Turns j (scene s t false (pulseTrain τ (p :: ps) ++ ow) sl) (scene s t' false ow (Slave.ret c 0 rest x)) := by
  induction n generalizing t sl τ p ps with
  | zero =>
    have hnil : ps = [] := List.length_eq_zero_iff.mp hl
    subst hnil
    obtain ⟨j, t', c, x, hj, h1, h2, hc, hn, hd, hs1, hs2, htn⟩ := Turns.writeBit (ow := ow) hm hz _ h (τ + p.1) p.2 ht hw0 hw ho
    have hr : Slave.returnValue c 0 x = Slave.ret c 0 rest (Slave.shiftOutBit x) := by
      show Slave.ret c _ x.stack x = _
      rw [hd.stack, hst, Slave.ret_writeByte c _ x 0 (by rw [hs2]; exact hb), if_pos rfl]
    rw [hr] at htn
    refine ⟨j, t', c, _, hj, h1, h2, hc, hn, hd.trans ?_, htn⟩
    obtain ⟨_, _, _, _, _, _, _, _, rfl⟩ := hd
    exact ⟨_, _, _, _, _, _, _, _, rfl⟩
  | succ n ih =>
    match ps, hl, hps with
    | q :: ps, hl, hps =>
      have hq := hps q (by simp)
      obtain ⟨j, t', c, x, hj, h1, h2, hc, hn, hd, hs1, hs2, htn⟩ :=
        Turns.writeBit (ow := pulseTrain (τ + p.1 + p.2) (q :: ps) ++ ow) hm hz _ h (τ + p.1) p.2 ht hw0 hw
          (waveAfter_train (fun r hr => by
            simp only [List.head?_cons, Option.some.injEq] at hr
            subst hr
            omega) (fun e => by simp at e))
      have hr : Slave.returnValue c 0 x = Slave.await c (.writeStart ((sl.shift >>> 1).getLsbD 0))
          { Slave.shiftOutBit x with stack := .writeByte :: rest } := by
        show Slave.ret c _ x.stack x = _
        rw [hd.stack, hst, Slave.ret_writeByte c _ x (n + 1) (by rw [hs2]; exact hb), if_neg (by omega), hs1]
      rw [hr] at htn
      have hxb : x.Base s.cfg := h.base.drift hd
      generalize hy : Slave.await c _ _ = y at htn
      have hyh : y.shift = sl.shift >>> 1 := by rw [← hy, ← hs1]; rfl
      have hly : y.Listening s.cfg (.writeStart (y.shift.getLsbD 0)) := by
        rw [hyh, ← hy]
        exact (hxb.same (x := Slave.await c (.writeStart ((sl.shift >>> 1).getLsbD 0))
          { Slave.shiftOutBit x with stack := .writeByte :: rest }) rfl rfl rfl rfl rfl rfl).listening rfl
          (Slave.await_forever c hxb.no_timeout)
      have hys : y.stack = .writeByte :: rest := by rw [← hy]; rfl
      have hyb : y.bitcnt.toNat + (n + 1) = 8 := by
        rw [← hy]
        exact bitcnt_succ x.bitcnt (n + 1) (by rw [hs2]; exact hb)
      have hdy : Slave.Drift sl y := by
        refine hd.trans ?_
        rw [← hy]
        have hxs : x.stack = .writeByte :: rest := hd.stack.trans hst
        exact ⟨x.tReset, x.swStarted, x.pulseLen, x.pulseOvf, .waitPulse (.writeStart ((sl.shift >>> 1).getLsbD 0)), _, _,
          _, by rw [← hxs, ← hxb.line_prev]; rfl⟩
      obtain ⟨j', t'', c', x', hj', h1', h2', hc', hn', hd', htn'⟩ := ih (t := t') (sl := y) hly hys hyb
        (τ + p.1 + p.2) q ps (by simpa using hl) (by omega) hq.2.1 hq.2.2 (fun r hr => hps r (by simp [hr])) ho
      exact ⟨j + j', t'', c', x', by omega, h1', h2', hc', hn', hdy.trans hd', htn.trans htn'⟩

/-- Eight start pulses of the outside driver for a slave that begins to write a byte. -/
theorem Slave.Writes.traffic {v : Byte} (h : sl.Writes s.cfg v fs) (hm : s.master.Rests) (hz : s.cfg.delaySlack = 0) (τ t : Nat) (p : Nat × Nat)
    (ps : List (Nat × Nat)) (hl : ps.length = 7) (ht : t < τ + p.1) (hw0 : 0 < p.2) (hw : p.2 < us s.cfg 15)
    (hps : ∀ q ∈ ps, us s.cfg 64 < q.1 ∧ 0 < q.2 ∧ q.2 < us s.cfg 15) (ho : WaveAfter (trainEnd τ (p :: ps) + us s.cfg 64) ow) :
    ∃ j t' c x, j ≤ 32 ∧ trainEnd τ (p :: ps) ≤ t' ∧ t' ≤ trainEnd τ (p :: ps) + us s.cfg 64 ∧ c.cfg = s.cfg ∧
      c.now = t' ∧ Slave.Drift sl x ∧
      Turns j (scene s t false (pulseTrain τ (p :: ps) ++ ow) sl) (scene s t' false ow (Slave.ret c 0 fs x)) := by
  obtain ⟨hls, hst, hb, hsh⟩ := h
  subst hsh
  exact Turns.writeBits 7 hm hz hls hst (by rw [hb]; rfl) τ p ps hl ht hw0 hw hps ho

end Sys2Proof.Machine
end

