-- ==== Sys2Proof/Laws/Requests.lean ====
section
/-! SUPPORT. A request of upstream code as a whole, with the traffic of an outside driver: how a wait begins, a reset pulse
and the presence pulse it calls for, and what the request leaves (spec/30_encoding.md R124, spec/42_slave_pulse_reset.md
R198 to R203). -/

namespace Sys2Proof.Machine

variable {g : Config} {k : Nat} {s : State} {t : Nat} {ow : List Nat} {sl : Slave} {u : PulseUse} {rest fs : List Frame}

theorem Slave.Ready.base (h : sl.Ready g) : sl.Base g :=
  ⟨h.valid, h.no_timeout, by simp [Slave.takesEdges, h.enabled, h.trapped, h.unmasked], h.no_event, h.line_prev,
    h.released, h.not_busy⟩

/-- Slave `k` alone on the line. -/
theorem Quiet.alone (hq : Quiet k s) (hk : s.slaves[k]? = some sl) :
    Alone k s (scene s s.now false s.otherWave sl) :=
  ⟨rfl, rfl, rfl, hq.otherDrive.symm, rfl, rfl, ⟨sl, hk, rfl⟩, hq.rest⟩

theorem RanAlone.of_alone {x : State} {y : Slave} (h : Alone k x (scene s t false ow y)) (hh : OthersHear k s x) :
    RanAlone k s x t ow ∧ x.slaves[k]? = some y := by
  obtain ⟨z, hz, hv⟩ := h.slave
  have hy : y = z := by simpa [scene] using hv
  exact ⟨⟨⟨h.cfg.symm, h.requests.symm, h.now.symm, h.otherDrive.symm, h.otherWave.symm, h.rest, hh⟩, h.master.symm⟩,
    hy ▸ hz⟩

theorem Quiet.rests (hq : Quiet k s) : s.master.Rests := ⟨hq.master, hq.ready⟩

theorem Slave.movesOn_idle (h : sl.pos = .idle) : sl.movesOn ow = false := by
  simp [Slave.movesOn, h]

/-- A requested operation that begins where the slave takes no edge: base level does the rest at once. -/
theorem Slave.settle_begun (c : Ctx) (op : SlaveOp) (x : Slave) (ht : x.trapped = false)
    (hl : x.linePrev = c.level ∨ x.takesEdges = false) :
    Slave.settle c (Slave.begun op x) = Slave.expire c (Slave.takeEvent c (Slave.start c op (Slave.begun op x))) := by
  have e : (Slave.begun op x).trapped = x.trapped ∧ (Slave.begun op x).linePrev = x.linePrev ∧
      (Slave.begun op x).pos = .begun op ∧ (Slave.begun op x).takesEdges = x.takesEdges := by
    cases op <;> exact ⟨rfl, rfl, rfl, rfl⟩
  have ho : Slave.observe c (Slave.begun op x) = Slave.begun op x := by
    rcases hl with h | h
    · exact if_pos (e.2.1.trans h)
    · simp [Slave.observe, Slave.edgeRise, Slave.edgeFall, e.2.2.2, h]
  rw [Slave.settle, ho, Slave.resume_eq, if_neg (by simp [e.1, ht]), e.2.2.1]

/-- One that is over at once. -/
theorem Slave.settle_begun_idle (c : Ctx) (op : SlaveOp) (x : Slave) (ht : x.trapped = false)
    (hl : x.linePrev = c.level ∨ x.takesEdges = false) (hp : (Slave.start c op (Slave.begun op x)).pos = .idle) :
    Slave.settle c (Slave.begun op x) = Slave.start c op (Slave.begun op x) := by
  rw [Slave.settle_begun c op x ht hl, Slave.takeEvent, hp]
  exact Slave.expire_other _ _ (by simp [hp])

theorem Slave.finish_last (c : Ctx) (st : Status) (v : Byte) (h : sl.upstream = []) :
    Slave.finish c st v sl = { sl with status := statusCode st, data := v, pos := .idle, stack := [], wake := none } := by
  simp [Slave.finish, Slave.opDone, h]

/-- An operation of a prepared slave that begins with a wait for a pulse does nothing to the line. -/
theorem Slave.Prepared.start_begun (h : sl.Prepared g) (hr : sl.drive = false) (hb : sl.busy = false) (c : Ctx) (op : SlaveOp)
    (hp : (Slave.start c op sl).pos = .waitPulse u) :
    Slave.start c op (Slave.begun op sl) = Slave.start c op sl ∧ (Slave.begun op sl).drive = false := by
  have hd : Slave.moveLine .busyEnd sl = sl := by
    cases sl
    simp_all [Slave.moveLine]
  cases op
  case init =>
    rw [show Slave.start c .init sl = Slave.finish c .ok 0 _ from rfl, Slave.finish_last _ _ _ (by exact h.upstream)] at hp
    cases hp
  case busyBegin =>
    rw [show Slave.start c .busyBegin sl = Slave.finish c .ok 0 _ from rfl, Slave.finish_last _ _ _ h.upstream] at hp
    cases hp
  case busyEnd =>
    rw [Slave.begun, hd]
    exact ⟨rfl, hr⟩
  all_goals exact ⟨rfl, hr⟩

/-- With no other request at this instant the operation runs. -/
theorem runBegun_alone {j : Nat} {x : State} (h : comesNow x = false) : runBegun j x = runOp j requestFuel (settle x) :=
  if_neg (by rw [h]; decide)

/-- A line that nobody but slave `k` can move has that slave's level. -/
theorem Quiet.line_eq {k : Nat} {s : State} {sl : Slave} (hq : Quiet k s) (hk : s.slaves[k]? = some sl) :
    line s = !sl.drive := by
  have : s.slaves.any (·.drive) = sl.drive := by
    cases hd : sl.drive
    · rw [List.any_eq_false]
      intro x hx
      obtain ⟨j, hj⟩ := List.getElem?_of_mem hx
      by_cases e : j = k
      · subst e
        obtain rfl := Option.some.inj (hk.symm.trans hj)
        simp [hd]
      · simp [(hq.rest j x e hj).2.2]
    · rw [List.any_eq_true]
      exact ⟨sl, List.mem_of_getElem? hk, hd⟩
  simp [line, hq.master, hq.otherDrive, this]

/-- A request that waits for a pulse, and whose wait is not over at once, runs through the coming traffic (R124, R194). -/
theorem Slave.Prepared.request (h : sl.Prepared s.cfg) (hk : s.slaves[k]? = some sl) (hq : Quiet k s) (op : SlaveOp) {j t' : Nat}
    {x y : Slave} (hp : (Slave.start s.ctx op sl).pos = .waitPulse u) (hn : (Slave.start s.ctx op sl).pulseNew = false)
    (hr : x.drive = false) (he : Slave.expire s.ctx (Slave.start s.ctx op sl) = x)
    (hT : Turns j (scene s s.now false s.otherWave x) (scene s t' false ow y))
    (hj : j ≤ requestFuel) (hend : y.movesOn ow = false) :
    ∃ t, requestOp k op s = .next t ∧ RanAlone k s t t' ow ∧ t.slaves[k]? = some y := by
  have ha := hq.alone hk
  have hreq := ha.requestOp op (fun x hx => by
    rw [hk] at hx
    injection hx with hx
    exact .inl (hx ▸ h.enabled))
  have hv : requestOp 0 op (scene s s.now false s.otherWave sl) = .next (scene s t' false ow y) := by
    unfold requestOp
    show (if sl.trapped = true then _ else if (!sl.intEnable && !sl.initComes && decide (op ≠ .init ∧ op ≠ .illegal)) = true
      then _ else
      if sl.pos = .idle then _ else _) = _
    rw [if_neg (by rw [h.trapped]; decide), if_neg (by rw [h.enabled]; simp), if_pos h.pos]
    obtain ⟨hst, hdr⟩ := h.start_begun h.released h.not_busy s.ctx op hp
    have hc : sceneCtx s s.now false (Slave.begun op sl) = s.ctx := by
      have := hq.line_eq hk
      simp [sceneCtx, hdr, State.ctx, this, h.released]
    have hset : Slave.settle (sceneCtx s s.now false (Slave.begun op sl)) (Slave.begun op sl) = x := by
      rw [Slave.settle_begun _ op sl h.trapped (.inl (by simp [sceneCtx, hdr, h.line_prev])), hc, hst, Slave.takeEvent, hp]
      dsimp only
      rw [if_neg (by simp [hn]), he]
    have hset' : Machine.settle { scene s s.now false s.otherWave sl with
        slaves := (scene s s.now false s.otherWave sl).slaves.set 0 (Slave.begun op sl) } =
        scene s s.now false s.otherWave x := by
      have h1 := scene_settle (s := s) (t := s.now) (od := false) (ow := s.otherWave) (sl := Slave.begun op sl) hq.rests
        (by rw [hset, hr, hdr])
      rw [hset] at h1
      exact h1
    rw [runBegun_alone (by exact hq.requests), hset', hT.run hj hend]
  rw [hv] at hreq
  cases ho : requestOp k op s with
  | next t =>
    rw [ho] at hreq
    exact ⟨t, rfl, RanAlone.of_alone hreq (hq.rest.hearOp ho)⟩
  | fault e => rw [ho] at hreq; exact hreq.elim
  | refused e => rw [ho] at hreq; exact hreq.elim

/-- The same without a timeout. -/
theorem Slave.Ready.request (h : sl.Ready s.cfg) (hk : s.slaves[k]? = some sl) (hq : Quiet k s) (op : SlaveOp) {j t' : Nat}
    {y : Slave} (hl : (Slave.start s.ctx op sl).Listening s.cfg u)
    (hT : Turns j (scene s s.now false s.otherWave (Slave.start s.ctx op sl)) (scene s t' false ow y))
    (hj : j ≤ requestFuel) (hend : y.movesOn ow = false) :
    ∃ t, requestOp k op s = .next t ∧ RanAlone k s t t' ow ∧ t.slaves[k]? = some y :=
  h.toPrepared.request hk hq op hl.pos hl.no_event hl.released (Slave.expire_endless _ _ hl.wake) hT hj hend

/-- A falling edge at a slave that takes it (R192). -/
theorem Slave.observe_fall (c : Ctx) (hp : sl.linePrev = true) (hl : c.level = false) (he : sl.takesEdges = true) :
    Slave.observe c sl = Slave.felled c.now sl := by
  rw [Slave.observe, if_neg (by rw [hp, hl]; decide), if_neg (by rw [hl]; decide), Slave.edgeFall, if_pos he]
  rfl

/-- A rising edge at a slave that takes it (R193). -/
theorem Slave.observe_rise (c : Ctx) (hp : sl.linePrev = false) (hl : c.level = true) (he : sl.takesEdges = true) :
    Slave.observe c sl = { Slave.isrRise c sl with linePrev := true } := by
  rw [Slave.observe, if_neg (by rw [hp, hl]; decide), if_pos hl, Slave.edgeRise, if_pos he]

/-- A request that needs no time and no traffic, or only begins to wait, whatever an outside driver does to the line. -/
theorem OthersAtRest.requestNow (hr : OthersAtRest k s) (hc : comesNow s = false) (hm : s.master.Rests)
    (hk : s.slaves[k]? = some sl)
    (op : SlaveOp) (hp : sl.pos = .idle) (ht : sl.trapped = false)
    (hi : sl.intEnable = true ∨ op = .init ∨ op = .illegal) {y : Slave}
    (hs : Slave.settle (sceneCtx s s.now s.otherDrive (Slave.begun op sl)) (Slave.begun op sl) = y)
    (hd : y.drive = (Slave.begun op sl).drive) (hend : y.movesOn s.otherWave = false) :
    ∃ t, requestOp k op s = .next t ∧ Alone k t (scene s s.now s.otherDrive s.otherWave y) := by
  have ha : Alone k s (scene s s.now s.otherDrive s.otherWave sl) :=
    ⟨rfl, rfl, rfl, rfl, rfl, rfl, ⟨sl, hk, rfl⟩, hr⟩
  have hreq := ha.requestOp op (fun x hx => by
    rw [hk] at hx
    injection hx with hx
    exact hx ▸ hi)
  have hv : requestOp 0 op (scene s s.now s.otherDrive s.otherWave sl) =
      .next (scene s s.now s.otherDrive s.otherWave y) := by
    unfold requestOp
    show (if sl.trapped = true then _ else if (!sl.intEnable && !sl.initComes && decide (op ≠ .init ∧ op ≠ .illegal)) = true
      then _ else
      if sl.pos = .idle then _ else _) = _
    rw [if_neg (by rw [ht]; decide), if_neg (by rcases hi with h | h | h <;> simp [h]), if_pos hp]
    have hset : Machine.settle { scene s s.now s.otherDrive s.otherWave sl with
        slaves := (scene s s.now s.otherDrive s.otherWave sl).slaves.set 0 (Slave.begun op sl) } =
        scene s s.now s.otherDrive s.otherWave y := by
      have h := scene_settle (s := s) (t := s.now) (od := s.otherDrive) (ow := s.otherWave)
        (sl := Slave.begun op sl) hm (by rw [hs]; exact hd)
      rw [hs] at h
      exact h
    have hmv : movesOn 0 (scene s s.now s.otherDrive s.otherWave y) = false := hend
    have hrun := Turns.run (Turns.refl (scene s s.now s.otherDrive s.otherWave y)) (Nat.zero_le _) hmv
    rw [runBegun_alone (by exact hc), hset, hrun]
  rw [hv] at hreq
  cases ho : requestOp k op s with
  | next t => rw [ho] at hreq; exact ⟨t, rfl, hreq⟩
  | fault e => rw [ho] at hreq; exact hreq.elim
  | refused e => rw [ho] at hreq; exact hreq.elim

/-- A machine whose slave `k` is alone in a scene differs from the scene's in its slaves only. -/
theorem Alone.scene_eq {x : State} {y : Slave} (h : Alone k x (scene s s.now s.otherDrive s.otherWave y)) :
    x = { s with slaves := x.slaves } ∧ OthersAtRest k x ∧ x.slaves[k]? = some y := by
  obtain ⟨z, hz, hv⟩ := h.slave
  have hy : y = z := by simpa [scene] using hv
  refine ⟨?_, h.rest, hy ▸ hz⟩
  obtain ⟨_, _, _, _, _, _, _⟩ := x
  obtain ⟨h1, h2, h3, h4, h5, h6, -, -⟩ := h
  simp only [scene] at h1 h2 h3 h4 h5 h6
  subst h1 h2 h3 h4 h5 h6
  rfl

/-- The same on a line that nobody else holds. -/
theorem Quiet.requestNow (hq : Quiet k s) (hk : s.slaves[k]? = some sl) (op : SlaveOp) (hp : sl.pos = .idle)
    (ht : sl.trapped = false) (hi : sl.intEnable = true ∨ op = .init ∨ op = .illegal) {y : Slave}
    (hs : Slave.settle (sceneCtx s s.now false (Slave.begun op sl)) (Slave.begun op sl) = y)
    (hd : y.drive = (Slave.begun op sl).drive) (hend : y.movesOn s.otherWave = false) :
    ∃ t, requestOp k op s = .next t ∧ RanAlone k s t s.now s.otherWave ∧ t.slaves[k]? = some y := by
  obtain ⟨t, h, ha⟩ := hq.rest.requestNow hq.requests hq.rests hk op hp ht hi (by rw [hq.otherDrive]; exact hs) hd hend
  rw [hq.otherDrive] at ha
  exact ⟨t, h, RanAlone.of_alone ha (hq.rest.hearOp h)⟩

/-- A slave that has drifted from a ready one through one operation and ends it. -/
theorem Slave.Ready.heardBytes {x : Slave} (h : sl.Ready g) (hd : Slave.Drift sl x) (c : Ctx) (st : Status) (v : Byte) :
    Slave.HeardBytes { sl with status := statusCode st, data := v } (Slave.finish c st v x) := by
  obtain ⟨tr, sw, pl, po, p, w, sh, bc, rfl⟩ := hd
  refine ⟨tr, sw, pl, po, sh, bc, ?_⟩
  unfold Slave.finish Slave.opDone
  dsimp only
  simp only [h.upstream, h.pos, h.wake, h.stack, h.line_prev]

/-- The same when the byte shifter was not used. -/
theorem Slave.Ready.heard {x : Slave} (h : sl.Ready g) (hd : Slave.Drift sl x) (hs : x.shift = sl.shift)
    (hb : x.bitcnt = sl.bitcnt) (c : Ctx) (st : Status) (v : Byte) :
    Slave.Heard { sl with status := statusCode st, data := v } (Slave.finish c st v x) := by
  obtain ⟨tr, sw, pl, po, sh, bc, e⟩ := h.heardBytes hd c st v
  have e1 : sh = sl.shift := by rw [← hs, show x.shift = (Slave.finish c st v x).shift by
    unfold Slave.finish Slave.opDone; dsimp only; split <;> rfl, e]
  have e2 : bc = sl.bitcnt := by rw [← hb, show x.bitcnt = (Slave.finish c st v x).bitcnt by
    unfold Slave.finish Slave.opDone; dsimp only; split <;> rfl, e]
  exact ⟨tr, sw, pl, po, by rw [e, e1, e2]⟩

/-- An operation that begins by emptying the call path begins from the slave itself. -/
theorem Slave.Ready.start_eq (h : sl.Ready g) : ({ sl with stack := [] } : Slave) = sl := by
  rw [← h.stack]

/-- The wait such an operation begins with. -/
theorem Slave.Ready.await (h : sl.Ready g) (c : Ctx) :
    (Slave.await c u { sl with stack := [] }).Listening g u ∧ Slave.Drift sl (Slave.await c u { sl with stack := [] }) ∧
      (Slave.await c u { sl with stack := [] }).shift = sl.shift ∧
      (Slave.await c u { sl with stack := [] }).bitcnt = sl.bitcnt ∧
      (Slave.await c u { sl with stack := [] }).cfg = sl.cfg ∧ (Slave.await c u { sl with stack := [] }).stack = [] := by
  rw [h.start_eq]
  exact ⟨Slave.await_listening c h.base, ⟨_, _, _, _, _, _, _, _, by rw [Slave.await, ← h.line_prev]⟩, rfl, rfl, rfl,
    h.stack⟩

/-- With no procedure waiting, the operation's value goes to upstream code. -/
theorem Slave.Drift.returns {x : Slave} (hd : Slave.Drift sl x) (h : sl.stack = []) (c : Ctx) (v : Byte) :
    Slave.returnValue c v x = Slave.finish c .ok v x := by
  have hx : x.stack = [] := hd.stack.trans h
  show Slave.ret c v x.stack x = _
  rw [hx]
  rfl

/-- An operation of one wait whose end is `(st, v)` to upstream code (R124). -/
theorem Slave.Ready.requestEnds (h : sl.Ready s.cfg) (hk : s.slaves[k]? = some sl) (hq : Quiet k s) (op : SlaveOp)
    {j t' : Nat} {x : Slave} {c : Ctx} {st : Status} {v : Byte} {st0 : Slave} (hl : (Slave.start s.ctx op sl).Listening s.cfg u)
    (hd : Slave.Drift st0 x) (hst0 : st0.upstream = [])
    (hT : Turns j (scene s s.now false s.otherWave (Slave.start s.ctx op sl))
      (scene s t' false ow (Slave.finish c st v x))) (hj : j ≤ requestFuel) :
    ∃ t, requestOp k op s = .next t ∧ RanAlone k s t t' ow ∧ t.slaves[k]? = some (Slave.finish c st v x) := by
  refine h.request hk hq op hl hT hj (Slave.movesOn_idle ?_)
  obtain ⟨tr, sw, pl, po, p, w, sh, bc, rfl⟩ := hd
  simp [Slave.finish, Slave.opDone, hst0]

/-- A slave whose operation has begun. -/
def Slave.Begun (sl st0 : Slave) : Prop :=
  ∃ stack pos wake shift bitcnt crc16 txn,
    st0 = { sl with stack := stack, pos := pos, wake := wake, shift := shift, bitcnt := bitcnt, crc16 := crc16
                    txnState := txn }

/-- The end of an operation that has drifted from its begin: only its registers differ. -/
theorem Slave.Ready.ends {st0 x : Slave} (h : sl.Ready g) (hb : Slave.Begun sl st0) (hd : Slave.Drift st0 x) (c : Ctx)
    (st : Status) (v : Byte) (tx : TxnState) :
    Slave.HeardBytes { sl with txnState := tx, crc16 := x.crc16, status := statusCode st, data := v }
      (Slave.finish c st v { x with txnState := tx }) := by
  obtain ⟨stk, pos, wk, sh0, bc0, crc, txn, rfl⟩ := hb
  obtain ⟨tr, sw, pl, po, p, w, sh, bc, rfl⟩ := hd
  refine ⟨tr, sw, pl, po, sh, bc, ?_⟩
  unfold Slave.finish Slave.opDone
  dsimp only
  simp only [h.upstream, h.pos, h.wake, h.stack, h.line_prev]

/-- The end of an operation that is no part of a transaction. -/
theorem Slave.Ready.endsPlain {st0 x : Slave} (h : sl.Ready g) (hb : Slave.Begun sl st0) (hd : Slave.Drift st0 x) (c : Ctx)
    (st : Status) (v : Byte) (h1 : x.crc16 = sl.crc16) (h2 : x.txnState = sl.txnState) :
    Slave.HeardBytes { sl with status := statusCode st, data := v } (Slave.finish c st v x) := by
  have := h.ends hb hd c st v sl.txnState
  have e : ({ x with txnState := sl.txnState } : Slave) = x := by rw [← h2]
  rw [e, h1] at this
  exact this

theorem Slave.Ready.asleep {x y : Slave} (h : sl.Ready g) (hx : Slave.HeardBytes y x) (hy : y.wake = sl.wake) :
    x.wake = none := by
  obtain ⟨_, _, _, _, _, _, rfl⟩ := hx
  exact hy.trans h.wake

theorem Slave.HeardBytes.pos {x : Slave} (h : Slave.HeardBytes sl x) : x.pos = sl.pos := by
  obtain ⟨_, _, _, _, _, _, rfl⟩ := h
  rfl

/-! ### A reset pulse and the presence pulse (R198) -/

theorem Turns.reset (hm : s.master.Rests) (hz : s.cfg.delaySlack = 0) (h : sl.Listening s.cfg u) (hu : takesReset u = true) (a w : Nat)
    (hta : t < a) (hw : us s.cfg 360 ≤ w) (ha : WaveAfter (a + w + us s.cfg 144) ow) :
    ∃ c x, c.cfg = s.cfg ∧ c.now = a + w + us s.cfg 144 ∧ Slave.Drift sl x ∧ x.shift = sl.shift ∧ x.bitcnt = sl.bitcnt ∧
      Slave.presented s.cfg (a + w) x = x ∧ Turns 4 (scene s t false (a :: (a + w) :: ow) sl)
        (scene s (a + w + us s.cfg 144) false ow (Slave.returnValue c 0
          { x with stack := resetCaller u :: sl.stack, txnState := .waitingRomCmd })) := by
  have hsum : tSQuiet s.cfg + tSPres s.cfg = us s.cfg 144 := by simp only [tSQuiet, tSPres, us_add]
  let c1 : Ctx := { now := a + w, level := true, cfg := s.cfg }
  let e := a + w + tSQuiet s.cfg
  let e2 := e + tSPres s.cfg
  let sl1 : Slave := Slave.delay c1 .quiet (tSQuiet s.cfg) { Slave.measured s.cfg a w sl with stack := resetCaller u :: sl.stack }
  have hw1 : sl1.wake = some e := by
    show some (deadline (a + w) (tSQuiet s.cfg)) = _
    rw [deadline_pos _ _ (tSQuiet_pos _)]
  have hp := Turns.pulse (ow := ow) hm h a w hta (Nat.lt_of_lt_of_le (us_pos _ (by decide)) hw)
  have hpos : (Slave.measured s.cfg a w sl).pos = .waitPulse u := h.pos
  have hcl : widthClass s.cfg w = .reset := by
    have h15 : us s.cfg 15 ≤ us s.cfg 360 := by exact us_le s.cfg (by decide)
    have h70 : us s.cfg 70 ≤ us s.cfg 360 := by exact us_le s.cfg (by decide)
    unfold widthClass
    rw [if_neg (by omega), if_neg (by omega), if_neg (by omega)]
  rw [hcl, Slave.pulse_reset _ hu hpos, Slave.presencePulse, Slave.waitFor_ctx hz] at hp
  have hp : Turns 2 _ (scene s (a + w) false ow sl1) := hp
  have hd1 : sl1.drive = false := h.released
  have ht1 : sl1.trapped = false := h.trapped
  have hctx1 : sceneCtx s e false sl1 = { now := e, level := true, cfg := s.cfg } := by simp [sceneCtx, hd1]
  let slh : Slave := Slave.delay { now := e, level := true, cfg := s.cfg } .presence (tSPres s.cfg) (Slave.driveLow sl1)
  have hf : Slave.fire (sceneCtx s e false sl1) sl1 = slh := by
    rw [Slave.fire_due e ht1 hw1 rfl, hctx1]
    exact Slave.waitFor_ctx hz _ _ _ _ _
  have hdh : slh.drive = true := rfl
  let slf : Slave := Slave.felled e slh
  have heh : slh.takesEdges = true := h.enabled
  have hset1 : Slave.settle (sceneCtx s e false slh) slh = slf := by
    have hlp : slh.linePrev = true := rfl
    have hc : sceneCtx s e false slh = { now := e, level := false, cfg := s.cfg } := by simp [sceneCtx, hdh]
    have ho : Slave.observe (sceneCtx s e false slh) slh = slf := by
      rw [hc]
      simp [Slave.observe, hlp, Slave.edgeFall, heh, Slave.isrFall, slf, Slave.felled]
    rw [Slave.settle, ho]
    exact Slave.resume_interval .presence rfl (by decide) (by decide)
  have h2 := Turns.wake (od := false) (ow := ow) hm e ht1 ⟨_, rfl⟩ hw1 (t := a + w) (by simp only [e]; omega)
    (fun b hb => by have := ha b hb; simp only [e]; omega) (y := slf) (by rw [hf, hset1]) (by rw [hf]; rfl)
  have hwf : slf.wake = some e2 := by
    show some (deadline e (tSPres s.cfg)) = _
    rw [deadline_pos _ _ (tSPres_pos _)]
  have htf : slf.trapped = false := h.trapped
  let slr : Slave := { Slave.after a (ticksIn s.cfg sl.cfg w % 2 ^ sl.cfg.tickWidth)
    (decide (2 ^ sl.cfg.tickWidth ≤ ticksIn s.cfg sl.cfg w)) (.waitPulse .presence) none sl with
    stack := resetCaller u :: sl.stack }
  have hlr : slr.Listening s.cfg .presence :=
    ⟨rfl, rfl, h.valid, h.no_timeout, h.enabled, h.no_event, rfl, h.released, h.not_busy⟩
  have hff : Slave.fire (sceneCtx s e2 false slf) slf = Slave.felled e slr := by
    rw [Slave.fire_due e2 htf hwf rfl]
    have hwt : sl.cfg.waitTimeout.map (e2 + ·) = none := by rw [h.no_timeout]; rfl
    have hb : sl.busy = false := h.not_busy
    show ({ slf with drive := sl.busy, pos := .waitPulse .presence, wake := sl.cfg.waitTimeout.map (e2 + ·) } :
      Slave) = _
    rw [hwt, show sl.busy = sl.drive from hb.trans h.released.symm]
    rfl
  have hdr : (Slave.felled e slr).drive = false := h.released
  have hctxr : sceneCtx s e2 false (Slave.felled e slr) = { now := e2, level := true, cfg := s.cfg } := by
    simp [sceneCtx, hdr]
  let c2 : Ctx := { now := e2, level := true, cfg := s.cfg }
  let sl2 : Slave := Slave.returnValue c2 0 { Slave.measured s.cfg e (tSPres s.cfg) slr with txnState := .waitingRomCmd }
  have hset2 : Slave.settle (sceneCtx s e2 false (Slave.felled e slr)) (Slave.felled e slr) = sl2 := by
    rw [hctxr, Slave.settle_rise (c := { now := e2, level := true, cfg := s.cfg }) hlr rfl e (tSPres s.cfg) rfl]
    rw [widthClass_spres]
    rfl
  have hd2 : sl2.drive = false := Slave.returnValue_released _ _ h.released
  have h3 := Turns.wake (od := false) (ow := ow) hm e2 htf ⟨_, rfl⟩ hwf (t := e) (by simp only [e2]; omega)
    (fun b hb => by have := ha b hb; simp only [e, e2]; omega) (y := sl2) (by rw [hff, hset2]) (by rw [hff, hdr, hd2])
  have he2 : e2 = a + w + us s.cfg 144 := by simp only [e2, e]; omega
  have hall := (hp.trans h2).trans h3
  rw [he2] at hall
  refine ⟨c2, Slave.after e (ticksIn s.cfg sl.cfg (tSPres s.cfg) % 2 ^ sl.cfg.tickWidth)
    (decide (2 ^ sl.cfg.tickWidth ≤ ticksIn s.cfg sl.cfg (tSPres s.cfg))) (.waitPulse .presence) none sl, rfl, he2,
    Slave.Drift.after _ _ _ _ _ sl, rfl, rfl, rfl, hall⟩

/-- A slave that waits for a reset discards a shorter pulse (R200). -/
theorem Turns.discard (hm : s.master.Rests) (h : sl.Listening s.cfg .waitReset) (a w : Nat) (hta : t < a)
    (hw0 : 0 < w) (hw : w < us s.cfg 360) :
    ∃ x, Slave.Drift sl x ∧ x.shift = sl.shift ∧ x.bitcnt = sl.bitcnt ∧ x.Listening s.cfg .waitReset ∧
      Turns 2 (scene s t false (a :: (a + w) :: ow) sl) (scene s (a + w) false ow x) := by
  have hp := Turns.pulse (ow := ow) hm h a w hta hw0
  have hpos : (Slave.measured s.cfg a w sl).pos = .waitPulse .waitReset := h.pos
  have he : Slave.pulse (widthClass s.cfg w) { now := a + w, level := true, cfg := s.cfg } (Slave.measured s.cfg a w sl) =
      Slave.await { now := a + w, level := true, cfg := s.cfg } .waitReset (Slave.measured s.cfg a w sl) := by
    cases hc : widthClass s.cfg w with
    | one => simp [Slave.pulse, Slave.pulseOne, hpos]
    | zero => simp [Slave.pulse, Slave.pulseZero, hpos]
    | bad => simp [Slave.pulse, Slave.pulseBad, hpos]
    | reset =>
      unfold widthClass at hc
      rw [if_pos hw] at hc
      split at hc
      · cases hc
      · split at hc <;> cases hc
  rw [he] at hp
  exact ⟨Slave.await { now := a + w, level := true, cfg := s.cfg } .waitReset (Slave.measured s.cfg a w sl),
    ⟨a, true, _, _, _, _, sl.shift, sl.bitcnt, rfl⟩, rfl, rfl,
    ⟨rfl, Slave.await_forever _ h.no_timeout, h.valid, h.no_timeout, h.enabled, h.no_event, rfl, h.released, h.not_busy⟩, hp⟩

theorem pulseTrain_append (t : Nat) (ps qs : List (Nat × Nat)) :
    pulseTrain t (ps ++ qs) = pulseTrain t ps ++ pulseTrain (trainEnd t ps) qs := by
  induction ps generalizing t with
  | nil => rfl
  | cons p ps ih => simp only [List.cons_append, pulseTrain, trainEnd, ih]

theorem trainEnd_append (t : Nat) (ps qs : List (Nat × Nat)) :
    trainEnd t (ps ++ qs) = trainEnd (trainEnd t ps) qs := by
  induction ps generalizing t with
  | nil => rfl
  | cons p ps ih => simp only [List.cons_append, trainEnd, ih]

/-- Any number of shorter pulses (R200). -/
theorem Turns.discards (ps : List (Nat × Nat)) (t : Nat) (ow : List Nat) (hm : s.master.Rests)
    (h : sl.Listening s.cfg .waitReset) (hps : ∀ p ∈ ps, isPulse p ∧ p.2 < us s.cfg 360) :
    ∃ x, Slave.Drift sl x ∧ x.shift = sl.shift ∧ x.bitcnt = sl.bitcnt ∧ x.Listening s.cfg .waitReset ∧
      Turns (2 * ps.length) (scene s t false (pulseTrain t ps ++ ow) sl) (scene s (trainEnd t ps) false ow x) := by
  induction ps generalizing t sl with
  | nil =>
    exact ⟨sl, ⟨_, _, _, _, _, _, _, _, by rw [← h.line_prev]⟩, rfl, rfl, h, Turns.refl _⟩
  | cons p ps ih =>
    obtain ⟨x, hd, h1, h2, hl, hT⟩ := Turns.discard (s := s) (t := t)
      (ow := pulseTrain (t + p.1 + p.2) ps ++ ow) hm h (t + p.1) p.2 
      (Nat.lt_add_of_pos_right (hps p List.mem_cons_self).1.1) (hps p List.mem_cons_self).1.2 (hps p List.mem_cons_self).2
    obtain ⟨y, hd', h1', h2', hl', hT'⟩ := ih (t + p.1 + p.2) hl fun q hq => hps q (List.mem_cons_of_mem _ hq)
    refine ⟨y, hd.trans hd', h1'.trans h1, h2'.trans h2, hl', ?_⟩
    have := hT.trans hT'
    rwa [show 2 + 2 * ps.length = 2 * (p :: ps).length by simp; omega] at this

end Sys2Proof.Machine
end

