-- ==== Sys2Proof/Laws/SearchOne.lean ====
section
/-! SUPPORT. A search with one slave in its dispatcher (spec/41_master_search_txn.md R161 to R166, spec/44_slave_dispatch.md
R243 to R246): the slave answers each position and the master reads its ROM-ID; or it is not alarmed and stays silent. -/

namespace Sys2Proof.Machine

variable {g : Config} {s : State} {t : Nat} {sl : Slave} {u : PulseUse} {rest fs : List Frame}

/-! ### A slave that discards everything short of a reset (R200) -/

/-- The slave waits for a reset in its dispatcher. -/
structure Slave.Resting (g : Config) (rest : List Frame) (sl : Slave) : Prop where
  listening : sl.Listening g .waitReset
  stack : sl.stack = .dispatcher :: rest
  txnState : sl.txnState = .waitingReset

theorem Slave.Resting.pulse (h : sl.Resting g rest) (hq : s.NoOthers g) (low high : Nat) (hw : low < us g 15) :
    ∃ x, mPulse low high (shot s t false sl) = shot s (t + low + high) false x ∧ Slave.Same sl x ∧ x.Resting g rest := by
  have hl := h.listening
  have hone : widthClass g low = .one := by simp [widthClass, hw]
  refine ⟨Slave.await { now := t + low, level := true, cfg := s.cfg } .waitReset (Slave.measured g t low sl), ?_, ?_, ?_⟩
  · rw [mPulse_shot hq hl, hone]
    have : Slave.pulse .one { now := t + low, level := true, cfg := s.cfg } (Slave.measured g t low sl) =
        Slave.await { now := t + low, level := true, cfg := s.cfg } .waitReset (Slave.measured g t low sl) := by
      simp [Slave.pulse, Slave.pulseOne, Slave.measured_pos, hl.pos]
    rw [this]
    exact shot_coast_quiet hq high (Slave.quiet_of_asleep _ (Slave.await_forever _ hl.no_timeout))
  · exact ⟨rfl, rfl, rfl, rfl, rfl, rfl, rfl, .inl ⟨rfl, rfl⟩, rfl, rfl, rfl, rfl, rfl, rfl⟩
  · exact ⟨⟨rfl, Slave.await_forever _ hl.no_timeout, hl.valid, hl.no_timeout, hl.enabled, hl.no_event, rfl, hl.released,
      hl.not_busy⟩, h.stack, h.txnState⟩

/-- Nobody answers: the master reads 1 (R148). -/
theorem Slave.Resting.readSlot (h : sl.Resting g rest) (hq : s.NoOthers g) :
    ∃ x, mReadSlot (shot s t false sl) = (true, shot s (t + us g 70) false x) ∧ Slave.Same sl x ∧ x.Resting g rest := by
  obtain rfl := hq.2.2.2
  obtain ⟨x, he, hs, hx⟩ := h.pulse hq (t := t) (tRl s.cfg) (tRs s.cfg) (us_lt s.cfg (by decide))
  refine ⟨x, ?_, hs, hx⟩
  have hd : x.drive = false := hx.listening.released
  have hl : line (shot s (t + tRl s.cfg + tRs s.cfg) false x) = true := by simp [line, shot, hq.1, hd]
  have hset : Machine.settle (shot s (t + tRl s.cfg + tRs s.cfg) false x) = shot s (t + tRl s.cfg + tRs s.cfg) false x := by
    have : Slave.settle (shotCtx s (t + tRl s.cfg + tRs s.cfg) false x) x = x :=
      Slave.settle_listening (c := shotCtx s (t + tRl s.cfg + tRs s.cfg) false x) (hx.listening) (by simp [shotCtx, hd])
    rw [shot_settle hq (by rw [this]), this]
  unfold mReadSlot
  dsimp only [shot_cfg]
  rw [he, hl, mWait_shot hq, hset, shot_coast_quiet hq (tRh s.cfg) (Slave.quiet_of_asleep _ hx.listening.wake)]
  simp only [tRl, tRs, tRh, us_add₃]

/-! ### The positions -/

/-- What a search run of an answering slave keeps: the parameters, the outside drivers and the requests, and the
candidate `last_zero` (no discrepancy, R163). -/
structure SearchSame (s s' : State) : Prop where
  cfg : s'.cfg = s.cfg
  otherDrive : s'.otherDrive = s.otherDrive
  otherWave : s'.otherWave = s.otherWave
  requests : s'.requests = s.requests
  lastZero : s'.master.lastZero = s.master.lastZero

theorem SearchSame.trans {a b c : State} (h : SearchSame a b) (h' : SearchSame b c) : SearchSame a c :=
  ⟨h'.1.trans h.1, h'.2.trans h.2, h'.3.trans h.3, h'.4.trans h.4, h'.5.trans h.5⟩

theorem SearchSame.noOthers {a b : State} (h : SearchSame a b) (hq : a.NoOthers g) : b.NoOthers g :=
  hq.congr h.cfg h.otherDrive h.otherWave

/-- The slave is about to write bit `m` of its ROM-ID, or has been through all 64 positions (R243, R245). -/
def Slave.Searching (g : Config) (rest : List Frame) (m : Nat) (sl : Slave) : Prop :=
  if m ≤ 64 then sl.Listening g (.writeStart (romBit sl.romId m)) ∧ sl.stack = .searchBit m :: .dispatcher :: rest
  else sl.Resting g rest

/-- The slave is about to read the direction at position `m`. -/
structure Slave.Directed (g : Config) (rest : List Frame) (m : Nat) (sl : Slave) : Prop where
  listening : sl.Listening g .readBit
  stack : sl.stack = .searchDirection m :: .dispatcher :: rest

theorem Slave.after_base (tr pl : Nat) (po : Bool) (p : Pos) (w : Option Nat) (h : sl.Base g) :
    (Slave.after tr pl po p w sl).Base g :=
  ⟨h.valid, h.no_timeout, h.enabled, h.no_event, rfl, h.released, h.not_busy⟩

/-- The two read slots of a position: the slave's bit and its complement (R113, R243). -/
theorem Slave.Searching.read {m : Nat} (h : sl.Searching g rest m) (hm : m ≤ 64) (hq : s.NoOthers g)
    (hs : sl.cfg.tSSit < us g 64) :
    ∃ x, searchRead (shot s t false sl) =
        shot { s with master := { s.master with b1 := romBit sl.romId m, b2 := !romBit sl.romId m } }
          (t + us g 140) false x ∧
      Slave.Same sl x ∧ x.Directed g rest m := by
  unfold Slave.Searching at h
  rw [if_pos hm] at h
  obtain ⟨hl, hst⟩ := h
  have hr1 (c : Ctx) (tr pl : Nat) (po : Bool) (p : Pos) (w : Option Nat) :
      Slave.returnValue c 0 (Slave.after tr pl po p w sl) =
        Slave.await c (.writeStart (!romBit sl.romId m))
          { Slave.after tr pl po p w sl with stack := .searchComplement m :: .dispatcher :: rest } := by
    show Slave.ret c _ sl.stack _ = _
    rw [hst]
    rfl
  obtain ⟨c, tr, pl, po, p, w, -, he⟩ := mReadSlot_shot hq (t := t) _ hl hs
    (fun c tr pl po p w _ => by rw [hr1]; exact Slave.await_forever c hl.no_timeout)
  rw [hr1] at he
  generalize hx1 : Slave.await c _ _ = x1 at he
  have hb0 : Slave.Base g { Slave.after tr pl po p w sl with stack := .searchComplement m :: .dispatcher :: rest } :=
    ⟨hl.valid, hl.no_timeout, hl.enabled, hl.no_event, rfl, hl.released, hl.not_busy⟩
  have hl1 : x1.Listening g (.writeStart (!romBit sl.romId m)) := hx1 ▸ Slave.await_listening c hb0
  have hst1 : x1.stack = .searchComplement m :: .dispatcher :: rest := by rw [← hx1]; rfl
  have hs1 : Slave.Same sl x1 := by
    rw [← hx1]
    exact ⟨rfl, rfl, rfl, rfl, rfl, rfl, rfl, .inl ⟨rfl, rfl⟩, rfl, rfl, rfl, rfl, rfl, rfl⟩
  have hr2 (c : Ctx) (tr pl : Nat) (po : Bool) (p : Pos) (w : Option Nat) :
      Slave.returnValue c 0 (Slave.after tr pl po p w x1) =
        Slave.await c .readBit
          { Slave.after tr pl po p w x1 with stack := .searchDirection m :: .dispatcher :: rest } := by
    show Slave.ret c _ x1.stack _ = _
    rw [hst1]
    rfl
  obtain ⟨c', tr', pl', po', p', w', -, he'⟩ := mReadSlot_shot hq (t := t + us g 70) _ hl1 (by rw [hs1.cfg]; exact hs)
    (fun c tr pl po p w _ => by rw [hr2]; exact Slave.await_forever c hl1.no_timeout)
  rw [hr2] at he'
  have hb1 : Slave.Base g { Slave.after tr' pl' po' p' w' x1 with stack := .searchDirection m :: .dispatcher :: rest } :=
    ⟨hl1.valid, hl1.no_timeout, hl1.enabled, hl1.no_event, rfl, hl1.released, hl1.not_busy⟩
  refine ⟨_, ?_, hs1.trans ?_, Slave.await_listening c' hb1, rfl⟩
  · unfold searchRead
    rw [he]
    dsimp only
    rw [he', us_add₂]
    rfl
  · exact ⟨rfl, rfl, rfl, rfl, rfl, rfl, rfl, .inl ⟨rfl, rfl⟩, rfl, rfl, rfl, rfl, rfl, rfl⟩

/-- The direction slot of a position: the master writes the bit it read, and the slave stays in (R243). -/
theorem Slave.Directed.write {m : Nat} (h : sl.Directed g rest m) (hm : m ≤ 64) (hq : s.NoOthers g)
    (h1 : s.master.b1 = romBit sl.romId m) (h2 : s.master.b2 = !romBit sl.romId m) :
    ∃ s' x, searchWrote m (shot s t false sl) = shot s' (t + us g 70) false x ∧ Slave.Same sl x ∧
      x.Searching g rest (m + 1) ∧ SearchSame s s' ∧
      s'.master.romBuf = setRomBit s.master.romBuf m (romBit sl.romId m) := by
  obtain ⟨hl, hst⟩ := h
  have hdir : direction (shot s t false sl).master s.master.b1 s.master.b2 m = romBit sl.romId m := by
    unfold direction
    rw [h1, h2]
    cases romBit sl.romId m <;> rfl
  have hchoose : chooseDirection s.master.b1 s.master.b2 m (shot s t false sl).master =
      { (shot s t false sl).master with
        dir := romBit sl.romId m, romBuf := setRomBit s.master.romBuf m (romBit sl.romId m) } := by
    unfold chooseDirection
    dsimp only
    rw [hdir, if_neg (by rw [h1, h2]; cases romBit sl.romId m <;> decide)]
    rfl
  have hr (c : Ctx) (tr pl : Nat) (po : Bool) (p : Pos) (w : Option Nat) :
      Slave.returnValue c (bitByte (romBit sl.romId m)) (Slave.after tr pl po p w sl) =
        if m < 64 then
          Slave.await c (.writeStart (romBit sl.romId (m + 1)))
            { Slave.after tr pl po p w sl with stack := .searchBit (m + 1) :: .dispatcher :: rest }
        else Slave.await c .waitReset
          { Slave.after tr pl po p w sl with txnState := .waitingReset, stack := .dispatcher :: rest } := by
    show Slave.ret c _ sl.stack _ = _
    rw [hst]
    show Slave.searchNext c m (byteBit (bitByte (romBit sl.romId m))) _ _ = _
    rw [byteBit_bitByte, Slave.searchNext]
    by_cases h64 : m < 64
    · rw [if_pos ⟨rfl, h64⟩, if_pos h64]
      rfl
    · rw [if_neg (fun h => h64 h.2), if_neg h64]
      rfl
  let s1 : State := { s with
    master := { s.master with
      dir := romBit sl.romId m, romBuf := setRomBit s.master.romBuf m (romBit sl.romId m) } }
  have hch : searchChosen m (shot s t false sl) = shot s1 t false sl := by
    show ({ shot s t false sl with master := chooseDirection s.master.b1 s.master.b2 m (shot s t false sl).master } :
      State) = _
    rw [hchoose]
    rfl
  obtain ⟨c, tr, pl, po, p, w, -, he⟩ := mWriteSlot_shot (s := s1) hq (t := t) hl (romBit sl.romId m)
    (fun c tr pl po p w _ => by rw [hr]; split <;> exact Slave.await_forever c hl.no_timeout)
  refine ⟨{ s1 with master := { s1.master with
    crc8 := crc8Bit s1.master.crc8 s1.master.dir, idBitNumber := BitVec.ofNat 7 (m + 1) } },
    Slave.returnValue c (bitByte (romBit sl.romId m)) (Slave.after tr pl po p w sl), ?_, ?_, ?_, ⟨rfl, rfl, rfl, rfl, rfl⟩,
    rfl⟩
  · unfold searchWrote
    rw [hch]
    have hd : (shot s1 t false sl).master.dir = romBit sl.romId m := rfl
    rw [hd, he]
    rfl
  · rw [hr]
    split <;> exact ⟨rfl, rfl, rfl, rfl, rfl, rfl, rfl, .inl ⟨rfl, rfl⟩, rfl, rfl, rfl, rfl, rfl, rfl⟩
  · unfold Slave.Searching
    rw [hr]
    by_cases h64 : m < 64
    · rw [if_pos h64, if_pos (by omega)]
      exact ⟨Slave.await_listening c
        ⟨hl.valid, hl.no_timeout, hl.enabled, hl.no_event, rfl, hl.released, hl.not_busy⟩, rfl⟩
    · rw [if_neg h64, if_neg (by omega)]
      exact ⟨Slave.await_listening c
        ⟨hl.valid, hl.no_timeout, hl.enabled, hl.no_event, rfl, hl.released, hl.not_busy⟩, rfl, rfl⟩

/-- The positions from `m` on: the slave answers each, and its bits stand in the buffer. -/
theorem Slave.Searching.bits (left m : Nat) (h : sl.Searching g rest m) (hm : 1 ≤ m) (hl : m + left = 65) (hq : s.NoOthers g)
    (hs : sl.cfg.tSSit < us g 64) :
    ∃ s' x, searchBits left m (shot s t false sl) = (true, shot s' (t + left * us g 210) false x) ∧ Slave.Same sl x ∧
      x.Resting g rest ∧ SearchSame s s' ∧
      ∀ j, 1 ≤ j → j ≤ 64 →
        romBit s'.master.romBuf j = if m ≤ j then romBit sl.romId j else romBit s.master.romBuf j := by
  induction left generalizing s t sl m with
  | zero =>
    unfold Slave.Searching at h
    rw [if_neg (by omega)] at h
    refine ⟨s, sl, by simp [searchBits], .refl sl, h, ⟨rfl, rfl, rfl, rfl, rfl⟩, fun j _ _ => ?_⟩
    rw [if_neg (by omega)]
  | succ left ih =>
    obtain ⟨x1, he1, hs1, hx1⟩ := h.read (t := t) (by omega) hq hs
    obtain ⟨s2, x2, he2, hs2, hx2, hk2, hrom2⟩ := hx1.write
      (s := { s with master := { s.master with b1 := romBit sl.romId m, b2 := !romBit sl.romId m } })
      (t := t + us g 140) (by omega) hq (by rw [hs1.romId]) (by rw [hs1.romId])
    have hk : SearchSame s s2 := ⟨hk2.1, hk2.2, hk2.3, hk2.4, hk2.5⟩
    obtain ⟨s3, x3, he3, hs3, hx3, hk3, hrom3⟩ := ih (s := s2) (t := t + us g 140 + us g 70) (m + 1) hx2 (by omega) (by omega)
      (hk.noOthers hq) (by rw [hs2.cfg, hs1.cfg]; exact hs)
    refine ⟨s3, x3, ?_, (hs1.trans hs2).trans hs3, hx3, hk.trans hk3, fun j hj hj' => ?_⟩
    · rw [searchBits_answered left m (by rw [he1]; show (romBit sl.romId m && !romBit sl.romId m) = false; simp), he1,
        he2, he3, us_add₂, Nat.succ_mul]
      have h210 : us g (140 + 70) = us g 210 := rfl
      congr 2
      omega
    · rw [hrom3 j hj hj', hrom2, hs2.romId, hs1.romId]
      dsimp only
      rw [romBit_setRomBit _ _ _ _ hm (by omega) hj hj']
      by_cases h1 : m + 1 ≤ j
      · rw [if_pos h1, if_pos (by omega)]
      · rw [if_neg h1]
        by_cases h2 : j = m
        · rw [if_pos h2, if_pos (by omega), h2]
        · rw [if_neg h2, if_neg (by omega)]

theorem romId_ext {a b : RomId} (h : ∀ j, 1 ≤ j → j ≤ 64 → romBit a j = romBit b j) : a = b := by
  apply BitVec.eq_of_getLsbD_eq
  intro i hi
  simpa [romBit] using h (i + 1) (by omega) (by omega)

/-! ### The command byte -/

/-- The command that makes this slave take part in a search. -/
def searchCommandFor (alarm : Bool) : Byte := if alarm then alarmCmd else searchCmd

/-- SEARCH_ROM, or ALARM_SEARCH at an alarmed slave (R243). -/
theorem Slave.Reads.sendSearch (h : sl.Reads g (.romCommand :: .dispatcher :: rest)) (hq : s.NoOthers g) (t : Nat)
    (alarm : Bool) (ha : alarm = true → sl.alarmed = true) :
    ∃ x, mSendByte (searchCommandFor alarm) (shot s t false sl) = shot (s.shifter 0 8) (t + us g 560) false x ∧
      Slave.Same sl x ∧ x.Searching g rest 1 := by
  have hr (c : Ctx) (x : Slave) (hx : x.alarmed = sl.alarmed) :
      Slave.ret c (searchCommandFor alarm) (.romCommand :: .dispatcher :: rest) x =
        Slave.await c (.writeStart (romBit x.romId 1)) { x with stack := .searchBit 1 :: .dispatcher :: rest } := by
    cases alarm
    · rfl
    · have hx' : x.alarmed = true := hx.trans (ha rfl)
      show Slave.romAlarmSearch c _ x = _
      unfold Slave.romAlarmSearch
      rw [if_pos hx']
  obtain ⟨c, x, -, hd, he⟩ := h.send hq t (searchCommandFor alarm)
    (fun c x _ hd => by
      rw [hr c x hd.same.alarmed]
      exact Slave.await_forever c (hd.same.cfg ▸ h.listening.no_timeout))
  rw [hr c x hd.same.alarmed] at he
  have hb : x.Base g := h.listening.base.drift hd
  refine ⟨_, he, hd.same.trans ⟨rfl, rfl, rfl, rfl, rfl, rfl, rfl, .inl ⟨rfl, rfl⟩, rfl, rfl, rfl, rfl, rfl, rfl⟩, ?_⟩
  unfold Slave.Searching
  rw [if_pos (by decide)]
  exact ⟨⟨rfl, Slave.await_forever c hb.no_timeout, hb.valid, hb.no_timeout, hb.enabled, hb.no_event, hb.line_prev,
    hb.released, hb.not_busy⟩, rfl⟩

/-- ALARM_SEARCH at a slave that is not alarmed: it says nothing until the next reset (R246). -/
theorem Slave.Reads.sendUnalarmed (h : sl.Reads g (.romCommand :: .dispatcher :: rest)) (hq : s.NoOthers g) (t : Nat)
    (ha : sl.alarmed = false) :
    ∃ x, mSendByte alarmCmd (shot s t false sl) = shot (s.shifter 0 8) (t + us g 560) false x ∧ Slave.Same sl x ∧
      x.Resting g rest := by
  have hr (c : Ctx) (x : Slave) (hx : x.alarmed = sl.alarmed) :
      Slave.ret c alarmCmd (.romCommand :: .dispatcher :: rest) x =
        Slave.await c .waitReset { x with txnState := .waitingReset, stack := .dispatcher :: rest } := by
    have hx' : ¬ x.alarmed = true := by rw [hx, ha]; decide
    show Slave.romAlarmSearch c _ x = _
    unfold Slave.romAlarmSearch
    rw [if_neg hx']
    rfl
  obtain ⟨c, x, -, hd, he⟩ := h.send hq t alarmCmd
    (fun c x _ hd => by
      rw [hr c x hd.same.alarmed]
      exact Slave.await_forever c (hd.same.cfg ▸ h.listening.no_timeout))
  rw [hr c x hd.same.alarmed] at he
  have hb : x.Base g := h.listening.base.drift hd
  exact ⟨_, he, hd.same.trans ⟨rfl, rfl, rfl, rfl, rfl, rfl, rfl, .inl ⟨rfl, rfl⟩, rfl, rfl, rfl, rfl, rfl, rfl⟩,
    ⟨rfl, Slave.await_forever c hb.no_timeout, hb.valid, hb.no_timeout, hb.enabled, hb.no_event, hb.line_prev,
      hb.released, hb.not_busy⟩, rfl, rfl⟩

/-! ### The whole run -/

/-- A search run on a line where one slave takes part (R161, R165): its ROM-ID is in the buffer, and no branch is left. -/
theorem Slave.Serving.search (h : sl.Serving g rest) (hq : s.NoOthers g) (hs : sl.cfg.tSSit < us g 64) (t : Nat) (alarm : Bool)
    (ha : alarm = true → sl.alarmed = true) (hf : s.master.lastDeviceFlag = false)
    (hcrc : crc8Fold 0 (romBytes sl.romId) = 0) :
    ∃ s' x, searchRun (searchCommandFor alarm) (shot s t false sl) = (.ok, shot s' (t + us g 14960) false x) ∧
      Slave.Same sl x ∧ x.Resting g rest ∧ s'.master.romBuf = sl.romId ∧ s'.master.lastDiscrepancy = 0 ∧
      s'.master.lastDeviceFlag = true ∧ s'.cfg = s.cfg ∧ s'.otherDrive = s.otherDrive ∧ s'.otherWave = s.otherWave ∧
      s'.requests = s.requests := by
  obtain ⟨x0, he0, hs0, hx0, -⟩ := h.reset hq t
  obtain ⟨x1, he1, hs1, hx1⟩ := hx0.sendSearch hq (t + us g 960) alarm (fun e => hs0.alarmed.trans (ha e))
  let s1 : State := { s.shifter 0 8 with
    master := { (s.shifter 0 8).master with idBitNumber := 1, lastZero := 0, crc8 := 0 } }
  have hstart : searchStart (searchCommandFor alarm) (shot s t false sl) = shot s1 (t + us g 960 + us g 560) false x1 := by
    unfold searchStart
    rw [he0]
    dsimp only
    rw [he1]
    rfl
  obtain ⟨s2, x2, he2, hs2, hx2, hk2, hrom⟩ := hx1.bits (s := s1) (t := t + us g 960 + us g 560) 64 1 (by omega) rfl hq
    (by rw [hs1.cfg, hs0.cfg]; exact hs)
  have hid : s2.master.romBuf = sl.romId := by
    apply romId_ext
    intro j hj hj'
    rw [hrom j hj hj', if_pos hj, hs1.romId, hs0.romId]
  have hall : searchAll (searchCommandFor alarm) (shot s t false sl) =
      (true, shot s2 (t + us g 14960) false x2) := by
    unfold searchAll
    rw [hstart, he2, us_add₂, us_mul, us_add₂]
  have hc : s2.master.crc8 = 0 := by
    obtain ⟨-, -, -, -, -, hc⟩ := searchRun_bits (searchCommandFor alarm) (shot s t false sl)
    rw [hall] at hc
    have := hc rfl
    rw [show (shot s2 (t + us g 14960) false x2).master.romBuf = sl.romId from hid, hcrc] at this
    exact this
  have hrun : searchRun (searchCommandFor alarm) (shot s t false sl) =
      searchEnd (shot s2 (t + us g 14960) false x2) := by
    have := searchRun_answered (s := shot s t false sl) (searchCommandFor alarm) hf (by rw [he0]) (by rw [hall])
    rw [this, hall]
  have hz : s2.master.lastZero = 0 := hk2.lastZero
  refine ⟨{ s2 with master := { s2.master with lastDiscrepancy := s2.master.lastZero
                                               lastDeviceFlag := decide (s2.master.lastZero = 0) } }, x2, ?_,
    (hs0.trans hs1).trans hs2, hx2, hid, hz, by simp [hz], hk2.cfg, hk2.otherDrive, hk2.otherWave, hk2.requests⟩
  rw [hrun]
  unfold searchEnd
  rw [if_pos (show (shot s2 (t + us g 14960) false x2).master.crc8 = 0 from hc)]
  rfl

/-- An alarm search on a line where the one slave is not alarmed (R246): both reads of the first position give 1. -/
theorem Slave.Serving.unalarmed (h : sl.Serving g rest) (hq : s.NoOthers g) (t : Nat) (ha : sl.alarmed = false)
    (hf : s.master.lastDeviceFlag = false) :
    ∃ s' x, searchRun alarmCmd (shot s t false sl) = (.noSuchSlave, shot s' (t + us g 1660) false x) ∧ Slave.Same sl x ∧
      x.Resting g rest ∧ s'.master.Cleared ∧ s'.master.romBuf = s.master.romBuf ∧ s'.cfg = s.cfg ∧
      s'.otherDrive = s.otherDrive ∧ s'.otherWave = s.otherWave ∧ s'.requests = s.requests := by
  obtain ⟨x0, he0, hs0, hx0, -⟩ := h.reset hq t
  obtain ⟨x1, he1, hs1, hx1⟩ := hx0.sendUnalarmed hq (t + us g 960) (hs0.alarmed.trans ha)
  let s1 : State := { s.shifter 0 8 with
    master := { (s.shifter 0 8).master with idBitNumber := 1, lastZero := 0, crc8 := 0 } }
  have hstart : searchStart alarmCmd (shot s t false sl) = shot s1 (t + us g 960 + us g 560) false x1 := by
    unfold searchStart
    rw [he0]
    dsimp only
    rw [he1]
    rfl
  obtain ⟨x2, he2, hs2, hx2⟩ := hx1.readSlot (s := s1) (t := t + us g 960 + us g 560) hq
  obtain ⟨x3, he3, hs3, hx3⟩ := hx2.readSlot (s := s1) (t := t + us g 960 + us g 560 + us g 70) hq
  have hread : searchRead (shot s1 (t + us g 960 + us g 560) false x1) =
      shot { s1 with master := { s1.master with b1 := true, b2 := true } } (t + us g 1660) false x3 := by
    unfold searchRead
    rw [he2]
    dsimp only
    rw [he3, us_add₂, us_add₃]
    rfl
  have hall : searchAll alarmCmd (shot s t false sl) =
      (false, shot { s1 with master := { s1.master with b1 := true, b2 := true } } (t + us g 1660) false x3) := by
    unfold searchAll
    rw [hstart, searchBits_silent 63 1 (by rw [hread]; rfl), hread]
  refine ⟨clearSearch { s1 with master := { s1.master with b1 := true, b2 := true } }, x3, ?_,
    ((hs0.trans hs1).trans hs2).trans hs3, hx3, ⟨rfl, rfl, rfl⟩, rfl, rfl, rfl, rfl, rfl⟩
  have := searchRun_silent (s := shot s t false sl) alarmCmd hf (by rw [he0]) (by rw [hall])
  rw [this, hall]
  rfl

end Sys2Proof.Machine
end

