-- ==== Sys2Proof/Laws/Parties.lean ====
section
/-! SUPPORT. A slave's operation that waits, and the master's operation it waits for (spec/20_memory.md R76 to R78): from
a machine with many slaves at rest to the one that takes part. -/

namespace Sys2Proof.Machine

variable {g : Config} {k : Nat} {s t : State} {n n' : Nat} {sl x : Slave} {u : PulseUse} {rest fs : List Frame}

/-- With nothing on the line, the request leaves the slave waiting (R194). -/
theorem Slave.Ready.suspends (h : sl.Ready s.cfg) (hk : s.slaves[k]? = some sl) (hq : Quiet k s) (ho : s.otherWave = [])
    (op : SlaveOp) (hl : (Slave.start s.ctx op sl).Listening s.cfg u) :
    ∃ t, requestOp k op s = .next t ∧ RanAlone k s t s.now [] ∧ t.slaves[k]? = some (Slave.start s.ctx op sl) := by
  refine h.request hk hq op hl (j := 0) ?_ (Nat.zero_le _) ?_
  · rw [ho]; exact Turns.refl _
  · simp [Slave.movesOn, hl.pos]

/-- The waiting slave alone with the master. -/
theorem RanAlone.shot (hR : RanAlone k s t n []) (hz : s.cfg.delaySlack = 0) (hm : s.master.drive = false) (hx : t.slaves[k]? = some x) :
    Alone k t (shot t n false x) ∧ t.NoOthers s.cfg := by
  refine ⟨⟨rfl, hR.now_eq.symm, ?_, rfl, rfl, rfl, ⟨x, hx, rfl⟩, hR.rest⟩, hR.otherDrive, hR.otherWave,
    (congrArg Config.delaySlack hR.cfg).trans hz, hR.cfg⟩
  show ({ t.master with drive := false } : Master) = t.master
  rw [← hm, ← hR.master]

/-- What the master's operation with that slave means for the whole machine. -/
theorem Alone.exchanged {s' w : State} {d : Bool} {y : Slave} (h : Alone k w (Machine.shot s' n d y))
    (hR : RanAlone k s t n' []) (hh : OthersHear k t w) (hc : s'.cfg = t.cfg) (hr : s'.requests = t.requests) (hq : s'.NoOthers s.cfg) :
    Exchanged k s w n [] ∧ w.slaves[k]? = some y ∧ w.master = { s'.master with drive := d } := by
  obtain ⟨z, hz, hv⟩ := h.slave
  have hy : y = z := by simpa [Machine.shot] using hv
  exact ⟨⟨h.cfg.symm.trans (hc.trans hR.cfg), h.requests.symm.trans (hr.trans hR.requests), h.now.symm,
    h.otherDrive.symm.trans hq.1, h.otherWave.symm.trans hq.2.1, h.rest, hR.hear.trans hh⟩, hy ▸ hz, h.master.symm⟩

/-- The result written at the end of the master's operation. -/
theorem mReport_shot {s' : State} (st : Status) (v : Byte) (n : Nat) (d : Bool) (x : Slave) :
    mReport st v (shot s' n d x) =
      shot { s' with master := { s'.master with status := statusCode st, data := v, pos := .ready } } n d x := rfl

theorem Slave.settle_idle (c : Ctx) (hp : x.pos = .idle) (hl : x.linePrev = c.level) : Slave.settle c x = x :=
  Slave.settle_still hl (Slave.resume_atRest c x hp)

/-- Nothing happens to a slave whose operation is over. -/
theorem Slave.settle_done {s' : State} {y : Slave} (h : sl.Ready g) (hx : Slave.HeardBytes y x)
    (hy : y.pos = sl.pos ∧ y.linePrev = sl.linePrev ∧ y.drive = sl.drive) :
    Slave.settle (shotCtx s' n false x) x = x := by
  obtain ⟨_, _, _, _, _, _, rfl⟩ := hx
  refine Slave.settle_idle _ (hy.1.trans h.pos) ?_
  show y.linePrev = !(false || y.drive)
  rw [hy.2.1, hy.2.2, h.line_prev, h.released]
  rfl

theorem Slave.Heard.bytes {y : Slave} (h : Slave.Heard y x) : Slave.HeardBytes y x := by
  obtain ⟨_, _, _, _, rfl⟩ := h
  exact ⟨_, _, _, _, _, _, rfl⟩

/-- A slave that begins `S_WAIT_FUNCTION_CMD` waits for a pulse, and a reset brings it back to its loop (R230, R236). -/
theorem Slave.Base.serving (h : sl.Base g) (c : Ctx) : (Slave.dispatch c rest sl).Serving g rest := by
  cases ht : sl.txnState with
  | waitingReset =>
    have e : Slave.dispatch c rest sl = Slave.await c .waitReset { sl with stack := .dispatcher :: rest } := by
      simp [Slave.dispatch, ht]
    rw [e]
    exact ⟨.waitReset, Slave.await_listening c (h.same rfl rfl rfl rfl rfl rfl), rfl,
      fun _ _ => ⟨statusCode .ok, 0, .inr ⟨rfl, rfl⟩, rfl⟩⟩
  | waitingRomCmd =>
    rw [Slave.dispatch_waitingRomCmd c ht]
    exact ⟨.readBit, (Slave.startReadByte_reads c h).listening, rfl, fun _ x => ⟨x.status, x.data, .inl ⟨rfl, rfl⟩, rfl⟩⟩
  | waitingFunctionCmd =>
    rw [Slave.dispatch_waitingFunctionCmd c ht]
    exact ⟨.readBit, (Slave.startReadByte_reads c h).listening, rfl, fun _ x => ⟨x.status, x.data, .inl ⟨rfl, rfl⟩, rfl⟩⟩

theorem Slave.dispatch_same (c : Ctx) (rest : List Frame) (sl : Slave) : Slave.Same sl (Slave.dispatch c rest sl) := by
  unfold Slave.dispatch
  split <;> exact ⟨rfl, rfl, rfl, rfl, rfl, rfl, rfl, .inl ⟨rfl, rfl⟩, rfl, rfl, rfl, rfl, rfl, rfl⟩

/-- The dispatcher's own waits leave the slave as it was but for its place and its shifter. -/
theorem Slave.dispatch_begun (c : Ctx) (rest : List Frame) (sl : Slave) : Slave.Begun sl (Slave.dispatch c rest sl) := by
  unfold Slave.dispatch
  split
  · exact ⟨.dispatcher :: rest, .waitPulse .waitReset, _, sl.shift, sl.bitcnt, sl.crc16, sl.txnState, rfl⟩
  · exact ⟨_, _, _, _, _, sl.crc16, sl.txnState, rfl⟩
  · exact ⟨_, _, _, _, _, sl.crc16, sl.txnState, rfl⟩

/-- A slave that has received a function command and is back at rest, from what it keeps (R234, R235). -/
theorem Slave.Ready.commanded {y : Slave} (h : sl.Ready g) (hs : Slave.Same sl y) (hb : y.Base g) (c : Ctx) (st : Status)
    (v : Byte) (tx : TxnState) :
    Slave.HeardBytes { sl with txnState := tx, status := statusCode st, data := v }
      (Slave.finish c st v { y with txnState := tx }) := by
  have hu : y.upstream = [] := hs.upstream.trans h.upstream
  refine ⟨y.tReset, y.swStarted, y.pulseLen, y.pulseOvf, y.shift, y.bitcnt, ?_⟩
  rw [Slave.finish_last _ _ _ (by exact hu)]
  obtain ⟨a1, a2, a3, a4, a5, a6, a7, -, a9, a10, a11, a12, a13, a14⟩ := hs
  cases y
  dsimp only at *
  subst a1 a2 a3 a4 a5 a6 a7 a9 a10 a11 a12 a13 a14
  have b1 := hb.no_event
  have b2 := hb.line_prev
  have b3 := hb.released
  have b4 := hb.not_busy
  dsimp only at b1 b2 b3 b4
  subst b1 b2 b3 b4
  simp only [h.pos, h.stack, h.wake, h.no_event, h.line_prev, h.released, h.not_busy]

/-- Nothing happens to a slave that waits for a pulse on the released line. -/
theorem Slave.settle_waits {s' : State} (h : x.Listening s'.cfg u) : Slave.settle (shotCtx s' n false x) x = x :=
  Slave.settle_listening (c := shotCtx s' n false x) h (by simp [shotCtx, h.released])

end Sys2Proof.Machine
end

