-- ==== Sys2Proof/Laws/LogSend.lean ====
section
/-! SUPPORT. A log frame as a whole, from its gap to the ack byte (spec/45_crc_log_frame.md R270 to R283). -/

namespace Sys2Proof.Machine

variable {g : Config} {s : State} {t : Nat} {sl : Slave} {fs : List Frame}

theorem coast_master (d : Nat) (s : State) : (coast d s).master = s.master := by
  have h1 := (goTo_passes (s.now + d) (evolves_closed (runBefore d (s.now + d) s).cfg)).master
  have h2 := (runBefore_passes d (s.now + d) (evolves_closed s.cfg)).master
  exact h1.trans h2

theorem coast_now (d : Nat) (s : State) : (coast d s).now = s.now + d := by
  have := runBefore_now d (s.now + d) s (Nat.le_add_right _ _)
  rw [coast, goTo_now]
  exact Nat.max_eq_right this

theorem coast_cfg (d : Nat) (s : State) : (coast d s).cfg = s.cfg := by
  have h1 := (goTo_passes (s.now + d) (evolves_closed (runBefore d (s.now + d) s).cfg)).cfg
  have h2 := (runBefore_passes d (s.now + d) (evolves_closed s.cfg)).cfg
  exact h1.trans h2

theorem coast_requests (d : Nat) (s : State) : (coast d s).requests = s.requests := by
  have h1 := (goTo_passes (s.now + d) (evolves_closed (runBefore d (s.now + d) s).cfg)).requests
  have h2 := (runBefore_passes d (s.now + d) (evolves_closed s.cfg)).requests
  exact h1.trans h2

theorem shot_crc16 (s : State) (t : Nat) (m : Bool) (sl : Slave) : (shot s t m sl).master.crc16 = s.master.crc16 := rfl

/-- `S_LOG_RECEIVE` with nothing received yet (R275). -/
structure Slave.LogStart (g : Config) (sl : Slave) : Prop where
  reads : sl.Reads g [.logLength]
  crc16 : sl.crc16 = 0xFFFF
  upstream : sl.upstream = []
  sit : sl.cfg.tSSit < us g 64

/-- What a received frame leaves in the slave (R275, R278, R279, R282). -/
structure Slave.LogGot (g : Config) (len : Byte) (payload : List Byte) (crc : Word16) (sl x : Slave) : Prop where
  same : Slave.SameLog sl x
  rest : x.AtRest
  base : x.Base g
  status : x.status = statusCode .ok
  data : x.data = len
  logLen : x.logLen = len
  logBuf : x.logBuf = memWrite (putPayload 0 payload sl.logBuf) len.toNat 0
  calls : x.handlerCalls = len :: sl.handlerCalls
  times : x.handlerTimes = sl.handlerTimes.tail
  crc16 : x.crc16 = crc
  stack : x.stack = []

/-- The frame, the poll, and the ack: the handler is called `T_S_BUSY` after the CRC's last bit, it runs for some time, and
`M_POLL_TIMEOUT` does not end before the hold. -/
theorem Slave.LogStart.delivered {H : Nat} (h : sl.LogStart g) (hq : s.NoOthers g) (len : Byte)
    (payload : List Byte) (hlen : len.toNat ≤ s.cfg.maxMessageLength) (hpl : payload.length = len.toNat)
    (hT : Slave.handlerTime (t + us g 10 + (len.toNat + 3) * us g 560 -
      slotTail g ((crcLow (frameCrc s.cfg.crc16 len payload)).getLsbD 7) + sl.cfg.tSBusy) sl = some H) (hH : 0 < H)
    (hp : ∀ d, s.cfg.pollTimeout = some d → H ≤ d)
    (hnow : ∀ r later, firstSlaveRequest s.requests = some (r, later) → r.gap ≠ 0) :
    ∃ s' x T, mAwaitAck (mSendFrame len payload (shot s t false sl)) =
        mReport .ok ackByteValue (shot s' T false x) ∧
      Slave.LogGot g len payload (frameCrc s.cfg.crc16 len payload) sl x ∧
      t + us g 10 + (len.toNat + 3) * us g 560 + s.cfg.tMPoll + us g 560 ≤ T ∧
      T ≤ t + us g 10 + (len.toNat + 3) * us g 560 + H + s.cfg.tMPoll + us g 560 ∧
      s'.cfg = s.cfg ∧ s'.otherDrive = s.otherDrive ∧ s'.otherWave = s.otherWave ∧ s'.requests = s.requests ∧
      ({ s'.master with drive := false } : Master) = { s.master with
        drive := false, shift := ackByteValue, bitcnt := 8, crc16 := frameCrc s.cfg.crc16 len payload } := by
  obtain rfl := hq.2.2.2
  have hl := h.reads.listening
  -- the gap
  have hst0 : Slave.settle (shotCtx s t false sl) sl = sl := Slave.settle_listening (c := shotCtx s t false sl) hl (by simp [shotCtx, hl.released])
  have e0 : mWait (tLogGap s.cfg) (shot s t false sl) = shot s (t + us s.cfg 10) false sl := by
    rw [mWait_shot hq, shot_settle hq (by rw [hst0]), hst0, shot_coast_quiet hq _ (Slave.quiet_of_asleep _ hl.wake)]
    rfl
  let s0 : State := { s with master := { s.master with crc16 := 0xFFFF } }
  have hq0 : s0.NoOthers s.cfg := hq
  -- the length
  obtain ⟨x1, e1, hx1, h1⟩ := Slave.sendLength (s := s0) h.reads h.crc16 hq0 (t + us s.cfg 10) len hlen
  let s1 : State := { s0.shifter 0 8 with master := { (s0.shifter 0 8).master with
    crc16 := crc16Update s.cfg.crc16 0xFFFF len } }
  have e1' : mSendFolded len (shot s0 (t + us s.cfg 10) false sl) = shot s1 (t + us s.cfg 10 + us s.cfg 560) false x1 := by
    rw [mSendFolded]
    simp only [e1]
    rfl
  -- the payload
  obtain ⟨s2, x2, e2, hx2, h2, hs2⟩ := mSendPayload_shot (s := s1) (t := t + us s.cfg 10 + us s.cfg 560) payload h1
    (by rw [Nat.zero_add]; exact hpl) rfl hq0
  rw [State.Folded] at hs2
  have hc2 : s2.master.crc16 = frameCrc s.cfg.crc16 len payload := by rw [hs2]; rfl
  have hq2 : s2.NoOthers s.cfg := by rw [hs2]; exact hq
  have hcfg2 : s2.cfg = s.cfg := by rw [hs2]; rfl
  have hod2 : s2.otherDrive = s.otherDrive := by rw [hs2]; rfl
  have how2 : s2.otherWave = s.otherWave := by rw [hs2]; rfl
  have hreq2 : s2.requests = s.requests := by rw [hs2]; rfl
  have hm2 : s2.master = { s.master with
      shift := s2.master.shift, bitcnt := s2.master.bitcnt, crc16 := frameCrc s.cfg.crc16 len payload } := by
    conv_lhs => rw [hs2]
    rfl
  -- the CRC
  generalize hcrc : frameCrc s.cfg.crc16 len payload = crc at hc2 hm2 hT
  obtain ⟨x3, e3, hx3, hr3, hl3, hc3, hb3, ha3, ht3⟩ := h2.crcHigh (s := s2) hq2
    (t + us s.cfg 10 + us s.cfg 560 + payload.length * us s.cfg 560) (crcHigh crc)
  have hc3' : x3.crc16 = crc := hc3.trans hcrc
  let s3 : State := s2.shifter 0 8
  obtain ⟨n, x4, s4, hn, hx4, hb4, ⟨g1, g2, g3, g4⟩, e4⟩ := Slave.sendCrcLow (s := s3) (crcHigh crc) (crcLow crc) hr3
    ((crcOfBytes_split crc).trans hc3'.symm) hl3 hb3 ha3 ht3 hq2 (t + us s.cfg 10 + us s.cfg 560 + payload.length * us s.cfg 560 + us s.cfg 560)
  generalize (crcLow crc).getLsbD 7 = b at hT hn e4
  have hq4 : s4.NoOthers s.cfg := hq2.congr g1 g2 g3
  have hframe : mSendFrame len payload (shot s t false sl) =
      State.shiftedOut 1 (coast (slotTail s.cfg b) (shot s4 n false x4)) := by
    have hset : ({ shot s (t + us s.cfg 10) false sl with
        master := { (shot s (t + us s.cfg 10) false sl).master with crc16 := 0xFFFF } } : State) =
        shot s0 (t + us s.cfg 10) false sl := rfl
    rw [mSendFrame]
    dsimp only [shot_cfg]
    rw [e0, hset]
    have hcs : (shot s2 (t + us s.cfg 10 + us s.cfg 560 + payload.length * us s.cfg 560) false x2).master.crc16 = crc :=
      (shot_crc16 _ _ _ _).trans hc2
    rw [e1', e2, hcs, e3, e4]
  have htail : us s.cfg 10 ≤ slotTail s.cfg b := us_le_slotTail s.cfg b
  obtain ⟨-, -, -, -, -, -, -, -, hbusy⟩ := (SlaveConfig.valid_iff _ _).mp hb4.base.valid
  have hlate : n + x4.cfg.tSBusy ≤ n + slotTail s.cfg b := Nat.add_le_add_left (hbusy.le.trans htail) n
  have hE : n + slotTail s.cfg b = t + us s.cfg 10 + (len.toNat + 3) * us s.cfg 560 := by
    rw [hn, hpl]
    ring
  have hsl4 : Slave.SameLog sl x4 := ((hx1.trans hx2).trans hx3).trans hx4.log
  have hT4 : Slave.handlerTime (n + x4.cfg.tSBusy) x4 = some H := by
    rw [← hE, Nat.add_sub_cancel] at hT
    rw [Slave.handlerTime_congr _ hsl4.cfg hb4.times, hsl4.cfg]
    exact hT
  obtain ⟨s5, x5, e5, hs5, hx5⟩ := hb4.poll hT4 hH b hq4 (s.cfg.pollTimeout.map (n + slotTail s.cfg b + ·)) (by
    intro l hl
    obtain ⟨d, hd, rfl⟩ := Option.map_eq_some_iff.mp hl
    exact Nat.add_le_add hlate (hp d hd))
  have hq5 : s5.NoOthers s.cfg := hs5.noOthers hq4
  have hcfg5 : s5.cfg = s.cfg := by rw [hs5]; exact g1.trans hcfg2
  obtain ⟨x6, e6, h6, hx6⟩ := hb4.ready hq5
    (max (n + slotTail s.cfg b) (n + x4.cfg.tSBusy + H)) x5
    (by rcases hx5 with ⟨rfl, -⟩ | hx5
        · exact .inl ⟨rfl, (Nat.le_add_right _ _).trans (le_max_right _ _)⟩
        · exact .inr hx5) s5.cfg.tMPoll
  have hack : Slave.SameAck x3 x6 := hx4.trans hx6
  have hsame6 : Slave.SameLog sl x6 := ((hx1.trans hx2).trans hx3).trans hack.log
  obtain ⟨x7, e7, hx7, hr7, hbase7, hst7, hd7, hl7, hbuf7, hcalls7, htimes7, hstk7⟩ := h6.receive (s := s5)
    (hsame6.upstream.trans h.upstream) (by rw [hsame6.cfg]; exact h.sit) hq5
    (max (n + slotTail s.cfg b) (n + x4.cfg.tSBusy + H) + s5.cfg.tMPoll)
  refine ⟨s5.shifter ackByteValue 8, x7,
    max (n + slotTail s.cfg b) (n + x4.cfg.tSBusy + H) + s5.cfg.tMPoll + us s.cfg 560, ?_, ⟨hsame6.trans hx7.log, hr7, hbase7, hst7, hd7, hl7, hbuf7, hcalls7, htimes7,
    (hack.trans hx7).crc16.trans hc3', hstk7⟩,
    ?_, ?_, hcfg5, ?_, ?_, ?_, ?_⟩
  · have hnow' : (State.shiftedOut 1 (coast (slotTail s.cfg b) (shot s4 n false x4))).now = n + slotTail s.cfg b :=
      coast_now (slotTail s.cfg b) (shot s4 n false x4)
    have hcf : (State.shiftedOut 1 (coast (slotTail s.cfg b) (shot s4 n false x4))).cfg = s.cfg :=
      (coast_cfg (slotTail s.cfg b) (shot s4 n false x4)).trans (g1.trans hcfg2)
    have hcn : ∀ l, comesNow (mSuspend l (State.shiftedOut 1 (coast (slotTail s.cfg b) (shot s4 n false x4)))) = false := by
      intro l
      have hr : (coast (slotTail s.cfg b) (shot s4 n false x4)).requests = s.requests :=
        (coast_requests (slotTail s.cfg b) (shot s4 n false x4)).trans (g4.trans hreq2)
      show (firstSlaveRequest (coast (slotTail s.cfg b) (shot s4 n false x4)).requests).any _ = false
      rw [hr]
      cases hf : firstSlaveRequest s.requests with
      | none => rfl
      | some q => exact decide_eq_false (hnow q.1 q.2 hf)
    rw [hframe, mAwaitAck, hnow', hcf]
    rw [hcn, if_neg Bool.false_ne_true, mPoll, e5, endPoll]
    rw [mReadAck_eq]
    have hc : (shot s5 (max (n + slotTail s.cfg b) (n + x4.cfg.tSBusy + H)) false x5).cfg.tMPoll =
      s5.cfg.tMPoll := rfl
    rw [hc, e6, e7, if_pos rfl]
  · rw [← hE, hcfg5]
    exact Nat.add_le_add_right (Nat.add_le_add_right (le_max_left _ _) _) _
  · rw [← hE, hcfg5]
    exact Nat.add_le_add_right (Nat.add_le_add_right
      (max_le (Nat.le_add_right _ _) (Nat.add_le_add_right hlate _)) _) _
  · rw [hs5]; exact g2.trans hod2
  · rw [hs5]; exact g3.trans how2
  · rw [hs5]; exact g4.trans hreq2
  · have hmm := congrArg State.master e4
    rw [mSendByte_master] at hmm
    have hmm' : ({ (shot s3 (t + us s.cfg 10 + us s.cfg 560 + payload.length * us s.cfg 560 + us s.cfg 560) false x3).master with
        drive := false, shift := 0, bitcnt := 8 } : Master) =
        { (coast (slotTail s.cfg b) (shot s4 n false x4)).master with
          shift := (coast (slotTail s.cfg b) (shot s4 n false x4)).master.shift >>> 1
          bitcnt := (coast (slotTail s.cfg b) (shot s4 n false x4)).master.bitcnt + BitVec.ofNat 4 1 } := hmm
    rw [coast_master] at hmm'
    have hk : ({ s4.master with drive := false, shift := ackByteValue, bitcnt := 8 } : Master) =
        { s2.master with drive := false, shift := ackByteValue, bitcnt := 8 } := by
      have := congrArg (fun m : Master => ({ m with shift := ackByteValue, bitcnt := 8 } : Master)) hmm'
      exact this.symm
    have h5 : ({ (s5.shifter ackByteValue 8).master with drive := false } : Master) =
        { s4.master with drive := false, shift := ackByteValue, bitcnt := 8 } := by
      rw [hs5]; rfl
    rw [h5, hk, hm2]

/-- What a received frame reads as (R278). -/
theorem memRead_logBuf (payload : List Byte) (m : Memory) (n a : Nat) (hm : memoryWf m = true) :
    memRead (memWrite (putPayload 0 payload m) n 0) a = if a = n then 0 else (payload[a]?).getD (memRead m a) := by
  rw [memRead_memWrite _ _ _ _ (putPayload_wf payload 0 m hm)]
  split
  · rfl
  · rw [memRead_putPayload _ _ _ _ hm, if_pos (Nat.zero_le _), Nat.sub_zero]

/-- What a slave that has received a frame differs in from the one that began (R275). -/
theorem Slave.LogGot.heard {sl z y : Slave} {len : Byte} {payload : List Byte} {crc : Word16} (hr : sl.Ready g)
    (tx : TxnState) (hz : Slave.SameLog { sl with txnState := tx } z) (hc : z.handlerCalls = sl.handlerCalls)
    (ht : z.handlerTimes = sl.handlerTimes) (h : Slave.LogGot g len payload crc z y) :
    Slave.HeardBytes { sl with
        txnState := tx, status := statusCode .ok, data := len, logLen := len
        crc16 := crc, logBuf := y.logBuf
        handlerCalls := len :: sl.handlerCalls, handlerTimes := sl.handlerTimes.tail } y := by
  refine ⟨y.tReset, y.swStarted, y.pulseLen, y.pulseOvf, y.shift, y.bitcnt, ?_⟩
  obtain ⟨h0, ⟨r1, r2, r3⟩, hb, b1, b2, b3, b4, b5, b6, b7, b8⟩ := h
  obtain ⟨a1, a2, a3, a4, a5, a6, a7, a8, a9⟩ := hz.trans h0
  have c1 := hb.no_event
  have c2 := hb.line_prev
  have c3 := hb.released
  have c4 := hb.not_busy
  rw [hc] at b5
  rw [ht] at b6
  clear h0 hz hc ht hb b4
  cases y
  dsimp only at *
  subst a1 a2 a3 a4 a5 a6 a7 a8 a9 b1 b2 b3 b5 b6 b7 b8 c1 c2 c3 c4 r1 r2
  simp only [hr.pos, hr.stack, hr.wake, hr.no_event, hr.line_prev, hr.released, hr.not_busy]

end Sys2Proof.Machine
end

