-- ==== Sys2Proof/Laws/LogTraffic.lean ====
section
/-! SUPPORT. A log frame that an outside driver sends to a slave in `S_LOG_RECEIVE` (spec/45_crc_log_frame.md R275 to
R282). -/

namespace Sys2Proof.Machine

variable {g : Config} {s : State} {t : Nat} {ow : List Nat} {sl x : Slave} {fs : List Frame} {len : Byte} {i : Nat} {crc : Word16}
  {m : Memory} {calls : List Byte} {times : List (Option Nat)} {c : Ctx}

/-! ### What each byte does to the slave -/

theorem Slave.gotLength (h : sl.Reads g (.logLength :: fs)) (hcrc : sl.crc16 = 0xFFFF) (hd : Slave.Drift sl x)
    (hlen : len.toNat ≤ c.cfg.maxMessageLength) :
    Slave.SameLog sl (Slave.ret c len (.logLength :: fs) x) ∧
      (Slave.ret c len (.logLength :: fs) x).LogReading g len 0 (crc16Update c.cfg.crc16 0xFFFF len) sl.logBuf
        sl.handlerCalls sl.handlerTimes fs := by
  have hr : Slave.ret c len (.logLength :: fs) x =
      Slave.startReadByte c (logFrame len.toNat 0 :: fs)
        { x with logLen := len, crc16 := crc16Update c.cfg.crc16 x.crc16 len } := by
    show Slave.logGotLength c len fs x = _
    rw [Slave.logGotLength, if_neg (by omega)]
    have : (if len = 0 then Frame.logCrcHigh else .logPayload 0) = logFrame len.toNat 0 := by
      unfold logFrame
      by_cases h0 : len = 0
      · subst h0; rfl
      · rw [if_neg h0, if_pos]
        rcases Nat.eq_zero_or_pos len.toNat with e | e
        · exact absurd (BitVec.eq_of_toNat_eq (by simpa using e)) h0
        · exact e
    rw [this]
  rw [hr]
  have hb : x.Base g := h.listening.base.drift hd
  refine ⟨hd.sameLog.trans ⟨rfl, rfl, rfl, rfl, rfl, rfl, rfl, rfl, rfl⟩,
    Slave.startReadByte_reads c (hb.same rfl rfl rfl rfl rfl rfl), rfl, ?_, hd.same.logBuf, hd.same.handlerCalls,
    hd.same.handlerTimes⟩
  show crc16Update c.cfg.crc16 x.crc16 len = _
  rw [hd.crc16, hcrc]

theorem Slave.LogReading.gotPayload (h : sl.LogReading g len i crc m calls times fs) (hi : i < len.toNat)
    (hd : Slave.Drift sl x) (b : Byte) :
    Slave.SameLog sl (Slave.ret c b (logFrame len.toNat i :: fs) x) ∧
      (Slave.ret c b (logFrame len.toNat i :: fs) x).LogReading g len (i + 1) (crc16Update c.cfg.crc16 crc b)
        (memWrite m i b) calls times fs := by
  have hl : x.logLen = len := hd.same.logLen.trans h.logLen
  have hr : Slave.ret c b (logFrame len.toNat i :: fs) x =
      Slave.startReadByte c (logFrame len.toNat (i + 1) :: fs)
        { x with logBuf := memWrite x.logBuf i b, crc16 := crc16Update c.cfg.crc16 x.crc16 b } := by
    rw [show logFrame len.toNat i = .logPayload i by rw [logFrame, if_pos hi]]
    show Slave.logGotPayload c i b fs x = _
    rw [Slave.logGotPayload, hl]
    rfl
  rw [hr]
  have hb : x.Base g := h.reads.listening.base.drift hd
  refine ⟨hd.sameLog.trans ⟨rfl, rfl, rfl, rfl, rfl, rfl, rfl, rfl, rfl⟩,
    Slave.startReadByte_reads c (hb.same rfl rfl rfl rfl rfl rfl), hl, ?_, ?_, hd.same.handlerCalls.trans h.calls,
    hd.same.handlerTimes.trans h.times⟩
  · show crc16Update c.cfg.crc16 x.crc16 b = _
    rw [hd.crc16, h.crc16]
  · show memWrite x.logBuf i b = _
    rw [hd.same.logBuf, h.logBuf]

/-- The slave has the whole payload and the CRC's high byte. -/
structure Slave.LogCrc (g : Config) (len hi : Byte) (crc : Word16) (m : Memory) (calls : List Byte) (times : List (Option Nat))
    (fs : List Frame) (sl : Slave) : Prop where
  reads : sl.Reads g (.logCrcLow hi :: fs)
  logLen : sl.logLen = len
  crc16 : sl.crc16 = crc
  logBuf : sl.logBuf = m
  calls : sl.handlerCalls = calls
  times : sl.handlerTimes = times

theorem Slave.LogReading.gotCrcHigh (h : sl.LogReading g len len.toNat crc m calls times fs) (hd : Slave.Drift sl x)
    (hi : Byte) :
    Slave.SameLog sl (Slave.ret c hi (logFrame len.toNat len.toNat :: fs) x) ∧
      (Slave.ret c hi (logFrame len.toNat len.toNat :: fs) x).LogCrc g len hi crc m calls times fs := by
  rw [show logFrame len.toNat len.toNat = .logCrcHigh by rw [logFrame, if_neg (by omega)]]
  have hb : x.Base g := h.reads.listening.base.drift hd
  exact ⟨hd.sameLog.trans ⟨rfl, rfl, rfl, rfl, rfl, rfl, rfl, rfl, rfl⟩, Slave.startReadByte_reads c hb,
    hd.same.logLen.trans h.logLen, hd.crc16.trans h.crc16, hd.same.logBuf.trans h.logBuf,
    hd.same.handlerCalls.trans h.calls, hd.same.handlerTimes.trans h.times⟩

theorem Slave.LogCrc.good {hi : Byte} (h : sl.LogCrc g len hi crc m calls times fs) (hd : Slave.Drift sl x) (lo : Byte)
    (hz : c.cfg.delaySlack = 0) (hcrc : crcOfBytes hi lo = crc) :
    Slave.SameAck sl (Slave.ret c lo (.logCrcLow hi :: fs) x) ∧
      (Slave.ret c lo (.logCrcLow hi :: fs) x).BusySoon g c.now len (memWrite m len.toNat 0) calls times fs := by
  have hr : Slave.ret c lo (.logCrcLow hi :: fs) x =
      Slave.delay c .busyLatency x.cfg.tSBusy
        { x with logBuf := memWrite x.logBuf x.logLen.toNat 0, stack := .logHold :: fs } := by
    show Slave.logCheckCrc c hi lo fs x = _
    rw [Slave.logCheckCrc, if_pos (by rw [hd.crc16, h.crc16]; exact hcrc)]
    exact Slave.waitFor_exact c hz _ _ _
  rw [hr]
  have hb : x.Base g := h.reads.listening.base.drift hd
  obtain ⟨-, -, -, -, -, -, -, hbusy, -⟩ := (SlaveConfig.valid_iff _ _).mp hb.valid
  refine ⟨hd.sameAck.trans ⟨rfl, rfl, rfl, rfl, rfl, rfl, rfl, rfl, rfl, rfl⟩, hb.same rfl rfl rfl rfl rfl rfl, rfl, ?_,
    rfl, hd.same.logLen.trans h.logLen, ?_, hd.same.handlerCalls.trans h.calls, hd.same.handlerTimes.trans h.times⟩
  · show some (deadline c.now x.cfg.tSBusy) = _
    rw [deadline_pos _ _ hbusy]
    rfl
  · show memWrite x.logBuf x.logLen.toNat 0 = _
    rw [hd.same.logBuf, h.logBuf, hd.same.logLen, h.logLen]

theorem Slave.LogCrc.bad {hi : Byte} (h : sl.LogCrc g len hi crc m calls times fs) (hd : Slave.Drift sl x) (lo : Byte)
    (hcrc : crcOfBytes hi lo ≠ crc) :
    Slave.ret c lo (.logCrcLow hi :: fs) x = Slave.finish c .crcMismatch 0 { x with txnState := .waitingReset } := by
  show Slave.logCheckCrc c hi lo fs x = _
  rw [Slave.logCheckCrc, if_neg (by rw [hd.crc16, h.crc16]; exact hcrc)]

/-! ### The traffic -/

theorem carriesBytes_cons {b : Byte} {bs : List Byte} {ps : List (Nat × Nat)} (h : carriesBytes g (b :: bs) ps) :
    ∃ p q, ps = p ++ q ∧ carriesBits g 8 b p ∧ carriesBytes g bs q := h

/-- One byte of the frame. -/
theorem Slave.Reads.byte (h : sl.Reads s.cfg fs) (hm : s.master.Rests) (t : Nat) (v : Byte) (ps qs : List (Nat × Nat))
    (hv : carriesBits s.cfg 8 v ps) (ow : List Nat) :
    ∃ c x, c.cfg = s.cfg ∧ c.now = trainEnd t ps ∧ Slave.Drift sl x ∧
      Turns 16 (scene s t false (pulseTrain t (ps ++ qs) ++ ow) sl)
        (scene s (trainEnd t ps) false (pulseTrain (trainEnd t ps) qs ++ ow) (Slave.ret c v fs x)) := by
  rw [pulseTrain_append, List.append_assoc]
  exact h.traffic hm t v ps hv _

/-- The payload. -/
theorem Slave.LogReading.payloadTraffic (bs : List Byte) (h : sl.LogReading s.cfg len i crc m calls times fs)
    (hb : i + bs.length = len.toNat) (hm : s.master.Rests) (t : Nat) (ps qs : List (Nat × Nat))
    (hv : carriesBytes s.cfg bs ps) (ow : List Nat) :
    ∃ x, Slave.SameLog sl x ∧
      x.LogReading s.cfg len len.toNat (bs.foldl (crc16Update s.cfg.crc16) crc) (putPayload i bs m) calls times fs ∧
      Turns (16 * bs.length) (scene s t false (pulseTrain t (ps ++ qs) ++ ow) sl)
        (scene s (trainEnd t ps) false (pulseTrain (trainEnd t ps) qs ++ ow) x) := by
  induction bs generalizing t sl i crc m ps with
  | nil =>
    have : i = len.toNat := hb
    subst this
    have hps : ps = [] := hv
    subst hps
    exact ⟨sl, ⟨rfl, rfl, rfl, rfl, rfl, rfl, rfl, rfl, rfl⟩, h, Turns.refl _⟩
  | cons b bs ih =>
    simp only [List.length_cons] at hb
    obtain ⟨p, q, rfl, hp, hq⟩ := carriesBytes_cons hv
    have hi : i < len.toNat := by omega
    obtain ⟨c, x, hc, -, hd, hT⟩ := h.reads.byte (s := s) hm t b p (q ++ qs) hp ow
    obtain ⟨hs1, h1⟩ := h.gotPayload (c := c) hi hd b
    rw [hc] at h1
    obtain ⟨y, hs2, h2, hT2⟩ := ih h1 (by omega) (trainEnd t p) q hq
    refine ⟨y, hs1.trans hs2, h2, ?_⟩
    rw [trainEnd_append, List.append_assoc]
    have := hT.trans hT2
    rwa [show 16 + 16 * bs.length = 16 * (b :: bs).length by simp only [List.length_cons]; omega] at this

/-- The whole frame up to its CRC's low byte: the bytes are `len`, the payload, `hi`, `lo`. -/
theorem Slave.logFrameTraffic (h : sl.Reads s.cfg [.logLength]) (hcrc : sl.crc16 = 0xFFFF) (hm : s.master.Rests) (t : Nat)
    (len hi lo : Byte) (payload : List Byte) (ps : List (Nat × Nat)) (hlen : len.toNat ≤ s.cfg.maxMessageLength)
    (hpl : payload.length = len.toNat) (hv : carriesBytes s.cfg (len :: (payload ++ [hi, lo])) ps) (ow : List Nat) :
    ∃ c x y, c.cfg = s.cfg ∧ c.now = trainEnd t ps ∧ Slave.SameLog sl x ∧
      x.LogCrc s.cfg len hi (frameCrc s.cfg.crc16 len payload) (putPayload 0 payload sl.logBuf) sl.handlerCalls
        sl.handlerTimes [] ∧ Slave.Drift x y ∧
      Turns (16 * (payload.length + 3)) (scene s t false (pulseTrain t ps ++ ow) sl)
        (scene s (trainEnd t ps) false ow (Slave.ret c lo [.logCrcLow hi] y)) := by
  obtain ⟨p0, q0, rfl, hp0, hq0⟩ := carriesBytes_cons hv
  have hsplit : ∀ (bs cs : List Byte) (q : List (Nat × Nat)), carriesBytes s.cfg (bs ++ cs) q →
      ∃ q1 q2, q = q1 ++ q2 ∧ carriesBytes s.cfg bs q1 ∧ carriesBytes s.cfg cs q2 := by
    intro bs
    induction bs with
    | nil => intro cs q hq; exact ⟨[], q, rfl, rfl, hq⟩
    | cons b bs ih =>
      intro cs q hq
      obtain ⟨p, r, rfl, hp, hr⟩ := carriesBytes_cons hq
      obtain ⟨r1, r2, rfl, h1, h2⟩ := ih cs r hr
      exact ⟨p ++ r1, r2, by rw [List.append_assoc], ⟨p, r1, rfl, hp, h1⟩, h2⟩
  obtain ⟨q1, q2, rfl, hq1, hq2⟩ := hsplit payload [hi, lo] q0 hq0
  obtain ⟨p2, q3, rfl, hp2, hq3⟩ := carriesBytes_cons hq2
  obtain ⟨p3, q4, rfl, hp3, hq4⟩ := carriesBytes_cons hq3
  have hnil : q4 = [] := hq4
  subst hnil
  obtain ⟨c1, x1, hc1, -, hd1, hT1⟩ := h.byte (s := s) hm t len p0 (q1 ++ (p2 ++ (p3 ++ []))) hp0 ow
  obtain ⟨hs1, h1⟩ := Slave.gotLength (c := c1) h hcrc hd1 (by rw [hc1]; exact hlen)
  rw [hc1] at h1
  obtain ⟨x2, hs2, h2, hT2⟩ := h1.payloadTraffic payload (by rw [Nat.zero_add]; exact hpl) hm (trainEnd t p0) q1
    (p2 ++ (p3 ++ [])) hq1 ow
  obtain ⟨c3, x3, -, -, hd3, hT3⟩ := h2.reads.byte (s := s) hm (trainEnd (trainEnd t p0) q1) hi p2 (p3 ++ []) hp2 ow
  obtain ⟨hs3, h3⟩ := h2.gotCrcHigh (c := c3) hd3 hi
  obtain ⟨c4, x4, hc4, hn4, hd4, hT4⟩ := h3.reads.byte (s := s) hm (trainEnd (trainEnd (trainEnd t p0) q1) p2) lo p3 [] hp3 ow
  have hT := ((hT1.trans hT2).trans hT3).trans hT4
  rw [show 16 + 16 * payload.length + 16 + 16 = 16 * (payload.length + 3) by omega] at hT
  have hend : trainEnd (trainEnd (trainEnd (trainEnd t p0) q1) p2) p3 = trainEnd t (p0 ++ (q1 ++ (p2 ++ (p3 ++ [])))) := by
    simp only [trainEnd_append, List.append_nil]
  rw [hend] at hn4
  refine ⟨c4, _, x4, hc4, hn4, (hs1.trans hs2).trans hs3, h3, hd4, ?_⟩
  rw [← hend]
  exact hT

/-! ### The hold and the ack -/

/-- The busy hold on a line nobody else drives (R280, R281). -/
theorem Slave.BusySoon.hold {n H : Nat} (h : sl.BusySoon s.cfg n len m calls times fs) 
    (hT : Slave.handlerTime (n + sl.cfg.tSBusy) sl = some H) (hH : 0 < H) (hm : s.master.Rests)
    (ha : WaveAfter (n + sl.cfg.tSBusy + H) ow) :
    ∃ x, Slave.SameAck sl x ∧ x.Acking s.cfg len m (len :: calls) times.tail fs ∧
      Turns 2 (scene s n false ow sl) (scene s (n + sl.cfg.tSBusy + H) false ow x) := by
  obtain ⟨b1, b2⟩ := h.begins hT hH s
  have h1 : Turns 1 (scene s n false ow sl) (scene s (n + sl.cfg.tSBusy) false ow (Slave.holding (n + sl.cfg.tSBusy) H sl)) :=
    Turns.wake (od := false) (ow := ow) hm (n + sl.cfg.tSBusy) h.base.trapped ⟨_, h.pos⟩ h.wake (Nat.le_add_right _ _)
      (fun a he => by have := ha a he; omega) b1 (by
        show true = _
        exact b2.symm)
  have hends := h.ends s (n + sl.cfg.tSBusy) H
  obtain ⟨x, hx, hs, hax⟩ := h.rises (s := s) rfl (n + sl.cfg.tSBusy) H
  have hrd : (Slave.felled (n + sl.cfg.tSBusy) (Slave.holdEnded sl)).drive = false := h.listens.released
  have h2 : Turns 1 (scene s (n + sl.cfg.tSBusy) false ow (Slave.holding (n + sl.cfg.tSBusy) H sl))
      (scene s (n + sl.cfg.tSBusy + H) false ow x) :=
    Turns.wake (od := false) (ow := ow) hm (n + sl.cfg.tSBusy + H) (sl := Slave.holding (n + sl.cfg.tSBusy) H sl)
      h.base.trapped ⟨_, rfl⟩ rfl (Nat.le_add_right _ _) ha (y := x) (by
          show Slave.settle (shotCtx s _ false (Slave.fire (shotCtx s _ false _) _)) (Slave.fire (shotCtx s _ false _) _) = x
          rw [hends, hx]) (by
          show x.drive = (Slave.fire (shotCtx s _ false _) _).drive
          rw [hends, hrd]
          exact hax.writes.listening.released)
  exact ⟨x, hs, hax, h1.trans h2⟩

/-- The ack byte is out and the operation ends (R275, R282). -/
theorem Slave.Acking.ended (h : sl.Acking g len m calls times []) (hu : sl.upstream = []) (hd : Slave.Drift sl x) :
    Slave.SameAck sl (Slave.ret c 0 [.logAck] x) ∧ (Slave.ret c 0 [.logAck] x).AtRest ∧
      (Slave.ret c 0 [.logAck] x).Base g ∧ (Slave.ret c 0 [.logAck] x).status = statusCode .ok ∧
      (Slave.ret c 0 [.logAck] x).data = len ∧ (Slave.ret c 0 [.logAck] x).logLen = len ∧
      (Slave.ret c 0 [.logAck] x).logBuf = m ∧ (Slave.ret c 0 [.logAck] x).handlerCalls = calls ∧
      (Slave.ret c 0 [.logAck] x).handlerTimes = times ∧ (Slave.ret c 0 [.logAck] x).stack = [] := by
  have hr : Slave.ret c 0 [.logAck] x =
      { x with status := statusCode .ok, data := x.logLen, pos := .idle, stack := [], wake := none } := by
    show Slave.opDone c { x with status := statusCode .ok, data := x.logLen } = _
    simp only [Slave.opDone]
    rw [hd.same.upstream, hu]
  rw [hr]
  have hb : x.Base g := h.writes.listening.base.drift hd
  exact ⟨hd.sameAck.trans ⟨rfl, rfl, rfl, rfl, rfl, rfl, rfl, rfl, rfl, rfl⟩, ⟨rfl, rfl, hb.released⟩,
    hb.same rfl rfl rfl rfl rfl rfl, rfl, hd.same.logLen.trans h.logLen, hd.same.logLen.trans h.logLen,
    hd.same.logBuf.trans h.logBuf, hd.same.handlerCalls.trans h.calls, hd.same.handlerTimes.trans h.times, rfl⟩

/-! ### A reset in the dispatcher -/

/-- The same pulses seen from a later instant of their first high time. -/
theorem Slave.Reads.byteLate (h : sl.Reads s.cfg fs) (hm : s.master.Rests) (τ t : Nat) (hτ : τ ≤ t) (v : Byte)
    (ps : List (Nat × Nat)) (hp : ∀ p, ps.head? = some p → t < τ + p.1) (hv : carriesBits s.cfg 8 v ps) (ow : List Nat) :
    ∃ c x, c.cfg = s.cfg ∧ c.now = trainEnd τ ps ∧ Slave.Drift sl x ∧
      Turns 16 (scene s t false (pulseTrain τ ps ++ ow) sl) (scene s (trainEnd τ ps) false ow (Slave.ret c v fs x)) := by
  cases ps with
  | nil => exact hv.elim
  | cons p ps =>
    have hlt := hp p rfl
    have e : t + (p.1 - (t - τ)) = τ + p.1 := by omega
    have h1 : pulseTrain τ (p :: ps) = pulseTrain t ((p.1 - (t - τ), p.2) :: ps) := by
      simp only [pulseTrain, e]
    have h2 : trainEnd τ (p :: ps) = trainEnd t ((p.1 - (t - τ), p.2) :: ps) := by
      simp only [trainEnd, e]
    rw [h1, h2]
    exact h.traffic hm t v ((p.1 - (t - τ), p.2) :: ps) ⟨⟨by show 0 < p.1 - (t - τ); omega, hv.1.2⟩, hv.2⟩ ow

/-- A reset pulse brings the dispatcher to read a ROM command (R236). -/
theorem Slave.Serving.resetTraffic (h : sl.Serving s.cfg fs) (hm : s.master.Rests) (hz : s.cfg.delaySlack = 0) (a w : Nat) (hta : t < a)
    (hw : us s.cfg 360 ≤ w) (ha : WaveAfter (a + w + us s.cfg 144) ow) :
    ∃ x, Slave.Same sl x ∧ x.Reads s.cfg (.romCommand :: .dispatcher :: fs) ∧ x.txnState = .waitingRomCmd ∧
      Turns 4 (scene s t false (a :: (a + w) :: ow) sl) (scene s (a + w + us s.cfg 144) false ow x) := by
  obtain ⟨u, hl, hu, hst⟩ := h.waits
  obtain ⟨c, x, -, -, hd, -, -, -, hT⟩ := Turns.reset (s := s) (t := t) (ow := ow) hm hz hl hu a w hta hw ha
  obtain ⟨st, v, hsv, e⟩ := hst c { x with stack := resetCaller u :: sl.stack, txnState := .waitingRomCmd }
  have hr : Slave.returnValue c 0 { x with stack := resetCaller u :: sl.stack, txnState := .waitingRomCmd } =
      Slave.startReadByte c (.romCommand :: .dispatcher :: fs)
        { x with stack := resetCaller u :: sl.stack, txnState := .waitingRomCmd, status := st, data := v } :=
    e.trans (Slave.dispatch_waitingRomCmd c rfl)
  rw [hr] at hT
  have hb : x.Base s.cfg := hl.base.drift hd
  have hsv : Slave.SameResult x { x with status := st, data := v } := hsv
  exact ⟨Slave.startReadByte c (.romCommand :: .dispatcher :: fs)
      { x with stack := resetCaller u :: sl.stack, txnState := .waitingRomCmd, status := st, data := v },
    hd.same.trans ⟨rfl, rfl, rfl, rfl, rfl, rfl, rfl, hsv, rfl, rfl, rfl, rfl, rfl, rfl⟩,
    Slave.startReadByte_reads c (hb.same rfl rfl rfl rfl rfl rfl), rfl, hT⟩

end Sys2Proof.Machine
end

