-- ==== Sys2Proof/Laws/Mismatch.lean ====
section
/-! SUPPORT. The master's slots at a slave at rest, and MATCH_ROM with another ROM-ID than the slave's
(spec/44_slave_dispatch.md R241, R237): the slave drops out at the first bit that differs and only hears the rest;
and the same bits as pulses of an outside driver. -/

namespace Sys2Proof.Machine

variable {g : Config} {k : Nat} {s : State} {t : Nat} {d : Bool} {sl x : Slave}

/-! ### A slave at rest -/

/-- What becomes of a slave at rest: it stays at rest, and only its edge registers change. -/
def Slave.Hears (a b : Slave) : Prop := b.AtRest ∧ Slave.OnlyEdges a b

theorem Slave.Hears.trans {a b c : Slave} (h : Slave.Hears a b) (h' : Slave.Hears b c) : Slave.Hears a c :=
  ⟨h'.1, h.2.trans h'.2⟩

theorem mWait_hears (hq : s.NoOthers g) (h : x.AtRest) (n t : Nat) (d : Bool) :
    ∃ y, mWait n (shot s t d x) = shot s (t + n) d y ∧ Slave.Hears x y := by
  have hr := Slave.settle_atRest (shotCtx s t d x) x h
  refine ⟨_, ?_, hr, Slave.settle_onlyEdges _ x h⟩
  rw [mWait_shot hq, shot_settle hq (hr.2.2.trans h.2.2.symm), shot_coast_quiet hq n (Slave.quiet_of_asleep _ hr.2.1)]

theorem mPulse_hears (hq : s.NoOthers g) (h : x.AtRest) (low high t : Nat) :
    ∃ y, mPulse low high (shot s t false x) = shot s (t + low + high) false y ∧ Slave.Hears x y := by
  obtain ⟨y, ey, hy⟩ := mWait_hears hq h low t true
  obtain ⟨z, ez, hz⟩ := mWait_hears hq hy.1 high (t + low) false
  refine ⟨z, ?_, hy.trans hz⟩
  have hd : mDriveLow (shot s t false x) = shot s t true x := rfl
  have hr : mRelease (shot s (t + low) true y) = shot s (t + low) false y := rfl
  rw [mPulse, hd, ey, hr, ez]

theorem mWriteSlot_hears (hq : s.NoOthers g) (h : x.AtRest) (b : Bool) (t : Nat) :
    ∃ y, mWriteSlot b (shot s t false x) = shot s (t + us g 70) false y ∧ Slave.Hears x y := by
  obtain ⟨y, ey, hy⟩ := mPulse_hears hq h (slotLow g b) (slotTail g b) t
  refine ⟨y, ?_, hy⟩
  rw [Nat.add_assoc, slot_length] at ey
  obtain rfl := hq.2.2.2
  rw [← ey]
  cases b <;> rfl

theorem mShiftOut_hears (n : Nat) (hq : s.NoOthers g) (h : x.AtRest) (t : Nat) :
    ∃ s' y, mShiftOut n (shot s t false x) = shot s' (t + n * us g 70) false y ∧ Slave.Hears x y ∧ State.Shifted s s' := by
  induction n generalizing s t x with
  | zero => exact ⟨s, x, by simp [mShiftOut], ⟨h, .refl x⟩, rfl⟩
  | succ n ih =>
    obtain ⟨y, ey, hy⟩ := mWriteSlot_hears hq h (s.master.shift.getLsbD 0) t
    obtain ⟨s', z, ez, hz, hs'⟩ := ih (s := State.shiftedOut 1 s) (x := y) hq hy.1 (t + us g 70)
    refine ⟨s', z, ?_, hy.trans hz, State.Shifted.trans (a := s) (b := State.shiftedOut 1 s) rfl hs'⟩
    have hm : (shot s t false x).master.shift = s.master.shift := rfl
    have hstep : mShiftOut (n + 1) (shot s t false x) = mShiftOut n (shot (State.shiftedOut 1 s) (t + us g 70) false y) := by
      rw [mShiftOut]
      simp only [hm, ey]
      rfl
    rw [hstep, ez, Nat.add_mul n 1]
    congr 1
    omega

theorem mSendByte_hears (hq : s.NoOthers g) (h : x.AtRest) (v : Byte) (t : Nat) :
    ∃ y, mSendByte v (shot s t false x) = shot (s.shifter 0 8) (t + us g 560) false y ∧ Slave.Hears x y := by
  obtain ⟨s', y, ey, hy, hs'⟩ := mShiftOut_hears (s := s.shifter v 0) 8 hq h t
  have hm := mSendByte_master v (shot s t false x)
  have he : mSendByte v (shot s t false x) = shot s' (t + us g 560) false y := by
    have : mSendByte v (shot s t false x) = mShiftOut 8 (shot (s.shifter v 0) t false x) := rfl
    rw [this, ey, us_mul]
  refine ⟨y, ?_, hy⟩
  rw [he] at hm ⊢
  unfold State.Shifted at hs'
  rw [hs'] at hm ⊢
  exact shot_congr (s := s.shifter 0 8) _ _ rfl rfl rfl rfl hm

theorem mSendBytes_hears (bs : List Byte) (hq : s.NoOthers g) (h : x.AtRest) (t : Nat) :
    ∃ s' y, mSendBytes bs (shot s t false x) = shot s' (t + bs.length * us g 560) false y ∧ Slave.Hears x y ∧
      State.Shifted s s' := by
  induction bs generalizing s t x with
  | nil => exact ⟨s, x, by simp [mSendBytes], ⟨h, .refl x⟩, rfl⟩
  | cons b bs ih =>
    obtain ⟨y, ey, hy⟩ := mSendByte_hears hq h b t
    obtain ⟨s', z, ez, hz, hs'⟩ := ih (s := s.shifter 0 8) (x := y) hq hy.1 (t + us g 560)
    refine ⟨s', z, ?_, hy.trans hz, State.Shifted.trans (a := s) (b := s.shifter 0 8) rfl hs'⟩
    rw [mSendBytes, ey, ez, List.length_cons, Nat.add_mul bs.length 1]
    congr 1
    omega

/-! ### A bit that differs -/

/-- What `S_WAIT_FUNCTION_CMD` leaves of the slave `sl` when the ID was another: its result, then only edges. -/
def Slave.Rejected (sl x : Slave) : Prop :=
  x.AtRest ∧ ∃ y, Slave.HeardBytes { sl with
    txnState := .waitingReset, status := statusCode .romIdMismatch, data := 0 } y ∧ Slave.OnlyEdges y x

theorem Slave.Rejected.hears {y : Slave} (h : Slave.Rejected sl x) (hy : Slave.Hears x y) : Slave.Rejected sl y :=
  ⟨hy.1, h.2.choose, h.2.choose_spec.1, h.2.choose_spec.2.trans hy.2⟩

theorem Slave.Matching.differs {m : Nat} (h : x.Matching g [] m) (hm : m ≤ 64) (hr : sl.Ready g) (hx : Slave.Same sl x)
    (hq : s.NoOthers g) (t : Nat) (b : Bool) (hb : b ≠ romBit sl.romId m) :
    ∃ y, mWriteSlot b (shot s t false x) = shot s (t + us g 70) false y ∧ Slave.Rejected sl y := by
  unfold Slave.Matching at h
  rw [if_pos hm] at h
  obtain ⟨hl, hst⟩ := h
  have hret (c : Ctx) (tr pl : Nat) (po : Bool) (p : Pos) (w : Option Nat) :
      Slave.returnValue c (bitByte b) (Slave.after tr pl po p w x) =
        Slave.finish c .romIdMismatch 0 { Slave.after tr pl po p w x with txnState := .waitingReset } := by
    show Slave.ret c _ x.stack _ = _
    rw [hst]
    show Slave.matchRomNext c m (byteBit (bitByte b)) _ _ = _
    rw [byteBit_bitByte, Slave.matchRomNext]
    exact if_neg (by show ¬ b = romBit x.romId m; rw [hx.romId]; exact hb)
  have hfin (c : Ctx) (tr pl : Nat) (po : Bool) (p : Pos) (w : Option Nat) :
      Slave.HeardBytes { sl with txnState := .waitingReset, status := statusCode .romIdMismatch, data := 0 }
        (Slave.returnValue c (bitByte b) (Slave.after tr pl po p w x)) := by
    have hd := Slave.Drift.after tr pl po p w x
    rw [hret]
    exact hr.commanded (hx.trans hd.same) (hl.base.drift hd) c _ _ _
  obtain ⟨c, tr, pl, po, p, w, -, he⟩ := mWriteSlot_shot hq hl (t := t) b
    (fun c tr pl po p w _ => hr.asleep (hfin c tr pl po p w) rfl)
  have hy := hfin c tr pl po p w
  refine ⟨_, he, ⟨hy.pos.trans hr.pos, hr.asleep hy rfl, ?_⟩, _, hy, .refl _⟩
  obtain ⟨_, _, _, _, _, _, e⟩ := hy
  rw [e]
  exact hr.released

theorem mShiftOut_differs (n m : Nat) (h : x.Matching g [] m) (hm : m + n ≤ 65) (hr : sl.Ready g) (hx : Slave.Same sl x)
    (hq : s.NoOthers g) (t : Nat) (hv : ∃ i, i < n ∧ s.master.shift.getLsbD i ≠ romBit sl.romId (m + i)) :
    ∃ s' y, mShiftOut n (shot s t false x) = shot s' (t + n * us g 70) false y ∧ Slave.Rejected sl y ∧
      State.Shifted s s' := by
  induction n generalizing s t x m with
  | zero => exact absurd hv.choose_spec.1 (Nat.not_lt_zero _)
  | succ n ih =>
    have hm0 : (shot s t false x).master.shift = s.master.shift := rfl
    have hstep (y : Slave) (ey : mWriteSlot (s.master.shift.getLsbD 0) (shot s t false x) = shot s (t + us g 70) false y) :
        mShiftOut (n + 1) (shot s t false x) = mShiftOut n (shot (State.shiftedOut 1 s) (t + us g 70) false y) := by
      rw [mShiftOut]
      simp only [hm0, ey]
      rfl
    have htime : t + us g 70 + n * us g 70 = t + (n + 1) * us g 70 := by
      rw [Nat.add_mul n 1]
      omega
    by_cases hb : s.master.shift.getLsbD 0 = romBit sl.romId m
    · obtain ⟨y, ey, hy, hmy⟩ := h.slot (by omega) hq t
      rw [hx.romId, ← hb] at ey
      obtain ⟨i, hi, hne⟩ := hv
      obtain ⟨s', z, ez, hz, hs'⟩ := ih (s := State.shiftedOut 1 s) (x := y) (m + 1) hmy (by omega) (hx.trans hy) hq
        (t + us g 70) (by
          cases i with
          | zero => exact absurd hb hne
          | succ i =>
            refine ⟨i, by omega, ?_⟩
            show (s.master.shift >>> 1).getLsbD i ≠ _
            rw [BitVec.getLsbD_ushiftRight, Nat.add_comm 1 i, Nat.add_assoc m 1 i, Nat.add_comm 1 i]
            exact hne)
      rw [htime] at ez
      exact ⟨s', z, (hstep y ey).trans ez, hz, State.Shifted.trans (a := s) (b := State.shiftedOut 1 s) rfl hs'⟩
    · obtain ⟨y, ey, hy⟩ := h.differs (by omega) hr hx hq t _ hb
      obtain ⟨s', z, ez, hz, hs'⟩ := mShiftOut_hears (s := State.shiftedOut 1 s) n hq hy.1 (t + us g 70)
      rw [htime] at ez
      exact ⟨s', z, (hstep y ey).trans ez, hy.hears hz, State.Shifted.trans (a := s) (b := State.shiftedOut 1 s) rfl hs'⟩

theorem romBytesFrom_length (id : RomId) (n i : Nat) : (romBytesFrom id n i).length = n := by
  induction n generalizing i with
  | zero => rfl
  | succ n ih => rw [romBytesFrom, List.length_cons, ih]

theorem mSendBytes_differs (id : RomId) (n i : Nat) (hi : i + n = 8) (h : x.Matching g [] (8 * i + 1)) (hr : sl.Ready g)
    (hx : Slave.Same sl x) (hq : s.NoOthers g) (t : Nat)
    (hv : ∃ j, 8 * i + 1 ≤ j ∧ j ≤ 64 ∧ romBit id j ≠ romBit sl.romId j) :
    ∃ s' y, mSendBytes (romBytesFrom id n i) (shot s t false x) = shot s' (t + n * us g 560) false y ∧
      Slave.Rejected sl y ∧ State.Shifted s s' := by
  induction n generalizing s t x i with
  | zero =>
    obtain ⟨j, h1, h2, -⟩ := hv
    omega
  | succ n ih =>
    let s0 : State := s.shifter (romByte id i) 0
    have h0 (s1 : State) (y : Slave) (e : mShiftOut 8 (shot s0 t false x) = shot s1 (t + 8 * us g 70) false y) :
        mSendBytes (romBytesFrom id (n + 1) i) (shot s t false x) =
          mSendBytes (romBytesFrom id n (i + 1)) (shot s1 (t + us g 560) false y) := by
      have : mSendByte (romByte id i) (shot s t false x) = mShiftOut 8 (shot s0 t false x) := rfl
      rw [romBytesFrom, mSendBytes, this, e, us_mul]
    have htime : t + us g 560 + n * us g 560 = t + (n + 1) * us g 560 := by
      rw [Nat.add_mul n 1]
      omega
    by_cases hb : ∃ j, j < 8 ∧ s0.master.shift.getLsbD j ≠ romBit sl.romId (8 * i + 1 + j)
    · obtain ⟨s1, y, e1, hy, hs1⟩ := mShiftOut_differs (s := s0) 8 (8 * i + 1) h (by omega) hr hx hq t hb
      have hq1 : s1.NoOthers g := hs1.noOthers hq
      obtain ⟨s', z, e2, hz, hs'⟩ := mSendBytes_hears (romBytesFrom id n (i + 1)) hq1 hy.1 (t + us g 560)
      rw [romBytesFrom_length, htime] at e2
      exact ⟨s', z, (h0 s1 y e1).trans e2, hy.hears hz,
        State.Shifted.trans (State.Shifted.trans (a := s) (b := s0) rfl hs1) hs'⟩
    · have hb' : ∀ j, j < 8 → s0.master.shift.getLsbD j = romBit sl.romId (8 * i + 1 + j) := fun j hj =>
        Decidable.not_not.mp fun hne => hb ⟨j, hj, hne⟩
      obtain ⟨s1, y, e1, hy, hmy, hs1⟩ := mShiftOut_match (s := s0) (t := t) 8 (8 * i + 1) h (by omega) hq
        (fun j hj => by rw [hb' j hj, hx.romId])
      obtain ⟨j, h1, h2, hne⟩ := hv
      have hj : 8 * (i + 1) + 1 ≤ j := by
        by_contra hlt
        have := hb' (j - (8 * i + 1)) (by omega)
        rw [show s0.master.shift = romByte id i from rfl, romByte_bits id i _ (by omega),
          show 8 * i + 1 + (j - (8 * i + 1)) = j by omega] at this
        exact hne this
      obtain ⟨s', z, e2, hz, hs'⟩ := ih (s := s1) (x := y) (i + 1) (by omega)
        (by rw [show 8 * (i + 1) + 1 = 8 * i + 1 + 8 by omega]; exact hmy) (hx.trans hy) (hs1.noOthers hq) (t + us g 560)
        ⟨j, hj, h2, hne⟩
      rw [htime] at e2
      exact ⟨s', z, (h0 s1 y e1).trans e2, hz,
        State.Shifted.trans (State.Shifted.trans (a := s) (b := s0) rfl hs1) hs'⟩

/-- The launcher by MATCH_ROM with an ID that the slave in its dispatcher does not have (R173, R241). -/
theorem Slave.Serving.launchOther (h : x.Serving g []) (hr : sl.Ready g) (hx : Slave.Same sl x) (hq : s.NoOthers g) (t : Nat)
    (id : RomId) (f : Byte) (hid : id ≠ sl.romId) :
    ∃ s' y, Machine.launch 1 id f (shot s t false x) = (.ok, shot (s'.shifter 0 8) (t + us g 6560) false y) ∧
      Slave.Rejected sl y ∧ State.Shifted s s' := by
  obtain ⟨x1, e1, hs1, hr1, -⟩ := h.reset hq t
  obtain ⟨x2, e2, hs2, hm2⟩ := hr1.sendMatchRom hq (t + us g 960)
  have hbit : ∃ j, 8 * 0 + 1 ≤ j ∧ j ≤ 64 ∧ romBit id j ≠ romBit sl.romId j := by
    by_contra hno
    refine hid (BitVec.eq_of_getLsbD_eq fun i hi => Decidable.not_not.mp fun hne => hno ⟨i + 1, by omega, by omega, hne⟩)
  obtain ⟨s1, y, e3, hy, hsh⟩ := mSendBytes_differs (s := s.shifter 0 8) id 8 0 rfl hm2 hr ((hx.trans hs1).trans hs2) hq
    (t + us g 960 + us g 560) hbit
  obtain ⟨z, e4, hz⟩ := mSendByte_hears (hsh.noOthers hq) hy.1 f (t + us g 960 + us g 560 + 8 * us g 560)
  have hrb : romBytes id = romBytesFrom id 8 0 := rfl
  refine ⟨s1, z, ?_, hy.hears hz, State.Shifted.trans (a := s) (b := s.shifter 0 8) rfl hsh⟩
  have d0 : ¬ ((1 : BitVec 2) = 0) := by decide
  have htime : t + us g 960 + us g 560 + 8 * us g 560 + us g 560 = t + us g 6560 := by
    simp only [us_mul, us_add₂]
  unfold Machine.launch
  simp only [if_neg d0, if_true, e1, e2, hrb, e3, e4, htime]

/-! ### The same on an outside driver's pulses -/

variable {ow : List Nat} {rest : List Frame}

/-- A waiting bit of MATCH_ROM, as a place and a wait. -/
theorem Slave.Matching.waits {m : Nat} (h : x.Matching g rest m) (hm : m ≤ 64) :
    x.Listening g .readBit ∧ x.stack = .matchRom m :: .dispatcher :: rest := by
  unfold Slave.Matching at h
  rwa [if_pos hm] at h

/-- What the slave does with a bit of the ID (R241). -/
theorem Slave.Drift.gotMatchBit {m : Nat} {y : Slave} (hd : Slave.Drift x y) (hst : x.stack = .matchRom m :: .dispatcher :: rest)
    (c : Ctx) (b : Bool) : Slave.returnValue c (bitByte b) y = Slave.matchRomNext c m b (.dispatcher :: rest) y := by
  show Slave.ret c _ y.stack y = _
  rw [hd.stack, hst]
  show Slave.matchRomNext c m (byteBit (bitByte b)) _ _ = _
  rw [byteBit_bitByte]

/-- Bits of the ID that agree, and are not all of it. -/
theorem Turns.matchBits (qs : List (Nat × Nat)) (m : Nat) (h : x.Matching s.cfg rest m) (hm : m + qs.length ≤ 64)
    (hr : s.master.Rests)
    (hq : ∀ j q, qs[j]? = some q → isPulse q ∧ bitOfWidth s.cfg q.2 = some (romBit x.romId (m + j))) :
    ∃ y, Turns (2 * qs.length) (scene s t false (pulseTrain t qs ++ ow) x) (scene s (trainEnd t qs) false ow y) ∧
      Slave.Same x y ∧ y.Matching s.cfg rest (m + qs.length) := by
  induction qs generalizing t x m with
  | nil => exact ⟨x, .refl _, Slave.Same.refl x, h⟩
  | cons q qs ih =>
    obtain ⟨hl, hst⟩ := h.waits (by omega)
    obtain ⟨hi, hb⟩ := hq 0 q rfl
    obtain ⟨c, y, -, -, hd, -, -, hT⟩ := Turns.readBit (ow := pulseTrain (t + q.1 + q.2) qs ++ ow) hr hl (t + q.1) q.2
      (Nat.lt_add_of_pos_right hi.1) hi.2 _ hb
    have hlt : m < 64 := by
      rw [List.length_cons] at hm
      omega
    have he : Slave.returnValue c (bitByte (romBit x.romId m)) y =
        Slave.await c .readBit { y with stack := .matchRom (m + 1) :: .dispatcher :: rest } := by
      rw [hd.gotMatchBit hst, Slave.matchRomNext, if_pos (by rw [hd.same.romId]), if_pos hlt]
    have hyb : y.Base s.cfg := hl.base.drift hd
    rw [Nat.add_zero, he] at hT
    have hm1 : (Slave.await c .readBit { y with stack := .matchRom (m + 1) :: .dispatcher :: rest }).Matching s.cfg rest
        (m + 1) := by
      unfold Slave.Matching
      rw [if_pos (by omega)]
      exact ⟨⟨rfl, Slave.await_forever c hyb.no_timeout, hyb.valid, hyb.no_timeout, hyb.enabled, hyb.no_event,
        hyb.line_prev, hyb.released, hyb.not_busy⟩, rfl⟩
    have hxy : Slave.Same x (Slave.await c .readBit { y with stack := .matchRom (m + 1) :: .dispatcher :: rest }) :=
      hd.same.trans ⟨rfl, rfl, rfl, rfl, rfl, rfl, rfl, .inl ⟨rfl, rfl⟩, rfl, rfl, rfl, rfl, rfl, rfl⟩
    obtain ⟨z, hT2, hz, hmz⟩ := ih (t := t + q.1 + q.2) (m + 1) hm1 (by rw [List.length_cons] at hm; omega)
      (fun j p hj => by
        have := hq (j + 1) p hj
        rwa [hxy.romId, show m + 1 + j = m + (j + 1) by omega])
    refine ⟨z, ?_, hxy.trans hz, by rw [List.length_cons, show m + (qs.length + 1) = m + 1 + qs.length by omega]; exact hmz⟩
    rw [List.length_cons, Nat.mul_add, Nat.add_comm]
    exact hT.trans hT2

/-- A bit that differs ends `S_WAIT_FUNCTION_CMD` at its rising edge (R241, R294). -/
theorem Turns.mismatch {m : Nat} (h : x.Matching s.cfg [] m) (hm : m ≤ 64) (hr : s.master.Rests) (hx : Slave.Same sl x)
    (hsl : sl.Ready s.cfg) (p : Nat × Nat) (hi : isPulse p) (hb : bitOfWidth s.cfg p.2 = some (!romBit sl.romId m)) :
    ∃ y, Turns 2 (scene s t false (pulseTrain t [p] ++ ow) x) (scene s (trainEnd t [p]) false ow y) ∧
      Slave.HeardBytes { sl with txnState := .waitingReset, status := statusCode .romIdMismatch, data := 0 } y := by
  obtain ⟨hl, hst⟩ := h.waits hm
  obtain ⟨c, y, -, -, hd, -, -, hT⟩ := Turns.readBit (ow := ow) hr hl (t + p.1) p.2 (Nat.lt_add_of_pos_right hi.1) hi.2 _ hb
  refine ⟨_, hT, ?_⟩
  have he : Slave.returnValue c (bitByte (!romBit sl.romId m)) y =
      Slave.finish c .romIdMismatch 0 { y with txnState := .waitingReset } := by
    rw [hd.gotMatchBit hst, Slave.matchRomNext, if_neg (by rw [hd.same.romId, hx.romId]; simp)]
    rfl
  rw [he]
  exact hsl.commanded (hx.trans hd.same) (hl.base.drift hd) c _ _ _

end Sys2Proof.Machine
end

