-- ==== Sys2Proof/Laws/PerInstr.lean ====
section
/-! SUPPORT. One lemma per instruction: the code its request begins with and how many operand bytes follow
(spec/30_encoding.md R107, R108, R110, R111, R123, R124). -/

namespace Sys2Proof.Laws.OpcodeByte

/-- The code of the instruction's row in spec/opcode_table.json. -/
def code : Instr → Byte
  | .readRom _ => 0x33
  | .matchRom _ => 0x55
  | .skipRom _ => 0xCC
  | .searchRom _ => 0xF0
  | .alarmSearch _ => 0xEC
  | .logMessage _ => 0x44
  | .ack _ => 0x42
  | .pulseOne _ => 0x00
  | .pulseZero _ => 0x01
  | .pulseBad _ => 0x02
  | .pulseReset _ => 0x03
  | .isrFall _ => 0x00
  | .isrRise _ => 0x01
  | .mReset => 0x01
  | .mWriteBit _ => 0x02
  | .mReadBit => 0x03
  | .mWriteByte _ => 0x04
  | .mReadByte => 0x05
  | .mReadRom => 0x10
  | .mSearchFirst => 0x11
  | .mSearchNext => 0x12
  | .mAlarmFirst => 0x13
  | .mAlarmNext => 0x14
  | .mVerify _ => 0x15
  | .mStartTxn _ _ _ => 0x16
  | .mLogSend _ _ _ _ => 0x20
  | .sInit _ => 0x80
  | .sWaitReset _ => 0x81
  | .sReadBit _ => 0x82
  | .sWriteBit _ _ => 0x83
  | .sReadByte _ => 0x84
  | .sWriteByte _ _ => 0x85
  | .sWaitFunctionCmd _ => 0x86
  | .sSetAlarm _ _ => 0x87
  | .sBusyBegin _ => 0x88
  | .sBusyEnd _ => 0x89
  | .sLogReceive _ => 0x8A
  | .sLogServe _ => 0x8B

/-- The bytes of its operand fields. -/
def operandBytes : Instr → Nat
  | .readRom _ => 0
  | .matchRom _ => 0
  | .skipRom _ => 0
  | .searchRom _ => 0
  | .alarmSearch _ => 0
  | .logMessage _ => 0
  | .ack _ => 0
  | .pulseOne _ => 0
  | .pulseZero _ => 0
  | .pulseBad _ => 0
  | .pulseReset _ => 0
  | .isrFall _ => 0
  | .isrRise _ => 0
  | .mReset => 0
  | .mWriteBit _ => 1
  | .mReadBit => 0
  | .mWriteByte _ => 1
  | .mReadByte => 0
  | .mReadRom => 0
  | .mSearchFirst => 0
  | .mSearchNext => 0
  | .mAlarmFirst => 0
  | .mAlarmNext => 0
  | .mVerify _ => 8
  | .mStartTxn _ _ _ => 10
  | .mLogSend _ _ len _ => 10 + len.toNat
  | .sInit _ => 0
  | .sWaitReset _ => 0
  | .sReadBit _ => 0
  | .sWriteBit _ _ => 1
  | .sReadByte _ => 0
  | .sWriteByte _ _ => 1
  | .sWaitFunctionCmd _ => 0
  | .sSetAlarm _ _ => 1
  | .sBusyBegin _ => 0
  | .sBusyEnd _ => 0
  | .sLogReceive _ => 0
  | .sLogServe _ => 0

/-- A well-formed instruction's request is its code and its operand bytes. -/
def Statement (i : Instr) : Prop :=
  i.wellFormed = true → ∃ operands, (encode i).2 = code i :: operands ∧ operands.length = operandBytes i

theorem readRom (k : Nat) : Statement (.readRom k) := fun _ => ⟨_, rfl, rfl⟩

theorem matchRom (k : Nat) : Statement (.matchRom k) := fun _ => ⟨_, rfl, rfl⟩

theorem skipRom (k : Nat) : Statement (.skipRom k) := fun _ => ⟨_, rfl, rfl⟩

theorem searchRom (k : Nat) : Statement (.searchRom k) := fun _ => ⟨_, rfl, rfl⟩

theorem alarmSearch (k : Nat) : Statement (.alarmSearch k) := fun _ => ⟨_, rfl, rfl⟩

theorem logMessage (k : Nat) : Statement (.logMessage k) := fun _ => ⟨_, rfl, rfl⟩

theorem ack (k : Nat) : Statement (.ack k) := fun _ => ⟨_, rfl, rfl⟩

theorem pulseOne (k : Nat) : Statement (.pulseOne k) := fun _ => ⟨_, rfl, rfl⟩

theorem pulseZero (k : Nat) : Statement (.pulseZero k) := fun _ => ⟨_, rfl, rfl⟩

theorem pulseBad (k : Nat) : Statement (.pulseBad k) := fun _ => ⟨_, rfl, rfl⟩

theorem pulseReset (k : Nat) : Statement (.pulseReset k) := fun _ => ⟨_, rfl, rfl⟩

theorem isrFall (k : Nat) : Statement (.isrFall k) := fun _ => ⟨_, rfl, rfl⟩

theorem isrRise (k : Nat) : Statement (.isrRise k) := fun _ => ⟨_, rfl, rfl⟩

theorem mReset : Statement (.mReset) := fun _ => ⟨_, rfl, rfl⟩

theorem mWriteBit (arg : Byte) : Statement (.mWriteBit arg) := fun _ => ⟨_, rfl, rfl⟩

theorem mReadBit : Statement (.mReadBit) := fun _ => ⟨_, rfl, rfl⟩

theorem mWriteByte (arg : Byte) : Statement (.mWriteByte arg) := fun _ => ⟨_, rfl, rfl⟩

theorem mReadByte : Statement (.mReadByte) := fun _ => ⟨_, rfl, rfl⟩

theorem mReadRom : Statement (.mReadRom) := fun _ => ⟨_, rfl, rfl⟩

theorem mSearchFirst : Statement (.mSearchFirst) := fun _ => ⟨_, rfl, rfl⟩

theorem mSearchNext : Statement (.mSearchNext) := fun _ => ⟨_, rfl, rfl⟩

theorem mAlarmFirst : Statement (.mAlarmFirst) := fun _ => ⟨_, rfl, rfl⟩

theorem mAlarmNext : Statement (.mAlarmNext) := fun _ => ⟨_, rfl, rfl⟩

theorem mVerify (id : RomId) : Statement (.mVerify id) := fun _ => ⟨_, rfl, rfl⟩

theorem mStartTxn (mode : BitVec 2) (id : RomId) (arg : Byte) : Statement (.mStartTxn mode id arg) := fun _ => ⟨_, rfl, rfl⟩

theorem mLogSend (mode : BitVec 2) (id : RomId) (len : Byte) (payload : List Byte) : Statement (.mLogSend mode id len payload) := fun h =>
  ⟨_, rfl, by
    have : payload.length = len.toNat := by simpa [Instr.wellFormed] using h
    simp [romBytes, operandBytes, this]
    omega⟩

theorem sInit (k : Nat) : Statement (.sInit k) := fun _ => ⟨_, rfl, rfl⟩

theorem sWaitReset (k : Nat) : Statement (.sWaitReset k) := fun _ => ⟨_, rfl, rfl⟩

theorem sReadBit (k : Nat) : Statement (.sReadBit k) := fun _ => ⟨_, rfl, rfl⟩

theorem sWriteBit (k : Nat) (arg : Byte) : Statement (.sWriteBit k arg) := fun _ => ⟨_, rfl, rfl⟩

theorem sReadByte (k : Nat) : Statement (.sReadByte k) := fun _ => ⟨_, rfl, rfl⟩

theorem sWriteByte (k : Nat) (arg : Byte) : Statement (.sWriteByte k arg) := fun _ => ⟨_, rfl, rfl⟩

theorem sWaitFunctionCmd (k : Nat) : Statement (.sWaitFunctionCmd k) := fun _ => ⟨_, rfl, rfl⟩

theorem sSetAlarm (k : Nat) (arg : Byte) : Statement (.sSetAlarm k arg) := fun _ => ⟨_, rfl, rfl⟩

theorem sBusyBegin (k : Nat) : Statement (.sBusyBegin k) := fun _ => ⟨_, rfl, rfl⟩

theorem sBusyEnd (k : Nat) : Statement (.sBusyEnd k) := fun _ => ⟨_, rfl, rfl⟩

theorem sLogReceive (k : Nat) : Statement (.sLogReceive k) := fun _ => ⟨_, rfl, rfl⟩

theorem sLogServe (k : Nat) : Statement (.sLogServe k) := fun _ => ⟨_, rfl, rfl⟩

end Sys2Proof.Laws.OpcodeByte
end

