-- ==== Sys2Proof/Laws/Timeout.lean ====
section
/-! SUPPORT. A slave's operation that waits for a pulse under a finite `S_WAIT_TIMEOUT`, and no pulse comes
(spec/42_slave_pulse_reset.md R194, spec/60_exceptions.md R304(f), R306). -/

namespace Sys2Proof.Machine

variable {g : Config} {k : Nat} {s v : State} {t : Nat} {ow : List Nat} {sl x : Slave} {u : PulseUse}

/-- A slave that waits for a pulse until instant `e`, and whose callers hand an error on. -/
structure Slave.Timed (e : Nat) (sl : Slave) : Prop where
  pos : ∃ u, sl.pos = .waitPulse u
  wake : sl.wake = some e
  no_event : sl.pulseNew = false
  trapped : sl.trapped = false
  line_prev : sl.linePrev = true
  released : sl.drive = false
  raises : ∀ c x, x.txnState = .waitingReset → Slave.unwind c .timeout 0 sl.stack x = Slave.finish c .timeout 0 x

/-- How the operations that wait for a pulse begin (R124). -/
theorem Slave.Prepared.start_timed (h : sl.Prepared g) {d : Nat} (hd : sl.cfg.waitTimeout = some d) (c : Ctx) (op : SlaveOp)
    (hop : op = .waitReset ∨ op = .readBit ∨ (∃ a, op = .writeBit a) ∨ op = .readByte ∨ (∃ a, op = .writeByte a) ∨
      op = .waitFunctionCmd ∨ op = .logReceive ∨ op = .logServe) :
    (Slave.start c op sl).Timed (c.now + d) ∧ ∃ pos wake stack shift bitcnt, Slave.start c op sl = { sl with
      pos := pos, wake := wake, stack := stack, shift := shift, bitcnt := bitcnt
      crc16 := if op = .logReceive then 0xFFFF else sl.crc16 } := by
  have hw : sl.cfg.waitTimeout.map (c.now + ·) = some (c.now + d) := by rw [hd]; rfl
  have hx (x : Slave) (hx : x.txnState = .waitingReset) : ({ x with txnState := .waitingReset } : Slave) = x := by rw [← hx]
  have hdis (rest : List Frame) (hr : ∀ c x, x.txnState = .waitingReset →
      Slave.unwind c .timeout 0 (.dispatcher :: rest) x = Slave.finish c .timeout 0 x) :
      (Slave.dispatch c rest sl).Timed (c.now + d) ∧ ∃ pos wake stack shift bitcnt, Slave.dispatch c rest sl = { sl with
        pos := pos, wake := wake, stack := stack, shift := shift, bitcnt := bitcnt } := by
    unfold Slave.dispatch
    split <;> exact ⟨⟨⟨_, rfl⟩, hw, h.no_event, h.trapped, h.line_prev, h.released, hr⟩, _, _, _, _, _, rfl⟩
  rcases hop with rfl | rfl | ⟨a, rfl⟩ | rfl | ⟨a, rfl⟩ | rfl | rfl | rfl
  case inr.inr.inr.inr.inr.inl => exact hdis [] fun c x h => congrArg (Slave.finish c .timeout 0) (hx x h)
  case inr.inr.inr.inr.inr.inr.inr => exact hdis [.logServe] fun c x h => congrArg (Slave.finish c .timeout 0) (hx x h)
  all_goals exact ⟨⟨⟨_, rfl⟩, hw, h.no_event, h.trapped, h.line_prev, h.released, fun c x hx => rfl⟩, _, _, _, _, _, rfl⟩

/-- The wait's end: `Timeout` in `WAITING_RESET` (R194, R304(f)). -/
theorem Slave.Timed.expire {e : Nat} (h : x.Timed e) (c : Ctx) (hc : e ≤ c.now) :
    Slave.expire c x = Slave.finish c .timeout 0 { x with txnState := .waitingReset } := by
  obtain ⟨u, hu⟩ := h.pos
  have hd : x.due c.now = true := by simp [Slave.due, h.wake, hc]
  have he : Slave.expire c x = Slave.timeout c x := by simp [Slave.expire, h.trapped, hu, h.no_event, hd]
  exact he.trans (h.raises c { x with txnState := .waitingReset } rfl)

theorem Slave.Timed.settle {e : Nat} (h : x.Timed e) (c : Ctx) (hl : c.level = true) : Slave.settle c x = Slave.expire c x := by
  obtain ⟨u, hu⟩ := h.pos
  have ho : Slave.observe c x = x := if_pos (h.line_prev.trans hl.symm)
  have hp : Slave.proceed c x = x := by simp [Slave.proceed, h.trapped, hu, Slave.takeEvent, h.no_event]
  rw [Slave.settle, ho, Slave.resume, hp]

/-- Until then nothing happens. -/
theorem Slave.Timed.settle_early {e : Nat} (h : x.Timed e) (c : Ctx) (hl : c.level = true) (hc : c.now < e) :
    Slave.settle c x = x := by
  rw [h.settle c hl, Slave.expire_early]
  simp [Slave.due, h.wake, hc]

theorem Slave.Timed.fire {e : Nat} (h : x.Timed e) (c : Ctx) : Slave.fire c x = x := by
  obtain ⟨u, hu⟩ := h.pos
  simp [Slave.fire, hu]

/-- The instant of the wait's end (R194). -/
theorem Slave.Timed.goTo {e : Nat} (h : x.Timed e) (hm : s.master.Rests) (hu : x.upstream = []) (hte : t ≤ e)
    (ha : WaveAfter e ow) :
    Machine.settle (goTo e (scene s t false ow x)) = scene s e false ow
      (Slave.finish (sceneCtx s e false x) .timeout 0 { x with txnState := .waitingReset }) := by
  have hl : (sceneCtx s e false x).level = true := by simp [sceneCtx, h.released]
  have hs := (h.settle (sceneCtx s e false x) hl).trans (h.expire _ (Nat.le_refl e))
  have hr : (Slave.finish (sceneCtx s e false x) .timeout 0 { x with txnState := .waitingReset }).drive = x.drive := by
    rw [Slave.finish_last _ _ _ (by exact hu)]
  rw [scene_goTo hm e hte, h.fire, moveOthers_after ha, scene_settle hm (by rw [hs, hr]), hs]

theorem Slave.Timed.nextEvent {e : Nat} (h : x.Timed e) (ha : WaveAfter e ow) :
    Machine.nextEvent (scene s t false ow x) = some e := by
  rw [scene_nextEvent, Slave.nextWake, h.trapped, if_neg (by decide), h.wake, earlier_wake ha]

/-- The end of a wait that some traffic to come lets the request run to (R194). -/
theorem Slave.Timed.turn {e : Nat} (h : x.Timed e) (hm : s.master.Rests) (hu : x.upstream = []) (hte : t ≤ e)
    (ha : WaveAfter e ow) (hne : ow ≠ []) :
    Turns 1 (scene s t false ow x) (scene s e false ow
      (Slave.finish (sceneCtx s e false x) .timeout 0 { x with txnState := .waitingReset })) := by
  refine Turns.one (e := e) hm ?_ (h.nextEvent ha) (h.goTo hm hu hte ha)
  obtain ⟨u, hp⟩ := h.pos
  show Slave.movesOn ow x = true
  simp [Slave.movesOn, h.trapped, hp, hne]

theorem Alone.idleStep (h : Alone k s v) : Alone k (idleStep s) (idleStep v) := by
  unfold Machine.idleStep
  have h1 := h.settle
  simp only [h1.nextEvent_eq]
  split
  · exact ⟨h1.cfg, by show _ + us _ 1 = _; rw [h1.now, h1.cfg], h1.master, h1.otherDrive, h1.otherWave, h1.requests,
      h1.slave, h1.rest⟩
  · exact (h1.goTo _).settle

/-- The same with nothing to come, in the next step (R194). -/
theorem Slave.Timed.idle {e : Nat} (h : x.Timed e) (hm : s.master.Rests) (hu : x.upstream = []) (hte : t < e) :
    Machine.idleStep (scene s t false [] x) = scene s e false []
      (Slave.finish (sceneCtx s e false x) .timeout 0 { x with txnState := .waitingReset }) := by
  have ha : WaveAfter e [] := fun a h => by cases h
  have hs := h.settle_early (sceneCtx s t false x) (by simp [sceneCtx, h.released]) hte
  have h0 : Machine.settle (scene s t false [] x) = scene s t false [] x := by rw [scene_settle hm (by rw [hs]), hs]
  unfold Machine.idleStep
  rw [h0]
  simp only [h.nextEvent ha, h.goTo hm hu (Nat.le_of_lt hte) ha]

end Sys2Proof.Machine
end

