-- ==== Sys2Proof/Laws/Wire.lean ====
section
/-! SUPPORT. The codes presented at a slave's port (spec/30_encoding.md R107, R108, R110, R111): where they act and where
not. -/

namespace Sys2Proof.Machine

variable {k : Nat} {s : State} {sl y : Slave}

theorem exec_readRom : exec (.readRom k) s = onSlave k s fun c => Slave.atRomCommand (Slave.romReadRom c) := rfl
theorem exec_matchRom : exec (.matchRom k) s = onSlave k s fun c => Slave.atRomCommand (Slave.romMatchRom c) := rfl
theorem exec_skipRom : exec (.skipRom k) s = onSlave k s fun c => Slave.atRomCommand (Slave.romSkipRom c) := rfl
theorem exec_searchRom : exec (.searchRom k) s = onSlave k s fun c => Slave.atRomCommand (Slave.romSearchRom c) := rfl
theorem exec_alarmSearch : exec (.alarmSearch k) s = onSlave k s fun c => Slave.atRomCommand (Slave.romAlarmSearch c) :=
  rfl
theorem exec_logMessage : exec (.logMessage k) s = onSlave k s fun c => Slave.atFunctionCommand (Slave.gotLogMessage c) :=
  rfl
theorem exec_ack : exec (.ack k) s = onSlave k s fun c => Slave.atHoldEnd (Slave.writeAck c) := rfl
theorem exec_pulseOne : exec (.pulseOne k) s = onSlave k s fun c => Slave.atPulse (Slave.pulseOne c) := rfl
theorem exec_pulseZero : exec (.pulseZero k) s = onSlave k s fun c => Slave.atPulse (Slave.pulseZero c) := rfl
theorem exec_pulseBad : exec (.pulseBad k) s = onSlave k s fun c => Slave.atPulse (Slave.pulseBad c) := rfl
theorem exec_pulseReset : exec (.pulseReset k) s = onSlave k s fun c => Slave.atPulse (Slave.pulseReset c) := rfl
theorem exec_isrFall : exec (.isrFall k) s = onSlave k s Slave.edgeFall := rfl
theorem exec_isrRise : exec (.isrRise k) s = onSlave k s Slave.edgeRise := rfl

theorem onSlave_some {f : Ctx → Slave → Slave} (hk : s.slaves[k]? = some sl) (h : f s.ctx sl = y) :
    onSlave k s f = .next { s with slaves := s.slaves.set k y } := by
  simp [onSlave, hk, h]

/-- A slave that is left as it is leaves the machine as it is. -/
theorem onSlave_same {f : Ctx → Slave → Slave} (hk : s.slaves[k]? = some sl) (h : f s.ctx sl = sl) :
    onSlave k s f = .next s := by
  rw [onSlave_some hk h]
  have : s.slaves.set k sl = s.slaves := by
    obtain ⟨_, e⟩ := List.getElem?_eq_some_iff.mp hk
    rw [← e]
    simp
  rw [this]

theorem Slave.atRomCommand_eq {rest : List Frame} (ht : sl.trapped = false) (hp : sl.pos = .waitPulse .readBit)
    (hst : sl.stack = .readByte :: .romCommand :: rest) (f : List Frame → Slave → Slave) :
    Slave.atRomCommand f sl = f rest sl := by
  simp [Slave.atRomCommand, ht, hp, hst]

theorem Slave.atRomCommand_elsewhere (h : sl.trapped = true ∨ sl.pos ≠ .waitPulse .readBit ∨
    ∀ rest, sl.stack ≠ .readByte :: .romCommand :: rest) (f : List Frame → Slave → Slave) :
    Slave.atRomCommand f sl = sl := by
  unfold Slave.atRomCommand
  split
  · rfl
  · rename_i ht
    split
    · rename_i h1 h2
      rcases h with h | h | h
      · exact absurd h ht
      · exact absurd h1 h
      · exact absurd h2 (h _)
    · rfl

theorem Slave.atFunctionCommand_eq {rest : List Frame} (ht : sl.trapped = false) (hp : sl.pos = .waitPulse .readBit)
    (hst : sl.stack = .readByte :: .functionCommand :: rest) (f : List Frame → Slave → Slave) :
    Slave.atFunctionCommand f sl = f rest sl := by
  simp [Slave.atFunctionCommand, ht, hp, hst]

theorem Slave.atFunctionCommand_elsewhere (h : sl.trapped = true ∨ sl.pos ≠ .waitPulse .readBit ∨
    ∀ rest, sl.stack ≠ .readByte :: .functionCommand :: rest) (f : List Frame → Slave → Slave) :
    Slave.atFunctionCommand f sl = sl := by
  unfold Slave.atFunctionCommand
  split
  · rfl
  · rename_i ht
    split
    · rename_i h1 h2
      rcases h with h | h | h
      · exact absurd h ht
      · exact absurd h1 h
      · exact absurd h2 (h _)
    · rfl

theorem Slave.atHoldEnd_eq {rest : List Frame} (ht : sl.trapped = false) (hp : sl.pos = .waitPulse .busyEnd)
    (hst : sl.stack = .logHold :: rest) (f : List Frame → Slave → Slave) : Slave.atHoldEnd f sl = f rest sl := by
  simp [Slave.atHoldEnd, ht, hp, hst]

theorem Slave.atHoldEnd_elsewhere (h : sl.trapped = true ∨ sl.pos ≠ .waitPulse .busyEnd ∨
    ∀ rest, sl.stack ≠ .logHold :: rest) (f : List Frame → Slave → Slave) : Slave.atHoldEnd f sl = sl := by
  unfold Slave.atHoldEnd
  split
  · rfl
  · rename_i ht
    split
    · rename_i h1 h2
      rcases h with h | h | h
      · exact absurd h ht
      · exact absurd h1 h
      · exact absurd h2 (h _)
    · rfl

theorem Slave.atPulse_eq {u : PulseUse} (ht : sl.trapped = false) (hp : sl.pos = .waitPulse u) (f : Slave → Slave) :
    Slave.atPulse f sl = f { sl with pulseNew := false } := by
  simp [Slave.atPulse, ht, hp]

end Sys2Proof.Machine
end

