-- ==== Sys2Proof/Tests/Slice0.lean ====
section
/-! SUPPORT. The author's own tests: ill-formed terms refused, codes decoded from bits written out from
spec/30_encoding.md, single steps against values the spec gives, and for every statement with hypotheses a concrete
state and operands that meet them. -/

namespace Sys2Proof.Tests

open Sys2Proof.Machine

set_option maxRecDepth 100000

/-- How time is counted after reset. -/
abbrev g0 : Config := Config.default

/-- Microseconds, counted so. -/
abbrev micro (n : Nat) : Nat := us g0 n

/-! ### Well-formedness -/

theorem test_wellFormed_refuses_short_payload : (Instr.mLogSend 0 0 2 [0x68]).wellFormed = false := by decide

theorem test_wellFormed_refuses_long_payload : (Instr.mLogSend 1 0 0 [0x68]).wellFormed = false := by decide

theorem test_wellFormed_accepts_empty_frame : (Instr.mLogSend 1 0 0 []).wellFormed = true := by decide

/-! ### Decoding: the words are the encodings of R107, R108, R110, R111, R123, R124 bit by bit -/

theorem test_decode_rom_commands :
    decode (.romCommand 0) [0b00110011] = .ok (.readRom 0, []) ∧
    decode (.romCommand 0) [0b01010101] = .ok (.matchRom 0, []) ∧
    decode (.romCommand 0) [0b11001100] = .ok (.skipRom 0, []) ∧
    decode (.romCommand 0) [0b11110000] = .ok (.searchRom 0, []) ∧
    decode (.romCommand 0) [0b11101100] = .ok (.alarmSearch 0, []) := ⟨rfl, rfl, rfl, rfl, rfl⟩

theorem test_decode_function_and_ack :
    decode (.functionCommand 0) [0b01000100] = .ok (.logMessage 0, []) ∧
    decode (.ackByte 0) [0b01000010] = .ok (.ack 0, []) := ⟨rfl, rfl⟩

theorem test_decode_pulse_classes :
    decode (.pulseClass 0) [0b00] = .ok (.pulseOne 0, []) ∧ decode (.pulseClass 0) [0b01] = .ok (.pulseZero 0, []) ∧
    decode (.pulseClass 0) [0b10] = .ok (.pulseBad 0, []) ∧ decode (.pulseClass 0) [0b11] = .ok (.pulseReset 0, []) :=
  ⟨rfl, rfl, rfl, rfl⟩

theorem test_decode_edge_kinds :
    decode (.edgeKind 0) [0b0] = .ok (.isrFall 0, []) ∧ decode (.edgeKind 0) [0b1] = .ok (.isrRise 0, []) := ⟨rfl, rfl⟩

theorem test_decode_master_bits :
    decode .master [0b00000001] = .ok (.mReset, []) ∧ decode .master [0b00000010, 1] = .ok (.mWriteBit 1, []) ∧
    decode .master [0b00000011] = .ok (.mReadBit, []) ∧ decode .master [0b00000100, 0x33] = .ok (.mWriteByte 0x33, []) ∧
    decode .master [0b00000101] = .ok (.mReadByte, []) := ⟨rfl, rfl, rfl, rfl, rfl⟩

theorem test_decode_master_searches :
    decode .master [0b00010000] = .ok (.mReadRom, []) ∧ decode .master [0b00010001] = .ok (.mSearchFirst, []) ∧
    decode .master [0b00010010] = .ok (.mSearchNext, []) ∧ decode .master [0b00010011] = .ok (.mAlarmFirst, []) ∧
    decode .master [0b00010100] = .ok (.mAlarmNext, []) := ⟨rfl, rfl, rfl, rfl, rfl⟩

theorem test_decode_verify : decode .master [0b00010101, 0x28, 1, 0, 0, 0, 0, 0, 0x29] =
    .ok (.mVerify 0x2900000000000128, []) := rfl

theorem test_decode_startTxn : decode .master [0b00010110, 2, 0, 0, 0, 0, 0, 0, 0, 0, 0x44] =
    .ok (.mStartTxn 2 0 0x44, []) := rfl

theorem test_decode_logSend : decode .master [0b00100000, 1, 0x42, 0, 0, 0, 0, 0, 0, 0, 2, 0x68, 0x69] =
    .ok (.mLogSend 1 0x42 2 [0x68, 0x69], []) := rfl

theorem test_decode_slave_bits :
    decode (.slave 3) [0b10000000] = .ok (.sInit 3, []) ∧ decode (.slave 3) [0b10000001] = .ok (.sWaitReset 3, []) ∧
    decode (.slave 3) [0b10000010] = .ok (.sReadBit 3, []) ∧
    decode (.slave 3) [0b10000011, 1] = .ok (.sWriteBit 3 1, []) ∧
    decode (.slave 3) [0b10000100] = .ok (.sReadByte 3, []) ∧
    decode (.slave 3) [0b10000101, 0x42] = .ok (.sWriteByte 3 0x42, []) := ⟨rfl, rfl, rfl, rfl, rfl, rfl⟩

theorem test_decode_slave_others :
    decode (.slave 3) [0b10000110] = .ok (.sWaitFunctionCmd 3, []) ∧
    decode (.slave 3) [0b10000111, 1] = .ok (.sSetAlarm 3 1, []) ∧
    decode (.slave 3) [0b10001000] = .ok (.sBusyBegin 3, []) ∧ decode (.slave 3) [0b10001001] = .ok (.sBusyEnd 3, []) ∧
    decode (.slave 3) [0b10001010] = .ok (.sLogReceive 3, []) ∧
      decode (.slave 3) [0b10001011] = .ok (.sLogServe 3, []) :=
  ⟨rfl, rfl, rfl, rfl, rfl, rfl⟩

theorem test_decode_rejects :
    decode .master [0x00] = .error .reservedMasterOp ∧ decode .master [0x21] = .error .reservedMasterOp ∧
    decode (.slave 0) [0x8C] = .error (.reservedSlaveOp 0) ∧
      decode (.romCommand 0) [0x44] = .error (.notRomCommand 0 0x44) ∧
    decode .master [0x16, 4, 0, 0, 0, 0, 0, 0, 0, 0, 0] = .error .badMode ∧ decode .master [0x02] = .error .truncated :=
  ⟨rfl, rfl, rfl, rfl, rfl, rfl⟩

theorem test_table_words :
    decodeTableWord 8 0x33 = some (.readRom 0) ∧ decodeTableWord 8 0x44 = some (.logMessage 0) ∧
    decodeTableWord 8 0x42 = some (.ack 0) ∧ decodeTableWord 8 0x20 = some (.mLogSend 0 0 0 []) ∧
    decodeTableWord 8 0x8B = some (.sLogServe 0) ∧ decodeTableWord 2 3 = some (.pulseReset 0) ∧
    decodeTableWord 1 1 = some (.isrRise 0) := by decide

/-! ### Computed values -/

/-- R263, R264: "over the ASCII string `123456789` from `0xFFFF`". -/
theorem test_crc16_check_values :
    [0x31, 0x32, 0x33, 0x34, 0x35, 0x36, 0x37, 0x38, 0x39].foldl (crc16Update .ccittFalse) 0xFFFF = 0x29B1 ∧
    [0x31, 0x32, 0x33, 0x34, 0x35, 0x36, 0x37, 0x38, 0x39].foldl (crc16Update .ccittReflected) 0xFFFF = 0x6F91 ∧
    crc16Update .ccittFalse 0xFFFF 0 = 0xE1F0 ∧ crc16Update .ccittReflected 0xFFFF 0 = 0x0F87 := by decide +kernel

/-- R270: "hello" is sent with the CRC bytes `8E 73`. -/
theorem test_frameCrc_hello : frameCrc .ccittFalse 5 [0x68, 0x65, 0x6C, 0x6C, 0x6F] = 0x8E73 := by decide +kernel

/-- R160: the ROM-ID `42 11 22 33 44 55 66 F5`; R169: `28 01 00 00 00 00 00 29`. -/
theorem test_romId_crc :
    crc8Fold 0 [0x42, 0x11, 0x22, 0x33, 0x44, 0x55, 0x66] = 0xF5 ∧ crc8Fold 0 [0x28, 1, 0, 0, 0, 0, 0] = 0x29 ∧
    crc8Fold 0 [0x28, 2, 0, 0, 0, 0, 0] = 0x70 := by decide +kernel

/-- R195, R107: the thresholds, lower bounds inclusive, at two ticks per microsecond. -/
theorem test_classify_thresholds :
    classify 2 29 false = .one ∧ classify 2 30 false = .zero ∧ classify 2 139 false = .zero ∧
    classify 2 140 false = .bad ∧ classify 2 719 false = .bad ∧ classify 2 720 false = .reset ∧
    classify 2 0 true = .reset := by decide

/-! ### Single steps -/

/-- The machine after reset with these slaves and these pulses of an outside driver. -/
def bus (slaves : List Slave) (pulses : List (Nat × Nat)) : State :=
  { State.reset with slaves := slaves, otherWave := pulseTrain 0 pulses }

/-- The state after an instruction, if it is a next state. -/
def after (i : Instr) (s : State) : Option State :=
  match exec i s with
  | .next t => some t
  | .fault _ | .refused _ => none

/-- The slave of `State.reset`, in strict mode. -/
def strictSlave : Slave :=
  { Slave.initialised with cfg := { SlaveConfig.default with strictMode := true } }

/-- R141, R148: nobody answers. -/
theorem test_mReset_alone : (after .mReset State.reset).map (fun t => (t.master.status, t.master.data, t.now)) =
    some (1, 0, 960000) := by decide

/-- R148: a read slot on the released line. -/
theorem test_mReadBit_alone : (after .mReadBit State.reset).map (fun t => (t.master.data, t.now)) =
    some (1, 70000) := by decide

/-- R148. -/
theorem test_mReadByte_alone : (after .mReadByte State.reset).map (fun t => (t.master.data, t.now)) =
    some (0xFF, 560000) := by decide

/-- R78: two slaves write 0 and 1, the master reads their AND. -/
theorem test_mReadBit_and :
    (((after (.sWriteBit 0 0) (bus [Slave.initialised, Slave.initialised] [])).bind (after (.sWriteBit 1 1))).bind
      (after .mReadBit)).map (fun t => t.master.data) = some 0 := by decide

/-- R142: `M_WRITE_BIT 0` gives a 60 µs pulse, which a slave in `S_READ_BIT` reads as 0. -/
theorem test_mWriteBit_zero : (((after (.sReadBit 0) State.reset).bind (after (.mWriteBit 0xFE))).map
    (fun t => (t.slaves.map fun sl => (sl.status, sl.data, sl.pulseLen)))) = some [(0, 0, 120)] := by decide

/-- R145: a slave in `S_WRITE_BYTE 0x42`. -/
theorem test_mReadByte_slave : ((after (.sWriteByte 0 0x42) State.reset).bind (after .mReadByte)).map
    (fun t => t.master.data) = some 0x42 := by decide

/-- R144: the slave reads the byte. -/
theorem test_mWriteByte_slave : ((after (.sReadByte 0) State.reset).bind (after (.mWriteByte 0x33))).map
    (fun t => t.slaves.map fun sl => (sl.status, sl.data)) = some [(0, 0x33)] := by decide

/-- R167: the search after the last device. -/
theorem test_mSearchNext_over :
    (after .mSearchNext { State.reset with master := { Master.powerOn with lastDeviceFlag := true, lastDiscrepancy := 0 } }).map
      (fun t => (t.master.status, t.master.lastDeviceFlag, t.now)) = some (9, false, 0) := by decide

/-- R166(a). -/
theorem test_mSearchFirst_alone : (after .mSearchFirst State.reset).map (fun t => (t.master.status, t.now)) =
    some (1, 960000) := by decide

/-- R127: mode 3. -/
theorem test_mStartTxn_mode3 : (after (.mStartTxn 3 0 0x44) State.reset).map (fun t => (t.master.status, t.now)) =
    some (13, 0) := by decide

/-- V28: `M_START_TXN` with `m_mode = 3` gives `(IllegalOperation, 0)`. -/
theorem test_illegal_writes_no_data : (after (.mStartTxn 3 0 0x44)
    { State.reset with master := { Master.powerOn with data := 0x42 } }).map (fun t => (t.master.status, t.master.data)) =
    some (13, 0) := by decide

/-- R11, R101: the reset exchange, time being counted in microseconds, and in eighths of one. -/
theorem test_time_is_as_fine_as_the_grain :
    (after .mReset { State.reset with cfg := { g0 with grain := 0 } }).map (·.now) = some 960 ∧
    (after .mReset { State.reset with cfg := { g0 with grain := 7 } }).map (·.now) = some 7680 := by decide

/-- R11, R311: a third of a microsecond at 3001 ticks per microsecond. -/
theorem test_count_of_a_third : ticksIn { g0 with grain := 2 } { SlaveConfig.default with ticksPerUs := 3001 } 1 = 1000 := by
  decide

/-- R271: `L = MAX_MESSAGE_LENGTH + 1`. -/
theorem test_mLogSend_long : (after (.mLogSend 0 0 243 []) State.reset).map (fun t => (t.master.status, t.now)) =
    some (12, 0) := by decide

/-- R200, R198: a reset pulse of 480 µs; the presence pulse is over 144 µs after it. -/
theorem test_sWaitReset : (after (.sWaitReset 0) (bus [Slave.initialised] [(micro 10, micro 480)])).map
    (fun t => (t.now, t.slaves.map fun sl => (sl.status, txnCode sl.txnState))) =
    some (634000, [(0, 1)]) := by decide

/-- R203, R296: a pulse of 70 µs in strict mode. -/
theorem test_sReadBit_trap : (after (.sReadBit 0) (bus [strictSlave] [(micro 10, micro 70)])).map
    (fun t => t.slaves.map fun sl => (sl.trapped, sl.drive)) = some [(true, false)] := by decide

/-- R332: family code `0x42`, default part ID `11 22 33 44 55 66`. -/
theorem test_sInit_romId :
    (after (.sInit 0) (State.powerOn Config.default
      [{ SlaveConfig.default with familyCode := 0x42, defaultPartId := 0x665544332211 }])).map
      (fun t => t.slaves.map fun sl => romBytes sl.romId) =
    some [[0x42, 0x11, 0x22, 0x33, 0x44, 0x55, 0x66, 0xF5]] := by decide

/-- R280: the master's reset finds a line held busy low (R141: "a slave's busy hold"). -/
theorem test_sBusyBegin_presence : ((after (.sBusyBegin 0) State.reset).bind (after .mReset)).map
    (fun t => (t.master.status, t.master.data)) = some (0, 1) := by decide

theorem test_sSetAlarm : (after (.sSetAlarm 0 3) State.reset).map (fun t => t.slaves.map (·.alarmed)) = some [true] := by
  decide

theorem test_uninitialised_refused :
    exec (.sReadBit 0) (State.powerOn Config.default [SlaveConfig.default]) = .refused (.slaveNotInitialised 0) := rfl

/-- The host's fetch: the very next step runs the table word. -/
theorem test_withFetchWord : (match step (State.reset.withFetchWord 8 0x87) with
    | .next t => t.slaves.map (·.status)
    | .fault _ | .refused _ => []) = [0] := by decide

/-! ### Witnesses: for each statement with hypotheses, a state and operands that meet them -/

theorem test_ready : Slave.initialised.Ready g0 := ⟨by constructor <;> decide, rfl⟩

theorem test_ready_strict : strictSlave.Ready g0 := ⟨by constructor <;> decide, rfl⟩

theorem test_ready_in (st : TxnState) : Slave.Ready g0 { Slave.initialised with txnState := st } := by
  refine ⟨?_, rfl⟩
  cases st <;> constructor <;> decide

/-- One slave, and whatever comes on the line: nobody else can move it. -/
theorem test_quiet (sl : Slave) (ps : List (Nat × Nat)) : Quiet 0 (bus [sl] ps) := by
  refine ⟨rfl, rfl, rfl, rfl, fun j x hj hx => ?_⟩
  match j, hj with
  | j + 1, _ => simp [bus] at hx

/-- Also for the statements that give exact times. -/
theorem test_exact_times (sl : Slave) (ps : List (Nat × Nat)) : (bus [sl] ps).cfg.delaySlack = 0 := rfl

theorem test_bus_slave (sl : Slave) (ps : List (Nat × Nat)) : (bus [sl] ps).slaves[0]? = some sl := rfl

theorem test_bus_wave (sl : Slave) (ps : List (Nat × Nat)) :
    (bus [sl] ps).otherWave = pulseTrain (bus [sl] ps).now ps ++ [] := (List.append_nil _).symm

theorem test_waveAfter_nil (e : Nat) : WaveAfter e [] := fun _ h => nomatch h

/-- The pulses a master sends for the low `n` bits of `v`. -/
def slots : Nat → Byte → List (Nat × Nat)
  | 0, _ => []
  | n + 1, v => (micro 10, if v.getLsbD 0 then micro 6 else micro 60) :: slots n (v >>> 1)

theorem test_slots_carry (n : Nat) (v : Byte) : carriesBits g0 n v (slots n v) := by
  induction n generalizing v with
  | zero => rfl
  | succ n ih =>
    refine ⟨⟨(by decide : 0 < micro 10), ?_⟩, ?_, ih _⟩
    · show 0 < if v.getLsbD 0 then micro 6 else micro 60
      split <;> decide
    show bitOfWidth g0 (if v.getLsbD 0 then micro 6 else micro 60) = some (v.getLsbD 0)
    cases v.getLsbD 0 <;> decide

/-- The pulses for a list of bytes. -/
def byteSlots : List Byte → List (Nat × Nat)
  | [] => []
  | b :: bs => slots 8 b ++ byteSlots bs

theorem test_byteSlots_carry (bs : List Byte) : carriesBytes g0 bs (byteSlots bs) := by
  induction bs with
  | nil => rfl
  | cons b bs ih => exact ⟨slots 8 b, byteSlots bs, rfl, test_slots_carry 8 b, ih⟩

/-- Eight read-slot start pulses. -/
def starts : List (Nat × Nat) := List.replicate 8 (micro 70, micro 6)

theorem test_starts : startPulses g0 8 starts := by
  refine ⟨rfl, ?_, ?_⟩ <;> decide

theorem test_witness_DecodeOfEncode : (Instr.mLogSend 3 0 255 (List.replicate 255 0)).wellFormed = true := by decide

theorem test_witness_UnlistedCodesAreRejected :
    (0x21 : Byte) ∉ [0x01, 0x02, 0x03, 0x04, 0x05, 0x10, 0x11, 0x12, 0x13, 0x14, 0x15, 0x16, 0x20] ∧
    (0x8C : Byte) ∉ [0x80, 0x81, 0x82, 0x83, 0x84, 0x85, 0x86, 0x87, 0x88, 0x89, 0x8A, 0x8B] ∧
    (0x34 : Byte) ∉ [0x33, 0x55, 0xCC, 0xF0, 0xEC] ∧ (0x45 : Byte) ≠ 0x44 := by decide

theorem test_witness_StepRunsTheDecodedInstruction :
    (State.reset.withFetchWord 8 0x86).master.pos = .ready ∧
    (State.reset.withFetchWord 8 0x86).requests = tableRequest 8 0x86 :: [] ∧
    (match decode (tableRequest 8 0x86).port (tableRequest 8 0x86).bytes with
      | .ok (i, _) => i = .sWaitFunctionCmd 0
      | .error _ => False) := ⟨rfl, rfl, rfl⟩

/-- A slave before its first `S_INIT`. -/
def fresh : Slave := Slave.powerOn SlaveConfig.default

theorem test_witness_ReservedOperationsReportIllegal :
    (0x06 : Byte) ∉ [0x01, 0x02, 0x03, 0x04, 0x05, 0x10, 0x11, 0x12, 0x13, 0x14, 0x15, 0x16, 0x20] ∧
    (0x7F : Byte) ∉ [0x80, 0x81, 0x82, 0x83, 0x84, 0x85, 0x86, 0x87, 0x88, 0x89, 0x8A, 0x8B] ∧
    Slave.initialised.Ready g0 ∧
    (fresh.AtRest ∧ fresh.intEnable = false ∧ fresh.trapped = false ∧ fresh.upstream = [] ∧ fresh.stack = []) ∧
    State.reset.master.pos = .ready ∧
    Quiet 0 { bus [Slave.initialised] [] with requests := [{ port := .slave 0, gap := 1, bytes := [0x7F] }] } :=
  ⟨by decide, by decide, test_ready, ⟨⟨rfl, rfl, rfl⟩, rfl, rfl, rfl, rfl⟩, rfl,
    ⟨rfl, rfl, rfl, rfl, (test_quiet Slave.initialised []).rest⟩⟩

/-- A slave that holds the line low. -/
def holder : Slave :=
  { Slave.initialised with drive := true, busy := true, linePrev := false, swStarted := true }

/-- The same in strict mode, with an event pending. -/
def held : Slave := { holder with cfg := strictSlave.cfg, pulseNew := true }

/-- The master polls, with this limit and these requests to come. -/
def polling (limit : Option Nat) (sl : Slave) (requests : List Request) : State :=
  { bus [sl] [] with master := { Master.powerOn with pos := .polling limit }, requests := requests }

/-- `S_BUSY_END` requested of slave 0, after this gap. -/
def endBusy (gap : Nat) : Request := { port := .slave 0, gap := gap, bytes := [0x89] }

/-- A request of this very instant. The line high, with no timeout and with one that is over at this very instant
(notes/assumptions/24.md). The line held low with a timeout and without one, with no request to a slave and with one that
comes as the timeout is over. -/
theorem test_witness_StepOfAPollingMaster :
    firstSlaveRequest (polling none holder [endBusy 0]).requests = some (endBusy 0, []) ∧
    (∀ l ∈ [none, some 0], line (polling l Slave.initialised []) = true ∧
      comesNow (polling l Slave.initialised []) = false) ∧
    (polling (some 0) Slave.initialised []).now = 0 ∧
    (line (polling (some 5) holder []) = false ∧ line (settle (polling (some 5) holder [])) = false ∧
      nextEvent (settle (polling (some 5) holder [])) = none ∧ (polling (some 5) holder []).now ≤ 5 ∧
      comesNow (polling (some 5) holder []) = false) ∧
    (line (polling none holder [endBusy 5]) = false ∧ line (settle (polling none holder [endBusy 5])) = false ∧
      nextEvent (settle (polling none holder [endBusy 5])) = none ∧
        comesNow (polling none holder [endBusy 5]) = false) ∧
    requestBy 5 (polling (some 5) holder []) = false ∧ requestBy 5 (polling (some 5) holder [endBusy 5]) = true ∧
    firstSlaveRequest [{ port := .master, gap := 0, bytes := [0x01] }] = none ∧
    firstSlaveRequest [{ port := .master, gap := 0, bytes := [0x01] }, endBusy 5] =
      some (endBusy 5, [{ port := .master, gap := 0, bytes := [0x01] }]) ∧
    (match decode (endBusy 0).port (endBusy 0).bytes with
      | .ok (i, _) => i = .sBusyEnd 0
      | .error _ => False) :=
  ⟨rfl, by decide, rfl, by decide, by decide, rfl, rfl, rfl, rfl, rfl⟩

/-- The state `n` steps later, if each one is a next state. -/
def afterSteps : Nat → State → Option State
  | 0, s => some s
  | n + 1, s => match step s with
    | .next t => afterSteps n t
    | .fault _ | .refused _ => none

/-- These slaves at 100 µs, and these requests to come. -/
def busAt (slaves : List Slave) (requests : List Request) : State :=
  { bus slaves [] with now := micro 100, requests := requests }

/-- A slave whose handler runs for 5 units more. -/
def ending : Slave := { holder with pos := .delay .handler, stack := [.logHold], wake := some (micro 100 + 5) }

/-- A slave that has seen the line fall at instant 0. -/
def hearer : Slave := { Slave.initialised with linePrev := false, swStarted := true }

/-- A request of this instant. -/
def atOnce (port : Port) (bytes : List Byte) : Request := { port := port, gap := 0, bytes := bytes }

/-- R71, R73, R191: `S_BUSY_END` and `M_READ_BIT` at one instant: the line stays low for 6 µs more, and the slave and
another one measure one pulse of 106 µs. -/
theorem test_release_and_drive_at_one_instant_make_no_edge :
    (afterSteps 2 (busAt [holder, hearer] [endBusy 0, atOnce .master [0x03]])).map
      (fun t => (t.slaves.map fun sl => (sl.tReset, sl.pulseLen, sl.pulseNew), t.now)) =
      some ([(0, 212, false), (0, 212, true)], micro 170) := by decide

/-- R280, R281, R90(b): `S_BUSY_END` at the instant of `S_BUSY_BEGIN` waits for it: the hold is no empty interval, and its
rising edge is there to be consumed (notes/assumptions/7.md). -/
theorem test_second_operation_of_an_instant_waits :
    (afterSteps 3 (busAt [Slave.initialised] [atOnce (.slave 0) [0x88], endBusy 0])).map
      (fun t => (t.slaves.map fun sl => (sl.tReset, sl.pulseLen, sl.pulseNew, sl.pos), line t, t.now)) =
      some ([(micro 100, 0, false, .idle)], true, micro 100 + 1) := by decide

/-- R305(f), R193, R297: the rising edge of the instant comes before `S_SET_ALARM` writes anything: the strict-mode slave
with an event pending is trapped, `alarmed` unwritten. -/
theorem test_edge_comes_before_the_operation :
    (afterSteps 2 (busAt [holder, { hearer with cfg := strictSlave.cfg, pulseNew := true, status := 0xFF }]
      [atOnce (.slave 1) [0x87, 1], endBusy 0])).map
      (fun t => t.slaves.map fun sl => (sl.trapped, sl.alarmed, sl.status)) =
      some [(false, false, 0), (true, false, 0xFF)] := by decide

/-- R330: `S_INIT` and then `S_READ_BIT` of a slave at one instant: the second is not refused. -/
theorem test_operation_follows_sInit_at_one_instant :
    (afterSteps 3 (busAt [Slave.powerOn SlaveConfig.default] [atOnce (.slave 0) [0x80], atOnce (.slave 0) [0x82]])).map
      (fun t => t.slaves.map fun sl => (sl.intEnable, sl.pos)) = some [(true, .waitPulse .readBit)] := by decide

/-- R272, R281: the master polls without a timeout while upstream code holds the line; `S_BUSY_END` ends the hold, and the
next step reads eight ones. -/
theorem test_poll_goes_on_after_sBusyEnd :
    (match step (polling none holder [endBusy 0]) with
      | .next t => (match step t with
        | .next u => some (t.master.pos, u.master.status, u.master.data)
        | .fault _ | .refused _ => none)
      | .fault _ | .refused _ => none) = some (.polling none, 11, 0xFF) := by decide

/-- R272: a poll of one instant stops where a slave's hold ends, that instant not yet looked at; there the line is high. -/
theorem test_poll_goes_on_where_it_stopped :
    (match pollLoop none 1 (busAt [ending] []) with
      | .unfinished u => (match pollLoop none 1 u with
        | .high v => some (u.now, v.now, pollWaits (.unfinished u), (endPoll none (.unfinished u)).master.pos)
        | .timedOut _ | .waits _ | .unfinished _ => none)
      | .high _ | .timedOut _ | .waits _ => none) = some (micro 100 + 5, micro 100 + 5, false, .polling none) := by decide

/-- R191, R71, R272: at the end of a frame a slave's `S_BUSY_BEGIN` begins and its `S_BUSY_END` is requested: the poll
is left, and `S_BUSY_END` waits, so that no rising edge is made at this instant. -/
theorem test_request_at_the_end_of_a_frame :
    ((mAwaitAck (busAt [Slave.begun .busyBegin Slave.initialised] [endBusy 0])).master.pos = .polling none) ∧
    (afterSteps 1 (mAwaitAck (busAt [Slave.begun .busyBegin Slave.initialised] [endBusy 0]))).map
      (fun t => (t.slaves.map fun sl => (decide (sl.upstream = [(0, .busyEnd)]), sl.drive, sl.pulseNew), t.now)) =
      some ([(true, true, false)], micro 100) := ⟨rfl, by decide⟩

/-- The widest one, the narrowest and the widest zero. -/
theorem test_witness_SReadBitReceivesBit :
    Slave.initialised.Ready g0 ∧ Quiet 0 (bus [Slave.initialised] [(micro 10, 14999)]) ∧
    isPulse (micro 10, 14999) ∧ isPulse (1, 1) ∧ bitOfWidth g0 14999 = some true ∧
    bitOfWidth g0 15000 = some false ∧ bitOfWidth g0 69999 = some false :=
  ⟨test_ready, test_quiet _ _, by decide, by decide, by decide, by decide, by decide⟩

theorem test_witness_SWriteBitAnswersReadSlot :
    Slave.initialised.Ready g0 ∧ Quiet 0 (bus [Slave.initialised] [(micro 10, 14999)]) ∧ 14999 < micro 15 ∧
    WaveAfter (0 + micro 10 + 14999 + micro 64) [] ∧ argBit 0 = false ∧ argBit 1 = true :=
  ⟨test_ready, test_quiet _ _, by decide, test_waveAfter_nil _, by decide, by decide⟩

/-- A slave whose waits end after this time (R194). -/
def bounded (d : Nat) : Slave := { Slave.initialised with cfg := { SlaveConfig.default with waitTimeout := some d } }

theorem test_prepared_bounded (d : Nat) : (bounded d).Prepared g0 := by constructor <;> rfl

/-- R194, R304(f): a byte read with nothing on the line, and one with a pulse that comes too late. -/
theorem test_timeout :
    ((after (.sReadByte 0) (bus [bounded 5] [])).bind (afterSteps 1)).map
      (fun t => (t.slaves.map fun sl => (sl.status, sl.txnState), t.now)) = some ([(14, .waitingReset)], 5) ∧
    (after (.sReadByte 0) (bus [bounded 5] [(6, 6)])).map
      (fun t => (t.slaves.map fun sl => (sl.status, sl.txnState), t.now)) = some ([(14, .waitingReset)], 5) := by decide

/-- A pulse of each class rejected; a timeout of no time, one before the first falling edge, and one with nothing to
come. -/
theorem test_witness_SlaveBitRejectsBadPulse :
    (bounded 0).cfg.waitTimeout = some 0 ∧ (bounded 5).cfg.waitTimeout = some 5 ∧ (bounded 5).Prepared g0 ∧
    (bounded 0).Prepared g0 ∧
    Quiet 0 (bus [bounded 5] [(6, 6)]) ∧ WaveAfter (0 + 5) (bus [bounded 5] [(6, 6)]).otherWave ∧
    (bus [bounded 5] [(6, 6)]).otherWave ≠ [] ∧ (bus [bounded 5] []).requests = [] ∧
    Slave.initialised.Ready g0 ∧ Slave.initialised.cfg.strictMode = false ∧ strictSlave.Ready g0 ∧
    strictSlave.cfg.strictMode = true ∧ Quiet 0 (bus [strictSlave] [(micro 10, micro 70)]) ∧
    widthClass g0 (micro 70) = .bad ∧ widthClass g0 359999 = .bad ∧ widthClass g0 (micro 15) = .zero :=
  ⟨rfl, rfl, test_prepared_bounded 5, test_prepared_bounded 0, test_quiet _ _, by rintro a ⟨⟩; decide, by decide, rfl,
    test_ready, rfl, test_ready_strict, rfl, test_quiet _ _, by decide, by decide, by decide⟩

theorem test_witness_SlaveBitHandlesReset :
    Slave.initialised.Ready g0 ∧ Quiet 0 (bus [Slave.initialised] [(micro 10, micro 360)]) ∧ micro 360 ≤ micro 360 ∧
    WaveAfter (0 + micro 10 + micro 360 + micro 144) [] :=
  ⟨test_ready, test_quiet _ _, Nat.le_refl _, test_waveAfter_nil _⟩

theorem test_witness_SWaitResetSendsPresence :
    Slave.initialised.Ready g0 ∧ Quiet 0 (bus [Slave.initialised] [(micro 10, 359999), (micro 10, micro 360)]) ∧
    (∀ p ∈ [(micro 10, 359999)], isPulse p ∧ p.2 < micro 360) ∧ 2 * [(micro 10, 359999)].length + 4 ≤ requestFuel ∧
    WaveAfter (trainEnd 0 ([(micro 10, 359999)] ++ [(micro 10, micro 360)]) + micro 144) [] :=
  ⟨test_ready, test_quiet _ _, by decide, by decide, test_waveAfter_nil _⟩

theorem test_witness_SReadByteReceivesByte :
    Slave.initialised.Ready g0 ∧ Quiet 0 (bus [Slave.initialised] (slots 8 0xA5)) ∧
      carriesBits g0 8 0xA5 (slots 8 0xA5) :=
  ⟨test_ready, test_quiet _ _, test_slots_carry _ _⟩

theorem test_witness_SWriteByteAnswersReadSlots :
    Slave.initialised.Ready g0 ∧ Quiet 0 (bus [Slave.initialised] starts) ∧ startPulses g0 8 starts ∧
    WaveAfter (trainEnd 0 starts + micro 64) [] :=
  ⟨test_ready, test_quiet _ _, test_starts, test_waveAfter_nil _⟩

/-- Also for BitsCrossTheLine, BytesCrossTheLine, AlarmSearchSkipsUnalarmedSlave. -/
theorem test_witness_ResetFindsWaitingSlave :
    State.reset.slaves[0]? = some Slave.initialised ∧ Slave.initialised.Ready g0 ∧ Quiet 0 State.reset ∧
    State.reset.cfg.delaySlack = 0 ∧ State.reset.otherWave = [] ∧ Slave.initialised.cfg.tSSit < micro 64 ∧
    Slave.initialised.alarmed = false :=
  ⟨rfl, test_ready, test_quiet Slave.initialised [], rfl, rfl, by decide, rfl⟩

/-- Also for MVerifyAgainstOneSlave: a ROM-ID that carries its CRC8, and another ID. -/
theorem test_witness_ReadRomGetsTheRomId :
    Slave.Ready g0 { Slave.initialised with romId := 0x2900000000000128 } ∧
    crc8Fold 0 (romBytes 0x2900000000000128) = 0 ∧ (0x2900000000000128 : RomId) ≠ 0 := by
  refine ⟨⟨by constructor <;> decide, rfl⟩, by decide +kernel, by decide⟩

theorem test_witness_SearchFindsTheSlave :
    Slave.Ready g0 { Slave.initialised with alarmed := true } ∧ crc8Fold 0 (romBytes Slave.initialised.romId) = 0 ∧
    State.reset.master.lastDeviceFlag = false := by
  refine ⟨⟨by constructor <;> decide, rfl⟩, by decide +kernel, rfl⟩

/-- The last conjuncts: no bit of the ROM-ID (which is 0) before the one that differs, and 63 of them. -/
theorem test_witness_StartTxnDeliversFunctionCommand :
    crc8Fold 0 (romBytes Slave.initialised.romId) = 0 ∧ (0 : RomId) = Slave.initialised.romId ∧
    (1 : RomId) ≠ Slave.initialised.romId ∧ (0 : BitVec 2) ≠ 3 ∧ (1 : BitVec 2) ≠ 3 ∧ (2 : BitVec 2) ≠ 3 ∧
    Slave.Ready g0 { Slave.initialised with txnState := .waitingRomCmd } ∧ carriesBits g0 8 0x55 (slots 8 0x55) ∧
    (List.replicate 63 (micro 10, micro 60)).length < 64 ∧
    (∀ j q, (List.replicate 63 (micro 10, micro 60))[j]? = some q →
      isPulse q ∧ bitOfWidth g0 q.2 = some (romBit (0 : RomId) (j + 1))) ∧
    isPulse (micro 10, micro 6) ∧ bitOfWidth g0 (micro 6) = some (!romBit (0 : RomId) (0 + 1)) ∧
    bitOfWidth g0 (micro 6) = some (!romBit (0 : RomId) (63 + 1)) := by
  refine ⟨by decide +kernel, rfl, by decide, by decide, by decide, by decide, test_ready_in _, test_slots_carry 8 0x55,
    by decide, fun j q h => ?_, by decide, by decide, by decide⟩
  obtain rfl := List.eq_of_mem_replicate (List.mem_of_getElem? h)
  exact ⟨by decide, by simp [romBit]; decide⟩

/-- A slave with this draw of `HANDLER_TIME` for its next message. -/
def timed (h : Option Nat) : Slave := { Slave.initialised with handlerTimes := [h] }

theorem test_ready_timed (h : Option Nat) : (timed h).Ready g0 := ⟨by constructor <;> rfl, rfl⟩

theorem test_handlerTime (now : Nat) (h : Option Nat) : Slave.handlerTime now (timed h) = h := rfl

/-- The master's own next request comes later, and then one to the slave that has no gap. -/
def behind (sl : Slave) : State :=
  { bus [sl] [] with requests := [{ port := .master, gap := 5, bytes := [0x01] }, endBusy 0] }

/-- The empty frame and the longest one; a handler that runs for one unit of time, and one that runs as long as a finite
timeout; no request, and one to the slave that comes at the frame's end (behind the master's own next request, which waits). -/
theorem test_witness_LogSendDeliversTheMessage :
    (timed (some 1)).Ready g0 ∧ (∀ called, Slave.handlerTime called (timed (some 1)) = some 1) ∧
    State.reset.cfg.pollTimeout = none ∧
    (∀ called, Slave.handlerTime called (timed (some (micro 9))) = some (micro 9)) ∧
    (∀ d, { Config.default with pollTimeout := some (micro 9) }.pollTimeout = some d → micro 9 ≤ d) ∧
    memoryWf Slave.initialised.logBuf = true ∧
    (0 : Byte).toNat ≤ State.reset.cfg.maxMessageLength ∧ ([] : List Byte).length = (0 : Byte).toNat ∧
    (242 : Byte).toNat ≤ State.reset.cfg.maxMessageLength ∧
    (List.replicate 242 (0x61 : Byte)).length = (242 : Byte).toNat ∧
    crc8Fold 0 (romBytes Slave.initialised.romId) = 0 ∧ (0 : RomId) = Slave.initialised.romId ∧
    firstSlaveRequest State.reset.requests = none ∧
    firstSlaveRequest (behind (timed (some 1))).requests = some (endBusy 0, [{ port := .master, gap := 5, bytes := [0x01] }]) ∧
    Quiet 0 (behind (timed (some 1))) := by
  refine ⟨test_ready_timed _, fun _ => rfl, rfl, fun _ => rfl, ?_, rfl, by decide, rfl, by decide, rfl,
    by decide +kernel, rfl, rfl, rfl, ⟨rfl, rfl, rfl, rfl, (test_quiet (timed (some 1)) []).rest⟩⟩
  rintro d ⟨⟩
  exact Nat.le_refl _

/-- Also for SLogServeRejectsOtherCommand. -/
theorem test_witness_SWaitFunctionCmdReturnsCommand :
    Slave.Ready g0 { Slave.initialised with txnState := .waitingFunctionCmd } ∧ carriesBits g0 8 0x45 (slots 8 0x45) ∧
    (0x45 : Byte) ≠ 0x44 :=
  ⟨test_ready_in _, test_slots_carry _ _, by decide⟩

theorem test_witness_SWaitFunctionCmdAfterResetAndSkipRom :
    Slave.initialised.Ready g0 ∧
    Quiet 0 (bus [Slave.initialised] ((micro 10, micro 360) :: ((micro 145, micro 60) :: slots 7 0x66 ++ slots 8 0x44))) ∧
    carriesBits g0 8 0xCC ((micro 145, micro 60) :: slots 7 0x66) ∧ 0 < micro 10 ∧
      carriesBits g0 8 0x44 (slots 8 0x44) ∧
    (∀ p, ((micro 145, micro 60) :: slots 7 0x66).head? = some p → micro 144 < p.1) := by
  refine ⟨test_ready, test_quiet _ _, ⟨by decide, by decide, test_slots_carry 7 0x66⟩, by decide, test_slots_carry _ _, ?_⟩
  rintro p ⟨⟩
  decide

theorem test_witness_SWaitFunctionCmdRejectsRomCommand :
    Slave.Ready g0 { Slave.initialised with txnState := .waitingRomCmd } ∧ carriesBits g0 8 0x44 (slots 8 0x44) ∧
    (0x44 : Byte) ≠ 0x33 ∧ (0x44 : Byte) ≠ 0x55 ∧ (0x44 : Byte) ≠ 0xCC ∧ (0x44 : Byte) ≠ 0xF0 ∧ (0x44 : Byte) ≠ 0xEC :=
  ⟨test_ready_in _, test_slots_carry _ _, by decide, by decide, by decide, by decide, by decide⟩

/-- The hypotheses of SLogReceiveReceivesFrame, after reset: the frame, the handler's time, the read slots. -/
def FrameComes (payload : List Byte) (len : Byte) : Prop :=
  ∃ ps, (timed (some (micro 20))).Ready g0 ∧ Quiet 0 (bus [timed (some (micro 20))] (ps ++ starts)) ∧
    len.toNat ≤ (bus [timed (some (micro 20))] (ps ++ starts)).cfg.maxMessageLength ∧
    memoryWf (timed (some (micro 20))).logBuf = true ∧
    carriesBytes g0 (len :: (payload ++
      [crcHigh (frameCrc Config.default.crc16 len payload), crcLow (frameCrc Config.default.crc16 len payload)])) ps ∧
    Slave.handlerTime (trainEnd 0 ps + micro 1) (timed (some (micro 20))) = some (micro 20) ∧ startPulses g0 8 starts ∧
    (∀ p, starts.head? = some p → (timed (some (micro 20))).cfg.tSBusy + micro 20 < p.1) ∧
    payload.length = len.toNat ∧ WaveAfter (trainEnd 0 (ps ++ starts) + micro 64) [] ∧
    (∀ h, h = some 0 ∨ h = none → Quiet 0 (bus [timed h] ps) ∧ (timed h).Ready g0 ∧
      Slave.handlerTime (trainEnd 0 ps + micro 1) (timed h) = h)

theorem test_frameComes (payload : List Byte) (len : Byte) (h : payload.length = len.toNat) (hl : len.toNat ≤ 242) :
    FrameComes payload len := by
  refine ⟨_, test_ready_timed _, test_quiet _ _, hl, rfl, test_byteSlots_carry _, rfl, test_starts, ?_, h,
    test_waveAfter_nil _, fun h _ => ⟨test_quiet _ _, test_ready_timed h, rfl⟩⟩
  rintro p ⟨⟩
  decide

/-- The empty frame, "hello", and the longest one. -/
theorem test_witness_SLogReceiveReceivesFrame :
    FrameComes [] 0 ∧ FrameComes [0x68, 0x65, 0x6C, 0x6C, 0x6F] 5 ∧ FrameComes (List.replicate 242 0x61) 242 :=
  ⟨test_frameComes _ _ rfl (by decide), test_frameComes _ _ rfl (by decide), test_frameComes _ _ rfl (by decide)⟩

theorem test_witness_SLogReceiveRejectsFrame :
    Config.default.maxMessageLength < (243 : Byte).toNat ∧ carriesBits g0 8 243 (slots 8 243) ∧
    carriesBytes g0 ((0 : Byte) :: ([] ++ [0xE1, 0xF1])) (byteSlots [0, 0xE1, 0xF1]) ∧
    crcOfBytes 0xE1 0xF1 ≠ frameCrc Config.default.crc16 0 [] :=
  ⟨by decide, test_slots_carry _ _, test_byteSlots_carry _, by decide +kernel⟩

/-- Before any `S_INIT`, on the released line and on one that another driver holds; and a strict-mode slave that holds the
line with an event pending. -/
theorem test_witness_SInitLoadsTheRomId :
    (fresh.pos = .idle ∧ fresh.trapped = false ∧ fresh.upstream = [] ∧ OthersAtRest 0 (bus [fresh] []) ∧
      (fresh.pulseNew && fresh.cfg.strictMode && fresh.takesEdges && !fresh.linePrev && !false) = false ∧
      (fresh.pulseNew && fresh.cfg.strictMode && fresh.takesEdges && !fresh.linePrev && !true) = false) ∧
    State.reset.master.drive = false ∧ State.reset.master.pos = .ready ∧
    (held.pos = .idle ∧ held.trapped = false ∧ held.upstream = [] ∧
      (held.pulseNew && held.cfg.strictMode && held.takesEdges && !held.linePrev && !false) = true) ∧
    comesNow (bus [fresh] []) = false ∧ comesNow { bus [fresh] [] with requests := [endBusy 0] } = true :=
  ⟨⟨rfl, rfl, rfl, (test_quiet _ []).rest, rfl, rfl⟩, rfl, rfl, ⟨rfl, rfl, rfl, rfl⟩, rfl, rfl⟩

/-- SSetAlarmWritesAlarmed and SBusyBeginHoldsTheLine have the hypotheses of ResetFindsWaitingSlave. -/
theorem test_witness_SBusyEndReleasesTheLine :
    holder.Holding g0 ∧ Quiet 0 (bus [holder] []) ∧
    (Slave.initialised.Ready g0 ∧ (bus [Slave.initialised] []).otherDrive = false ∧
      OthersAtRest 0 (bus [Slave.initialised] []) ∧ (bus [Slave.initialised] []).otherWave = []) ∧
    ({ bus [holder] [] with otherDrive := true }.otherDrive = true ∧
      OthersAtRest 0 { bus [holder] [] with otherDrive := true } ∧ (bus [holder] []).master.pos = .ready ∧
      comesNow (bus [holder] []) = false) ∧
    comesNow { bus [holder] [] with requests := [endBusy 0] } = true ∧
    comesNow { bus [Slave.initialised] [] with requests := [endBusy 0] } = true :=
  ⟨by constructor <;> decide, test_quiet _ _, ⟨test_ready, rfl, (test_quiet _ []).rest, rfl⟩,
    ⟨rfl, (test_quiet holder []).rest, rfl, rfl⟩, rfl, rfl⟩

/-- A trapped slave. -/
def trappedSlave : Slave := { strictSlave with trapped := true }

theorem test_witness_SlaveOperationNeedsAReadySlave :
    State.reset.slaves[1]? = none ∧ (bus [trappedSlave] []).slaves[0]? = some trappedSlave ∧
    trappedSlave.trapped = true ∧ (Slave.powerOn SlaveConfig.default).trapped = false ∧
    (Slave.powerOn SlaveConfig.default).intEnable = false ∧
    (Slave.powerOn SlaveConfig.default).initComes = false ∧
    (Slave.initialised.Ready g0 ∧ comesNow { State.reset with requests := [endBusy 0] } = true) ∧
    ((Slave.begun .busyBegin Slave.initialised).pos ≠ .idle ∧ Slave.initialised.intEnable = true) ∧
    ((Slave.begun .init fresh).pos ≠ .idle ∧ (Slave.begun .init fresh).initComes = true ∧ fresh.intEnable = false) :=
  ⟨rfl, rfl, rfl, rfl, rfl, rfl, ⟨test_ready, rfl⟩, ⟨by decide, rfl⟩, by decide, rfl, rfl⟩

/-- A slave whose base level is suspended here. -/
def suspended (pos : Pos) (stack : List Frame) (alarmed : Bool) (cfg : SlaveConfig) : Slave :=
  { Slave.initialised with pos := pos, stack := stack, alarmed := alarmed, cfg := cfg }

theorem test_witness_RomCommandBytesAct :
    (suspended (.waitPulse .readBit) [.readByte, .romCommand, .dispatcher] true SlaveConfig.default).stack =
      .readByte :: .romCommand :: .dispatcher :: [] ∧
    (suspended (.waitPulse .readBit) [.readByte, .romCommand, .dispatcher] true SlaveConfig.default).alarmed = true ∧
    (suspended (.waitPulse .readBit) [.readByte, .romCommand, .dispatcher] false SlaveConfig.default).alarmed = false ∧
    (suspended (.waitPulse .readBit) [.readByte, .romCommand, .dispatcher] true SlaveConfig.default).trapped = false :=
  ⟨rfl, rfl, rfl, rfl⟩

theorem test_witness_LogMessageByteActs :
    (suspended (.waitPulse .readBit) [.readByte, .functionCommand, .dispatcher] false SlaveConfig.default).stack =
      [.readByte, .functionCommand, .dispatcher] ∧
    (suspended (.waitPulse .readBit) [.readByte, .functionCommand, .dispatcher, .logServe] false
      SlaveConfig.default).stack = [.readByte, .functionCommand, .dispatcher, .logServe] ∧
    (suspended (.waitPulse .readBit) [] false SlaveConfig.default).trapped = false ∧
    (suspended (.waitPulse .readBit) [] false SlaveConfig.default).upstream = [] := ⟨rfl, rfl, rfl, rfl⟩

theorem test_witness_AckByteActs :
    (suspended (.waitPulse .busyEnd) [.logHold] false SlaveConfig.default).pos = .waitPulse .busyEnd ∧
    (suspended (.waitPulse .busyEnd) [.logHold] false SlaveConfig.default).stack = .logHold :: [] ∧
    (suspended (.waitPulse .busyEnd) [.logHold] false SlaveConfig.default).trapped = false := ⟨rfl, rfl, rfl⟩

theorem test_witness_WireBytesActOnlyWhereDecoded :
    trappedSlave.trapped = true ∧ Slave.initialised.pos ≠ .waitPulse .readBit ∧
    Slave.initialised.pos ≠ .waitPulse .busyEnd ∧
    (∀ rest, (suspended (.waitPulse .readBit) [.readByte, .functionCommand] false SlaveConfig.default).stack ≠
      .readByte :: .romCommand :: rest) := by
  refine ⟨rfl, by decide, by decide, fun rest h => ?_⟩
  simp [suspended] at h

theorem test_witness_PulseClassesInBitOperations :
    (suspended (.waitPulse .readBit) [] false strictSlave.cfg).stack = [] ∧
    (suspended (.waitPulse .readBit) [] false strictSlave.cfg).cfg.strictMode = true ∧
    (suspended (.waitPulse (.writeStart false)) [] false SlaveConfig.default).cfg.strictMode = false ∧
    (suspended (.waitPulse (.writeStart true)) [] false SlaveConfig.default).cfg.valid g0 = true ∧
    (suspended (.waitPulse (.writeStart true)) [] false SlaveConfig.default).upstream = [] ∧
    (suspended (.waitPulse (.writeStart true)) [] false SlaveConfig.default).trapped = false ∧
    (suspended (.waitPulse .writeEnd) [] false strictSlave.cfg).pos = .waitPulse .writeEnd ∧
    (suspended (.waitPulse .writeEnd) [] false strictSlave.cfg).cfg.strictMode = true ∧
    (suspended (.waitPulse .writeEnd) [] false SlaveConfig.default).cfg.strictMode = false := by
  refine ⟨rfl, rfl, rfl, by decide, rfl, rfl, rfl, rfl, rfl⟩

theorem test_witness_PulseClassesInWaitReset :
    (suspended (.waitPulse .waitReset) [.dispatcher] false SlaveConfig.default).pos = .waitPulse .waitReset ∧
    (suspended (.waitPulse .waitReset) [.dispatcher] false SlaveConfig.default).trapped = false := ⟨rfl, rfl⟩

theorem test_witness_EdgeKindsAct :
    (trappedSlave.intEnable && !trappedSlave.trapped && !trappedSlave.intMask) = false ∧
    (strictSlave.intEnable && !strictSlave.trapped && !strictSlave.intMask) = true ∧
    { strictSlave with pulseNew := true }.pulseNew = true ∧ strictSlave.cfg.strictMode = true ∧
    Slave.initialised.pulseNew = false ∧ Slave.initialised.swStarted = false ∧ holder.swStarted = true ∧
    holder.cfg.strictMode = false := by decide

theorem test_witness_SilentLineAnswersNothing :
    Silent State.reset ∧ (2 : BitVec 2) ≠ 3 ∧ (0 : Byte).toNat ≤ State.reset.cfg.maxMessageLength ∧
    State.reset.master.lastDeviceFlag = false := by
  refine ⟨⟨rfl, rfl, rfl, ?_⟩, by decide, by decide, rfl⟩
  intro sl h
  simp only [State.reset, List.mem_singleton] at h
  subst h
  exact ⟨rfl, rfl, rfl⟩

/-- One slave in `S_WAIT_RESET`. -/
def awaiting : State := (after (.sWaitReset 0) State.reset).getD State.reset

/-- Both cases of MReadRomChecksTheCrc, SearchEnds, MVerifyRestoresTheSearchState, MStartTxnEnds and
MLogSendRefusesBeforeTheFrame. -/
theorem test_witness_MReadRomChecksTheCrc : presence State.reset = false ∧ presence awaiting = true := by decide

theorem test_witness_SearchAfterTheLastDevice :
    { Master.powerOn with lastDeviceFlag := true }.lastDeviceFlag = true := rfl

theorem test_witness_MLogSendRefusesBeforeTheFrame :
    State.reset.cfg.maxMessageLength < (243 : Byte).toNat ∧
    (242 : Byte).toNat ≤ State.reset.cfg.maxMessageLength := by decide

theorem test_reset_ok : State.reset.Ok := by
  refine ⟨⟨rfl, by decide, by decide, by decide, by decide, by decide, by decide⟩, ?_⟩
  intro sl h
  simp only [State.reset, List.mem_singleton] at h
  subst h
  constructor <;> decide

/-- Also for RomIdSurvives. -/
theorem test_witness_StepKeepsOk :
    State.reset.Ok ∧ (∃ t, step State.reset = .next t) ∧ Slave.initialised.intEnable = true :=
  ⟨test_reset_ok, ⟨_, rfl⟩, rfl⟩

theorem test_witness_TrappedSlaveStays :
    (bus [trappedSlave] []).Ok ∧ (∃ t, step (bus [trappedSlave] []) = .next t) ∧ trappedSlave.trapped = true := by
  refine ⟨⟨test_reset_ok.master, ?_⟩, ⟨_, rfl⟩, rfl⟩
  intro sl h
  simp only [bus, List.mem_singleton] at h
  subst h
  constructor <;> decide

theorem test_witness_RestingSlaveOnlyHears :
    Slave.initialised.AtRest ∧ (∃ t, exec .mReset State.reset = .next t) ∧
    Instr.mReset ∉ [Instr.sInit 0, .sWaitReset 0, .sReadBit 0, .sReadByte 0, .sWaitFunctionCmd 0, .sBusyBegin 0,
      .sBusyEnd 0, .sLogReceive 0, .sLogServe 0, .isrFall 0, .isrRise 0] ∧
    ∀ arg, Instr.mReset ∉ [Instr.sWriteBit 0 arg, .sWriteByte 0 arg, .sSetAlarm 0 arg] :=
  ⟨⟨rfl, rfl, rfl⟩, ⟨_, rfl⟩, by decide, fun arg => by simp⟩

/-- Two slaves, and the second one alone. -/
theorem test_witness_MasterSeesOneSlave :
    isMasterOp .mReadRom = true ∧ Alone 1 (bus [Slave.initialised, strictSlave] []) (bus [strictSlave] []) := by
  refine ⟨rfl, ⟨rfl, rfl, rfl, rfl, rfl, rfl, ⟨strictSlave, rfl, rfl⟩, ?_⟩⟩
  intro j sl hj h
  match j, hj with
  | 0, _ =>
    obtain rfl := Option.some.inj h
    exact ⟨rfl, rfl, rfl⟩
  | j + 2, _ => simp [bus] at h

theorem test_witness_ClassOfAMeasuredPulse :
    0 < SlaveConfig.default.ticksPerUs ∧ SlaveConfig.default.valid g0 = true ∧
      SlaveConfig.valid g0 { SlaveConfig.default with ticksPerUs := 182 } = true := by decide

theorem test_witness_SearchDirection : 1 ≤ 64 ∧ 64 ≤ 64 ∧ ¬(false = true ∧ false = true) ∧
    64 = { Master.powerOn with lastDiscrepancy := 64 }.lastDiscrepancy.toNat ∧
    8 < { Master.powerOn with lastDiscrepancy := 64 }.lastDiscrepancy.toNat ∧
    Master.powerOn.lastDiscrepancy.toNat < 9 := by decide

theorem test_witness_MemoryReadsWhatWasWritten :
    memoryWf [(0, 1), (242, 7)] = true ∧ memoryWf (memWrite [(0, 1), (242, 7)] 242 0) = true := by decide

end Sys2Proof.Tests
end

/-! The state's invariant (spec/10_state.md): every step keeps `State.Ok`, reset and power-on meet it, and a trapped slave
stays as it is. -/

namespace Sys2Proof.Machine

/-! ### Slaves related one by one -/

/-- A property that a relation hands on passes from every element of a list to every element of a related one. -/
theorem forall_mem_of_forall₂ {α : Type} {P : α → Prop} {l m : List α} (h : List.Forall₂ (fun a b => P a → P b) l m)
    (hl : ∀ a ∈ l, P a) : ∀ b ∈ m, P b := by
  induction h with
  | nil => exact hl
  | cons hab _ ih =>
    rw [List.forall_mem_cons] at hl ⊢
    exact ⟨hab hl.1, ih hl.2⟩

/-- What a slave's lifetime keeps, every step keeps of slave `k` (R47, R249). -/
theorem step_lasts {s t : State} {k : Nat} {sl : Slave} (h : step s = .next t) (hk : s.slaves[k]? = some sl) :
    ∃ x, t.slaves[k]? = some x ∧ Slave.Lasts sl x :=
  have ⟨_, hslaves, _⟩ := step_acts s t (lasts_acts s.cfg) h
  forall₂_getElem? hslaves k sl hk

/-! ### The states the machine begins in -/

theorem Master.powerOn_ok : Master.powerOn.Ok := by
  constructor <;> decide

theorem Slave.powerOn_ok (cfg : Config) (p : SlaveConfig) : (Slave.powerOn p).Ok cfg where
  status_code := ⟨Nat.zero_le 14, show (0 : Byte) ≠ statusCode .notAlarmed by decide⟩
  pulse_len := Nat.two_pow_pos p.tickWidth
  bitcnt_range := Nat.zero_le 8
  log_buf_wf := rfl
  log_buf_range := by simp [Slave.powerOn]
  stack_ok := rfl
  busy_drives := nofun
  drive_when := nofun
  trapped_released := nofun
  unmasked := rfl
  rom_id := nofun

/-- The CRC8 of zero bytes is 0 (R261). -/
theorem crc8Fold_zeros (n : Nat) : crc8Fold 0 (List.replicate n 0) = 0 := by
  induction n with
  | zero => rfl
  | succ n ih =>
    rw [List.replicate_succ, crc8Fold, List.foldl_cons, crc8Update_self]
    exact ih

theorem romOfBytes_zeros (n : Nat) : romOfBytes (List.replicate n 0) = 0 := by
  induction n with
  | zero => rfl
  | succ n ih =>
    rw [List.replicate_succ, romOfBytes, ih]
    rfl

/-- The default parameters' ROM-ID is eight zero bytes (R332). -/
theorem Slave.initialised_romId : Slave.initialised.romId = configRomId Slave.initialised.cfg := by
  have hpart : configPart SlaveConfig.default = List.replicate 6 0 := by decide
  show 0 = makeRomId 0 (configPart SlaveConfig.default)
  rw [hpart, makeRomId, ← List.replicate_succ, crc8Fold_zeros]
  exact (romOfBytes_zeros 8).symm

/-- `S_INIT` has enabled the interrupt and sampled the line; the rest is as after power-on. -/
theorem Slave.initialised_ok (cfg : Config) : Slave.initialised.Ok cfg :=
  { Slave.powerOn_ok cfg SlaveConfig.default with rom_id := fun _ => Slave.initialised_romId }

theorem Slave.initialised_ready : Slave.initialised.Ready Config.default := by
  refine ⟨?_, rfl⟩
  constructor <;> decide

theorem State.reset_ok : State.reset.Ok where
  master := Master.powerOn_ok
  slaves := List.forall_mem_singleton.mpr (Slave.initialised_ok Config.default)

/-- Every slave of the machine after power-on is one after power-on. -/
theorem State.powerOn_slaves {P : Slave → Prop} (h : ∀ p, P (Slave.powerOn p)) (cfg : Config) (ps : List SlaveConfig) :
    ∀ sl ∈ (State.powerOn cfg ps).slaves, P sl := by
  intro sl hsl
  obtain ⟨k, hk, rfl⟩ := List.mem_mapIdx.mp hsl
  exact h _

theorem State.powerOn_ok (cfg : Config) (ps : List SlaveConfig) : (State.powerOn cfg ps).Ok where
  master := Master.powerOn_ok
  slaves := State.powerOn_slaves (Slave.powerOn_ok cfg) cfg ps

theorem State.powerOn_slaves_cfg (cfg : Config) (ps : List SlaveConfig) :
    (State.powerOn cfg ps).slaves.map (·.cfg) = ps.mapIdx fun k p => { p with stream := k } :=
  List.ext_getElem? fun k => by simp [State.powerOn, Slave.powerOn, Function.comp_def]

/-- Nobody drives the line after power-on, so it is high (R71). -/
theorem State.powerOn_line (cfg : Config) (ps : List SlaveConfig) : line (State.powerOn cfg ps) = true := by
  have hreleased : (State.powerOn cfg ps).slaves.any (·.drive) = false :=
    List.any_eq_false.mpr (State.powerOn_slaves (P := fun sl => ¬ sl.drive = true) (fun _ => nofun) cfg ps)
  rw [line, hreleased]
  rfl

/-! ### The obligations -/

/-- Settles O41: the slaves keep their invariant by `ok_acts` through whatever the step does, and the master keeps its own. -/
theorem stepKeepsOk : Obligations.StepKeepsOk := by
  intro s t hs h
  obtain ⟨hcfg, hslaves, hmaster⟩ := step_acts s t (ok_acts s.cfg) h
  refine ⟨hmaster hs.master, ?_⟩
  rw [hcfg]
  exact forall_mem_of_forall₂ hslaves hs.slaves

/-- Settles O44: what a slave's lifetime keeps says that a trapped slave does not change (R47), and `State.Ok` that its line
is released (R296). -/
theorem trappedSlaveStays : Obligations.TrappedSlaveStays := by
  intro s t k sl hs h hk htrap
  obtain ⟨x, hx, hlasts⟩ := step_lasts h hk
  obtain rfl := hlasts.trapped htrap
  exact ⟨hx, (hs.slaves x (List.mem_of_getElem? hk)).trapped_released htrap⟩

/-- Settles O42: R60's column at `State.reset`, and R330(a) at `State.powerOn`, slave by slave. -/
theorem resetState : Obligations.ResetState := by
  refine ⟨State.reset_ok, rfl, rfl, rfl, rfl, rfl, rfl, rfl, ?reset, fun cfg ps => ?powerOn⟩
  case reset =>
    exact ⟨Slave.initialised, rfl, Slave.initialised_ready, Slave.initialised_romId, rfl, rfl, rfl, rfl, rfl⟩
  case powerOn =>
    exact ⟨State.powerOn_ok cfg ps, rfl, State.powerOn_slaves_cfg cfg ps, State.powerOn_line cfg ps,
      State.powerOn_slaves (fun _ => ⟨rfl, rfl, rfl, rfl, rfl⟩) cfg ps⟩

end Sys2Proof.Machine

/-! The memory and the resting slaves (spec/20_memory.md R85, R90): LOGBUF's canonical form is determined by what it reads
as, and a slave at rest only hears the line. -/

namespace Sys2Proof.Machine

/-! ### LOGBUF is what it reads as -/

theorem memoryWf_cons {k : Nat} {v : Byte} {m : Memory} :
    memoryWf ((k, v) :: m) = true ↔ v ≠ memoryDefault ∧ (∀ c ∈ m, k < c.1) ∧ memoryWf m = true := by
  simp [memoryWf, and_assoc]

theorem memRead_cons_same (k : Nat) (v : Byte) (m : Memory) : memRead ((k, v) :: m) k = v := if_pos rfl

theorem memRead_cons_ne {k x : Nat} (v : Byte) (m : Memory) (h : k ≠ x) : memRead ((k, v) :: m) x = memRead m x := if_neg h

/-- Only a listed address reads as something else than the default. -/
theorem exists_mem_of_memRead_ne {m : Memory} {x : Nat} (h : memRead m x ≠ memoryDefault) : ∃ c ∈ m, c.1 = x := by
  induction m with
  | nil => exact absurd rfl h
  | cons c m ih =>
    obtain ⟨k, v⟩ := c
    by_cases hk : k = x
    · exact ⟨(k, v), List.mem_cons_self, hk⟩
    · rw [memRead_cons_ne v m hk] at h
      obtain ⟨c, hc, hx⟩ := ih h
      exact ⟨c, List.mem_cons_of_mem _ hc, hx⟩

/-- The first address of a memory in canonical form is the least one that does not read as the default. -/
theorem memoryWf_head_le {k x : Nat} {v : Byte} {m : Memory} (hwf : memoryWf ((k, v) :: m) = true)
    (h : memRead ((k, v) :: m) x ≠ memoryDefault) : k ≤ x := by
  obtain ⟨c, hc, rfl⟩ := exists_mem_of_memRead_ne h
  obtain ⟨-, hlt, -⟩ := memoryWf_cons.mp hwf
  rcases List.mem_cons.mp hc with rfl | hc
  · exact Nat.le_refl _
  · exact (hlt c hc).le

/-- Behind the first address the canonical form does not list it again. -/
theorem memoryWf_tail_read {k : Nat} {v : Byte} {m : Memory} (hwf : memoryWf ((k, v) :: m) = true) :
    memRead m k = memoryDefault := by
  by_contra h
  obtain ⟨c, hc, hk⟩ := exists_mem_of_memRead_ne h
  obtain ⟨-, hlt, -⟩ := memoryWf_cons.mp hwf
  exact absurd hk (hlt c hc).ne'

/-- The canonical form's first address does not read as the default. -/
theorem memoryWf_head_read {k : Nat} {v : Byte} {m : Memory} (hwf : memoryWf ((k, v) :: m) = true) :
    memRead ((k, v) :: m) k ≠ memoryDefault := by
  rw [memRead_cons_same]
  exact (memoryWf_cons.mp hwf).1

/-- Memories in canonical form that read alike are the same: their first entries agree, and what follows reads alike. -/
theorem memory_ext {m n : Memory} (hm : memoryWf m = true) (hn : memoryWf n = true)
    (h : ∀ x, memRead m x = memRead n x) : m = n := by
  induction m generalizing n with
  | nil =>
    cases n with
    | nil => rfl
    | cons d n => exact absurd (h d.1).symm (memoryWf_head_read hn)
  | cons c m ih =>
    obtain ⟨k, v⟩ := c
    cases n with
    | nil => exact absurd (h k) (memoryWf_head_read hm)
    | cons d n =>
      obtain ⟨j, w⟩ := d
      obtain rfl : k = j := Nat.le_antisymm
        (memoryWf_head_le hm (h j ▸ memoryWf_head_read hn))
        (memoryWf_head_le hn (h k ▸ memoryWf_head_read hm))
      obtain rfl : v = w := by simpa only [memRead_cons_same] using h k
      have htail (x : Nat) : memRead m x = memRead n x := by
        by_cases hx : k = x
        · rw [← hx, memoryWf_tail_read hm, memoryWf_tail_read hn]
        · simpa only [memRead_cons_ne v _ hx] using h x
      obtain ⟨-, -, hm'⟩ := memoryWf_cons.mp hm
      obtain ⟨-, -, hn'⟩ := memoryWf_cons.mp hn
      rw [ih hm' hn' htail]

/-! ### A slave at rest hears the line and nothing else -/

theorem Slave.edgeFall_onlyEdges (c : Ctx) (sl : Slave) : Slave.OnlyEdges sl (Slave.edgeFall c sl) := by
  unfold Slave.edgeFall
  split
  · exact ⟨_, _, _, _, _, _, _, .inl rfl⟩
  · exact .refl sl

theorem Slave.latchPulse_onlyEdges (c : Ctx) (sl : Slave) : Slave.OnlyEdges sl (Slave.latchPulse c sl) := by
  unfold Slave.latchPulse
  split <;> exact ⟨_, _, _, _, _, _, _, .inl rfl⟩

/-- A strict-mode slave at rest that traps has nothing to drop but its call path and its driver. -/
theorem Slave.AtRest.trap_onlyEdges {sl : Slave} (h : sl.AtRest) (hs : sl.cfg.strictMode = true) :
    Slave.OnlyEdges sl sl.trap := by
  obtain ⟨hpos, hwake, -⟩ := h
  refine ⟨sl.pulseNew, sl.pulseLen, sl.pulseOvf, sl.tReset, sl.swStarted, sl.linePrev, sl.draws, .inr ⟨hs, ?_⟩⟩
  rw [Slave.trap, hpos, hwake]

theorem Slave.AtRest.isrRise_onlyEdges {sl : Slave} (c : Ctx) (h : sl.AtRest) :
    Slave.OnlyEdges sl (Slave.isrRise c sl) := by
  unfold Slave.isrRise
  split
  · rename_i hoverrun
    exact h.trap_onlyEdges (Bool.and_eq_true_iff.mp hoverrun).2
  · exact Slave.latchPulse_onlyEdges c sl

theorem Slave.setLinePrev_onlyEdges (b : Bool) (sl : Slave) : Slave.OnlyEdges sl { sl with linePrev := b } :=
  ⟨_, _, _, _, _, _, _, .inl rfl⟩

theorem Slave.AtRest.edgeRise_onlyEdges {sl : Slave} (c : Ctx) (h : sl.AtRest) :
    Slave.OnlyEdges sl (Slave.edgeRise c sl) := by
  unfold Slave.edgeRise
  split
  · exact (h.isrRise_onlyEdges c).trans (Slave.setLinePrev_onlyEdges true _)
  · exact .refl sl

theorem Slave.OnlyEdges.of_eq {sl sl' : Slave} (h : sl' = sl) : Slave.OnlyEdges sl sl' := h ▸ .refl sl

/-- Of the codes at its port a slave at rest sees the edges alone: it waits for no byte and for no pulse. -/
theorem Slave.WireStep.onlyEdges {c : Ctx} {sl sl' : Slave} (h : Slave.WireStep c sl sl') (hr : sl.AtRest) :
    Slave.OnlyEdges sl sl' := by
  have hwait (u : PulseUse) : sl.pos ≠ .waitPulse u := by
    rw [hr.1]
    exact nofun
  have hpulse (f : Slave → Slave) : Slave.OnlyEdges sl (Slave.atPulse f sl) :=
    .of_eq ((Slave.atPulse_cases f sl).resolve_right fun ⟨_, ⟨u, hp⟩, _⟩ => hwait u hp)
  cases h with
  | rom v => exact .of_eq ((Slave.atRomCommand_cases _ sl).resolve_right fun ⟨_, hp, _⟩ => hwait _ hp)
  | function v => exact .of_eq ((Slave.atFunctionCommand_cases _ sl).resolve_right fun ⟨_, hp, _⟩ => hwait _ hp)
  | ack => exact .of_eq ((Slave.atHoldEnd_cases _ sl).resolve_right fun ⟨_, hp, _⟩ => hwait _ hp)
  | one | zero | bad | reset => exact hpulse _
  | fall => exact Slave.edgeFall_onlyEdges c sl
  | rise => exact hr.edgeRise_onlyEdges c

section

/-- Slave `k`, at rest before, has only heard the line from `s` to `t`; the parameters and the requests to come stay. -/
structure HearsOnly (k : Nat) (sl : Slave) (s t : State) : Prop where
  cfg : t.cfg = s.cfg
  requests : t.requests = s.requests
  hears : ∃ x, t.slaves[k]? = some x ∧ Slave.OnlyEdges sl x

variable {k : Nat} {sl : Slave} {s t : State}

/-- Time passes at a slave at rest. -/
theorem Serves.hearsOnly (h : Serves (fun a b => a.AtRest → b.AtRest ∧ Slave.OnlyEdges a b) s t)
    (hk : s.slaves[k]? = some sl) (hr : sl.AtRest) : HearsOnly k sl s t := by
  obtain ⟨x, hx, hsl⟩ := forall₂_getElem? h.slaves k sl hk
  exact ⟨h.cfg, h.requests, x, hx, (hsl hr).2⟩

/-- A code at some slave's port, its own or another's. -/
theorem WireExec.hearsOnly {j : Nat} (h : WireExec j s (.next t)) (hk : s.slaves[k]? = some sl) (hr : sl.AtRest) :
    HearsOnly k sl s t ∧ t.master = s.master := by
  rcases h with ⟨-, hfault⟩ | ⟨y, y', hy, hstep, hnext⟩
  · cases hfault
  · obtain rfl := Host.Outcome.next.inj hnext
    refine ⟨⟨rfl, rfl, ?_⟩, rfl⟩
    by_cases hj : j = k
    · subst hj
      obtain rfl := Option.some.inj (hk.symm.trans hy)
      exact ⟨y', List.getElem?_set_self (List.getElem?_eq_some_iff.mp hk).1, hstep.onlyEdges hr⟩
    · exact ⟨sl, (List.getElem?_set_ne hj).trans hk, .refl sl⟩

/-- A request to another slave. -/
theorem requestOp_hearsOnly {j : Nat} {op : SlaveOp} (h : requestOp j op s = .next t) (hj : j ≠ k)
    (hk : s.slaves[k]? = some sl) (hr : sl.AtRest) : HearsOnly k sl s t ∧ t.master = s.master := by
  obtain ⟨-, x, -, -, hpasses⟩ := requestOp_passes j op s t h
  have hp := hpasses _ (rest_closed s.cfg)
  obtain ⟨hcfg, hrequests, hhears⟩ := hp.serves.hearsOnly ((List.getElem?_set_ne hj).trans hk) hr
  exact ⟨⟨hcfg, hrequests, hhears⟩, hp.master⟩

/-- Every instruction acts at the port of the wire, at upstream code's port of a slave, or is the master's. -/
theorem isMasterOp_eq (i : Instr) : isMasterOp i = ((wirePort i).isNone && (slavePort i).isNone) := by
  cases i <;> rfl

/-- A request of slave `k` is one of upstream code's twelve operations (R124). -/
theorem slavePort_mem {i : Instr} {op : SlaveOp} (h : slavePort i = some (k, op)) :
    i ∈ [.sInit k, .sWaitReset k, .sReadBit k, .sReadByte k, .sWaitFunctionCmd k, .sBusyBegin k, .sBusyEnd k,
      .sLogReceive k, .sLogServe k, .isrFall k, .isrRise k] ∨
    ∃ arg, i ∈ [.sWriteBit k arg, .sWriteByte k arg, .sSetAlarm k arg] := by
  cases i <;> cases h <;> simp

end

/-! ### The master sees one slave -/

section

variable {k : Nat} {s v : State}

/-- Agreeing answers are reported alike. -/
theorem AloneResult.report {α : Type} {r q : α × State} (h : AloneResult k r q) (f : α → Status × Byte) :
    Alone k (mReport (f r.1).1 (f r.1).2 r.2) (mReport (f q.1).1 (f q.1).2 q.2) := by
  rw [h.1]
  exact h.2.mReport _ _

/-- An operation of the master does the same on slave `k`'s line alone. -/
theorem Alone.execMaster (h : Alone k s v) (i : Instr) (hi : isMasterOp i = true) :
    OutcomeAlone k (exec i s) (exec i v) := by
  cases i with
  | mReset => exact h.mResetExchange.report fun d => (if d then .ok else .noSlavePresent, bitByte d)
  | mWriteBit arg => exact (h.mWriteSlot _).mReport _ _
  | mReadBit => exact h.mReadSlot.report fun b => (.ok, bitByte b)
  | mWriteByte arg => exact (h.mSendByte arg).mReport _ _
  | mReadByte => exact h.mReceiveByte.report fun b => (.ok, b)
  | mReadRom => exact h.mReadRom.report fun st => (st, 0)
  | mSearchFirst => exact (h.clearSearch.searchRun searchCmd).report fun st => (st, 0)
  | mSearchNext => exact (h.searchRun searchCmd).report fun st => (st, 0)
  | mAlarmFirst => exact (h.clearSearch.searchRun alarmCmd).report fun st => (st, 0)
  | mAlarmNext => exact (h.searchRun alarmCmd).report fun st => (st, 0)
  | mVerify id => exact h.execMVerify id
  | mStartTxn mode id arg => exact h.execMStartTxn mode id arg
  | mLogSend mode id len payload => exact h.execMLogSend mode id len payload
  | _ => cases hi

end

/-! ### The obligations -/

/-- Settles O60: a read after a write, the canonical form kept, and `memory_ext`. -/
theorem memoryReadsWhatWasWritten : Obligations.MemoryReadsWhatWasWritten := fun m _ a x b hm hn =>
  ⟨memRead_memWrite m a b x hm, memWrite_wf m a b hm, memory_ext hm hn⟩

/-- Settles O45: the instruction is a code on some slave's wire port, a request to another slave, or the master's, and in
each case slave `k` only hears. -/
theorem restingSlaveOnlyHears : Obligations.RestingSlaveOnlyHears := by
  intro s t i k sl h hk hr hi harg
  suffices hhears : HearsOnly k sl s t ∧ (isMasterOp i = false → t.master = s.master) by
    obtain ⟨⟨hcfg, hrequests, hx⟩, hmaster⟩ := hhears
    exact ⟨hcfg, hrequests, hmaster, hx⟩
  cases hw : wirePort i with
  | some j =>
    have hwire : WireExec j s (.next t) := h ▸ exec_wire i j s hw
    exact (hwire.hearsOnly hk hr).imp_right fun hmaster _ => hmaster
  | none =>
    cases hs : slavePort i with
    | some p =>
      obtain ⟨j, op⟩ := p
      have hj : j ≠ k := by
        rintro rfl
        rcases slavePort_mem hs with hmem | ⟨arg, hmem⟩
        · exact hi hmem
        · exact harg arg hmem
      exact (requestOp_hearsOnly (exec_slave i j op s hs ▸ h) hj hk hr).imp_right fun hmaster _ => hmaster
    | none =>
      obtain ⟨hserves, -⟩ := exec_master i hw hs (rest_closed s.cfg) h
      refine ⟨hserves.hearsOnly hk hr, fun hno => ?_⟩
      rw [isMasterOp_eq, hw, hs] at hno
      cases hno

/-- Settles O46: operation by operation, by what a wait does on the whole bus and on slave `k`'s line alone. -/
theorem masterSeesOneSlave : Obligations.MasterSeesOneSlave := fun _ _ _ i hi h => h.execMaster i hi

end Sys2Proof.Machine

/-! The codes (spec/30_encoding.md R100, R107 to R111, R120, R123, R124, R127): what an instruction encodes to decodes to
it, and a byte that a space does not list is rejected by name. -/

namespace Sys2Proof

/-! ### Operations with operand fields -/

theorem decodeVerify_encoded (id : RomId) (rest : List Byte) :
    decodeVerify (romBytes id ++ rest) = .ok (.mVerify id, rest) := by
  simp only [decodeVerify, takeId_romBytes]

theorem decodeStartTxn_encoded (mode : BitVec 2) (id : RomId) (arg : Byte) (rest : List Byte) :
    decodeStartTxn (mode.setWidth 8 :: (romBytes id ++ arg :: rest)) = .ok (.mStartTxn mode id arg, rest) := by
  simp only [decodeStartTxn, takeModeId_encoded, withByte, takeByte]

/-- The payload is taken back whole where its length is the one the request names (R123). -/
theorem decodeLogSend_encoded (mode : BitVec 2) (id : RomId) {len : Byte} {payload : List Byte} (rest : List Byte)
    (hlen : payload.length = len.toNat) :
    decodeLogSend (mode.setWidth 8 :: (romBytes id ++ len :: (payload ++ rest))) =
      .ok (.mLogSend mode id len payload, rest) := by
  simp only [decodeLogSend, takeModeId_encoded, takeByte, ← hlen, takeBytes_append]

/-! ### Unlisted bytes -/

/-- The host operation codes of the master (R123). -/
def masterOpCodes : List Byte := [0x01, 0x02, 0x03, 0x04, 0x05, 0x10, 0x11, 0x12, 0x13, 0x14, 0x15, 0x16, 0x20]

/-- The operation codes of a slave (R124). -/
def slaveOpCodes : List Byte := [0x80, 0x81, 0x82, 0x83, 0x84, 0x85, 0x86, 0x87, 0x88, 0x89, 0x8A, 0x8B]

/-- The ROM command bytes (R110). -/
def romCommandBytes : List Byte := [0x33, 0x55, 0xCC, 0xF0, 0xEC]

variable {b : Byte}

/-- A byte is in a list of codes iff its number is among theirs: the decoders read the number. -/
theorem toNat_mem_codes {codes : List Byte} : b.toNat ∈ codes.map BitVec.toNat ↔ b ∈ codes :=
  List.mem_map_of_injective BitVec.toNat_injective

theorem decodeMaster_reserved (h : b ∉ masterOpCodes) (bs : List Byte) :
    decodeMaster b bs = .error .reservedMasterOp := by
  rw [← toNat_mem_codes] at h
  unfold decodeMaster
  split
  case h_14 => rfl
  all_goals
    rename_i hb
    rw [hb] at h
    exact absurd (by decide) h

theorem decodeSlave_reserved (k : Nat) (h : b ∉ slaveOpCodes) (bs : List Byte) :
    decodeSlave k b bs = .error (.reservedSlaveOp k) := by
  rw [← toNat_mem_codes] at h
  unfold decodeSlave
  split
  case h_13 => rfl
  all_goals
    rename_i hb
    rw [hb] at h
    exact absurd (by decide) h

theorem decodeRomCommand_eq_none (h : b ∉ romCommandBytes) : decodeRomCommand b = none := by
  simp only [romCommandBytes, List.mem_cons, List.not_mem_nil, or_false, not_or] at h
  obtain ⟨hread, hmatch, hskip, hsearch, halarm⟩ := h
  rw [decodeRomCommand, if_neg hread, if_neg hmatch, if_neg hskip, if_neg hsearch, if_neg halarm]

/-! ### The obligations -/

/-- Settles O1: operands `m_id`, `m_mode` and `m_payload` are read back by the lemmas above; every other instruction has
its operand, if any, in one byte, and its decoder answers it outright. -/
theorem decodeOfEncode : Obligations.DecodeOfEncode := by
  intro i rest hwf
  cases i with
  | mVerify id => exact decodeVerify_encoded id rest
  | mStartTxn mode id arg =>
    show decodeStartTxn (mode.setWidth 8 :: ((romBytes id ++ [arg]) ++ rest)) = _
    rw [List.append_assoc]
    exact decodeStartTxn_encoded mode id arg rest
  | mLogSend mode id len payload =>
    show decodeLogSend (mode.setWidth 8 :: ((romBytes id ++ len :: payload) ++ rest)) = _
    rw [List.append_assoc]
    exact decodeLogSend_encoded mode id rest (beq_iff_eq.mp hwf)
  | _ => rfl

/-- Settles O2: each decoder reads its code. -/
theorem codesDecode : Obligations.CodesDecode := fun _ =>
  ⟨rfl, rfl, rfl, rfl, rfl, rfl, rfl, rfl, rfl, rfl, rfl, rfl, rfl, rfl, rfl, rfl⟩

/-- Settles O3: each space's decoder at a byte that is none of its codes. -/
theorem unlistedCodesAreRejected : Obligations.UnlistedCodesAreRejected := by
  intro k b bs
  refine ⟨fun h => decodeMaster_reserved h bs, fun h => decodeSlave_reserved k h bs, fun h => ?rom, fun h => if_neg h⟩
  case rom => simp only [decode, decodeRomCommand_eq_none h]

end Sys2Proof

/-! The host's and upstream code's requests (spec/30_encoding.md R101 to R104, R110, R111, R127): what the master's bit
operations put on the line, what a reserved code reports, the reset a slave waits for, and the wire bytes where a slave
decodes them. -/

namespace Sys2Proof.Machine

variable {k : Nat} {s t v : State} {sl : Slave}

/-! ### The master's bit operations -/

/-- The end of an operation that has left of the master's registers all but the driver (R28, R140). -/
theorem mReport_released {st : Status} {b code data : Byte} (hm : t.master = { s.master with drive := false })
    (hcode : statusCode st = code) (hdata : b = data) :
    mReport st b t = { t with
      master := { s.master with drive := false, pos := .ready, data := data, status := code } } := by
  rw [mReport, hm, hcode, hdata]

/-- A line sampled low is a presence pulse (R141). -/
theorem statusCode_presence (high : Bool) : statusCode (if !high then .ok else .noSlavePresent) =
    if high then statusCode .noSlavePresent else statusCode .ok := by
  cases high <;> rfl

theorem bitByte_not (b : Bool) : bitByte (!b) = if b then 0 else 1 := by
  cases b <;> rfl

/-- Settles O47: the exchange and the slots are the schedules; they last as long as their waits do, and leave the master
with its driver released. -/
theorem mBitOperationsFollowTheirSchedules : Obligations.MBitOperationsFollowTheirSchedules := by
  intro s arg
  have hclosed := lasts_closed s.cfg
  refine ⟨⟨_, rfl, (mResetExchange_serves hclosed).reported _ _ (mResetExchange_took s), ?reset⟩,
    ⟨_, rfl, (mWriteSlot_serves _ hclosed).reported _ _ (mWriteSlot_took _ s), ?write⟩,
    ⟨_, rfl, (mReadSlot_serves hclosed).reported _ _ (mReadSlot_took s), ?read⟩⟩
  case reset => exact mReport_released (mResetExchange_master s) (statusCode_presence _) (bitByte_not _)
  case write => exact mReport_released (mWriteSlot_master _ s) rfl rfl
  case read => exact mReport_released (mReadSlot_master s) rfl rfl

/-! ### Reserved operation codes -/

/-- The next request of a ready master, at this very instant, is no code of its port: it is rejected (R127, R140). -/
theorem step_rejected {r : Request} {later : List Request} {e : Reject} (hready : s.master.pos = .ready)
    (hreq : s.requests = r :: later) (hgap : r.gap = 0) (hdec : decode r.port r.bytes = .error e) :
    step s = reject e { s with requests := later } := by
  have htake : takeRequest r later s = { s with requests := later } := if_pos hgap
  simp only [step, hready, hreq, runRequest, hdec, htake]

theorem mIllegal_ready (hready : s.master.pos = .ready) :
    mIllegal s = { s with master := { s.master with status := statusCode .illegalOperation, data := 0 } } := by
  rw [mIllegal, mReport, ← hready]

/-- A slave between two operations that expects none reports a reserved code and is as it was (R127). -/
theorem Slave.start_illegal (c : Ctx) (hpos : sl.pos = .idle) (hwake : sl.wake = none) (hup : sl.upstream = [])
    (hstack : sl.stack = []) :
    Slave.start c .illegal (Slave.begun .illegal sl) = { sl with status := statusCode .illegalOperation, data := 0 } := by
  have hfinish := Slave.finish_last (sl := Slave.begun .illegal sl) c .illegalOperation 0 hup
  rw [← hpos, ← hwake, ← hstack] at hfinish
  exact hfinish

/-- A reserved code at a slave that takes no edge now: its operation is over at the instant it begins (R127). -/
theorem Quiet.requestIllegal (hq : Quiet k s) (hk : s.slaves[k]? = some sl) (hr : sl.AtRest) (ht : sl.trapped = false)
    (hup : sl.upstream = []) (hstack : sl.stack = []) (hedge : sl.linePrev = true ∨ sl.takesEdges = false) :
    ∃ t, requestOp k .illegal s = .next t ∧ RanAlone k s t s.now s.otherWave ∧
      t.slaves[k]? = some { sl with status := statusCode .illegalOperation, data := 0 } := by
  obtain ⟨hpos, hwake, hdrive⟩ := hr
  let c := sceneCtx s s.now false (Slave.begun .illegal sl)
  have hstart := Slave.start_illegal c hpos hwake hup hstack
  have hlevel : c.level = true := by
    show (!(false || false || sl.drive)) = true
    rw [hdrive]
    rfl
  have hsettle : Slave.settle c (Slave.begun .illegal sl) = Slave.start c .illegal (Slave.begun .illegal sl) :=
    Slave.settle_begun_idle c .illegal sl ht (hedge.imp_left (·.trans hlevel.symm)) (by rw [hstart]; exact hpos)
  exact hq.requestNow hk .illegal hpos ht (.inr (.inr rfl)) (hsettle.trans hstart) rfl (Slave.movesOn_idle hpos)

/-- After an operation of slave `k` alone still nobody else can move the line. -/
theorem RanAlone.quiet {n : Nat} {ow : List Nat} (h : RanAlone k s t n ow) (hq : Quiet k s) : Quiet k t where
  master := h.master ▸ hq.master
  ready := h.master ▸ hq.ready
  requests := by
    rw [← hq.requests, comesNow, comesNow, h.master, h.requests]
  otherDrive := h.otherDrive
  rest := h.rest

/-- An operation that leaves slave `k`'s driver as it was leaves the line so (R71). -/
theorem RanAlone.line_eq {n : Nat} {ow : List Nat} {x : Slave} (h : RanAlone k s t n ow) (hq : Quiet k s)
    (hk : s.slaves[k]? = some sl) (hx : t.slaves[k]? = some x) (hdrive : x.drive = sl.drive) : line t = line s := by
  rw [hq.line_eq hk, (h.quiet hq).line_eq hx, hdrive]

/-- Settles O6: the code is rejected; the master reports it, and the slave's operation is over at the instant it begins. -/
theorem reservedOperationsReportIllegal : Obligations.ReservedOperationsReportIllegal := by
  intro s r later b bs hready hreq hgap hbytes
  refine ⟨fun hport hb => ?master, fun k sl hk hsl hq hport hb => ?slave⟩
  case master =>
    have hdec : decode r.port r.bytes = .error .reservedMasterOp := by
      rw [hport, hbytes]
      exact decodeMaster_reserved hb bs
    rw [step_rejected hready hreq hgap hdec]
    exact congrArg Host.Outcome.next (mIllegal_ready (s := { s with requests := later }) hready)
  case slave =>
    have hdec : decode r.port r.bytes = .error (.reservedSlaveOp k) := by
      rw [hport, hbytes]
      exact decodeSlave_reserved k hb bs
    have hrun : ∃ t, requestOp k .illegal { s with requests := later } = .next t ∧
        RanAlone k { s with requests := later } t s.now s.otherWave ∧
        t.slaves[k]? = some { sl with status := statusCode .illegalOperation, data := 0 } := by
      rcases hsl with h | ⟨hrest, hoff, htrap, hup, hstack⟩
      · exact hq.requestIllegal hk ⟨h.pos, h.wake, h.released⟩ h.trapped h.upstream h.stack (.inl h.line_prev)
      · exact hq.requestIllegal hk hrest htrap hup hstack (.inr (by simp [Slave.takesEdges, hoff]))
    obtain ⟨t, hnext, hran, hx⟩ := hrun
    have hline := hran.line_eq hq hk hx rfl
    exact ⟨t, (step_rejected hready hreq hgap hdec).trans hnext, hran, hline, hx⟩

/-! ### The reset a slave waits for -/

/-- A next state of slave `k`'s line alone is one of the whole machine. -/
theorem OutcomeAlone.next {o : Host.Outcome State Fault Refusal} (h : OutcomeAlone k o (.next v)) :
    ∃ u, o = .next u ∧ Alone k u v := by
  cases o with
  | next u => exact ⟨u, rfl, h⟩
  | fault e => exact h.elim
  | refused e => exact h.elim

section

variable {g : Config} {u : State}

/-- The slave's wait in `S_WAIT_RESET`, over with `OK` after the reset exchange, the last pulse measured being as given
(R198, R200). -/
def Slave.resetDone (tReset pulseLen : Nat) (pulseOvf : Bool) (sl : Slave) : Slave :=
  { sl with
    txnState := .waitingRomCmd, status := statusCode .ok, data := 0
    tReset := tReset, swStarted := true, pulseLen := pulseLen, pulseOvf := pulseOvf }

/-- The end of the presence pulse ends the operation that called it (R198, R200). -/
theorem Slave.Ready.returnValue_waitReset (h : sl.Ready g) (c c' : Ctx) (tr pl : Nat) (po : Bool) (p : Pos)
    (w : Option Nat) :
    Slave.returnValue c' 0 { Slave.after tr pl po p w (Slave.start c .waitReset sl) with
      stack := [.waitReset], txnState := .waitingRomCmd } = Slave.resetDone tr pl po sl := by
  have hfinish := Slave.finish_last (sl := { Slave.after tr pl po p w (Slave.start c .waitReset sl) with
    stack := [], txnState := .waitingRomCmd, status := statusCode .ok, data := 0 }) c' .ok 0 h.upstream
  refine Eq.trans hfinish ?_
  simp only [Slave.resetDone, Slave.start, Slave.await, Slave.after, h.pos, h.stack, h.wake, h.line_prev]

/-- `M_RESET` reports what its exchange has found (R141). -/
theorem exec_mReset {detected : Bool} (h : mResetExchange s = (detected, t)) :
    exec .mReset s = .next (mReport (if detected then .ok else .noSlavePresent) (bitByte detected) t) := by
  show Host.Outcome.next (mReport (if (mResetExchange s).1 then _ else _) (bitByte (mResetExchange s).1) _) = _
  rw [h]

/-- `M_RESET` with a slave in `S_WAIT_RESET` alone on the line (R76, R141). -/
theorem Slave.Ready.mReset_shot (h : sl.Ready g) (hq : t.NoOthers g) (c : Ctx) (n : Nat) :
    ∃ tr pl po, exec .mReset (shot t n false (Slave.start c .waitReset sl)) =
      .next (mReport .ok 1 (shot t (n + us g 960) false (Slave.resetDone tr pl po sl))) := by
  obtain ⟨hlisten, -⟩ := h.await (u := .waitReset) c
  obtain ⟨c', tr, pl, po, p, w, -, hexchange⟩ := mResetExchange_shot (t := n) hq hlisten rfl fun c' tr pl po p w _ =>
    (congrArg Slave.wake (h.returnValue_waitReset c c' tr pl po p w)).trans h.wake
  have hdone := congrArg (fun y => (true, shot t (n + us g 960) false y)) (h.returnValue_waitReset c c' tr pl po p w)
  exact ⟨tr, pl, po, exec_mReset (hexchange.trans hdone)⟩

end

/-- Settles O14: the slave waits alone with the master, whose exchange finds its presence pulse; the other slaves only
hear. -/
theorem resetFindsWaitingSlave : Obligations.ResetFindsWaitingSlave := by
  intro k s sl hk hsl hq hz how
  obtain ⟨hlisten, -⟩ := hsl.await (u := .waitReset) s.ctx
  obtain ⟨t, hwait, hran, hx⟩ := hsl.suspends hk hq how .waitReset hlisten
  obtain ⟨halone, hothers⟩ := hran.shot hz hq.master hx
  obtain ⟨tr, pl, po, hreset⟩ := hsl.mReset_shot hothers s.ctx s.now
  have hout := halone.execMaster .mReset rfl
  rw [hreset, mReport_shot] at hout
  obtain ⟨u, hu, hend⟩ := hout.next
  obtain ⟨hexchanged, hy, hmaster⟩ := hend.exchanged hran (hran.rest.hearMaster rfl hu) rfl rfl hothers
  refine ⟨t, u, _, hwait, hu, hexchanged, ?_, hy, ⟨tr, true, pl, po, rfl⟩⟩
  rw [hmaster]
  simp only [hran.master, hq.master, hq.ready]

/-! ### Wire bytes where a slave decodes them -/

/-- READ_ROM begins with bit 1 of the ROM-ID, the lowest of its byte 0 (R82, R240). -/
theorem Slave.romReadRom_eq (c : Ctx) (rest : List Frame) (sl : Slave) : Slave.romReadRom c rest sl = { sl with
    shift := romByte sl.romId 0, bitcnt := 0, stack := .writeByte :: .readRom 0 :: rest
    pos := .waitPulse (.writeStart (romBit sl.romId 1)), wake := sl.cfg.waitTimeout.map (c.now + ·) } := by
  rw [Slave.romReadRom, Slave.startWriteByte, romByte_bits sl.romId 0 0 (by decide)]
  rfl

/-- Settles O34: each command's responder, started at the dispatcher's call path. -/
theorem romCommandBytesAct : Obligations.RomCommandBytesAct := by
  intro k s sl rest w hk ht hp hst hw
  subst hw
  have hact {y : Slave} (f : Ctx → List Frame → Slave → Slave) (h : f s.ctx (.dispatcher :: rest) sl = y) :
      (onSlave k s fun c => Slave.atRomCommand (f c)) = .next { s with slaves := s.slaves.set k y } :=
    onSlave_some hk ((Slave.atRomCommand_eq ht hp hst _).trans h)
  exact ⟨hact Slave.romReadRom (Slave.romReadRom_eq s.ctx _ sl), hact Slave.romMatchRom rfl, hact Slave.romSkipRom rfl,
    hact Slave.romSearchRom rfl, fun halarmed => hact Slave.romAlarmSearch (if_pos halarmed),
    fun halarmed => hact Slave.romAlarmSearch (if_neg (by rw [halarmed]; decide))⟩

/-- Settles O35: the command is returned to upstream code, whose operation is over, or to `S_LOG_SERVE`, which goes on. -/
theorem logMessageByteActs : Obligations.LogMessageByteActs := by
  intro k s sl hk ht hp hup
  have hact {rest : List Frame} {y : Slave} (hst : sl.stack = .readByte :: .functionCommand :: rest)
      (h : Slave.gotLogMessage s.ctx rest sl = y) :
      exec (.logMessage k) s = .next { s with slaves := s.slaves.set k y } :=
    onSlave_some (f := fun c => Slave.atFunctionCommand (Slave.gotLogMessage c)) hk
      ((Slave.atFunctionCommand_eq ht hp hst _).trans h)
  exact ⟨fun hst => hact hst (Slave.finish_last s.ctx .ok logMessageByte hup), fun hst => hact hst rfl⟩

/-- Settles O37: the slave is left as it is, and so is the machine. -/
theorem wireBytesActOnlyWhereDecoded : Obligations.WireBytesActOnlyWhereDecoded := by
  intro k s sl hk
  refine ⟨fun i hi h => ?rom, fun h => ?function, fun h => ?ack⟩
  case rom =>
    have hsame (f : Ctx → List Frame → Slave → Slave) : (onSlave k s fun c => Slave.atRomCommand (f c)) = .next s :=
      onSlave_same hk (Slave.atRomCommand_elsewhere h _)
    simp only [List.mem_cons, List.not_mem_nil, or_false] at hi
    rcases hi with rfl | rfl | rfl | rfl | rfl <;> exact hsame _
  case function =>
    rw [exec_logMessage]
    exact onSlave_same hk (Slave.atFunctionCommand_elsewhere h _)
  case ack =>
    rw [exec_ack]
    exact onSlave_same hk (Slave.atHoldEnd_elsewhere h _)

end Sys2Proof.Machine

/-! The bit and the byte (spec/40_master_bit_byte.md R140 to R148): a step of a ready master, a byte operation as its
eight slots, bits and bytes that cross the line between the master and one slave, and a line that answers nothing. -/

namespace Sys2Proof.Machine

variable {g : Config} {k : Nat} {s t : State} {sl x st0 : Slave} {u : PulseUse}

/-! ### A slave's operation and the master's operation that ends it -/

/-- A ready slave waits in `op`, and the master's `i` ends it (R76, R78). What the two do alone on the line (`hshot`)
they do in the whole machine, whose slaves at rest only hear the line. -/
theorem Slave.Ready.exchange {op : SlaveOp} {i : Instr} {m : Master} {d : Nat} {st : Status} {b : Byte}
    {P : Slave → Prop} (h : sl.Ready s.cfg) (hk : s.slaves[k]? = some sl) (hq : Quiet k s)
    (hz : s.cfg.delaySlack = 0) (how : s.otherWave = []) (hlisten : (Slave.start s.ctx op sl).Listening s.cfg u)
    (hi : isMasterOp i = true) (hm : m.drive = false ∧ m.pos = .ready)
    (hshot : ∀ t : State, t.NoOthers s.cfg → ∃ y, P y ∧
      exec i (shot (t.withMaster s.master) s.now false (Slave.start s.ctx op sl)) =
        .next (mReport st b (shot (t.withMaster m) (s.now + d) false y))) :
    ∃ t u x, requestOp k op s = .next t ∧ exec i t = .next u ∧ Exchanged k s u (s.now + d) [] ∧
      u.master = { m with status := statusCode st, data := b } ∧ u.slaves[k]? = some x ∧ P x := by
  obtain ⟨t, hrequest, hran, hx⟩ := h.suspends hk hq how op hlisten
  obtain ⟨halone, hothers⟩ := hran.shot hz hq.master hx
  obtain ⟨y, hy, hexec⟩ := hshot t hothers
  have hout := halone.execMaster i hi
  have hsame : t.withMaster s.master = t := hran.master ▸ rfl
  rw [hsame] at hexec
  rw [hexec, mReport_shot] at hout
  obtain ⟨u, hu, hend⟩ := hout.next
  obtain ⟨hexchanged, hslave, hmaster⟩ := hend.exchanged hran (hran.rest.hearMaster hi hu) rfl rfl hothers
  refine ⟨t, u, y, hrequest, hu, hexchanged, ?_, hslave, hy⟩
  rw [hmaster, ← hm.1, ← hm.2]

/-- The end of a bit operation that has waited for one pulse: the slave has heard the edges alone (R215, R216). -/
theorem Slave.Ready.bitDone (h : sl.Ready g) (hd : Slave.Drift sl st0) (hstack : st0.stack = [])
    (hshift : st0.shift = sl.shift) (hbitcnt : st0.bitcnt = sl.bitcnt) (c : Ctx) (b : Byte) (tr pl : Nat) (po : Bool)
    (p : Pos) (w : Option Nat) :
    Slave.Heard { sl with status := statusCode .ok, data := b }
      (Slave.returnValue c b (Slave.after tr pl po p w st0)) := by
  have hafter := Slave.Drift.after tr pl po p w st0
  rw [hafter.returns hstack]
  exact h.heard (hd.trans hafter) hshift hbitcnt c .ok b

/-- The end of a byte operation that upstream code has requested: the edges and the shifter apart, the slave is as
before (R217, R218). -/
theorem Slave.Ready.byteDone (h : sl.Ready g) (hbegun : Slave.Begun sl st0) (hcrc : st0.crc16 = sl.crc16)
    (htxn : st0.txnState = sl.txnState) (hd : Slave.Drift st0 x) (c : Ctx) (b : Byte) :
    Slave.HeardBytes { sl with status := statusCode .ok, data := b } (Slave.ret c b [] x) :=
  h.endsPlain hbegun hd c .ok b (hd.crc16.trans hcrc) (hd.txnState.trans htxn)

/-! ### The master's operations on a silent line -/

/-- Nobody answers the reset exchange (R141, R148). -/
theorem Silent.absent (h : Silent s) : (mResetExchange s).1 = false := h.hushed.mResetExchange.1

/-- The registers at the end of an operation that has left of the master's all but the driver. -/
theorem Silent.reported_master (h : Silent s) (st : Status) (b : Byte)
    (hm : t.master = { s.master with drive := false }) :
    (mReport st b t).master = { s.master with pos := .ready, status := statusCode st, data := b } := by
  rw [mReport_master, hm, Master.released_eq h.master]

/-- An operation that ends with its reset exchange. -/
theorem Silent.resetEnds (h : Silent s) : Lasted s (mReport .noSlavePresent 0 (mResetExchange s).2) 3 (us s.cfg 960) ∧
    (mReport .noSlavePresent 0 (mResetExchange s).2).master =
      { s.master with pos := .ready, status := statusCode .noSlavePresent, data := 0 } :=
  ⟨(mResetExchange_serves (lasts_closed s.cfg)).reported _ _ (mResetExchange_took s),
    h.reported_master _ _ (mResetExchange_master s)⟩

theorem Silent.exec_mReset (h : Silent s) : exec .mReset s = .next (mReport .noSlavePresent 0 (mResetExchange s).2) :=
  Machine.exec_mReset (detected := false) (Prod.ext h.absent rfl)

/-- The transactions that begin with a reset exchange: none of them gets further (R160, R173, R270). -/
theorem Silent.exec_transaction (h : Silent s) {mode : BitVec 2} {id : RomId} {f len : Byte} {payload : List Byte}
    {i : Instr} (hi : i = .mReadRom ∨ mode ≠ 3 ∧ i = .mStartTxn mode id f ∨
      mode ≠ 2 ∧ mode ≠ 3 ∧ len.toNat ≤ s.cfg.maxMessageLength ∧ i = .mLogSend mode id len payload) :
    exec i s = .next (mReport .noSlavePresent 0 (mResetExchange s).2) := by
  rcases hi with rfl | ⟨h3, rfl⟩ | ⟨h2, h3, hlen, rfl⟩
  · show execMReadRom s = _
    rw [execMReadRom, mReadRom_absent h.absent]
  · show execMStartTxn mode id f s = _
    rw [execMStartTxn, if_neg h3, launch_absent mode id f h3 h.absent]
  · show execMLogSend mode id len payload s = _
    rw [execMLogSend, if_neg (Nat.not_lt.mpr hlen), if_neg (not_or.mpr ⟨h2, h3⟩),
      launch_absent mode id logMessageByte h3 h.absent]
    rfl

/-- A search run finds nobody, and its state is cleared (R166). -/
theorem Silent.searchEnds (h : Silent s) (cmd : Byte) (hf : s.master.lastDeviceFlag = false) :
    Lasted s (mReport (searchRun cmd s).1 0 (searchRun cmd s).2) 3 (us s.cfg 960) ∧
    (mReport (searchRun cmd s).1 0 (searchRun cmd s).2).master = { s.master with
      pos := .ready, status := statusCode .noSlavePresent, data := 0
      lastDiscrepancy := 0, lastFamilyDiscrepancy := 0, lastDeviceFlag := false } := by
  rw [searchRun_absent cmd hf h.absent]
  refine ⟨(clearSearch_serves (mResetExchange_serves (lasts_closed s.cfg))).reported _ _
    ((mResetExchange_took s).withMaster _), ?_⟩
  simp only [mReport_master, clearSearch, mResetExchange_master, h.master]

/-- The same of a search that begins with its state cleared (R168, R170). -/
theorem Lasted.of_clearSearch {n d : Nat} (h : Lasted (clearSearch s) t n d) : Lasted s t n d :=
  ⟨h.cfg, h.requests, h.slaves, h.took.ofMaster⟩

/-! ### The obligations -/

/-- Settles O4: the request is taken, and its bytes decode. -/
theorem stepRunsTheDecodedInstruction : Obligations.StepRunsTheDecodedInstruction := by
  intro s r later i rest hready hreq hdec
  simp only [step, hready, hreq, runRequest, hdec, takeRequest]

/-- Settles O48: the slots of the two byte operations, which blind to the shifter are `writeSlots` and `readSlots`. -/
theorem mByteOperationsAreEightSlots : Obligations.MByteOperationsAreEightSlots := by
  intro s v
  have hclosed := lasts_closed s.cfg
  obtain ⟨hbits, hslots⟩ := mReceiveByte_slots s
  refine ⟨⟨_, rfl, (mSendByte_serves v hclosed).reported _ _ (mSendByte_took v s), ?write⟩, rfl,
    ⟨_, _, rfl, (mReceiveByte_serves hclosed).reported _ _ (mReceiveByte_took s), hbits, ?read⟩⟩
  case write => simp only [mReport, mSendByte_slots, State.withMaster]
  case read => simp only [mReport, hslots, State.withMaster]

/-- Settles O15: the slave waits for the slot's pulse, and the slot is the master's and the slave's alone. -/
theorem bitsCrossTheLine : Obligations.BitsCrossTheLine := by
  intro k s sl arg hk hsl hq hz how
  refine ⟨?write, fun hsit => ?read⟩
  case write =>
    obtain ⟨hlisten, hdrift, hshift, hbitcnt, -, hstack⟩ := hsl.await (u := .readBit) s.ctx
    have hdone := hsl.bitDone hdrift hstack hshift hbitcnt
    refine hsl.exchange (op := .readBit) (m := s.master) hk hq hz how hlisten rfl
      ⟨hq.master, hq.ready⟩ fun t ht => ?_
    obtain ⟨c, tr, pl, po, p, w, -, hslot⟩ := mWriteSlot_shot (s := t.withMaster s.master) (t := s.now) ht hlisten
      (argBit arg) fun c tr pl po p w _ => hsl.asleep (hdone c _ tr pl po p w).bytes rfl
    exact ⟨_, hdone c _ tr pl po p w, congrArg (fun v => Host.Outcome.next (mReport .ok 0 v)) hslot⟩
  case read =>
    obtain ⟨hlisten, hdrift, hshift, hbitcnt, -, hstack⟩ := hsl.await (u := .writeStart (argBit arg)) s.ctx
    have hdone := hsl.bitDone hdrift hstack hshift hbitcnt
    refine hsl.exchange (op := .writeBit arg) (m := s.master) hk hq hz how hlisten rfl
      ⟨hq.master, hq.ready⟩ fun t ht => ?_
    obtain ⟨c, tr, pl, po, p, w, -, hslot⟩ := mReadSlot_shot (s := t.withMaster s.master) (t := s.now) ht _ hlisten hsit
      fun c tr pl po p w _ => hsl.asleep (hdone c _ tr pl po p w).bytes rfl
    exact ⟨_, hdone c _ tr pl po p w,
      congrArg (fun r : Bool × State => Host.Outcome.next (mReport .ok (bitByte r.1) r.2)) hslot⟩

/-- Settles O16: the slave's shifter gets the byte from eight write slots, and the master's from eight read slots. -/
theorem bytesCrossTheLine : Obligations.BytesCrossTheLine := by
  intro k s sl v hk hsl hq hz how
  refine ⟨?write, fun hsit => ?read⟩
  case write =>
    obtain ⟨hlisten, hstack, hbitcnt, hshift⟩ := Slave.startReadByte_reads (fs := []) s.ctx hsl.base
    have hdone {x : Slave} := hsl.byteDone (st0 := Slave.startReadByte s.ctx [] sl) (x := x)
      ⟨_, _, _, _, _, sl.crc16, sl.txnState, rfl⟩ rfl rfl
    refine hsl.exchange (op := .readByte) (m := { s.master with shift := 0, bitcnt := 8 }) hk hq hz how hlisten rfl
      ⟨hq.master, hq.ready⟩ fun t ht => ?_
    obtain ⟨c, x, -, hd, hbyte⟩ := mSendByte_shot (s := t.withMaster s.master) (t := s.now) ht hlisten hstack hbitcnt
      hshift v fun c x _ hd => hsl.asleep (hdone hd c v) rfl
    exact ⟨_, hdone hd c v, congrArg (fun v => Host.Outcome.next (mReport .ok 0 v)) hbyte⟩
  case read =>
    obtain ⟨hlisten, hstack, hbitcnt, hshift⟩ := Slave.startWriteByte_writes (fs := []) s.ctx v hsl.base
    have hdone {x : Slave} := hsl.byteDone (st0 := Slave.startWriteByte s.ctx v [] sl) (x := x)
      ⟨_, _, _, _, _, sl.crc16, sl.txnState, rfl⟩ rfl rfl
    refine hsl.exchange (op := .writeByte v) (m := { s.master with shift := v, bitcnt := 8 }) hk hq hz how hlisten rfl
      ⟨hq.master, hq.ready⟩ fun t ht => ?_
    obtain ⟨c, x, -, hd, hbyte⟩ := mReceiveByte_shot (s := t.withMaster s.master) (t := s.now)
      (sl := Slave.startWriteByte s.ctx v [] sl) ht hlisten hsit hstack hbitcnt
      fun c x _ hd => hsl.asleep (hdone hd c 0) rfl
    exact ⟨_, hdone hd c 0,
      congrArg (fun r : Byte × State => Host.Outcome.next (mReport .ok r.1 r.2)) hbyte⟩

/-- Settles O49: nobody answers the reset exchange, and the released line is sampled high. -/
theorem silentLineAnswersNothing : Obligations.SilentLineAnswersNothing := by
  intro s mode id f len payload h
  have hclosed := lasts_closed s.cfg
  obtain ⟨hreset, hmaster⟩ := h.resetEnds
  refine ⟨?reset, ?bit, ?byte, fun i hi => ⟨_, h.exec_transaction hi, hreset, hmaster⟩, fun hf i hi => ?search⟩
  case reset =>
    exact ⟨_, h.exec_mReset, h.hushed.mResetExchange.2.silent _ _ (by rw [mResetExchange_master]), hreset, hmaster⟩
  case bit =>
    obtain ⟨hhigh, hhushed⟩ := h.hushed.mReadSlot
    refine ⟨_, rfl, hhushed.silent _ _ (by rw [mReadSlot_master]),
      (mReadSlot_serves hclosed).reported _ _ (mReadSlot_took s), ?_⟩
    rw [hhigh]
    exact h.reported_master .ok _ (mReadSlot_master s)
  case byte =>
    obtain ⟨hones, hhushed⟩ := h.hushed.mReceiveByte
    refine ⟨_, rfl, hhushed.silent _ _ (by rw [mReceiveByte_master]),
      (mReceiveByte_serves hclosed).reported _ _ (mReceiveByte_took s), ?_⟩
    simp only [mReport_master, mReceiveByte_master, hones, h.master]
  case search =>
    have hcleared : Silent (clearSearch s) := ⟨h.master, h.otherDrive, h.otherWave, h.rest⟩
    simp only [List.mem_cons, List.not_mem_nil, or_false] at hi
    rcases hi with rfl | rfl | rfl | rfl
    · obtain ⟨hlasted, hend⟩ := hcleared.searchEnds searchCmd rfl
      exact ⟨_, rfl, hlasted.of_clearSearch, hend⟩
    · exact ⟨_, rfl, h.searchEnds searchCmd hf⟩
    · obtain ⟨hlasted, hend⟩ := hcleared.searchEnds alarmCmd rfl
      exact ⟨_, rfl, hlasted.of_clearSearch, hend⟩
    · exact ⟨_, rfl, h.searchEnds alarmCmd hf⟩

end Sys2Proof.Machine

/-! Search and transactions (spec/41_master_search_txn.md R160 to R173): how the master's composite operations end,
whatever the slaves do, and what they do with one slave in its dispatcher. -/

namespace Sys2Proof.Machine

variable {g : Config} {k : Nat} {s t : State} {sl x y : Slave}

/-! ### The direction at a position -/

section

variable {m : Master} {b b1 b2 : Bool} {n : Nat}

/-- Reads that differ name the direction (R162). -/
theorem direction_of_ne (h : b1 ≠ b2) : direction m b1 b2 n = b1 := if_pos h

/-- At a discrepancy the last run decides: below its last discrepancy as it went, there 1, above 0 (R162). -/
theorem direction_of_eq : direction m b b n =
    if n < m.lastDiscrepancy.toNat then romBit m.romBuf n else decide (n = m.lastDiscrepancy.toNat) :=
  if_neg (not_not_intro rfl)

/-- A 0 chosen at a discrepancy is recorded (R163). -/
theorem chooseDirection_recorded (h : direction m false false n = false) : chooseDirection false false n m =
    { recordZero n m with dir := false, romBuf := setRomBit m.romBuf n false } := by
  simp only [chooseDirection, h]
  rfl

/-- Without a discrepancy, or where 1 is chosen, nothing is recorded (R163). -/
theorem chooseDirection_unrecorded (h : b1 ≠ b2 ∨ direction m b1 b2 n = true) : chooseDirection b1 b2 n m =
    { m with dir := direction m b1 b2 n, romBuf := setRomBit m.romBuf n (direction m b1 b2 n) } := by
  have hrecord : (!b1 && !b2 && !direction m b1 b2 n) = false := by
    rcases h with hne | hone
    · cases b1 <;> cases b2 <;> simp at hne ⊢
    · simp [hone]
  simp only [chooseDirection, hrecord]
  rfl

/-- What `RecordZero(n)` leaves in its two registers, at a position of the run (R163). -/
theorem recordZero_toNat (hn : n ≤ 64) : (recordZero n m).lastZero.toNat = n ∧
    (recordZero n m).lastFamilyDiscrepancy.toNat = if n < 9 then n else m.lastFamilyDiscrepancy.toNat := by
  refine ⟨Nat.mod_eq_of_lt (by omega), ?_⟩
  rw [recordZero]
  split
  · exact Nat.mod_eq_of_lt (by omega)
  · rfl

end

/-- Settles O59: a run at a discrepancy reads 0 twice, and either records a 0 or records nothing. -/
theorem searchDirection : Obligations.SearchDirection := by
  intro m b1 b2 n h1 hn hsilent m'
  obtain ⟨hdir, hrom⟩ := chooseDirection_rom b1 b2 n m
  have heq (h : b1 = b2) : m'.dir =
      if n < m.lastDiscrepancy.toNat then romBit m.romBuf n else decide (n = m.lastDiscrepancy.toNat) := by
    subst h
    exact hdir.trans direction_of_eq
  have hrecord (h : b1 = b2) (h0 : m'.dir = false) :
      m' = { recordZero n m with dir := false, romBuf := setRomBit m.romBuf n false } := by
    obtain rfl : b1 = false := by subst h; simpa using hsilent
    obtain rfl := h
    exact chooseDirection_recorded (hdir ▸ h0)
  have hkeep (h : b1 ≠ b2 ∨ m'.dir = true) : m' = { m with dir := m'.dir, romBuf := m'.romBuf } := by
    have hkept : m' = _ := chooseDirection_unrecorded (h.imp_right (hdir ▸ ·))
    rw [hkept]
  refine ⟨fun h => hdir.trans (direction_of_ne h), fun h hlt => (heq h).trans (if_pos hlt), fun h he => ?last,
    fun h hlt => ?above, fun h h0 => ?recorded, fun h => ?kept, fun j hj hj' => ?stored, ?frame⟩
  case last =>
    rw [heq h, if_neg (by omega), decide_eq_true he]
  case above =>
    rw [heq h, if_neg (by omega), decide_eq_false (by omega)]
  case recorded =>
    rw [hrecord h h0]
    exact recordZero_toNat hn
  case kept =>
    rw [hkeep h]
    exact ⟨rfl, rfl⟩
  case stored =>
    show romBit (chooseDirection b1 b2 n m).romBuf j = if j = n then (chooseDirection b1 b2 n m).dir else _
    rw [hrom, hdir, romBit_setRomBit _ _ _ _ h1 hn hj hj']
  case frame =>
    have hcases : b1 = b2 ∧ m'.dir = false ∨ b1 ≠ b2 ∨ m'.dir = true := by
      cases m'.dir <;> simp [Classical.em]
    rcases hcases with ⟨hb, h0⟩ | h
    · rw [hrecord hb h0]
      rfl
    · rw [hkeep h]

/-! ### How a search ends -/

/-- Settles O51: the run is over before it makes a reset exchange. -/
theorem searchAfterTheLastDevice : Obligations.SearchAfterTheLastDevice := by
  intro s i hi hlast
  have hover (cmd : Byte) : Host.Outcome.next (mReport (searchRun cmd s).1 0 (searchRun cmd s).2) =
      (.next (mReport .noSuchSlave 0 (clearSearch s)) : Host.Outcome State Fault Refusal) := by
    rw [searchRun_over cmd hlast]
  rcases hi with rfl | rfl
  · exact hover searchCmd
  · exact hover alarmCmd

/-- A search runs from these registers of the master: there is a device to look for, and only the triple may have been
cleared (R168 to R171). -/
structure SearchFrom (s : State) (m : Master) : Prop where
  lastDeviceFlag : m.lastDeviceFlag = false
  crc16 : m.crc16 = s.master.crc16
  drive : m.drive = s.master.drive
  romBuf : m.romBuf = s.master.romBuf

/-- The four search operations are a run, with a cleared triple or with the last run's (R168 to R171). -/
theorem exec_search {i : Instr} (hi : i = .mSearchFirst ∨ i = .mAlarmFirst ∨
      s.master.lastDeviceFlag = false ∧ (i = .mSearchNext ∨ i = .mAlarmNext)) :
    ∃ alarm m, (alarm = true → i = .mAlarmFirst ∨ i = .mAlarmNext) ∧ SearchFrom s m ∧
      exec i s = .next (mReport (searchRun (searchCommandFor alarm) (s.withMaster m)).1 0
        (searchRun (searchCommandFor alarm) (s.withMaster m)).2) := by
  have hclear : SearchFrom s (clearSearch s).master := ⟨rfl, rfl, rfl, rfl⟩
  rcases hi with rfl | rfl | ⟨hf, rfl | rfl⟩
  · exact ⟨false, _, nofun, hclear, rfl⟩
  · exact ⟨true, _, fun _ => .inl rfl, hclear, rfl⟩
  · exact ⟨false, s.master, nofun, ⟨hf, rfl, rfl, rfl⟩, rfl⟩
  · exact ⟨true, s.master, fun _ => .inr rfl, ⟨hf, rfl, rfl, rfl⟩, rfl⟩

/-- A run lasts for the time it takes, whatever is written to the master's registers before and after it. -/
theorem searchRun_lasted {m m' : Master} {n d : Nat} {cmd : Byte}
    (h : Took (s.withMaster m) (searchRun cmd (s.withMaster m)).2 n d) :
    Lasted s ((searchRun cmd (s.withMaster m)).2.withMaster m') n d :=
  ((Serves.ofMaster (m := m) (searchRun_serves cmd (lasts_closed s.cfg))).withMaster m').lasted
    ((Took.ofMaster (m := m) h).withMaster m')

/-- A run that finds nobody present ends after the reset exchange (R161, R166). -/
theorem searchRun_nobody {cmd : Byte} (hf : s.master.lastDeviceFlag = false) (hp : (mResetExchange s).1 = false) :
    (searchRun cmd s).1 = .noSlavePresent ∧ (searchRun cmd s).2.master.Cleared ∧
      (searchRun cmd s).2.master.romBuf = s.master.romBuf ∧ Took s (searchRun cmd s).2 3 (us s.cfg 960) := by
  rw [searchRun_absent cmd hf hp]
  refine ⟨rfl, ⟨rfl, rfl, rfl⟩, ?_, (mResetExchange_took s).withMaster _⟩
  simp only [clearSearch, mResetExchange_master]

/-- Settles O52: each of a run's ends is one of the statement's. -/
theorem searchEnds : Obligations.SearchEnds := by
  intro s i hi
  obtain ⟨alarm, m, -, hm, hexec⟩ := exec_search hi
  generalize searchCommandFor alarm = cmd at hexec
  let r := s.withMaster m
  have hpresence : presence s = (mResetExchange r).1 := (presence_with s m).symm
  refine ⟨_, hexec, rfl, (searchRun_crc16 cmd r).trans hm.crc16,
    fun hd => ?released, fun hp => ?absent, fun hp => ?present⟩
  case released =>
    obtain ⟨-, -, -, hreleased⟩ := searchRun_keeps cmd r (hm.drive.trans hd)
    exact hreleased
  case absent =>
    obtain ⟨hst, hclear, hrom, htook⟩ := searchRun_nobody (cmd := cmd) (s := r) hm.lastDeviceFlag (hpresence ▸ hp)
    exact ⟨congrArg statusCode hst, hclear, hrom.trans hm.romBuf, searchRun_lasted htook⟩
  case present =>
    rw [hpresence] at hp
    rcases searchRun_cases cmd r with ⟨hf, -⟩ | ⟨-, ha, -⟩ | ⟨-, -, hst, hclear, j, hj, htook⟩ |
      ⟨-, -, hst, hclear, htook, hcrc⟩ | ⟨-, -, hst, htook, hlast, hcrc⟩
    · rw [hm.lastDeviceFlag] at hf; cases hf
    · rw [hp] at ha; cases ha
    · exact .inl ⟨congrArg statusCode hst, hclear, j, hj, searchRun_lasted htook⟩
    · exact .inr (.inl ⟨congrArg statusCode hst, hclear, searchRun_lasted htook, hcrc⟩)
    · exact .inr (.inr ⟨congrArg statusCode hst, searchRun_lasted htook, hlast, hcrc⟩)

/-! ### How `M_VERIFY` ends -/

/-- A run that ends with `OK` has read an ID whose CRC8 agrees, at all its positions (R161, R165). -/
theorem searchRun_found {cmd : Byte} (h : (searchRun cmd s).1 = .ok) :
    crc8Fold 0 (romBytes (searchRun cmd s).2.master.romBuf) = 0 ∧
      Took s (searchRun cmd s).2 531 (us s.cfg 14960) := by
  rcases searchRun_cases cmd s with ⟨-, he⟩ | ⟨-, -, he, -⟩ | ⟨-, -, he, -⟩ | ⟨-, -, he, -⟩ |
    ⟨-, -, -, htook, -, hcrc⟩
  case inr.inr.inr.inr => exact ⟨hcrc, htook⟩
  all_goals
    rw [he] at h
    cases h

/-- The verdict is 1 only where a run with `OK` has read the ID asked for (R172). -/
theorem bitByte_and_cases {p q : Prop} [Decidable p] [Decidable q] :
    bitByte (decide p && decide q) = 0 ∨ bitByte (decide p && decide q) = 1 ∧ p ∧ q := by
  by_cases hp : p
  · by_cases hq : q
    · exact .inr ⟨by simp [hp, hq, bitByte], hp, hq⟩
    · exact .inl (by simp [hq, bitByte])
  · exact .inl (by simp [hp, bitByte])

/-- `M_VERIFY`'s run, its verdict, and the saved registers restored (R172). -/
theorem exec_mVerify (id : RomId) (s : State) : exec (.mVerify id) s =
    .next (mReport (searchRun searchCmd (verifySetup id s)).1
      (bitByte (decide ((searchRun searchCmd (verifySetup id s)).1 = .ok) &&
        decide ((searchRun searchCmd (verifySetup id s)).2.master.romBuf = id)))
      (verifyRestore s.master (searchRun searchCmd (verifySetup id s)).2)) := rfl

/-- Settles O53: the saved registers are restored after a run, whatever its end. -/
theorem mVerifyRestoresTheSearchState : Obligations.MVerifyRestoresTheSearchState := by
  intro s id
  have hexec := exec_mVerify id s
  have hcrc16 := searchRun_crc16 searchCmd (verifySetup id s)
  have hfound := searchRun_found (cmd := searchCmd) (s := verifySetup id s)
  have hlasted {n d : Nat} (h : Took (verifySetup id s) (searchRun searchCmd (verifySetup id s)).2 n d) (m : Master) :
      Lasted s ((searchRun searchCmd (verifySetup id s)).2.withMaster m) n d :=
    searchRun_lasted (m := (verifySetup id s).master) h
  have hnobody (hp : presence s = false) := searchRun_nobody (cmd := searchCmd) (s := verifySetup id s) rfl
    ((presence_with s (verifySetup id s).master).trans hp)
  generalize searchRun searchCmd (verifySetup id s) = run at hexec hcrc16 hfound hlasted hnobody
  refine ⟨_, hexec, rfl, rfl, rfl, rfl, hcrc16, ?verdict, fun hp => ?absent, fun hok => ?found⟩
  case verdict =>
    refine bitByte_and_cases.imp_right fun ⟨hone, hok, hid⟩ => ⟨hone, congrArg statusCode hok, ?_⟩
    exact hid ▸ (hfound hok).1
  case absent =>
    obtain ⟨hst, -, -, htook⟩ := hnobody hp
    refine ⟨congrArg statusCode hst, bitByte_and_cases.resolve_right fun ⟨_, hok, _⟩ => ?_, hlasted htook _⟩
    exact absurd (hst.symm.trans hok) nofun
  case found => exact hlasted (hfound (statusCode_inj hok)).2 _

/-! ### How `M_READ_ROM` and `M_START_TXN` end -/

/-- The 64 bits `M_READ_ROM` samples after its command byte are `rom_buf`'s in wire order (R160, R81). -/
theorem mReadRom_bits (h : (mResetExchange s).1 = true) :
    ((List.range 64).map fun i => romBit (mReadRom s).2.master.romBuf (i + 1)) =
      (readSlots 64 (writeSlots (byteBits 0x33) (mResetExchange s).2)).1 := by
  obtain ⟨bs, hlength, hrom, hbits⟩ := mReadRomBytes_slots 8 0 (romReadStart s)
  have hstart : romReadStart s = (writeSlots (byteBits 0x33) (mResetExchange s).2).withMaster (romReadStart s).master := by
    rw [romReadStart, mSendByte_slots]
  rw [mReadRom_present h, ← romBytes_flatMap, hrom, romBytes_placeBytes bs _ hlength, hbits, hstart, readSlots_bits]

/-- Settles O50: the two ends of `mReadRom_cases`, and the bits read. -/
theorem mReadRomChecksTheCrc : Obligations.MReadRomChecksTheCrc := by
  intro s
  have hserves := mReadRom_serves (lasts_closed s.cfg)
  refine ⟨_, rfl, fun hp => ?absent, fun hp => ?present⟩
  all_goals rw [presence_eq] at hp
  case absent =>
    rcases mReadRom_cases s with ⟨-, hst, htook, hm⟩ | ⟨hpresent, -⟩
    · refine ⟨hserves.reported _ _ htook, ?_⟩
      rw [mReport_master, hm, hst]
    · rw [hp] at hpresent; cases hpresent
  case present =>
    rcases mReadRom_cases s with ⟨habsent, -⟩ | ⟨-, htook, rom, sh, bc, hst, hm⟩
    · rw [hp] at habsent; cases habsent
    · have hbits := mReadRom_bits hp
      rw [hm] at hbits
      refine ⟨hserves.reported _ _ htook, rom, sh, bc, hbits, ?_⟩
      rw [mReport_master, hm, hst, apply_ite statusCode]

/-- The launcher's answer is reported (R173). -/
theorem exec_mStartTxn {mode : BitVec 2} (h3 : mode ≠ 3) (id : RomId) (f : Byte) (s : State) :
    exec (.mStartTxn mode id f) s = .next (mReport (launch mode id f s).1 0 (launch mode id f s).2) := if_neg h3

/-- Settles O55: mode 3 is refused outright, and the others end as `launch_cases` says. -/
theorem mStartTxnEnds : Obligations.MStartTxnEnds := by
  intro s mode id f
  by_cases h3 : mode = 3
  · exact ⟨_, if_pos h3, fun _ => rfl, fun h => absurd h3 h, fun h => absurd h3 h⟩
  have hserves := launch_serves mode id f (lasts_closed s.cfg)
  refine ⟨_, exec_mStartTxn h3 id f s, fun h => absurd h h3, fun _ hp => ?absent, fun _ hp => ?present⟩
  all_goals rw [presence_eq] at hp
  case absent =>
    rcases launch_cases mode id f s h3 with ⟨-, hst, htook, hm⟩ | ⟨hpresent, -⟩
    · refine ⟨hserves.reported _ _ htook, ?_⟩
      rw [mReport_master, hm, hst]
    · rw [hp] at hpresent; cases hpresent
  case present =>
    rcases launch_cases mode id f s h3 with ⟨habsent, -⟩ | ⟨-, rom, sh, bc, c8, hm, hkept, hend⟩
    · rw [hp] at habsent; cases habsent
    · refine ⟨rom, sh, bc, c8, statusCode (launch mode id f s).1, ?_, hkept, ?_⟩
      · rw [mReport_master, hm]
      · rcases hend with ⟨hst, hcrc, htook⟩ | ⟨hst, hmode, hcrc, htook⟩
        · exact .inl ⟨congrArg statusCode hst, hcrc, hserves.reported _ _ htook⟩
        · exact .inr ⟨congrArg statusCode hst, hmode, hcrc, hserves.reported _ _ htook⟩

/-! ### A transaction with one slave in its dispatcher -/

/-- Since `s` slave `k`, `sl` then, waits in `S_WAIT_FUNCTION_CMD` as `y`, alone with the master in `t` (R230). -/
structure Slave.WaitsForCommand (k : Nat) (s : State) (sl : Slave) (t : State) (y : Slave) : Prop where
  ran : RanAlone k s t s.now []
  alone : Alone k t (shot t s.now false y)
  noOthers : t.NoOthers s.cfg
  serving : y.Serving s.cfg []
  same : Slave.Same sl y

theorem Slave.Ready.waitsForCommand (h : sl.Ready s.cfg) (hk : s.slaves[k]? = some sl) (hq : Quiet k s)
    (hz : s.cfg.delaySlack = 0) (how : s.otherWave = []) :
    ∃ t y, exec (.sWaitFunctionCmd k) s = .next t ∧ Slave.WaitsForCommand k s sl t y := by
  have hserving : (Slave.dispatch s.ctx [] sl).Serving s.cfg [] := h.base.serving s.ctx
  obtain ⟨pulse, hlisten, -⟩ := hserving.waits
  obtain ⟨t, hrequest, hran, hx⟩ := h.suspends hk hq how .waitFunctionCmd hlisten
  obtain ⟨halone, hothers⟩ := hran.shot hz hq.master hx
  exact ⟨t, _, hrequest, hran, halone, hothers, hserving, Slave.dispatch_same s.ctx [] sl⟩

/-- What the master's operation does on that slave's line alone (`hexec`) it does in the whole machine. -/
theorem Slave.WaitsForCommand.exchange (h : Slave.WaitsForCommand k s sl t y) {i : Instr} {m : Master} {d : Nat}
    {st : Status} {b : Byte} (hi : isMasterOp i = true)
    (hexec : exec i (shot t s.now false y) = .next (mReport st b (shot (t.withMaster m) (s.now + d) false x))) :
    ∃ u, exec i t = .next u ∧ Exchanged k s u (s.now + d) [] ∧ u.slaves[k]? = some x ∧
      u.master = { m with drive := false, pos := .ready, status := statusCode st, data := b } := by
  have hout := h.alone.execMaster i hi
  rw [hexec, mReport_shot] at hout
  obtain ⟨u, hu, hend⟩ := hout.next
  exact ⟨u, hu, hend.exchanged h.ran (h.ran.rest.hearMaster hi hu) rfl rfl h.noOthers⟩

/-! ### READ_ROM and the search -/

/-- Settles O17: the slave answers READ_ROM, and its ROM-ID carries its CRC8. -/
theorem readRomGetsTheRomId : Obligations.ReadRomGetsTheRomId := by
  intro k s sl hk hsl hq hz how hsit hcrc
  obtain ⟨t, y, hwait, hw⟩ := hsl.waitsForCommand hk hq hz how
  obtain ⟨s', x, hread, hsame, hreads, htxn, hs'⟩ := hw.serving.readRom hw.noOthers (hw.same.cfg ▸ hsit) s.now
  rw [hw.same.romId, hcrc] at hread hs'
  rw [hs', if_pos rfl] at hread
  obtain ⟨u, hu, hexchanged, hx, hmaster⟩ := hw.exchange (i := .mReadRom) rfl
    (congrArg (fun r : Status × State => Host.Outcome.next (mReport r.1 0 r.2)) hread)
  refine ⟨t, u, x, hwait, hu, hexchanged, ?_, hx, hw.same.trans hsame, htxn, hreads.listening.pos, hreads.stack⟩
  rw [hmaster]
  simp only [hw.ran.master, hq.master, hq.ready]

theorem shot_withMaster (t : State) (n : Nat) (x : Slave) {m : Master} (h : m.drive = false) :
    (shot t n false x).withMaster m = shot (t.withMaster m) n false x :=
  congrArg (shot t n false x).withMaster (Master.released_eq h).symm

/-- A search run in which that slave takes part finds its ROM-ID, and no branch is left (R165, R243). -/
theorem Slave.WaitsForCommand.search (h : Slave.WaitsForCommand k s sl t y) (hsit : sl.cfg.tSSit < us s.cfg 64)
    (hcrc : crc8Fold 0 (romBytes sl.romId) = 0) {alarm : Bool} (ha : alarm = true → sl.alarmed = true) {m : Master}
    (hf : m.lastDeviceFlag = false) :
    ∃ m' x, searchRun (searchCommandFor alarm) (shot (t.withMaster m) s.now false y) =
        (.ok, shot (t.withMaster m') (s.now + us s.cfg 14960) false x) ∧
      Slave.Same sl x ∧ x.Resting s.cfg [] ∧ m'.romBuf = sl.romId ∧ m'.lastDiscrepancy = 0 ∧
      m'.lastDeviceFlag = true := by
  obtain ⟨s', x, hrun, hsame, hresting, hrom, hlast, hflag, hcfg, hdrive, hwave, hrequests⟩ :=
    h.serving.search (s := t.withMaster m) h.noOthers (h.same.cfg ▸ hsit) s.now alarm
      (fun e => h.same.alarmed.trans (ha e)) hf (h.same.romId ▸ hcrc)
  rw [shot_congr (s := t.withMaster s'.master) _ x hcfg hdrive hwave hrequests rfl] at hrun
  exact ⟨s'.master, x, hrun, h.same.trans hsame, hresting, hrom.trans h.same.romId, hlast, hflag⟩

/-- Settles O18: each of the four operations is such a run. -/
theorem searchFindsTheSlave : Obligations.SearchFindsTheSlave := by
  intro k s sl i hk hsl hq hz how hsit hcrc hi
  obtain ⟨t, y, hwait, hw⟩ := hsl.waitsForCommand hk hq hz how
  obtain ⟨hrun, halarmed⟩ : (i = .mSearchFirst ∨ i = .mAlarmFirst ∨
      (shot t s.now false y).master.lastDeviceFlag = false ∧ (i = .mSearchNext ∨ i = .mAlarmNext)) ∧
      (i = .mAlarmFirst ∨ i = .mAlarmNext → sl.alarmed = true) := by
    rcases hi with rfl | ⟨rfl, ha⟩ | ⟨hf, hi⟩
    · exact ⟨.inl rfl, by simp⟩
    · exact ⟨.inr (.inl rfl), fun _ => ha⟩
    · rw [← hw.ran.master] at hf
      rcases hi with rfl | ⟨rfl, ha⟩
      · exact ⟨.inr (.inr ⟨hf, .inl rfl⟩), by simp⟩
      · exact ⟨.inr (.inr ⟨hf, .inr rfl⟩), fun _ => ha⟩
  obtain ⟨alarm, m, ha, hm, hexec⟩ := exec_search hrun
  obtain ⟨m', x, hsearch, hsame, hresting, hrom, hlast, hflag⟩ := hw.search hsit hcrc (halarmed ∘ ha) hm.lastDeviceFlag
  rw [shot_withMaster t s.now y hm.drive, hsearch] at hexec
  have hi' : isMasterOp i = true := by
    rcases hrun with rfl | rfl | ⟨-, rfl | rfl⟩ <;> rfl
  obtain ⟨u, hu, hexchanged, hx, hmaster⟩ := hw.exchange hi' hexec
  refine ⟨t, u, x, hwait, hu, hexchanged, ?_⟩
  rw [hmaster]
  exact ⟨rfl, rfl, hrom, hlast, hflag, rfl, hx, hsame, hresting.txnState, hresting.listening.pos, hresting.stack⟩

/-- Settles O54: the run finds the slave's ROM-ID, whichever was asked for. -/
theorem mVerifyAgainstOneSlave : Obligations.MVerifyAgainstOneSlave := by
  intro k s sl id hk hsl hq hz how hsit hcrc
  obtain ⟨t, y, hwait, hw⟩ := hsl.waitsForCommand hk hq hz how
  obtain ⟨m', x, hsearch, hsame, hresting, hrom, -, -⟩ := hw.search (alarm := false) hsit hcrc nofun
    (m := (verifySetup id t).master) rfl
  have hexec := exec_mVerify id (shot t s.now false y)
  have hsetup : verifySetup id (shot t s.now false y) = shot (t.withMaster (verifySetup id t).master) s.now false y := rfl
  have hcmd : searchCommandFor false = searchCmd := rfl
  rw [hsetup, ← hcmd, hsearch] at hexec
  obtain ⟨u, hu, hexchanged, hx, hmaster⟩ := hw.exchange
    (m := (verifyRestore t.master (t.withMaster m')).master) (i := .mVerify id) rfl hexec
  refine ⟨t, u, x, hwait, hu, hexchanged, ?_⟩
  rw [hmaster, ← hw.ran.master]
  refine ⟨rfl, ?_, rfl, rfl, rfl, rfl, rfl, hx, hsame, hresting.txnState, hresting.listening.pos, hresting.stack⟩
  show bitByte (true && decide (m'.romBuf = id)) = _
  rw [hrom]
  simp [bitByte, eq_comm (a := id)]

/-! ### The launcher -/

/-- The function command reaches the slave that reads it, and `S_WAIT_FUNCTION_CMD` returns it (R234, R235). -/
theorem Slave.Ready.commandReceived (h : sl.Ready g) (hsame : Slave.Same sl x)
    (hreads : x.Reads g [.functionCommand, .dispatcher]) (hq : s.NoOthers g) (n : Nat) (f : Byte) :
    ∃ z, mSendByte f (shot s n false x) = shot (s.shifter 0 8) (n + us g 560) false z ∧
      Slave.HeardBytes { sl with txnState := .waitingReset, status := statusCode .ok, data := f } z := by
  have hdone (c : Ctx) {z : Slave} (hd : Slave.Drift x z) :
      Slave.HeardBytes { sl with txnState := .waitingReset, status := statusCode .ok, data := f }
        (Slave.ret c f [.functionCommand, .dispatcher] z) :=
    h.commanded (hsame.trans hd.same) (hreads.listening.base.drift hd) c .ok f .waitingReset
  obtain ⟨c, z, -, hd, hsend⟩ := hreads.send hq n f fun c z _ hd => h.asleep (hdone c hd) rfl
  exact ⟨_, hsend, hdone c hd⟩

theorem State.Shifted.shifter {sh : Byte} {bc : BitVec 4} (h : State.Shifted s t) : t.shifter sh bc = s.shifter sh bc := by
  rw [State.Shifted] at h
  rw [h]
  rfl

theorem launchBuffer_eq (mode : BitVec 2) (id : RomId) (s : State) :
    launchBuffer mode id s = s.withMaster (launchBuffer mode id s).master := by
  unfold launchBuffer
  split <;> rfl

theorem launchBuffer_master (mode : BitVec 2) (id : RomId) (s : State) : (launchBuffer mode id s).master = { s.master with
    romBuf := if mode = 0 then id else s.master.romBuf
    crc8 := if mode = 0 then crc8Fold 0 (romBytes id) else s.master.crc8 } := by
  unfold launchBuffer
  split <;> rfl

/-! ### MATCH_ROM on an outside driver's pulses -/

/-- MATCH_ROM's command byte: the slave waits for the first bit of an ID (R241). -/
theorem Turns.matchRom {rest : List Frame} {ps : List (Nat × Nat)} (hm : s.master.Rests)
    (hreads : x.Reads s.cfg (.romCommand :: .dispatcher :: rest)) (n : Nat) (hps : carriesBits s.cfg 8 0x55 ps)
    (ow : List Nat) :
    ∃ y, Turns 16 (scene s n false (pulseTrain n ps ++ ow) x) (scene s (trainEnd n ps) false ow y) ∧
      Slave.Same x y ∧ y.Matching s.cfg rest 1 := by
  obtain ⟨c, y, -, -, hd, hturns⟩ := hreads.traffic hm n 0x55 ps hps ow
  have hbase : y.Base s.cfg := hreads.listening.base.drift hd
  have hret : Slave.ret c 0x55 (.romCommand :: .dispatcher :: rest) y =
      Slave.await c .readBit { y with stack := .matchRom 1 :: .dispatcher :: rest } := rfl
  rw [hret] at hturns
  refine ⟨_, hturns, hd.same.trans ⟨rfl, rfl, rfl, rfl, rfl, rfl, rfl, .inl ⟨rfl, rfl⟩, rfl, rfl, rfl, rfl, rfl, rfl⟩, ?_⟩
  unfold Slave.Matching
  rw [if_pos (by decide)]
  exact ⟨Slave.await_listening c (hbase.same rfl rfl rfl rfl rfl rfl), rfl⟩

/-- A slave that reads a ROM command gets MATCH_ROM and an ID whose first bit that is not its own is the one after
`qs`: its operation is over there (R241, R294). -/
theorem Slave.Ready.mismatchTurns {ps qs : List (Nat × Nat)} {p : Nat × Nat} {ow : List Nat} (h : sl.Ready s.cfg)
    (hm : s.master.Rests) (hsame : Slave.Same sl x) (hreads : x.Reads s.cfg [.romCommand, .dispatcher]) (n : Nat)
    (hps : carriesBits s.cfg 8 0x55 ps) (hlt : qs.length < 64)
    (hqs : ∀ j q, qs[j]? = some q → isPulse q ∧ bitOfWidth s.cfg q.2 = some (romBit sl.romId (j + 1)))
    (hp : isPulse p) (hbit : bitOfWidth s.cfg p.2 = some (!romBit sl.romId (qs.length + 1))) :
    ∃ y, Turns (16 + 2 * qs.length + 2) (scene s n false (pulseTrain n (ps ++ qs ++ [p]) ++ ow) x)
        (scene s (trainEnd n (ps ++ qs ++ [p])) false ow y) ∧
      Slave.HeardBytes { sl with txnState := .waitingReset, status := statusCode .romIdMismatch, data := 0 } y := by
  simp only [pulseTrain_append, trainEnd_append, List.append_assoc]
  obtain ⟨y1, hturns1, hsame1, hmatch1⟩ := Turns.matchRom hm hreads n hps _
  obtain ⟨y2, hturns2, hsame2, hmatch2⟩ := Turns.matchBits (t := trainEnd n ps) qs 1 hmatch1 (by omega) hm fun j q hj => by
    rw [(hsame.trans hsame1).romId, Nat.add_comm 1 j]
    exact hqs j q hj
  obtain ⟨y, hturns3, hy⟩ := Turns.mismatch (ow := ow) (t := trainEnd (trainEnd n ps) qs) hmatch2 (by omega) hm
    ((hsame.trans hsame1).trans hsame2) h p hp (by rw [Nat.add_comm]; exact hbit)
  exact ⟨y, (hturns1.trans hturns2).trans hturns3, hy⟩

/-- Settles O20: the launcher and then the function command at the slave's dispatcher; MATCH_ROM with another ID; and its
bits as an outside driver's pulses. -/
theorem startTxnDeliversFunctionCommand : Obligations.StartTxnDeliversFunctionCommand := by
  intro k s sl mode id f hk hsl hq
  refine ⟨fun hz how h3 h0 h1 hsit => ?addressed, fun hz how hmode hid => ?other, ?pulses⟩
  case addressed =>
    obtain ⟨t, y, hwait, hw⟩ := hsl.waitsForCommand hk hq hz how
    obtain ⟨s', z, n, hlaunch, htime, hsame, hreads, -, hshifted⟩ := hw.serving.launch hw.noOthers (hw.same.cfg ▸ hsit)
      s.now mode id f h3 (hw.same.romId ▸ h0) (hw.same.romId ▸ h1)
    have hothers : s'.NoOthers s.cfg := hshifted.noOthers (launchBuffer_eq mode y.romId t ▸ hw.noOthers)
    obtain ⟨x, hsend, hheard⟩ := hsl.commandReceived (hw.same.trans hsame) hreads hothers n f
    rw [hsend, htime, hshifted.shifter, launchBuffer_eq] at hlaunch
    have hexec := exec_mStartTxn h3 id f (shot t s.now false y)
    rw [hlaunch] at hexec
    obtain ⟨u, hu, hexchanged, hx, hmaster⟩ := hw.exchange
      (m := ((t.withMaster (launchBuffer mode y.romId t).master).shifter 0 8).master) rfl hexec
    refine ⟨t, u, x, hwait, hu, hexchanged, ?_, hx, hheard⟩
    have hcrc : (if mode = 0 then crc8Fold 0 (romBytes sl.romId) else s.master.crc8) =
        if mode = 0 then 0 else s.master.crc8 := ite_congr rfl h0 fun _ => rfl
    rw [hmaster]
    simp only [launchBuffer_master, State.shifter, hw.ran.master, hq.master, hq.ready, hw.same.romId, hcrc]
  case other =>
    obtain ⟨t, y, hwait, hw⟩ := hsl.waitsForCommand hk hq hz how
    subst hmode
    obtain ⟨s', x, hlaunch, ⟨-, z, hheard, hedges⟩, hshifted⟩ :=
      hw.serving.launchOther hsl hw.same hw.noOthers s.now id f hid
    rw [hshifted.shifter] at hlaunch
    have hexec := exec_mStartTxn (mode := 1) (by decide) id f (shot t s.now false y)
    rw [hlaunch] at hexec
    obtain ⟨u, hu, hexchanged, hx, hmaster⟩ := hw.exchange (m := (t.shifter 0 8).master) rfl hexec
    refine ⟨t, u, x, hwait, hu, hexchanged, ?_, hx, z, hedges, hheard⟩
    rw [hmaster]
    simp only [State.shifter, hw.ran.master, hq.master, hq.ready]
  case pulses =>
    intro ps qs p later htxn how hps hlt hqs hp hbit
    have hstart : Slave.start s.ctx .waitFunctionCmd sl = Slave.startReadByte s.ctx [.romCommand, .dispatcher] sl :=
      Slave.dispatch_waitingRomCmd s.ctx htxn
    have hreads : (Slave.startReadByte s.ctx [.romCommand, .dispatcher] sl).Reads s.cfg [.romCommand, .dispatcher] :=
      Slave.startReadByte_reads s.ctx hsl.base
    obtain ⟨x, hturns, hheard⟩ := hsl.mismatchTurns (ow := later) hq.rests (Slave.startReadByte_same s.ctx _ sl) hreads
      s.now hps hlt hqs hp hbit
    rw [← how, ← hstart] at hturns
    obtain ⟨t, hexec, hran, hx⟩ := hsl.request hk hq .waitFunctionCmd (hstart ▸ hreads.listening) hturns
      (Nat.le_trans (by omega : 16 + 2 * qs.length + 2 ≤ 146) (by decide)) (Slave.movesOn_idle (hheard.pos.trans hsl.pos))
    exact ⟨t, x, hexec, hran, hx, hheard⟩

end Sys2Proof.Machine

/-! A slave's pulses (spec/42_slave_pulse_reset.md R191 to R203): the edges that measure one, its class, and what the
class does at each wait of a slave; a malformed pulse, a reset and a timeout in an operation of upstream code. -/

namespace Sys2Proof.Machine

variable {c : Ctx} {g : Config} {k : Nat} {s t : State} {n : Nat} {ow : List Nat} {sl x y : Slave} {u : PulseUse}
  {cl : PulseClass}

/-! ### The class of a pulse -/

theorem classify_eq (p len : Nat) (ovf : Bool) : classify p len ovf =
    if ovf = true ∨ 360 * p ≤ len then .reset else if 70 * p ≤ len then .bad else if 15 * p ≤ len then .zero
      else .one := rfl

/-- A whole number of microseconds, in ticks (R195, R197). -/
theorem classify_mul {p : Nat} (hp : 0 < p) (n : Nat) : classify p (n * p) false =
    if 360 ≤ n then .reset else if 70 ≤ n then .bad else if 15 ≤ n then .zero else .one := by
  simp only [classify_eq, Nat.mul_le_mul_right_iff hp, Bool.false_eq_true, false_or]

/-- Settles O57: the thresholds in whole microseconds, and `classify_width` for a measured pulse. -/
theorem classOfAMeasuredPulse : Obligations.ClassOfAMeasuredPulse := by
  refine ⟨fun p len ovf hp => ⟨classify_eq p len ovf, classify_mul hp 60, classify_mul hp 15, classify_mul hp 14,
    classify_mul hp 360, classify_mul hp 359, ?zero, classify_mul (by decide) 60⟩,
    fun g p w hp => classify_width p hp w⟩
  case zero =>
    rw [← Nat.zero_mul p]
    exact classify_mul hp 0

/-! ### The edge kinds -/

/-- A slave that takes no edges is left as it is (R191, R300). -/
theorem Slave.edgeFall_ignored (h : sl.takesEdges = false) : Slave.edgeFall c sl = sl := if_neg (by simp [h])

theorem Slave.edgeRise_ignored (h : sl.takesEdges = false) : Slave.edgeRise c sl = sl := if_neg (by simp [h])

theorem Slave.edgeFall_taken (h : sl.takesEdges = true) :
    Slave.edgeFall c sl = { sl with tReset := c.now, swStarted := true, linePrev := false } := if_pos h

/-- An overrun in strict mode (R297). -/
theorem Slave.edgeRise_overrun (h : sl.takesEdges = true) (hnew : sl.pulseNew = true) (hs : sl.cfg.strictMode = true) :
    Slave.edgeRise c sl = { Slave.trap sl with linePrev := true } := by
  rw [Slave.edgeRise, if_pos h, Slave.isrRise, hnew, hs]
  rfl

/-- Otherwise the pulse is latched (R193). -/
theorem Slave.edgeRise_latches (h : sl.takesEdges = true) (hn : sl.pulseNew = false ∨ sl.cfg.strictMode = false) :
    Slave.edgeRise c sl = { Slave.latchPulse c sl with linePrev := true } := by
  have hoverrun : (sl.pulseNew && sl.cfg.strictMode) = false := by rcases hn with h | h <;> simp [h]
  rw [Slave.edgeRise, if_pos h, Slave.isrRise, hoverrun]
  rfl

/-- The stopwatch's count since the fall that was seen (R193, R311, R312). -/
theorem Slave.latchPulse_measured (h : sl.swStarted = true) : Slave.latchPulse c sl = { sl with
    pulseLen := ticksIn c.cfg sl.cfg (c.now - sl.tReset) % 2 ^ sl.cfg.tickWidth
    pulseOvf := decide (2 ^ sl.cfg.tickWidth ≤ ticksIn c.cfg sl.cfg (c.now - sl.tReset)), pulseNew := true } := if_pos h

/-- Free values where no fall was seen (R61). -/
theorem Slave.latchPulse_unmeasured (h : sl.swStarted = false) : Slave.latchPulse c sl = { sl with
    pulseLen := Config.unmeasuredTicks sl.cfg.stream sl.draws % 2 ^ sl.cfg.tickWidth
    pulseOvf := Config.unmeasuredOvf sl.cfg.stream sl.draws, pulseNew := true, draws := sl.draws + 1 } :=
  if_neg (by simp [h])

/-- Settles O40: what an edge does to the slave, by whether it takes the edge, holds an event, and has seen a fall. -/
theorem edgeKindsAct : Obligations.EdgeKindsAct := by
  intro k s sl hk
  refine ⟨fun hoff => ⟨?fallOff, ?riseOff⟩, fun hon => ⟨?fall, fun hnew hs => ?overrun, fun hn =>
    ⟨fun hsw => ?measured, fun hsw => ?unmeasured⟩⟩⟩
  case fallOff => exact onSlave_same hk (Slave.edgeFall_ignored hoff)
  case riseOff => exact onSlave_same hk (Slave.edgeRise_ignored hoff)
  case fall => exact onSlave_some hk (Slave.edgeFall_taken hon)
  case overrun => exact onSlave_some hk (Slave.edgeRise_overrun hon hnew hs)
  case measured =>
    exact onSlave_some hk ((Slave.edgeRise_latches hon hn).trans (by rw [Slave.latchPulse_measured hsw]; rfl))
  case unmeasured =>
    exact onSlave_some hk ((Slave.edgeRise_latches hon hn).trans (by rw [Slave.latchPulse_unmeasured hsw]))

/-! ### What a class does at a wait -/

/-- A class code at the port of a slave that waits for a pulse (R107, R194). -/
theorem exec_pulseInstr (hk : s.slaves[k]? = some sl) (ht : sl.trapped = false) (hp : sl.pos = .waitPulse u)
    (h : Slave.pulse cl s.ctx { sl with pulseNew := false } = y) :
    exec (pulseInstr k cl) s = .next { s with slaves := s.slaves.set k y } := by
  have hexec : exec (pulseInstr k cl) s = onSlave k s fun c => Slave.atPulse (Slave.pulse cl c) := by cases cl <;> rfl
  rw [hexec]
  exact onSlave_some hk ((Slave.atPulse_eq ht hp _).trans h)

/-- A `Wait(d)` of some length (R12, R314). -/
theorem Slave.waitFor_eq (x : DelayUse) {d : Nat} (hd : 0 < d) : Slave.waitFor c x d sl = { sl with
    pos := .delay x, wake := some (c.now + (d + c.cfg.slack (Config.slaveDraw sl.cfg.stream c.now))) } := by
  rw [Slave.waitFor, Slave.delay, deadline_pos _ _ (Nat.add_pos_left hd _)]

/-- A pulse that is no bit to a slave that reads one, or starts no read slot (R203, R215, R220). -/
inductive Malformed : PulseUse → PulseClass → Prop where
  | badBit : Malformed .readBit .bad
  | zeroStart (d : Bool) : Malformed (.writeStart d) .zero
  | badStart (d : Bool) : Malformed (.writeStart d) .bad

theorem Malformed.pulse (h : Malformed u cl) (hp : sl.pos = .waitPulse u) :
    Slave.pulse cl c sl = Slave.handleBad c sl := by
  cases h with
  | badBit | badStart d => simp only [Slave.pulse, Slave.pulseBad, hp]
  | zeroStart d => simp only [Slave.pulse, Slave.pulseZero, hp]

/-- The end of an operation that no procedure has called and no request follows (R49). -/
theorem Slave.finish_alone (st : Status) (v : Byte) (hst : sl.stack = []) (hup : sl.upstream = []) :
    Slave.finish c st v sl = { sl with status := statusCode st, data := v, pos := .idle, wake := none } := by
  rw [Slave.finish_last c st v hup, ← hst]

theorem Slave.trap_alone (hst : sl.stack = []) : Slave.trap sl = { sl with
    drive := false, busy := false, trapped := true, pos := .idle, wake := none } := by
  rw [Slave.trap, ← hst]

theorem Slave.raise_alone (e : Status) (info : Byte) (hst : sl.stack = []) :
    Slave.raise c e info sl = Slave.finish c e info sl := by
  rw [Slave.raise, hst]
  rfl

theorem Slave.returnValue_alone (v : Byte) (hst : sl.stack = []) :
    Slave.returnValue c v sl = Slave.finish c .ok v sl := by
  rw [Slave.returnValue, hst]
  rfl

/-- `HandleBad()` (R203) without strict mode. -/
theorem Slave.handleBad_lenient (hs : sl.cfg.strictMode = false) (hst : sl.stack = []) (hup : sl.upstream = []) :
    Slave.handleBad c sl = { sl with
      txnState := .waitingReset, status := statusCode .unexpectedPulseLength, data := 0
      pos := .idle, wake := none } := by
  rw [Slave.handleBad, if_neg (by simp [hs]), Slave.raise_alone _ _ (by exact hst)]
  exact Slave.finish_alone _ 0 hst hup

theorem Slave.handleBad_strict (hs : sl.cfg.strictMode = true) : Slave.handleBad c sl = Slave.trap sl := if_pos hs

/-- `PresencePulse()` begins with its quiet interval (R198). -/
theorem Slave.presencePulse_eq (f : Frame) : Slave.presencePulse c f sl = { sl with
    stack := f :: sl.stack, pos := .delay .quiet
    wake := some (c.now + (us c.cfg 28 + c.cfg.slack (Config.slaveDraw sl.cfg.stream c.now))) } :=
  Slave.waitFor_eq .quiet (tSQuiet_pos c.cfg)

/-- A pulse that is a bit (R215). -/
theorem Slave.pulse_oneBit (hp : sl.pos = .waitPulse .readBit) :
    Slave.pulse .one c sl = Slave.returnValue c 1 sl := by
  simp only [Slave.pulse, Slave.pulseOne, hp]

theorem Slave.pulse_zeroBit (hp : sl.pos = .waitPulse .readBit) :
    Slave.pulse .zero c sl = Slave.returnValue c 0 sl := by
  simp only [Slave.pulse, Slave.pulseZero, hp]

/-- A pulse that starts a read slot (R216, R224). -/
theorem Slave.pulse_start (d : Bool) (hp : sl.pos = .waitPulse (.writeStart d)) : Slave.pulse .one c sl =
    Slave.waitFor c (if d then .sitOut else .respond) (if d then sl.cfg.tSSit else sl.cfg.tSResp) sl := by
  cases d <;> simp [Slave.pulse, Slave.pulseOne, hp]

/-- The end of the slave's own low is a pulse of any class but a reset's (R216, R219). -/
theorem Slave.pulse_writeEnd (hcl : cl ≠ .reset) (hp : sl.pos = .waitPulse .writeEnd) :
    Slave.pulse cl c sl = Slave.returnValue c 0 sl := by
  cases cl with
  | one => simp only [Slave.pulse, Slave.pulseOne, hp]
  | zero => simp only [Slave.pulse, Slave.pulseZero, hp]
  | bad => simp only [Slave.pulse, Slave.pulseBad, hp]
  | reset => exact absurd rfl hcl

theorem Slave.pulse_resetAtWriteEnd (hp : sl.pos = .waitPulse .writeEnd) : Slave.pulse .reset c sl =
    if sl.cfg.strictMode then Slave.trap sl else Slave.presencePulse c .handleReset sl := by
  simp only [Slave.pulse, Slave.pulseReset, hp, Slave.handleReset]

/-- A slave in `S_WAIT_RESET` discards every other pulse and waits on (R200). -/
theorem Slave.pulse_discarded (hcl : cl ≠ .reset) (hp : sl.pos = .waitPulse .waitReset) :
    Slave.pulse cl c sl = { sl with wake := sl.cfg.waitTimeout.map (c.now + ·) } := by
  have hawait : Slave.await c .waitReset sl = { sl with wake := sl.cfg.waitTimeout.map (c.now + ·) } := by
    rw [Slave.await, ← hp]
  rw [← hawait]
  cases cl with
  | one => simp only [Slave.pulse, Slave.pulseOne, hp]
  | zero => simp only [Slave.pulse, Slave.pulseZero, hp]
  | bad => simp only [Slave.pulse, Slave.pulseBad, hp]
  | reset => exact absurd rfl hcl

theorem pulseInstr_shorter {i : Instr} (hi : i ∈ [.pulseOne k, .pulseZero k, .pulseBad k]) :
    ∃ cl, cl ≠ .reset ∧ i = pulseInstr k cl := by
  simp only [List.mem_cons, List.not_mem_nil, or_false] at hi
  rcases hi with rfl | rfl | rfl
  · exact ⟨.one, by decide, rfl⟩
  · exact ⟨.zero, by decide, rfl⟩
  · exact ⟨.bad, by decide, rfl⟩

/-- Settles O39: the wait begins again, or the presence pulse does. -/
theorem pulseClassesInWaitReset : Obligations.PulseClassesInWaitReset := by
  intro k s sl hk ht hp
  refine ⟨fun i hi => ?shorter, ?reset⟩
  case shorter =>
    obtain ⟨cl, hcl, rfl⟩ := pulseInstr_shorter hi
    exact exec_pulseInstr hk ht hp (Slave.pulse_discarded hcl (by exact hp))
  case reset =>
    exact exec_pulseInstr (cl := .reset) hk ht hp
      ((Slave.pulse_reset s.ctx (u := .waitReset) rfl (by exact hp)).trans (Slave.presencePulse_eq _))

/-- A malformed class presented at a bit operation's wait. -/
theorem pulseInstr_malformed {i : Instr} (h : sl.pos = .waitPulse .readBit ∧ i = .pulseBad k ∨
    (∃ d, sl.pos = .waitPulse (.writeStart d)) ∧ (i = .pulseZero k ∨ i = .pulseBad k)) :
    ∃ u cl, sl.pos = .waitPulse u ∧ i = pulseInstr k cl ∧ Malformed u cl := by
  rcases h with ⟨hp, rfl⟩ | ⟨⟨d, hp⟩, rfl | rfl⟩
  · exact ⟨_, .bad, hp, rfl, .badBit⟩
  · exact ⟨_, .zero, hp, rfl, .zeroStart d⟩
  · exact ⟨_, .bad, hp, rfl, .badStart d⟩

/-- Both waits that follow a start pulse take some time (R9, R224). -/
theorem SlaveConfig.valid_startWait {p : SlaveConfig} (hv : p.valid g = true) (d : Bool) :
    0 < if d then p.tSSit else p.tSResp := by
  obtain ⟨-, -, -, hresp, -, hsit, -⟩ := (SlaveConfig.valid_iff g p).mp hv
  cases d with
  | true => exact Nat.lt_of_lt_of_le (us_pos g (by decide)) hsit
  | false => exact hresp

/-- Settles O38: what each class does at each wait, the event cleared. -/
theorem pulseClassesInBitOperations : Obligations.PulseClassesInBitOperations := by
  intro k s sl w hk ht hst hup hw
  subst hw
  let x : Slave := { sl with pulseNew := false }
  have hact (u : PulseUse) (cl : PulseClass) {y : Slave} (hp : sl.pos = .waitPulse u)
      (h : Slave.pulse cl s.ctx x = y) :
      exec (pulseInstr k cl) s = .next { s with slaves := s.slaves.set k y } := exec_pulseInstr hk ht hp h
  have hreturn (v : Byte) : Slave.returnValue s.ctx v x = _ :=
    (Slave.returnValue_alone (sl := x) v hst).trans (Slave.finish_alone .ok v hst hup)
  have hpresence : Slave.presencePulse s.ctx .handleReset x = _ :=
    (Slave.presencePulse_eq _).trans (by rw [show x.stack = [] from hst])
  have htrap : Slave.trap x = _ := Slave.trap_alone (sl := x) hst
  refine ⟨fun hp => ⟨hact _ .one hp ?bitOne, hact _ .zero hp ?bitZero⟩, fun d hv hp => hact _ .one hp ?start,
    fun i hi => ?malformed, fun hp => ?reset, fun hp => ⟨fun i hi => ?endShorter, fun hs => hact _ .reset hp ?endReset⟩⟩
  case bitOne => exact (Slave.pulse_oneBit (by exact hp)).trans (hreturn 1)
  case bitZero => exact (Slave.pulse_zeroBit (by exact hp)).trans (hreturn 0)
  case start => exact (Slave.pulse_start d (by exact hp)).trans (Slave.waitFor_eq _ (SlaveConfig.valid_startWait hv d))
  case malformed =>
    obtain ⟨u, cl, hp, rfl, hbad⟩ := pulseInstr_malformed hi
    have hclass : Slave.pulse cl s.ctx x = Slave.handleBad s.ctx x := hbad.pulse hp
    exact ⟨fun hs => hact u cl hp (hclass.trans (Slave.handleBad_lenient hs hst hup)),
      fun hs => hact u cl hp (hclass.trans ((Slave.handleBad_strict (sl := x) hs).trans htrap))⟩
  case reset =>
    have hreset {u : PulseUse} (hp : sl.pos = .waitPulse u)
        (h : Slave.pulse .reset s.ctx x = Slave.presencePulse s.ctx .handleReset x) :=
      hact u .reset hp (h.trans hpresence)
    rcases hp with hp | ⟨d, hp⟩ | ⟨hp, hs⟩
    · exact hreset hp (Slave.pulse_reset (sl := x) s.ctx rfl hp)
    · exact hreset hp (Slave.pulse_reset (sl := x) s.ctx rfl hp)
    · exact hreset hp ((Slave.pulse_resetAtWriteEnd (sl := x) hp).trans (if_neg (by simp [x, hs])))
  case endShorter =>
    obtain ⟨cl, hcl, rfl⟩ := pulseInstr_shorter hi
    exact hact _ cl hp ((Slave.pulse_writeEnd hcl (by exact hp)).trans (hreturn 0))
  case endReset => exact (Slave.pulse_resetAtWriteEnd (sl := x) hp).trans ((if_pos hs).trans htrap)

/-! ### A malformed pulse on the line -/

/-- `x` is `sl` after a bit operation that has ended with a malformed pulse (R203, R296). -/
def Slave.EndedBad (sl x : Slave) : Prop :=
  (sl.cfg.strictMode = false →
    Slave.Heard { sl with txnState := .waitingReset, status := statusCode .unexpectedPulseLength, data := 0 } x) ∧
  (sl.cfg.strictMode = true → Slave.Heard { sl with trapped := true } x)

/-- What `HandleBad()` leaves of a slave whose bit operation has measured a pulse of `w`. -/
theorem Slave.Ready.handleBad (h : sl.Ready g) (c c' : Ctx) (u : PulseUse) (a w : Nat) :
    (Slave.handleBad c (Slave.measured g a w (Slave.await c' u sl))).pos = .idle ∧
      Slave.EndedBad sl (Slave.handleBad c (Slave.measured g a w (Slave.await c' u sl))) := by
  let len := (Slave.measured g a w sl).pulseLen
  let ovf := (Slave.measured g a w sl).pulseOvf
  rw [Slave.EndedBad]
  cases hs : sl.cfg.strictMode with
  | false =>
    rw [Slave.handleBad_lenient (by exact hs) (by exact h.stack) (by exact h.upstream)]
    refine ⟨rfl, fun _ => ⟨a, true, len, ovf, ?_⟩, fun e => nomatch e⟩
    simp only [len, ovf, Slave.measured, Slave.await, h.pos, h.wake, h.line_prev]
  | true =>
    rw [Slave.handleBad_strict (by exact hs), Slave.trap_alone (by exact h.stack)]
    refine ⟨rfl, fun e => (nomatch e), fun _ => ⟨a, true, len, ovf, ?_⟩⟩
    simp only [len, ovf, Slave.measured, Slave.await, h.pos, h.wake, h.line_prev, h.released, h.not_busy]

/-- A bit operation that gets a malformed pulse ends with it (R203, R215, R220). -/
theorem Slave.Ready.rejects {op : SlaveOp} {high width : Nat} (h : sl.Ready s.cfg) (hk : s.slaves[k]? = some sl)
    (hq : Quiet k s) (hop : Slave.start s.ctx op sl = Slave.await s.ctx u sl)
    (how : s.otherWave = pulseTrain s.now [(high, width)] ++ ow) (hp : isPulse (high, width))
    (hbad : Malformed u (widthClass s.cfg width)) :
    ∃ t x, requestOp k op s = .next t ∧ RanAlone k s t (s.now + high + width) ow ∧ t.slaves[k]? = some x ∧
      Slave.EndedBad sl x := by
  have hlisten : (Slave.await s.ctx u sl).Listening s.cfg u := Slave.await_listening s.ctx h.base
  have hturns := Turns.pulse (ow := ow) hq.rests hlisten (s.now + high) width (Nat.lt_add_of_pos_right hp.1) hp.2
  rw [hbad.pulse (by exact hlisten.pos)] at hturns
  obtain ⟨hidle, hx⟩ := h.handleBad _ s.ctx u (s.now + high) width
  rw [← hop] at hlisten hturns
  obtain ⟨t, hnext, hran, hslave⟩ := h.request hk hq op hlisten (by rw [how]; exact hturns) (by decide)
    (Slave.movesOn_idle (hop ▸ hidle))
  exact ⟨t, _, hnext, hran, hslave, hop ▸ hx⟩

/-! ### A reset pulse on the line -/

/-- How an operation ends that a reset has made call the presence pulse (R200, R202). -/
def resetStatus : PulseUse → Status
  | .waitReset => .ok
  | _ => .resetDetectedAndHandled

theorem Slave.ret_resetCaller (u : PulseUse) :
    Slave.ret c 0 [resetCaller u] sl = Slave.finish c (resetStatus u) 0 sl := by
  cases u <;> rfl

/-- The end of such an operation: of the slave's registers only the measurement of its own presence pulse differs. -/
theorem Slave.Ready.finish_presented {e : Nat} {st : Status} {fs : List Frame} (h : sl.Ready g) (hd : Slave.Drift sl x)
    (hshift : x.shift = sl.shift) (hbitcnt : x.bitcnt = sl.bitcnt) (hp : Slave.presented g e x = x) :
    Slave.finish c st 0 { x with stack := fs, txnState := .waitingRomCmd } = Slave.presented g e { sl with
      txnState := .waitingRomCmd, status := statusCode st, data := 0 } := by
  obtain ⟨tr, sw, pl, po, p, w, sh, bc, rfl⟩ := hd
  rw [Slave.finish_last _ _ _ (by exact h.upstream), ← hp]
  simp only at hshift hbitcnt
  simp only [Slave.presented, hshift, hbitcnt, h.pos, h.stack, h.wake, h.line_prev]

/-- A reset pulse at a requested operation's wait, and the presence exchange (R198). -/
theorem Slave.Ready.presents {high width : Nat} (h : sl.Ready s.cfg) (hm : s.master.Rests) (hz : s.cfg.delaySlack = 0)
    (hd : Slave.Drift sl y) (hshift : y.shift = sl.shift) (hbitcnt : y.bitcnt = sl.bitcnt)
    (hlisten : y.Listening s.cfg u) (hu : takesReset u = true) (hhigh : 0 < high) (hwidth : us s.cfg 360 ≤ width)
    (ha : WaveAfter (n + high + width + us s.cfg 144) ow) :
    Turns 4 (scene s n false (pulseTrain n [(high, width)] ++ ow) y)
      (scene s (n + high + width + us s.cfg 144) false ow (Slave.presented s.cfg (n + high + width) { sl with
        txnState := .waitingRomCmd, status := statusCode (resetStatus u), data := 0 })) := by
  obtain ⟨c, x, -, -, hdx, hsx, hbx, hpx, hturns⟩ := Turns.reset hm hz hlisten hu (n + high) width
    (Nat.lt_add_of_pos_right hhigh) hwidth ha
  rw [Slave.returnValue, hd.stack.trans h.stack, Slave.ret_resetCaller,
    h.finish_presented (hd.trans hdx) (hsx.trans hshift) (hbx.trans hbitcnt) hpx] at hturns
  exact hturns

/-- Settles O10: the wait of the bit operation, the reset pulse, and the presence exchange. -/
theorem slaveBitHandlesReset : Obligations.SlaveBitHandlesReset := by
  intro k s sl i high width later hk hsl hq hz how hp hi hw ha
  have hwait : ∃ op u, exec i s = requestOp k op s ∧
      Slave.start s.ctx op sl = Slave.await s.ctx u { sl with stack := [] } ∧ takesReset u = true ∧
      resetStatus u = .resetDetectedAndHandled := by
    rcases hi with rfl | ⟨arg, rfl⟩
    · exact ⟨.readBit, .readBit, rfl, rfl, rfl, rfl⟩
    · exact ⟨.writeBit arg, .writeStart (argBit arg), rfl, rfl, rfl, rfl⟩
  obtain ⟨op, u, hexec, hop, hu, hst⟩ := hwait
  obtain ⟨hlisten, hdrift, hshift, hbitcnt, -⟩ := hsl.await (u := u) s.ctx
  have hturns := hsl.presents hq.rests hz hdrift hshift hbitcnt hlisten hu hp.1 hw ha
  rw [← how, ← hop, hst] at hturns
  rw [hexec]
  exact hsl.request hk hq op (hop ▸ hlisten) hturns (by decide) (Slave.movesOn_idle hsl.pos)

/-- Settles O11: the pulses it discards, then the reset pulse and the presence exchange. -/
theorem sWaitResetSendsPresence : Obligations.SWaitResetSendsPresence := by
  intro k s sl shorter high width later hk hsl hq hz how hshorter hhigh hfuel hw ha
  rw [pulseTrain_append, List.append_assoc] at how
  rw [trainEnd_append] at ha ⊢
  obtain ⟨hlisten, hdrift, hshift, hbitcnt, -⟩ := hsl.await (u := .waitReset) s.ctx
  obtain ⟨y, hdy, hsy, hby, hly, hdiscards⟩ := Turns.discards shorter s.now _ hq.rests hlisten hshorter
  have hpresence := hsl.presents hq.rests hz (hdrift.trans hdy) (hsy.trans hshift) (hby.trans hbitcnt) hly rfl
    hhigh hw ha
  have hturns := hdiscards.trans hpresence
  rw [← how] at hturns
  exact hsl.request hk hq .waitReset hlisten hturns hfuel (Slave.movesOn_idle hsl.pos)

/-! ### A wait without a pulse -/

/-- A slave whose operation has ended with `Timeout`, from what the operation has written before (R194, R304(f)). -/
def Slave.timedOut (shift : Byte) (bitcnt : BitVec 4) (crc16 : Word16) (sl : Slave) : Slave :=
  { sl with
    txnState := .waitingReset, status := statusCode .timeout, data := 0
    shift := shift, bitcnt := bitcnt, crc16 := crc16 }

/-- The operations that begin with a wait for a pulse (R124). -/
def SlaveOp.Waits (op : SlaveOp) : Prop :=
  op = .waitReset ∨ op = .readBit ∨ (∃ a, op = .writeBit a) ∨ op = .readByte ∨ (∃ a, op = .writeByte a) ∨
    op = .waitFunctionCmd ∨ op = .logReceive ∨ op = .logServe

/-- A slave that waits for a pulse until instant `e`, when its operation ends with `Timeout` and leaves `y`. -/
structure Slave.EndsBy (e : Nat) (x y : Slave) : Prop extends Slave.Timed e x where
  upstream : x.upstream = []
  ends : ∀ c, Slave.finish c .timeout 0 { x with txnState := .waitingReset } = y

theorem Slave.EndsBy.end_rests {e : Nat} (h : x.EndsBy e y) : y.pos = .idle ∧ y.drive = false := by
  rw [← h.ends { now := e, level := true, cfg := Config.default }, Slave.finish_last _ _ _ (by exact h.upstream)]
  exact ⟨rfl, h.released⟩

/-- How an operation that waits for a pulse begins, and how it ends without one (R194, R304(f)). -/
theorem Slave.Prepared.start_endsBy {op : SlaveOp} {d : Nat} (h : sl.Prepared g) (hd : sl.cfg.waitTimeout = some d)
    (c : Ctx) (hop : op.Waits) : ∃ shift bitcnt, (Slave.start c op sl).EndsBy (c.now + d)
      (Slave.timedOut shift bitcnt (if op = .logReceive then 0xFFFF else sl.crc16) sl) := by
  obtain ⟨htimed, pos, wake, stack, shift, bitcnt, hstart⟩ := h.start_timed hd c op hop
  refine ⟨shift, bitcnt, htimed, by rw [hstart]; exact h.upstream, fun c' => ?_⟩
  rw [hstart, Slave.finish_last _ _ _ (by exact h.upstream)]
  simp only [Slave.timedOut, h.pos, h.wake, h.stack]

/-- Before its end the wait goes on. -/
theorem Slave.Timed.expire_later {d : Nat} (h : x.Timed (c.now + d)) (hd : 0 < d) : Slave.expire c x = x :=
  Slave.expire_early c x ((Slave.due_iff _ _ h.wake).trans
    (decide_eq_false (Nat.not_le.mpr (Nat.lt_add_of_pos_right hd))))

/-- The wait ends in the request's own step, where its time is 0 or some traffic to come lets the request run on. -/
theorem Slave.Prepared.requestEndsBy {op : SlaveOp} {d : Nat} (h : sl.Prepared s.cfg) (hk : s.slaves[k]? = some sl)
    (hq : Quiet k s) (hx : (Slave.start s.ctx op sl).EndsBy (s.now + d) y) (ha : WaveAfter (s.now + d) s.otherWave)
    (hnow : d = 0 ∨ s.otherWave ≠ []) :
    ∃ t, requestOp k op s = .next t ∧ RanAlone k s t (s.now + d) s.otherWave ∧ t.slaves[k]? = some y := by
  obtain ⟨u, hpos⟩ := hx.pos
  obtain ⟨hidle, hreleased⟩ := hx.end_rests
  have hover : y.movesOn s.otherWave = false := Slave.movesOn_idle hidle
  rcases Nat.eq_zero_or_pos d with rfl | hd
  · have hexpire := (hx.expire s.ctx (Nat.le_refl _)).trans (hx.ends s.ctx)
    exact h.request hk hq op hpos hx.no_event hreleased hexpire (Turns.refl _) (by decide) hover
  · have hwave : s.otherWave ≠ [] := hnow.resolve_left (Nat.ne_of_gt hd)
    have hturn := hx.turn hq.rests hx.upstream (Nat.le_add_right _ _) ha hwave
    rw [hx.ends] at hturn
    exact h.request hk hq op hpos hx.no_event hx.released (hx.expire_later (c := s.ctx) hd) hturn (by decide) hover

/-- Slave `k`'s operation goes on alone. -/
theorem RanAlone.trans {v : State} {n' : Nat} {ow' : List Nat} (h : RanAlone k s t n ow) (h' : RanAlone k t v n' ow') :
    RanAlone k s v n' ow' where
  cfg := h'.cfg.trans h.cfg
  requests := h'.requests.trans h.requests
  now_eq := h'.now_eq
  otherDrive := h'.otherDrive
  otherWave := h'.otherWave
  rest := h'.rest
  hear := h.hear.trans h'.hear
  master := h'.master.trans h.master

/-- With nothing requested and nothing to come, the next step is the wait's end (R194). -/
theorem Slave.EndsBy.step {e : Nat} (h : x.EndsBy e y) (hq : Quiet k s) (hk : s.slaves[k]? = some x) (hlt : s.now < e)
    (how : s.otherWave = []) (hreq : s.requests = []) :
    ∃ u, Machine.step s = .next u ∧ RanAlone k s u e [] ∧ u.slaves[k]? = some y := by
  have hstep : Machine.step s = .next (idleStep s) := by simp only [Machine.step, hq.ready, hreq]
  have halone := (hq.alone hk).idleStep
  rw [how, h.idle hq.rests h.upstream hlt, h.ends] at halone
  exact ⟨_, hstep, RanAlone.of_alone halone ((idleStep_passes (rest_closed s.cfg)).serves.hear hq.rest)⟩

/-- The same of a wait that the request's own step has left suspended. -/
theorem Slave.Prepared.requestThenStep {op : SlaveOp} {d : Nat} (h : sl.Prepared s.cfg) (hk : s.slaves[k]? = some sl)
    (hq : Quiet k s) (hx : (Slave.start s.ctx op sl).EndsBy (s.now + d) y) (hd : 0 < d) (how : s.otherWave = []) :
    ∃ t, requestOp k op s = .next t ∧ (s.requests = [] →
      ∃ u, step t = .next u ∧ RanAlone k s u (s.now + d) [] ∧ u.slaves[k]? = some y) := by
  obtain ⟨u, hpos⟩ := hx.pos
  obtain ⟨t, hnext, hran, hslave⟩ := h.request hk hq op hpos hx.no_event hx.released (hx.expire_later (c := s.ctx) hd)
    (Turns.refl _) (by decide) (by simp [Slave.movesOn, hpos, how])
  refine ⟨t, hnext, fun hreq => ?_⟩
  have hlt : t.now < s.now + d := hran.now_eq ▸ Nat.lt_add_of_pos_right hd
  obtain ⟨u, hstep, hran', hy⟩ := hx.step (hran.quiet hq) hslave hlt (hran.otherWave.trans how)
    (hran.requests.trans hreq)
  exact ⟨u, hstep, hran.trans hran', hy⟩

/-- The instructions that request such an operation; only `S_LOG_RECEIVE` presets the CRC16 (R275). -/
theorem exec_waits {i : Instr} {arg : Byte} (hi : i ∈ [.sWaitReset k, .sReadBit k, .sWriteBit k arg, .sReadByte k,
    .sWriteByte k arg, .sWaitFunctionCmd k, .sLogReceive k, .sLogServe k]) :
    ∃ op : SlaveOp, op.Waits ∧ exec i s = requestOp k op s ∧ (i = .sLogReceive k ↔ op = .logReceive) := by
  simp only [List.mem_cons, List.not_mem_nil, or_false] at hi
  rcases hi with rfl | rfl | rfl | rfl | rfl | rfl | rfl | rfl
  · exact ⟨.waitReset, by simp [SlaveOp.Waits], rfl, by simp⟩
  · exact ⟨.readBit, by simp [SlaveOp.Waits], rfl, by simp⟩
  · exact ⟨.writeBit arg, by simp [SlaveOp.Waits], rfl, by simp⟩
  · exact ⟨.readByte, by simp [SlaveOp.Waits], rfl, by simp⟩
  · exact ⟨.writeByte arg, by simp [SlaveOp.Waits], rfl, by simp⟩
  · exact ⟨.waitFunctionCmd, by simp [SlaveOp.Waits], rfl, by simp⟩
  · exact ⟨.logReceive, by simp [SlaveOp.Waits], rfl, by simp⟩
  · exact ⟨.logServe, by simp [SlaveOp.Waits], rfl, by simp⟩

/-- Settles O9: a malformed pulse ends the bit operation, and a timeout any operation that waits for a pulse. -/
theorem slaveBitRejectsBadPulse : Obligations.SlaveBitRejectsBadPulse := by
  intro k s sl i hk hq
  refine ⟨fun high width later hsl how hp hi => ?bad, fun arg d hsl hd hi ha => ?timeout⟩
  case bad =>
    have hop (u : PulseUse) : Slave.await s.ctx u { sl with stack := [] } = Slave.await s.ctx u sl :=
      congrArg (Slave.await s.ctx u) hsl.start_eq
    rcases hi with ⟨rfl, hc⟩ | ⟨⟨arg, rfl⟩, hc | hc⟩
    · exact hsl.rejects (op := .readBit) hk hq (hop _) how hp (hc ▸ .badBit)
    · exact hsl.rejects (op := .writeBit arg) hk hq (hop _) how hp (hc ▸ .zeroStart _)
    · exact hsl.rejects (op := .writeBit arg) hk hq (hop _) how hp (hc ▸ .badStart _)
  case timeout =>
    obtain ⟨op, hwaits, hexec, hlog⟩ := exec_waits (s := s) hi
    obtain ⟨shift, bitcnt, hends⟩ := hsl.start_endsBy hd s.ctx hwaits
    simp only [hlog, hexec]
    by_cases hnow : d = 0 ∨ s.otherWave ≠ []
    · obtain ⟨t, hnext, hran⟩ := hsl.requestEndsBy hk hq hends ha hnow
      exact ⟨t, shift, bitcnt, hnext, fun x hx => ⟨fun _ => hx ▸ hran,
        fun hpos how => absurd hnow (not_or.mpr ⟨Nat.ne_of_gt hpos, not_not_intro how⟩)⟩⟩
    · obtain ⟨hzero, how⟩ := not_or.mp hnow
      obtain ⟨t, hnext, hstep⟩ := hsl.requestThenStep hk hq hends (Nat.pos_of_ne_zero hzero) (not_not.mp how)
      exact ⟨t, shift, bitcnt, hnext, fun x hx => ⟨fun h => absurd h hnow, fun _ _ hreq => hx ▸ hstep hreq⟩⟩

end Sys2Proof.Machine

/-! A slave's bit and byte operations of upstream code (spec/43_slave_bit_byte.md R215 to R218) with the pulses an outside
driver makes: the wait an operation begins with, what the pulses do there, and what the operation leaves of the slave. -/

namespace Sys2Proof.Machine

variable {k : Nat} {s : State} {sl : Slave} {u : PulseUse} {ow : List Nat}

/-! ### Bit operations -/

/-- A bit operation on one pulse that ends with the value `v`: the slave has heard the edges alone (R215, R216). -/
theorem Slave.Ready.bitOperation {op : SlaveOp} {j t' high width : Nat} {c : Ctx} {v : Byte} {x : Slave}
    (h : sl.Ready s.cfg) (hk : s.slaves[k]? = some sl) (hq : Quiet k s)
    (hop : Slave.start s.ctx op sl = Slave.await s.ctx u { sl with stack := [] })
    (how : s.otherWave = pulseTrain s.now [(high, width)] ++ ow) (hd : Slave.Drift (Slave.start s.ctx op sl) x)
    (hshift : x.shift = sl.shift) (hbitcnt : x.bitcnt = sl.bitcnt)
    (hturns : Turns j (scene s s.now false ((s.now + high) :: (s.now + high + width) :: ow) (Slave.start s.ctx op sl))
      (scene s t' false ow (Slave.returnValue c v x))) (hj : j ≤ requestFuel) :
    ∃ t y, requestOp k op s = .next t ∧ RanAlone k s t t' ow ∧ t.slaves[k]? = some y ∧
      Slave.Heard { sl with status := statusCode .ok, data := v } y := by
  obtain ⟨hlisten, hdrift, -, -, -, hstack⟩ := h.await (u := u) s.ctx
  rw [← hop] at hlisten hdrift hstack
  rw [hd.returns hstack] at hturns
  obtain ⟨t, hnext, hran, hslave⟩ := h.requestEnds hk hq op hlisten hd
    ((congrArg Slave.upstream hop).trans h.upstream) (by rw [how]; exact hturns) hj
  exact ⟨t, _, hnext, hran, hslave, h.heard (hdrift.trans hd) hshift hbitcnt c .ok v⟩

/-- Settles O7: the slave waits for the pulse, and its class is the bit. -/
theorem sReadBitReceivesBit : Obligations.SReadBitReceivesBit := by
  intro k s sl high width later b hk hsl hq how hp hbit
  have hlisten : (Slave.start s.ctx .readBit sl).Listening s.cfg .readBit := (hsl.await s.ctx).1
  obtain ⟨c, x, -, -, hd, hshift, hbitcnt, hturns⟩ := Turns.readBit (ow := later) hq.rests hlisten (s.now + high) width
    (Nat.lt_add_of_pos_right hp.1) hp.2 b hbit
  exact hsl.bitOperation hk hq rfl how hd hshift hbitcnt hturns (by decide)

/-- The answer to a read-slot start pulse ends at an exact instant: a one is sat out, and a zero is the slave's own low
(R216, R224). -/
theorem Turns.answerStart {a w n : Nat} {b : Bool} (hm : s.master.Rests) (hz : s.cfg.delaySlack = 0)
    (h : sl.Listening s.cfg (.writeStart b)) (hlt : n < a) (hw0 : 0 < w) (hw : w < us s.cfg 15)
    (ha : WaveAfter (a + w + us s.cfg 64) ow) :
    ∃ j c x, j ≤ 4 ∧ Slave.Drift sl x ∧ x.shift = sl.shift ∧ x.bitcnt = sl.bitcnt ∧
      Turns j (scene s n false (a :: (a + w) :: ow) sl)
        (scene s (a + w + if b then sl.cfg.tSSit else sl.cfg.tSResp + us s.cfg 37) false ow
          (Slave.returnValue c 0 x)) := by
  cases b with
  | true =>
    obtain ⟨c, x, -, -, hd, hshift, hbitcnt, hturns⟩ := Turns.writeOne hm hz h a w hlt hw0 hw ha
    exact ⟨3, c, x, by decide, hd, hshift, hbitcnt, hturns⟩
  | false =>
    obtain ⟨c, x, -, -, hd, hshift, hbitcnt, hturns⟩ := Turns.writeZero hm hz h a w hlt hw0 hw ha
    rw [Nat.add_assoc _ sl.cfg.tSResp] at hturns
    exact ⟨4, c, x, Nat.le_refl 4, hd, hshift, hbitcnt, hturns⟩

/-- Settles O8: the slave waits for the start pulse and answers it. -/
theorem sWriteBitAnswersReadSlot : Obligations.SWriteBitAnswersReadSlot := by
  intro k s sl arg high width later hk hsl hq hz how hp hw ha
  have hlisten : (Slave.start s.ctx (.writeBit arg) sl).Listening s.cfg (.writeStart (argBit arg)) :=
    (hsl.await s.ctx).1
  obtain ⟨j, c, x, hj, hd, hshift, hbitcnt, hturns⟩ := Turns.answerStart hq.rests hz hlisten
    (Nat.lt_add_of_pos_right hp.1) hp.2 hw ha
  exact hsl.bitOperation hk hq rfl how hd hshift hbitcnt hturns (Nat.le_trans hj (by decide))

/-! ### Byte operations -/

/-- A byte operation that ends with the value `v`: the edges and the shifter apart, the slave is as before (R217, R218). -/
theorem Slave.Ready.byteOperation {op : SlaveOp} {j t' : Nat} {c : Ctx} {v : Byte} {x : Slave} (h : sl.Ready s.cfg)
    (hk : s.slaves[k]? = some sl) (hq : Quiet k s) (hlisten : (Slave.start s.ctx op sl).Listening s.cfg u)
    (hbegun : Slave.Begun sl (Slave.start s.ctx op sl)) (hcrc : (Slave.start s.ctx op sl).crc16 = sl.crc16)
    (htxn : (Slave.start s.ctx op sl).txnState = sl.txnState) (hd : Slave.Drift (Slave.start s.ctx op sl) x)
    (hturns : Turns j (scene s s.now false s.otherWave (Slave.start s.ctx op sl))
      (scene s t' false ow (Slave.ret c v [] x))) (hj : j ≤ requestFuel) :
    ∃ t y, requestOp k op s = .next t ∧ RanAlone k s t t' ow ∧ t.slaves[k]? = some y ∧
      Slave.HeardBytes { sl with status := statusCode .ok, data := v } y := by
  have hheard := h.byteDone hbegun hcrc htxn hd c v
  obtain ⟨t, hnext, hran, hslave⟩ := h.request hk hq op hlisten hturns hj (Slave.movesOn_idle (hheard.pos.trans h.pos))
  exact ⟨t, _, hnext, hran, hslave, hheard⟩

/-- Settles O12: the shifter gets the byte's bits from the eight pulses. -/
theorem sReadByteReceivesByte : Obligations.SReadByteReceivesByte := by
  intro k s sl ps later v hk hsl hq how hps
  have hreads : (Slave.start s.ctx .readByte sl).Reads s.cfg [] := Slave.startReadByte_reads s.ctx hsl.base
  obtain ⟨c, x, -, -, hd, hturns⟩ := hreads.traffic hq.rests s.now v ps hps later
  exact hsl.byteOperation hk hq hreads.listening ⟨_, _, _, _, _, sl.crc16, sl.txnState, rfl⟩ rfl rfl hd (how ▸ hturns)
    (by decide)

/-- Settles O13: each start pulse gets the shifter's next bit, and the last one's answer ends the operation. -/
theorem sWriteByteAnswersReadSlots : Obligations.SWriteByteAnswersReadSlots := by
  intro k s sl arg ps later hk hsl hq hz how hps ha
  obtain ⟨hlength, hpulses, hapart⟩ := hps
  obtain ⟨p, ps, rfl⟩ := List.exists_cons_of_length_pos (hlength ▸ by decide : 0 < ps.length)
  obtain ⟨hp, hstart⟩ := hpulses p List.mem_cons_self
  have hlater : ∀ q ∈ ps, us s.cfg 64 < q.1 ∧ 0 < q.2 ∧ q.2 < us s.cfg 15 := fun q hmem =>
    let ⟨hpulse, hshort⟩ := hpulses q (List.mem_cons_of_mem p hmem)
    ⟨hapart q hmem, hpulse.2, hshort⟩
  have hwrites : (Slave.start s.ctx (.writeByte arg) sl).Writes s.cfg arg [] :=
    Slave.startWriteByte_writes s.ctx arg hsl.base
  obtain ⟨j, e, c, x, hj, hleast, hmost, -, -, hd, hturns⟩ := hwrites.traffic hq.rests hz s.now s.now p ps
    (Nat.succ.inj hlength) (Nat.lt_add_of_pos_right hp.1) hp.2 hstart hlater ha
  obtain ⟨t, y, hnext, hran, hslave, hheard⟩ := hsl.byteOperation hk hq hwrites.listening
    ⟨_, _, _, _, _, sl.crc16, sl.txnState, rfl⟩ rfl rfl hd (how ▸ hturns) (Nat.le_trans hj (by decide))
  exact ⟨t, y, e, hnext, hleast, hmost, hran, hslave, hheard⟩

end Sys2Proof.Machine

/-! A slave's dispatcher (spec/44_slave_dispatch.md R230 to R249): a reset, a ROM command and a function command on an
outside driver's pulses, an alarm search that nobody answers, the alarm flag, and the ROM-ID that no step changes. -/

namespace Sys2Proof.Machine

variable {k n : Nat} {s t : State} {sl x y : Slave} {rest fs : List Frame} {ps qs : List (Nat × Nat)} {ow : List Nat}

/-! ### An alarm search -/

/-- An alarm search from any registers of the master passes by that slave where it is not alarmed (R166, R246). -/
theorem Slave.WaitsForCommand.searchUnalarmed (h : Slave.WaitsForCommand k s sl t y) (ha : sl.alarmed = false)
    {m : Master} (hf : m.lastDeviceFlag = false) :
    ∃ m' x, searchRun alarmCmd (shot (t.withMaster m) s.now false y) =
        (.noSuchSlave, shot (t.withMaster m') (s.now + us s.cfg 1660) false x) ∧
      Slave.Same sl x ∧ x.Resting s.cfg [] ∧ m'.Cleared ∧ m'.romBuf = m.romBuf := by
  obtain ⟨s', x, hrun, hsame, hresting, hcleared, hrom, hcfg, hdrive, hwave, hrequests⟩ :=
    h.serving.unalarmed (s := t.withMaster m) h.noOthers s.now (h.same.alarmed.trans ha) hf
  rw [shot_congr (s := t.withMaster s'.master) _ x hcfg hdrive hwave hrequests rfl] at hrun
  exact ⟨s'.master, x, hrun, h.same.trans hsame, hresting, hcleared, hrom⟩

/-- `M_ALARM_FIRST` is an alarm search from a cleared triple (R170). -/
theorem exec_mAlarmFirst (s : State) : exec .mAlarmFirst s =
    .next (mReport (searchRun alarmCmd (clearSearch s)).1 0 (searchRun alarmCmd (clearSearch s)).2) := rfl

/-- Settles O19: the slave's dispatcher answers the reset exchange and waits for the next one. -/
theorem alarmSearchSkipsUnalarmedSlave : Obligations.AlarmSearchSkipsUnalarmedSlave := by
  intro k s sl hk hsl hq hz how ha
  obtain ⟨t, y, hwait, hw⟩ := hsl.waitsForCommand hk hq hz how
  obtain ⟨m', x, hsearch, hsame, hresting, ⟨hlast, hfamily, hflag⟩, hrom⟩ :=
    hw.searchUnalarmed ha (m := (clearSearch t).master) rfl
  have hexec := exec_mAlarmFirst (shot t s.now false y)
  have hstart : clearSearch (shot t s.now false y) = shot (t.withMaster (clearSearch t).master) s.now false y := rfl
  rw [hstart, hsearch] at hexec
  obtain ⟨u, hu, hexchanged, hx, hmaster⟩ := hw.exchange (i := .mAlarmFirst) rfl hexec
  refine ⟨t, u, x, hwait, hu, hexchanged, ?_⟩
  rw [hmaster, ← hw.ran.master]
  exact ⟨rfl, rfl, hrom, hlast, hfamily, hflag, hx, hsame, hresting.txnState, hresting.listening.pos, hresting.stack⟩

/-! ### A command byte on an outside driver's pulses -/

/-- The byte that ends `S_WAIT_FUNCTION_CMD`: the slave has heard the edges and shifted, and its operation is over
(R234, R237). -/
theorem Slave.Ready.lastByteTurns {st : Status} {b v : Byte} {tx : TxnState} (h : sl.Ready s.cfg) (hm : s.master.Rests)
    (hsame : Slave.Same sl x) (hreads : x.Reads s.cfg fs)
    (hret : ∀ c z, Slave.ret c b fs z = Slave.finish c st v { z with txnState := tx }) (n : Nat)
    (hps : carriesBits s.cfg 8 b ps) (ow : List Nat) :
    ∃ y, Turns 16 (scene s n false (pulseTrain n ps ++ ow) x) (scene s (trainEnd n ps) false ow y) ∧
      Slave.HeardBytes { sl with txnState := tx, status := statusCode st, data := v } y := by
  obtain ⟨c, z, -, -, hd, hturns⟩ := hreads.traffic hm n b ps hps ow
  rw [hret] at hturns
  exact ⟨_, hturns, h.commanded (hsame.trans hd.same) (hreads.listening.base.drift hd) c st v tx⟩

/-- `S_WAIT_FUNCTION_CMD` that begins by reading a byte and ends with it. -/
theorem Slave.Ready.dispatchByte {st : Status} {b v : Byte} {tx : TxnState} (h : sl.Ready s.cfg)
    (hk : s.slaves[k]? = some sl) (hq : Quiet k s)
    (hstart : Slave.dispatch s.ctx [] sl = Slave.startReadByte s.ctx fs sl)
    (hret : ∀ c z, Slave.ret c b fs z = Slave.finish c st v { z with txnState := tx })
    (how : s.otherWave = pulseTrain s.now ps ++ ow) (hps : carriesBits s.cfg 8 b ps) :
    ∃ t x, exec (.sWaitFunctionCmd k) s = .next t ∧ RanAlone k s t (trainEnd s.now ps) ow ∧ t.slaves[k]? = some x ∧
      Slave.HeardBytes { sl with txnState := tx, status := statusCode st, data := v } x := by
  have hreads : (Slave.startReadByte s.ctx fs sl).Reads s.cfg fs := Slave.startReadByte_reads s.ctx h.base
  obtain ⟨x, hturns, hheard⟩ := h.lastByteTurns hq.rests (Slave.startReadByte_same s.ctx fs sl) hreads hret s.now hps ow
  rw [← how, ← hstart] at hturns
  obtain ⟨t, hexec, hran, hx⟩ := h.request hk hq .waitFunctionCmd (hstart ▸ hreads.listening) hturns (by decide)
    (Slave.movesOn_idle (hheard.pos.trans h.pos))
  exact ⟨t, x, hexec, hran, hx, hheard⟩

/-- A function command is returned to upstream code (R234, R235). -/
theorem Slave.ret_functionCommand (c : Ctx) (v : Byte) (sl : Slave) :
    Slave.ret c v [.functionCommand, .dispatcher] sl = Slave.finish c .ok v { sl with txnState := .waitingReset } := rfl

/-- A byte that is no ROM command is returned to upstream code as an error (R233, R237, R295). -/
theorem Slave.ret_notRomCommand {v : Byte} (h : v ∉ romCommandBytes) (c : Ctx) (sl : Slave) :
    Slave.ret c v [.romCommand, .dispatcher] sl =
      Slave.finish c .didNotGetRomCommand v { sl with txnState := .waitingReset } := by
  show Slave.gotRomCommand c v [.dispatcher] sl = _
  rw [Slave.gotRomCommand, decodeRomCommand_eq_none h]
  rfl

/-- Settles O22: in `WAITING_FUNCTION_CMD` the dispatcher reads a function command. -/
theorem sWaitFunctionCmdReturnsCommand : Obligations.SWaitFunctionCmdReturnsCommand := by
  intro k s sl ps later v hk hsl hq htxn how hps
  exact hsl.dispatchByte hk hq (Slave.dispatch_waitingFunctionCmd s.ctx htxn) (Slave.ret_functionCommand · v) how hps

/-- Settles O24: in `WAITING_ROM_CMD` the dispatcher reads a ROM command, and the byte is none. -/
theorem sWaitFunctionCmdRejectsRomCommand : Obligations.SWaitFunctionCmdRejectsRomCommand := by
  intro k s sl ps later v hk hsl hq htxn how hps hread hmatch hskip hsearch halarm
  have hnone : v ∉ romCommandBytes := by
    simp only [romCommandBytes, List.mem_cons, List.not_mem_nil, or_false, not_or]
    exact ⟨hread, hmatch, hskip, hsearch, halarm⟩
  exact hsl.dispatchByte hk hq (Slave.dispatch_waitingRomCmd s.ctx htxn) (Slave.ret_notRomCommand hnone) how hps

/-! ### A whole transaction on an outside driver's pulses -/

/-- SKIP_ROM's command byte, its pulses counted from an instant `e` that is not later than now: the slave reads a
function command (R242). -/
theorem Turns.skipRom {e : Nat} (hm : s.master.Rests) (hreads : x.Reads s.cfg (.romCommand :: .dispatcher :: rest))
    (he : e ≤ n) (hfirst : ∀ p, ps.head? = some p → n < e + p.1) (hps : carriesBits s.cfg 8 0xCC ps) (ow : List Nat) :
    ∃ y, Turns 16 (scene s n false (pulseTrain e ps ++ ow) x) (scene s (trainEnd e ps) false ow y) ∧
      Slave.Same x y ∧ y.Reads s.cfg (.functionCommand :: .dispatcher :: rest) := by
  obtain ⟨c, y, -, -, hd, hturns⟩ := hreads.byteLate hm e n he 0xCC ps hfirst hps ow
  have hret : Slave.ret c 0xCC (.romCommand :: .dispatcher :: rest) y =
      Slave.startReadByte c (.functionCommand :: .dispatcher :: rest) { y with txnState := .waitingFunctionCmd } := rfl
  have hbase : y.Base s.cfg := hreads.listening.base.drift hd
  rw [hret] at hturns
  exact ⟨_, hturns,
    hd.same.trans ⟨rfl, rfl, rfl, rfl, rfl, rfl, rfl, .inl ⟨rfl, rfl⟩, rfl, rfl, rfl, rfl, rfl, rfl⟩,
    Slave.startReadByte_reads c (hbase.same rfl rfl rfl rfl rfl rfl)⟩

/-- A slave in its dispatcher gets a reset pulse, SKIP_ROM and a function command: its operation is over with the
command (R234 to R236, R242). -/
theorem Slave.Ready.skipRomTurns {high width : Nat} {f : Byte} (h : sl.Ready s.cfg) (hm : s.master.Rests)
    (hz : s.cfg.delaySlack = 0) (hsame : Slave.Same sl x) (hserving : x.Serving s.cfg []) (n : Nat) (hhigh : 0 < high)
    (hwidth : us s.cfg 360 ≤ width) (hps : carriesBits s.cfg 8 0xCC ps) (hqs : carriesBits s.cfg 8 f qs)
    (hfirst : ∀ p, ps.head? = some p → us s.cfg 144 < p.1) (ow : List Nat) :
    ∃ y, Turns (4 + 16 + 16) (scene s n false (pulseTrain n ((high, width) :: (ps ++ qs)) ++ ow) x)
        (scene s (trainEnd n ((high, width) :: (ps ++ qs))) false ow y) ∧
      Slave.HeardBytes { sl with txnState := .waitingReset, status := statusCode .ok, data := f } y := by
  let e := n + high + width
  have hlate : ∀ p, ps.head? = some p → e + us s.cfg 144 < e + p.1 := fun p hp => Nat.add_lt_add_left (hfirst p hp) e
  have hafter : WaveAfter (e + us s.cfg 144) (pulseTrain e ps ++ (pulseTrain (trainEnd e ps) qs ++ ow)) :=
    waveAfter_train hlate fun hnil => (hnil ▸ hps : carriesBits s.cfg 8 0xCC []).elim
  obtain ⟨y1, hsame1, hreads1, -, hturns1⟩ := hserving.resetTraffic hm hz (n + high) width
    (Nat.lt_add_of_pos_right hhigh) hwidth hafter
  obtain ⟨y2, hturns2, hsame2, hreads2⟩ := Turns.skipRom hm hreads1 (Nat.le_add_right e _) hlate hps
    (pulseTrain (trainEnd e ps) qs ++ ow)
  obtain ⟨y, hturns3, hheard⟩ := h.lastByteTurns hm ((hsame.trans hsame1).trans hsame2) hreads2
    (Slave.ret_functionCommand · f) (trainEnd e ps) hqs ow
  refine ⟨y, ?_, hheard⟩
  simp only [pulseTrain, trainEnd, pulseTrain_append, trainEnd_append, List.cons_append, List.append_assoc]
  exact (hturns1.trans hturns2).trans hturns3

/-- Settles O23: wherever the dispatcher begins, it waits for a pulse, and a reset brings it back to its loop. -/
theorem sWaitFunctionCmdAfterResetAndSkipRom : Obligations.SWaitFunctionCmdAfterResetAndSkipRom := by
  intro k s sl high width ps qs later f hk hsl hq hz how hhigh hwidth hps hqs hfirst
  have hserving : (Slave.dispatch s.ctx [] sl).Serving s.cfg [] := hsl.base.serving s.ctx
  obtain ⟨pulse, hlisten, -⟩ := hserving.waits
  obtain ⟨x, hturns, hheard⟩ := hsl.skipRomTurns hq.rests hz (Slave.dispatch_same s.ctx [] sl) hserving s.now hhigh
    hwidth hps hqs hfirst later
  rw [← how] at hturns
  obtain ⟨t, hexec, hran, hx⟩ := hsl.request hk hq .waitFunctionCmd hlisten hturns (by decide)
    (Slave.movesOn_idle (hheard.pos.trans hsl.pos))
  exact ⟨t, x, hexec, hran, hx, hheard⟩

/-! ### The alarm flag -/

/-- `S_SET_ALARM` of a ready slave is over at the instant it begins (R247). -/
theorem Slave.Ready.settle_setAlarm {g : Config} (h : sl.Ready g) (c : Ctx) (hlevel : c.level = true) (arg : Byte) :
    Slave.settle c (Slave.begun (.setAlarm arg) sl) =
      { sl with alarmed := arg.getLsbD 0, status := statusCode .ok, data := 0 } := by
  have hstart : Slave.start c (.setAlarm arg) (Slave.begun (.setAlarm arg) sl) =
      { sl with alarmed := arg.getLsbD 0, status := statusCode .ok, data := 0 } := by
    refine (Slave.finish_last c .ok 0 (by exact h.upstream)).trans ?_
    rw [← h.pos, ← h.stack, ← h.wake]
    rfl
  rw [Slave.settle_begun_idle c _ sl h.trapped (.inl (h.line_prev.trans hlevel.symm)) (by rw [hstart]; exact h.pos)]
  exact hstart

/-- Settles O30: the flag is written, and the slave's driver stays as it was. -/
theorem sSetAlarmWritesAlarmed : Obligations.SSetAlarmWritesAlarmed := by
  intro k s sl arg hk hsl hq
  have hlevel : (sceneCtx s s.now false (Slave.begun (.setAlarm arg) sl)).level = true := by
    show (!(false || sl.drive)) = true
    rw [hsl.released]
    rfl
  obtain ⟨t, hexec, hran, hx⟩ := hq.requestNow hk (.setAlarm arg) hsl.pos hsl.trapped (.inl hsl.enabled)
    (hsl.settle_setAlarm _ hlevel arg) rfl (Slave.movesOn_idle hsl.pos)
  exact ⟨rfl, t, hexec, hran, hran.line_eq hq hk hx rfl, hx⟩

/-! ### The ROM-ID -/

/-- Settles O43: a step may reload the ROM-ID `S_INIT` has loaded (R249), and by `State.Ok` that is the one there is. -/
theorem romIdSurvives : Obligations.RomIdSurvives := by
  intro s t k sl hs h hk henabled
  obtain ⟨hcfg, hslaves, -⟩ := step_acts s t (lasts_acts s.cfg) h
  obtain ⟨x, hx, hlasts⟩ := step_lasts h hk
  have hloaded : sl.romId = configRomId sl.cfg := (hs.slaves sl (List.mem_of_getElem? hk)).rom_id henabled
  have hrom : x.romId = sl.romId := hlasts.romId.elim id (·.trans hloaded.symm)
  exact ⟨hcfg, hslaves.length_eq.symm, x, hx, hrom, hlasts.cfg, hlasts.enabled henabled⟩

end Sys2Proof.Machine

/-! The CRC8 and the master's side of a log frame (spec/45_crc_log_frame.md R261, R270 to R273): the ends of a busy poll,
what a step makes of one that goes on, and `M_LOG_SEND` that sends no frame. -/

namespace Sys2Proof.Machine

variable {l : Nat} {s u : State} {limit : Option Nat} {r : Request} {later : List Request} {i : Instr} {rest : List Byte}

/-! ### The CRC8 -/

/-- The fold of a ROM-ID's first `n` bits, as a list's and as the search's (R164, R261). -/
theorem crc8Wire_eq_foldl (n : Nat) (id : RomId) :
    ((List.range n).map fun i => romBit id (i + 1)).foldl crc8Bit 0 = crc8Wire n id := by
  induction n with
  | zero => rfl
  | succ n ih => rw [List.range_succ, List.map_append, List.foldl_append, ih]; rfl

/-- Settles O58: a byte's eight steps are its bits' fold, and a ROM-ID's wire order is its bytes' order. -/
theorem crc8OfBytes : Obligations.Crc8OfBytes := by
  refine ⟨fun _ _ => rfl, fun id => ?wire, by decide, by decide, by decide, by decide, by decide,
    by simp [crc8Fold, crc8Update, crc8Bits, crc8Bit], crc8Fold_zeros⟩
  case wire => rw [crc8Wire_eq_foldl, crc8Wire_all]

/-! ### The busy poll -/

/-- The end of a poll at a high line: the ack byte is read in eight slots after `T_M_POLL` (R272, R273). -/
theorem mReadAck_lasted (s : State) : Lasted s (mReadAck s) 25 (s.cfg.tMPoll + us s.cfg 560) ∧
    ∃ r, byteBits r = (readSlots 8 (mWait s.cfg.tMPoll s)).1 ∧ (mReadAck s).master = { s.master with
      drive := false, pos := .ready, shift := r, bitcnt := 8, data := r
      status := if r = 0x42 then statusCode .ok else statusCode .ackMismatch } := by
  have hclosed := lasts_closed s.cfg
  have hcfg : (mWait s.cfg.tMPoll s).cfg = s.cfg := mWait_cfg s.cfg.tMPoll s
  have hserves := (mWait_passes s.cfg.tMPoll hclosed).serves.then hclosed fun h => mReceiveByte_serves h
  have htook := (mWait_took s.cfg.tMPoll s).trans hcfg (mReceiveByte_took _)
  rw [hcfg] at htook
  obtain ⟨hbits, -⟩ := mReceiveByte_slots (mWait s.cfg.tMPoll s)
  rw [mReadAck_eq]
  refine ⟨hserves.reported _ _ htook, _, hbits, ?_⟩
  rw [mReport_master, mReceiveByte_master, mWait_master, apply_ite statusCode]
  rfl

/-- The next request to a slave, as it is taken and run (R140). -/
theorem stepPolling_request (hreq : firstSlaveRequest s.requests = some (r, later))
    (hdec : decode r.port r.bytes = .ok (i, rest)) :
    stepPolling s = exec i (pause r.gap { s with requests := later }) := by
  simp only [stepPolling, hreq, runRequest, hdec, takeRequest]

/-- A poll that can only wait leaves the step to the next request to a slave, or to time (R272). -/
theorem step_pollWaits (hpos : s.master.pos = .polling limit) (hc : comesNow s = false)
    (hpoll : pollLoop limit pollFuel s = .waits u) (hu : u.master = s.master) : step s = stepPolling u := by
  have hsuspend : mSuspend limit u = u := by
    rw [mSuspend, ← hpos, ← hu]
  rw [step_poll hpos hc hpoll, endPoll, hsuspend]
  rfl

/-- The next request to a slave comes by the instant at which its gap is over. -/
theorem requestBy_eq (hreq : firstSlaveRequest s.requests = some (r, later)) :
    requestBy l s = decide (s.now + r.gap ≤ l) := by
  simp only [requestBy, hreq]

/-- A request to a slave that comes before `M_POLL_TIMEOUT` is over is waited for (R272). -/
theorem pollRunsOut_waits (h : requestBy l s = true) : pollRunsOut l s = .waits s := if_pos h

/-- Without one the poll ends when `M_POLL_TIMEOUT` does (R272, R273). -/
theorem pollRunsOut_ends (h : requestBy l s = false) : pollRunsOut l s = .timedOut (pause (l - s.now) s) :=
  if_neg (by rw [h]; decide)

theorem settle_requests (s : State) : (settle s).requests = s.requests :=
  (settle_passes (evolves_closed s.cfg)).requests

theorem pause_requests (n : Nat) (s : State) : (pause n s).requests = s.requests :=
  (pause_passes n (evolves_closed s.cfg)).requests

theorem pause_master (n : Nat) (s : State) : (pause n s).master = s.master :=
  (pause_passes n (evolves_closed s.cfg)).master

theorem requestBy_settle (l : Nat) (s : State) : requestBy l (settle s) = requestBy l s := by
  simp only [requestBy, settle_requests, settle_now]

/-- Settles O5: the request of this instant, the high line, and a poll that only a request, its timeout or the idle time
moves on. -/
theorem stepOfAPollingMaster : Obligations.StepOfAPollingMaster := by
  intro s limit hpos
  refine ⟨fun r later i rest hreq hgap hdec => ?sameInstant, fun hc hline => ?high, fun hc hlow hsettled hnone => ?low⟩
  case sameInstant =>
    have hc : comesNow s = true := by
      simp [comesNow, hpos, hreq, hgap]
    have hrun : step s = stepPolling s := by
      simp only [step, hpos, hc, if_true]
    rw [hrun, stepPolling_request hreq hdec]
    simp [pause, hgap]
  case high =>
    obtain ⟨hlasted, r, hbits, hmaster⟩ := mReadAck_lasted s
    exact ⟨mReadAck s, r, step_poll hpos hc (pollLoop_now limit hline), hlasted, hbits, hmaster⟩
  case low =>
    have hpoll := pollLoop_stuck limit hlow hsettled hnone
    refine ⟨fun r later i rest hreq hby hdec => ?request, fun l hl hle hby => ?timeout, fun hl hreq => ?idle⟩
    case request =>
      have hwaits : pollLoop limit pollFuel s = .waits (settle s) := by
        cases limit with
        | none => exact hpoll
        | some l =>
          have hby : requestBy l (settle s) = true := by
            rw [requestBy_settle, requestBy_eq hreq]
            exact decide_eq_true (hby l rfl)
          exact hpoll.trans (pollRunsOut_waits hby)
      rw [step_pollWaits hpos hc hwaits (settle_master s)]
      exact stepPolling_request (by rw [settle_requests, hreq]) hdec
    case timeout =>
      subst hl
      have hends := hpoll.trans (pollRunsOut_ends ((requestBy_settle l s).trans hby))
      refine ⟨_, step_poll hpos hc hends, ?_, ?_, ?_⟩
      · show (pause (l - (settle s).now) (settle s)).now = l
        rw [pause_now, settle_now]
        omega
      · exact (pause_requests _ _).trans (settle_requests s)
      · show (mReport .timeout 0 _).master = _
        rw [mReport_master, pause_master, settle_master]
    case idle =>
      subst hl
      rw [step_pollWaits hpos hc hpoll (settle_master s)]
      simp only [stepPolling, settle_requests, hreq]

/-! ### No frame is sent -/

/-- Nobody answers the reset exchange of `M_LOG_SEND` (R270). -/
theorem exec_mLogSend_absent {mode : BitVec 2} {len : Byte} (hlen : len.toNat ≤ s.cfg.maxMessageLength)
    (hmode : mode = 0 ∨ mode = 1) (hp : (mResetExchange s).1 = false) (id : RomId) (payload : List Byte) :
    exec (.mLogSend mode id len payload) s = .next (mReport .noSlavePresent 0 (mResetExchange s).2) := by
  have hframe : ¬(mode = 2 ∨ mode = 3) := by rcases hmode with rfl | rfl <;> decide
  show execMLogSend mode id len payload s = _
  rw [execMLogSend, if_neg (Nat.not_lt.mpr hlen), if_neg hframe,
    launch_absent mode id logMessageByte (fun h => hframe (.inr h)) hp]
  rfl

/-- Settles O56: two refusals outright, and the reset exchange that finds nobody. -/
theorem mLogSendRefusesBeforeTheFrame : Obligations.MLogSendRefusesBeforeTheFrame := by
  intro s mode id len payload
  refine ⟨fun hlen => if_pos hlen, fun hlen hmode => (if_neg (Nat.not_lt.mpr hlen)).trans (if_pos hmode),
    fun hlen hmode hp => ?absent⟩
  case absent =>
    rw [presence_eq] at hp
    refine ⟨_, exec_mLogSend_absent hlen hmode hp id payload,
      (mResetExchange_serves (lasts_closed s.cfg)).reported _ _ (mResetExchange_took s), ?_⟩
    rw [mReport_master, mResetExchange_master]

end Sys2Proof.Machine

/-! The busy hold that upstream code begins and ends (spec/45_crc_log_frame.md R280, R281): the slave's own edges, and an
operation of the instant at which another request comes; and the ack byte after a hold (R282). -/

namespace Sys2Proof.Machine

variable {g : Config} {k : Nat} {s : State} {sl : Slave} {op : SlaveOp}

/-! ### The ack byte presented -/

/-- Settles O36: the byte is written where the hold is over, its lowest bit first. -/
theorem ackByteActs : Obligations.AckByteActs := by
  intro k s sl rest hk htrapped hpos hstack
  rw [exec_ack]
  exact onSlave_some hk (Slave.atHoldEnd_eq htrapped hpos hstack _)

/-! ### The hold begins -/

/-- `S_BUSY_BEGIN` of a ready slave: its own falling edge is taken first, and the operation is over (R192, R280). -/
theorem Slave.Ready.settle_busyBegin (h : sl.Ready g) (c : Ctx) (hlevel : c.level = false) :
    Slave.settle c (Slave.begun .busyBegin sl) = { sl with
      drive := true, busy := true, status := statusCode .ok, data := 0, tReset := c.now, swStarted := true
      linePrev := false } := by
  have hfall : Slave.observe c (Slave.begun .busyBegin sl) = Slave.felled c.now (Slave.begun .busyBegin sl) :=
    Slave.observe_fall c h.line_prev hlevel h.base.enabled
  have hstart : Slave.start c .busyBegin (Slave.felled c.now (Slave.begun .busyBegin sl)) = { sl with
      drive := true, busy := true, status := statusCode .ok, data := 0, tReset := c.now, swStarted := true
      linePrev := false } := by
    refine (Slave.finish_last c .ok 0 (by exact h.upstream)).trans ?_
    rw [← h.pos, ← h.stack, ← h.wake]
    rfl
  have htrapped : (Slave.felled c.now (Slave.begun .busyBegin sl)).trapped = false := h.trapped
  have hpos : (Slave.felled c.now (Slave.begun .busyBegin sl)).pos = .begun .busyBegin := rfl
  rw [Slave.settle, hfall, Slave.resume_eq, htrapped, if_neg Bool.false_ne_true, hpos]
  dsimp only
  rw [hstart, Slave.takeEvent]
  simp only [h.pos]
  exact Slave.expire_other _ _ (by simp)

/-- Settles O31: the slave's driver is low, and its falling edge is taken before the operation is over. -/
theorem sBusyBeginHoldsTheLine : Obligations.SBusyBeginHoldsTheLine := by
  intro k s sl hk hsl hq
  obtain ⟨t, hexec, hran, hx⟩ := hq.requestNow hk .busyBegin hsl.pos hsl.trapped (.inl hsl.enabled)
    (hsl.settle_busyBegin (sceneCtx s s.now false _) rfl) rfl (Slave.movesOn_idle hsl.pos)
  exact ⟨t, hexec, hran, (hran.quiet hq).line_eq hx, hx⟩

/-! ### The hold ends -/

/-- A busy hold ends with its rising edge, whatever the length of the low (R281). -/
theorem Slave.consume_busyEnd (c : Ctx) (hpos : sl.pos = .waitPulse .busyEnd) :
    Slave.consume c sl = Slave.returnValue c 0 { sl with pulseNew := false } := by
  unfold Slave.consume
  cases Slave.eventClass sl with
  | one => simp only [Slave.pulseOne, hpos]
  | zero => simp only [Slave.pulseZero, hpos]
  | bad => simp only [Slave.pulseBad, hpos]
  | reset => simp only [Slave.pulseReset, hpos]

/-- The slave that `S_BUSY_END` has made release the line, at the rising edge it has made (R193, R281). -/
def Slave.roseAt (c : Ctx) (sl : Slave) : Slave :=
  { sl with
    drive := false, busy := false, linePrev := true
    pulseLen := ticksIn c.cfg sl.cfg (c.now - sl.tReset) % 2 ^ sl.cfg.tickWidth
    pulseOvf := decide (2 ^ sl.cfg.tickWidth ≤ ticksIn c.cfg sl.cfg (c.now - sl.tReset)) }

/-- The rising edge of the slave's own release is latched (R193). -/
theorem Slave.Holding.observe_release (h : sl.Holding g) (c : Ctx) (hlevel : c.level = true) :
    Slave.observe c (Slave.begun .busyEnd sl) =
      { Slave.roseAt c sl with pos := .begun .busyEnd, wake := none, pulseNew := true } := by
  have htakes : sl.takesEdges = true := by simp [Slave.takesEdges, h.enabled, h.trapped, h.unmasked]
  have hnew : (Slave.begun .busyEnd sl).pulseNew = false := h.no_event
  have hstarted : (Slave.begun .busyEnd sl).swStarted = true := h.started
  rw [Slave.observe_rise c (by exact h.line_prev) hlevel (by exact htakes), Slave.isrRise, hnew, Bool.false_and,
    if_neg Bool.false_ne_true, Slave.latchPulse, if_pos hstarted]
  rfl

/-- The released line's rising edge ends the operation (R281). -/
theorem Slave.Holding.settle_busyEnd (h : sl.Holding g) (c : Ctx) (hlevel : c.level = true) :
    Slave.settle c (Slave.begun .busyEnd sl) =
      { Slave.roseAt c sl with status := statusCode .ok, data := 0 } := by
  let x : Slave := { Slave.roseAt c sl with pos := .begun .busyEnd, wake := none, pulseNew := true }
  have hresume : Slave.resume c x = Slave.expire c (Slave.takeEvent c (Slave.start c .busyEnd x)) := by
    rw [Slave.resume_eq, if_neg (by simpa [x, Slave.roseAt] using h.trapped)]
  have htake : Slave.takeEvent c (Slave.start c .busyEnd x) =
      Slave.finish c .ok 0 { Slave.start c .busyEnd x with pulseNew := false } :=
    Slave.consume_busyEnd c rfl
  have hfinish : Slave.finish c .ok 0 { Slave.start c .busyEnd x with pulseNew := false } =
      { Slave.roseAt c sl with status := statusCode .ok, data := 0 } := by
    rw [Slave.finish_last c .ok 0 (by exact h.upstream)]
    simp only [x, Slave.roseAt, Slave.start, Slave.await, h.pos, h.stack, h.wake, h.no_event]
  rw [Slave.settle, h.observe_release c hlevel, hresume, htake, Slave.finish_expire, hfinish]

/-- Where the level stays as the slave saw it last, `S_BUSY_END` waits for the next rising edge (R281). -/
theorem Slave.settle_busyEnd_waits (c : Ctx) (htrapped : sl.trapped = false) (hlevel : sl.linePrev = c.level)
    (hnew : sl.pulseNew = false) (hforever : sl.cfg.waitTimeout = none) (hwake : sl.wake = none) :
    Slave.settle c (Slave.begun .busyEnd sl) = { sl with
      drive := false, busy := false, pos := .waitPulse .busyEnd, stack := [.busyEnd] } := by
  have hstart : Slave.start c .busyEnd (Slave.begun .busyEnd sl) = { sl with
      drive := false, busy := false, pos := .waitPulse .busyEnd, stack := [.busyEnd] } := by
    show Slave.await c .busyEnd { Slave.begun .busyEnd sl with stack := [.busyEnd] } = _
    have hmap : sl.cfg.waitTimeout.map (c.now + ·) = sl.wake := by rw [hforever, hwake]; rfl
    rw [← hmap]
    rfl
  rw [Slave.settle_begun c .busyEnd sl htrapped (.inl hlevel), hstart, Slave.takeEvent]
  dsimp only
  rw [hnew, if_neg Bool.false_ne_true]
  exact Slave.expire_endless _ _ hwake

/-- `S_BUSY_END` of a slave that does not set the line's level itself, and that has seen it: no edge comes, and the line
stays as it is (R281). -/
theorem OthersAtRest.busyEndWaits (hrest : OthersAtRest k s) (hc : comesNow s = false) (hm : s.master.Rests)
    (hk : s.slaves[k]? = some sl) (how : s.otherWave = []) (hpos : sl.pos = .idle) (htrapped : sl.trapped = false)
    (henabled : sl.intEnable = true) (hlevel : sl.linePrev = !s.otherDrive) (hnew : sl.pulseNew = false)
    (hforever : sl.cfg.waitTimeout = none) (hwake : sl.wake = none)
    (hdrive : (s.otherDrive || sl.drive) = s.otherDrive) :
    ∃ t, exec (.sBusyEnd k) s = .next t ∧ t = { s with slaves := t.slaves } ∧ OthersAtRest k t ∧ OthersHear k s t ∧
      line t = line s ∧ t.slaves[k]? = some { sl with
        drive := false, busy := false, pos := .waitPulse .busyEnd, stack := [.busyEnd] } := by
  have hctx : sl.linePrev = (sceneCtx s s.now s.otherDrive (Slave.begun .busyEnd sl)).level :=
    hlevel.trans (congrArg (!·) (Bool.or_false _).symm)
  obtain ⟨t, hexec, halone⟩ := hrest.requestNow hc hm hk .busyEnd hpos htrapped (.inl henabled)
    (Slave.settle_busyEnd_waits _ htrapped hctx hnew hforever hwake) rfl (by simp [Slave.movesOn, how])
  obtain ⟨hstate, hrest', hx⟩ := halone.scene_eq
  have hbefore : Alone k s (scene s s.now s.otherDrive s.otherWave sl) :=
    ⟨rfl, rfl, rfl, rfl, rfl, rfl, ⟨sl, hk, rfl⟩, hrest⟩
  refine ⟨t, hexec, hstate, hrest', hrest.hearOp hexec, ?_, hx⟩
  rw [← halone.line_eq, ← hbefore.line_eq]
  simp [line, scene, Bool.or_assoc, hdrive]

/-! ### Requests of one instant -/

/-- Where another request comes at the same instant, the operation is only begun (R71, R305(f)). -/
theorem requestOp_begins (hk : s.slaves[k]? = some sl) (hpos : sl.pos = .idle) (htrapped : sl.trapped = false)
    (henabled : sl.intEnable = true) (hc : comesNow s = true) :
    requestOp k op s = .next { s with slaves := s.slaves.set k (Slave.begun op sl) } := by
  have hrun : ∀ x, comesNow { s with slaves := x } = comesNow s := fun _ => rfl
  simp [requestOp, hk, hpos, htrapped, henabled, runBegun, hrun, hc]

/-- A request of a slave whose operation is not over waits for its end (R90(b)). -/
theorem requestOp_queues (hk : s.slaves[k]? = some sl) (hpos : sl.pos ≠ .idle) (htrapped : sl.trapped = false)
    (henabled : sl.intEnable = true) :
    requestOp k op s = .next { s with slaves := s.slaves.set k { sl with upstream := sl.upstream ++ [(0, op)] } } := by
  simp [requestOp, hk, hpos, htrapped, henabled]

/-- Settles O32: the rising edge, the wait for one, and the two requests of one instant. -/
theorem sBusyEndReleasesTheLine : Obligations.SBusyEndReleasesTheLine := by
  intro k s sl hk
  refine ⟨fun hsl hq => ?rises, fun hsl hdrive hready hc hrest how => ?waits, fun hsl hc => ?begins,
    fun hsl hc later => ?queues⟩
  case rises =>
    obtain ⟨t, hexec, hran, hx⟩ := hq.requestNow hk .busyEnd hsl.pos hsl.trapped (.inl hsl.enabled)
      (hsl.settle_busyEnd (sceneCtx s s.now false _) rfl) rfl (Slave.movesOn_idle hsl.pos)
    exact ⟨t, hexec, hran, (hran.quiet hq).line_eq hx, hx⟩
  case waits =>
    rcases hsl with ⟨h, ho⟩ | ⟨h, ho⟩
    · exact hrest.busyEndWaits hc ⟨hdrive, hready⟩ hk how h.pos h.trapped h.enabled (by rw [ho]; exact h.line_prev)
        h.no_event h.no_timeout h.wake (by rw [ho]; exact h.released)
    · exact hrest.busyEndWaits hc ⟨hdrive, hready⟩ hk how h.pos h.trapped h.enabled (by rw [ho]; exact h.line_prev)
        h.no_event h.no_timeout h.wake (by rw [ho]; rfl)
  case begins =>
    rcases hsl with h | h
    · exact requestOp_begins hk h.pos h.trapped h.enabled hc
    · exact requestOp_begins hk h.pos h.trapped h.enabled hc
  case queues =>
    have hget (x : Slave) : (s.slaves.set k x)[k]? = some x := List.getElem?_set_self (List.getElem?_eq_some_iff.mp hk).1
    refine ⟨_, requestOp_begins hk hsl.pos hsl.trapped hsl.enabled hc, ?_, ?_⟩
    · have : (s.slaves.set k (Slave.begun .busyBegin sl)).any (·.drive) = true :=
        List.any_eq_true.mpr ⟨_, List.mem_of_getElem? (hget _), rfl⟩
      simp [line, this]
    · refine (requestOp_queues (op := .busyEnd) (hget _) (by simp [Slave.begun]) (by exact hsl.trapped)
        (by exact hsl.enabled)).trans ?_
      simp [List.set_set, Slave.begun, Slave.moveLine, Slave.driveLow, hsl.upstream]

end Sys2Proof.Machine

/-! The slave's side of a log frame, on the pulses an outside driver makes (spec/45_crc_log_frame.md R275 to R283): another
function command, a frame that is rejected, and a frame that is received, with the hold and the ack byte after it. -/

namespace Sys2Proof.Machine

variable {g : Config} {k n : Nat} {s : State} {sl x y : Slave} {ps : List (Nat × Nat)} {fs : List Frame} {len : Byte}
  {m : Memory} {calls : List Byte} {times : List (Option Nat)} {payload : List Byte}

/-- Another function command than `0x44` ends `S_LOG_SERVE` (R235, R283). -/
theorem Slave.ret_otherCommand {v : Byte} (hv : v ≠ logMessageByte) (c : Ctx) (sl : Slave) :
    Slave.ret c v [.functionCommand, .dispatcher, .logServe] sl =
      Slave.finish c .invalidFunctionCommand v { sl with txnState := .waitingReset } := by
  show Slave.dispatcherReturns c .ok v [.logServe] { sl with txnState := .waitingReset } = _
  rw [Slave.dispatcherReturns, if_pos rfl, if_neg hv]

/-- Settles O25: the dispatcher returns the command to `S_LOG_SERVE`, which insists on `0x44`. -/
theorem sLogServeRejectsOtherCommand : Obligations.SLogServeRejectsOtherCommand := by
  intro k s sl ps later v hk hsl hq htxn how hps hv
  let fs : List Frame := [.functionCommand, .dispatcher, .logServe]
  have hstart : Slave.start s.ctx .logServe sl = Slave.startReadByte s.ctx fs sl :=
    Slave.dispatch_waitingFunctionCmd s.ctx htxn
  have hreads : (Slave.startReadByte s.ctx fs sl).Reads s.cfg fs := Slave.startReadByte_reads s.ctx hsl.base
  obtain ⟨x, hturns, hheard⟩ := hsl.lastByteTurns hq.rests (Slave.startReadByte_same s.ctx fs sl) hreads
    (Slave.ret_otherCommand hv) s.now hps later
  rw [← how, ← hstart] at hturns
  obtain ⟨t, hexec, hran, hx⟩ := hsl.request hk hq .logServe (hstart ▸ hreads.listening) hturns (by decide)
    (Slave.movesOn_idle (hheard.pos.trans hsl.pos))
  exact ⟨t, x, hexec, hran, hx, hheard⟩

/-! ### A frame that is rejected -/

theorem Slave.startLogReceive_reads (c : Ctx) (h : sl.Base g) :
    (Slave.startLogReceive c fs sl).Reads g (.logLength :: fs) :=
  Slave.startReadByte_reads c (h.same rfl rfl rfl rfl rfl rfl)

theorem Slave.startLogReceive_sameLog (c : Ctx) (fs : List Frame) (sl : Slave) :
    Slave.SameLog sl (Slave.startLogReceive c fs sl) := ⟨rfl, rfl, rfl, rfl, rfl, rfl, rfl, rfl, rfl⟩

/-- A frame's bytes are few enough for one step. -/
theorem logFrame_fuel (h : payload.length = len.toNat) :
    16 * (payload.length + 3) + 34 ≤ requestFuel := by
  have hlen : len.toNat < 256 := len.isLt
  unfold requestFuel
  omega

/-- `S_LOG_RECEIVE` that ends before its ack: what it has got of the frame, the edges and the shifter apart, the slave is
as before (R276, R277). -/
theorem Slave.Ready.logEnds {crc : Word16} (h : sl.Ready g) (hsame : Slave.SameLog sl x)
    (hbase : x.Base g) (hlen : x.logLen = len) (hcrc : x.crc16 = crc) (hbuf : x.logBuf = m)
    (hcalls : x.handlerCalls = sl.handlerCalls) (htimes : x.handlerTimes = sl.handlerTimes) (c : Ctx) (st : Status)
    (v : Byte) (tx : TxnState) :
    Slave.HeardBytes { sl with
      txnState := tx, status := statusCode st, data := v, logLen := len, crc16 := crc, logBuf := m }
      (Slave.finish c st v { x with txnState := tx }) := by
  obtain ⟨hcfg, hrom, halarm, htrapped, henable, hmask, hup, -, hdraws⟩ := hsame
  obtain ⟨-, -, -, hnew, hprev, hdrive, hbusy⟩ := hbase
  refine ⟨x.tReset, x.swStarted, x.pulseLen, x.pulseOvf, x.shift, x.bitcnt, ?_⟩
  rw [Slave.finish_last c st v (by exact hup.trans h.upstream)]
  simp only [hcfg, hrom, halarm, htrapped, henable, hmask, hup, hdraws, hnew, hprev, hdrive, hbusy, hlen, hcrc, hbuf,
    hcalls, htimes, h.pos, h.stack, h.wake, h.no_event, h.line_prev, h.released, h.not_busy]

theorem Slave.HeardBytes.logBuf (h : Slave.HeardBytes sl x) : x.logBuf = sl.logBuf := by
  obtain ⟨_, _, _, _, _, _, rfl⟩ := h
  rfl

/-- A length byte above the maximum ends the operation before anything is stored (R276). -/
theorem Slave.ret_tooLong {c : Ctx} (h : c.cfg.maxMessageLength < len.toNat) (rest : List Frame) (sl : Slave) :
    Slave.ret c len (.logLength :: rest) sl =
      Slave.finish c .messageTooLong 0 { sl with logLen := len, txnState := .waitingReset } := if_pos h

/-- Settles O27: the length byte ends the operation, or the CRC's low byte does. -/
theorem sLogReceiveRejectsFrame : Obligations.SLogReceiveRejectsFrame := by
  intro k s sl len hi lo payload ps later hk hsl hq how
  let st0 := Slave.startLogReceive s.ctx [] sl
  have hreads : st0.Reads s.cfg [.logLength] := Slave.startLogReceive_reads s.ctx hsl.base
  have hbegun : Slave.SameLog sl st0 := Slave.startLogReceive_sameLog s.ctx [] sl
  refine ⟨fun hlen hps => ?tooLong, fun hwf hlen hlength hps hcrc => ?badCrc⟩
  case tooLong =>
    obtain ⟨c, x, hc, -, hd, hturns⟩ := hreads.traffic hq.rests s.now len ps hps later
    have hbase : x.Base s.cfg := hreads.listening.base.drift hd
    rw [Slave.ret_tooLong (hc.symm ▸ hlen), ← how] at hturns
    have hheard := hsl.logEnds (x := { x with logLen := len })
      (hbegun.trans (hd.sameLog.trans ⟨rfl, rfl, rfl, rfl, rfl, rfl, rfl, rfl, rfl⟩))
      (hbase.same rfl rfl rfl rfl rfl rfl) rfl hd.crc16 hd.same.logBuf hd.same.handlerCalls hd.same.handlerTimes c
      .messageTooLong 0 .waitingReset
    obtain ⟨t, hexec, hran, hx⟩ := hsl.request hk hq .logReceive hreads.listening hturns (by decide)
      (Slave.movesOn_idle (hheard.pos.trans hsl.pos))
    exact ⟨t, _, hexec, hran, hx, hheard⟩
  case badCrc =>
    obtain ⟨c, x, y, -, -, hsame, hx, hd, hturns⟩ := Slave.logFrameTraffic hreads rfl hq.rests s.now len hi lo payload ps
      hlen hlength hps later
    rw [hx.bad hd lo hcrc, ← how] at hturns
    have hheard := hsl.logEnds ((hbegun.trans hsame).trans hd.sameLog) (hx.reads.listening.base.drift hd)
      (hd.same.logLen.trans hx.logLen) (hd.crc16.trans hx.crc16) (hd.same.logBuf.trans hx.logBuf)
      (hd.same.handlerCalls.trans hx.calls) (hd.same.handlerTimes.trans hx.times) c .crcMismatch 0 .waitingReset
    have hfuel := logFrame_fuel hlength
    obtain ⟨t, hexec, hran, hz⟩ := hsl.request hk hq .logReceive hreads.listening hturns (by omega)
      (Slave.movesOn_idle (hheard.pos.trans hsl.pos))
    refine ⟨t, _, hexec, hran, hz, fun a => ?_, hheard.logBuf ▸ hheard⟩
    rw [hheard.logBuf]
    show memRead (putPayload 0 payload sl.logBuf) a = _
    rw [memRead_putPayload _ _ _ _ hwf, if_pos (Nat.zero_le a), Nat.sub_zero]

/-! ### A hold of no length and one without an end -/

/-- The busy latency is over and the handler takes no time: the driver, released before, does not move (R73). -/
theorem Slave.logBusyBegin_zero {c : Ctx} (hT : Slave.handlerTime c.now sl = some 0) (hdrive : sl.drive = false)
    (hbusy : sl.busy = false) : Slave.logBusyBegin c sl = sl := by
  rw [Slave.logBusyBegin, hT]
  cases sl
  cases hdrive
  cases hbusy
  rfl

/-- The handler never returns (R352). -/
theorem Slave.logBusyBegin_none {c : Ctx} (hT : Slave.handlerTime c.now sl = none) : Slave.logBusyBegin c sl =
    { Slave.callHandler sl with busy := true, drive := true, pos := .delay .handler, wake := none } := by
  rw [Slave.logBusyBegin, hT]

theorem waveAfter_nil (e : Nat) : WaveAfter e [] := fun _ h => nomatch h

/-- A busy hold of no length: no edge is made, the handler has been called and the slave waits for the rising edge
(R73, R279, R281). -/
theorem Slave.BusySoon.emptyHold (h : sl.BusySoon s.cfg n len m calls times fs) (hm : s.master.Rests)
    (hT : Slave.handlerTime (n + sl.cfg.tSBusy) sl = some 0) :
    Turns 1 (scene s n false [] sl) (scene s (n + sl.cfg.tSBusy) false [] (Slave.holdEnded sl)) := by
  let e := n + sl.cfg.tSBusy
  let c := sceneCtx s e false sl
  have hlevel : sl.linePrev = c.level := by
    rw [h.base.line_prev]
    show true = !(false || sl.drive)
    rw [h.base.released]
    rfl
  have hfire : Slave.fire c sl = sl := by
    rw [Slave.fire_due e h.base.trapped h.wake rfl, h.pos]
    exact Slave.logBusyBegin_zero hT h.base.released h.base.not_busy
  have hhold : Slave.emptyHold c sl = Slave.await c .busyEnd (Slave.callHandler sl) := by
    have hdue : sl.due c.now = true := by simp [Slave.due, h.wake, c, e, sceneCtx]
    exact if_pos (by rw [hdue, decide_eq_true (show Slave.handlerTime c.now sl = some 0 from hT)]; rfl)
  have hawait : Slave.await c .busyEnd (Slave.callHandler sl) = Slave.holdEnded sl := by
    have hforever : (Slave.callHandler sl).cfg.waitTimeout = none := h.base.no_timeout
    rw [Slave.await, hforever]
    rfl
  have hsettle : Slave.settle c sl = Slave.holdEnded sl := by
    have hobserve : Slave.observe c sl = sl := if_pos hlevel
    have hnew : (Slave.holdEnded sl).pulseNew = false := h.base.no_event
    rw [Slave.settle, hobserve, Slave.resume_eq, h.base.trapped, if_neg Bool.false_ne_true, h.pos]
    dsimp only
    rw [hhold, hawait, Slave.takeEvent]
    show Slave.expire c (if (Slave.holdEnded sl).pulseNew = true then _ else _) = _
    rw [hnew, if_neg Bool.false_ne_true]
    exact Slave.expire_endless _ _ rfl
  exact Turns.wake hm e h.base.trapped ⟨_, h.pos⟩ h.wake (Nat.le_add_right n _) (waveAfter_nil e)
    (by rw [hfire, hsettle]) (by rw [hfire]; rfl)

/-- The slave in a hold that has no end (R352). -/
def Slave.heldForever (e : Nat) (sl : Slave) : Slave :=
  Slave.felled e { Slave.callHandler sl with busy := true, drive := true, pos := .delay .handler, wake := none }

/-- A handler that never returns: the slave's falling edge, and nothing after it (R280, R352). -/
theorem Slave.BusySoon.endlessHold (h : sl.BusySoon s.cfg n len m calls times fs) (hm : s.master.Rests)
    (hT : Slave.handlerTime (n + sl.cfg.tSBusy) sl = none) :
    Turns 1 (scene s n false [] sl) (scene s (n + sl.cfg.tSBusy) false [] (Slave.heldForever (n + sl.cfg.tSBusy) sl)) := by
  let e := n + sl.cfg.tSBusy
  have hfire : Slave.fire (sceneCtx s e false sl) sl =
      { Slave.callHandler sl with busy := true, drive := true, pos := .delay .handler, wake := none } := by
    rw [Slave.fire_due e h.base.trapped h.wake rfl, h.pos]
    exact Slave.logBusyBegin_none hT
  refine Turns.wake hm e h.base.trapped ⟨_, h.pos⟩ h.wake (Nat.le_add_right n _) (waveAfter_nil e) ?_ (by rw [hfire]; rfl)
  rw [hfire, Slave.settle, Slave.observe_fall _ (by exact h.base.line_prev) rfl (by exact h.base.enabled)]
  exact Slave.resume_interval .handler rfl (by decide) (by decide)

/-! ### The frame -/

/-- A frame whose CRC16 agrees, up to the busy latency (R275, R277, R278). -/
theorem Slave.Ready.frameTurns (h : sl.Ready s.cfg) (hm : s.master.Rests) (hz : s.cfg.delaySlack = 0)
    (hlen : len.toNat ≤ s.cfg.maxMessageLength) (hlength : payload.length = len.toNat)
    (hps : carriesBytes s.cfg (len :: (payload ++
      [crcHigh (frameCrc s.cfg.crc16 len payload), crcLow (frameCrc s.cfg.crc16 len payload)])) ps) (ow : List Nat) :
    ∃ x, Slave.SameLog sl x ∧ x.crc16 = frameCrc s.cfg.crc16 len payload ∧
      x.BusySoon s.cfg (trainEnd s.now ps) len (memWrite (putPayload 0 payload sl.logBuf) len.toNat 0) sl.handlerCalls
        sl.handlerTimes [] ∧
      Turns (16 * (payload.length + 3))
        (scene s s.now false (pulseTrain s.now ps ++ ow) (Slave.startLogReceive s.ctx [] sl))
        (scene s (trainEnd s.now ps) false ow x) := by
  obtain ⟨c, x, y, hc, hnow, hsame, hx, hd, hturns⟩ := Slave.logFrameTraffic (Slave.startLogReceive_reads s.ctx h.base) rfl
    hm s.now len _ _ payload ps hlen hlength hps ow
  obtain ⟨hack, hsoon⟩ := hx.good (c := c) hd _ (hc ▸ hz) (crcOfBytes_split _)
  rw [hnow] at hsoon
  exact ⟨_, ((Slave.startLogReceive_sameLog s.ctx [] sl).trans hsame).trans hack.log, hack.crc16.trans hx.crc16, hsoon,
    hturns⟩

/-- The draw of the handler is the one the slave had before the frame (R279). -/
theorem Slave.BusySoon.handlerTime_eq (h : x.BusySoon g n len m calls sl.handlerTimes fs) (hsame : Slave.SameLog sl x) :
    Slave.handlerTime (n + x.cfg.tSBusy) x = Slave.handlerTime (n + sl.cfg.tSBusy) sl := by
  rw [hsame.cfg, Slave.handlerTime_congr _ hsame.cfg h.times]

/-- The busy hold and the ack byte after it, on an outside driver's start pulses (R280 to R282). -/
theorem Slave.BusySoon.ackTurns {H : Nat} {later : List Nat}
    (h : x.BusySoon s.cfg n len (memWrite (putPayload 0 payload sl.logBuf) len.toNat 0) sl.handlerCalls sl.handlerTimes [])
    (hsame : Slave.SameLog sl x) (hup : sl.upstream = []) (hm : s.master.Rests) (hz : s.cfg.delaySlack = 0)
    (hT : Slave.handlerTime (n + x.cfg.tSBusy) x = some H) (hH : 0 < H) (hacks : startPulses s.cfg 8 ps)
    (hfirst : ∀ p, ps.head? = some p → x.cfg.tSBusy + H < p.1)
    (ha : WaveAfter (trainEnd n ps + us s.cfg 64) later) :
    ∃ j e y, j ≤ 34 ∧ trainEnd n ps ≤ e ∧ e ≤ trainEnd n ps + us s.cfg 64 ∧
      Turns j (scene s n false (pulseTrain n ps ++ later) x) (scene s e false later y) ∧
      Slave.LogGot s.cfg len payload x.crc16 sl y := by
  obtain ⟨hlength, hpulses, hapart⟩ := hacks
  obtain ⟨p, ps, rfl⟩ := List.exists_cons_of_length_pos (hlength ▸ by decide : 0 < ps.length)
  obtain ⟨hp, hstart⟩ := hpulses p List.mem_cons_self
  have hlater : ∀ q ∈ ps, us s.cfg 64 < q.1 ∧ 0 < q.2 ∧ q.2 < us s.cfg 15 := fun q hmem =>
    let ⟨hpulse, hshort⟩ := hpulses q (List.mem_cons_of_mem p hmem)
    ⟨hapart q hmem, hpulse.2, hshort⟩
  have hbefore : n + x.cfg.tSBusy + H < n + p.1 := by
    have := hfirst p rfl
    omega
  obtain ⟨y, hack, hacking, hhold⟩ := h.hold hT hH hm (waveAfter_train (ps := p :: ps) (τ := n)
    (fun q hq => Option.some.inj hq ▸ hbefore) nofun)
  obtain ⟨j, e, c, z, hj, hleast, hmost, -, -, hd, hanswer⟩ := hacking.writes.traffic hm hz n (n + x.cfg.tSBusy + H) p ps
    (Nat.succ.inj hlength) hbefore hp.2 hstart hlater ha
  obtain ⟨hended, hrest, hbase, hstatus, hdata, hlen, hbuf, hcalls, htimes, hstack⟩ :=
    hacking.ended (c := c) (hack.upstream.trans (hsame.upstream.trans hup)) hd
  exact ⟨2 + j, e, _, by omega, hleast, hmost, hhold.trans hanswer, (hsame.trans hack.log).trans hended.log, hrest, hbase,
    hstatus, hdata, hlen, hbuf, hcalls, htimes, (hack.trans hended).crc16, hstack⟩

/-- A slave whose handler has been called, and who waits in the hold for something nobody has scheduled. -/
structure Slave.HoldSuspended (x y : Slave) : Prop where
  calls : y.handlerCalls = x.logLen :: x.handlerCalls
  status : y.status = statusCode .ok
  data : y.data = 0
  stack : y.stack = x.stack
  wake : y.wake = none
  trapped : y.trapped = x.trapped
  txnState : y.txnState = x.txnState
  romId : y.romId = x.romId
  logBuf : y.logBuf = x.logBuf

theorem Slave.holdEnded_suspended (x : Slave) : Slave.HoldSuspended x (Slave.holdEnded x) :=
  ⟨rfl, rfl, rfl, rfl, rfl, rfl, rfl, rfl, rfl⟩

theorem Slave.heldForever_suspended (e : Nat) (x : Slave) : Slave.HoldSuspended x (Slave.heldForever e x) :=
  ⟨rfl, rfl, rfl, rfl, rfl, rfl, rfl, rfl, rfl⟩

/-- With no edge to come and no wake-up time nothing moves an operation on (R352). -/
theorem Slave.movesOn_nil (h : sl.wake = none) : sl.movesOn [] = false := by
  unfold Slave.movesOn
  cases sl.pos <;> simp [h]

/-- `S_LOG_RECEIVE` with no traffic after its frame is suspended in the hold (R279, R352). -/
theorem Slave.Ready.holdSuspends {e : Nat} (h : sl.Ready s.cfg) (hk : s.slaves[k]? = some sl) (hq : Quiet k s)
    (hwf : memoryWf sl.logBuf = true) (how : s.otherWave = pulseTrain s.now ps) (hlength : payload.length = len.toNat)
    (hsame : Slave.SameLog sl x)
    (hsoon : x.BusySoon s.cfg n len (memWrite (putPayload 0 payload sl.logBuf) len.toNat 0) sl.handlerCalls sl.handlerTimes
      [])
    (hframe : Turns (16 * (payload.length + 3))
      (scene s s.now false (pulseTrain s.now ps ++ []) (Slave.startLogReceive s.ctx [] sl)) (scene s n false [] x))
    (hturn : Turns 1 (scene s n false [] x) (scene s e false [] y)) (hy : Slave.HoldSuspended x y) :
    ∃ t, ∀ {P : Prop}, (line t = !y.drive → P) → exec (.sLogReceive k) s = .next t ∧ RanAlone k s t e [] ∧
      t.slaves[k]? = some y ∧ y.handlerCalls = len :: sl.handlerCalls ∧ y.status = statusCode .ok ∧ y.data = 0 ∧
      y.stack = [.logHold] ∧ y.wake = none ∧ y.trapped = false ∧ y.txnState = sl.txnState ∧ y.romId = sl.romId ∧
      (∀ a, memRead y.logBuf a = if a = len.toNat then 0 else (payload[a]?).getD (memRead sl.logBuf a)) ∧ P := by
  have hreads : (Slave.start s.ctx .logReceive sl).Reads s.cfg [.logLength] := Slave.startLogReceive_reads s.ctx h.base
  have hturns := hframe.trans hturn
  rw [List.append_nil, ← how] at hturns
  have hfuel := logFrame_fuel hlength
  obtain ⟨t, hexec, hran, hx⟩ := h.request hk hq .logReceive hreads.listening hturns (by omega)
    (Slave.movesOn_nil hy.wake)
  refine ⟨t, fun hP => ⟨hexec, hran, hx, hy.calls.trans ?calls, hy.status, hy.data, hy.stack.trans hsoon.stack, hy.wake,
    hy.trapped.trans hsoon.base.trapped, hy.txnState.trans hsame.txnState, hy.romId.trans hsame.romId, fun a => ?buf,
    hP ((hran.quiet hq).line_eq hx)⟩⟩
  case calls => rw [hsoon.logLen, hsoon.calls]
  case buf =>
    rw [hy.logBuf, hsoon.logBuf]
    exact memRead_logBuf payload sl.logBuf _ a hwf

/-- Settles O26: the frame, and then the hold and the ack, or a hold that nothing scheduled ends. -/
theorem sLogReceiveReceivesFrame : Obligations.SLogReceiveReceivesFrame := by
  intro k s sl len payload ps hk hsl hq hz hwf hlen hlength hps
  refine ⟨fun acks later h how hT hh hacks hfirst ha => ?received, fun how hT => ?suspended⟩
  case received =>
    rw [trainEnd_append] at ha
    rw [trainEnd_append]
    obtain ⟨x, hsame, hcrc, hsoon, hframe⟩ := hsl.frameTurns hq.rests hz hlen hlength hps
      (pulseTrain (trainEnd s.now ps) acks ++ later)
    obtain ⟨j, e, y, hj, hleast, hmost, hack, hgot⟩ := hsoon.ackTurns hsame hsl.upstream hq.rests hz
      ((hsoon.handlerTime_eq hsame).trans hT) hh hacks (hsame.cfg ▸ hfirst) ha
    have hheard := hgot.heard hsl sl.txnState ⟨rfl, rfl, rfl, rfl, rfl, rfl, rfl, rfl, rfl⟩ rfl rfl
    have hturns := hframe.trans hack
    rw [← List.append_assoc, ← pulseTrain_append, ← how] at hturns
    have hreads : (Slave.start s.ctx .logReceive sl).Reads s.cfg [.logLength] :=
      Slave.startLogReceive_reads s.ctx hsl.base
    have hfuel := logFrame_fuel hlength
    obtain ⟨t, hexec, hran, hx⟩ := hsl.request hk hq .logReceive hreads.listening hturns (by omega)
      (Slave.movesOn_idle hgot.rest.1)
    refine ⟨t, y, e, hexec, hleast, hmost, hran, hx, fun a => ?_, hcrc ▸ hheard⟩
    rw [hgot.logBuf]
    exact memRead_logBuf payload sl.logBuf _ a hwf
  case suspended =>
    obtain ⟨x, hsame, -, hsoon, hframe⟩ := hsl.frameTurns hq.rests hz hlen hlength hps []
    rw [← hsoon.handlerTime_eq hsame] at hT ⊢
    rw [← hsame.cfg]
    rcases hT with hT | hT
    · have hdrive : (Slave.holdEnded x).drive = false := hsoon.base.released
      obtain ⟨t, hheld⟩ := hsl.holdSuspends hk hq hwf how hlength hsame hsoon hframe (hsoon.emptyHold hq.rests hT)
        (Slave.holdEnded_suspended x)
      refine ⟨t, _, hheld fun hline => ⟨fun _ => ⟨?high, rfl, hdrive, hsoon.base.not_busy⟩, fun hnone => ?returns⟩⟩
      case high => rw [hline, hdrive]; rfl
      case returns => exact absurd (hT.symm.trans hnone) nofun
    · obtain ⟨t, hheld⟩ := hsl.holdSuspends hk hq hwf how hlength hsame hsoon hframe (hsoon.endlessHold hq.rests hT)
        (Slave.heldForever_suspended _ x)
      exact ⟨t, _, hheld fun hline => ⟨fun hzero => absurd (hT.symm.trans hzero) nofun, fun _ => ⟨hline, rfl, rfl, rfl⟩⟩⟩

end Sys2Proof.Machine

/-! `M_LOG_SEND` to a slave in `S_LOG_SERVE` (spec/45_crc_log_frame.md R270 to R283): the launcher, the function command
that begins `S_LOG_RECEIVE`, and what the frame, the poll and the ack leave behind in the whole machine. -/

namespace Sys2Proof.Machine

variable {g : Config} {k n : Nat} {s t w : State} {sl x y z : Slave} {mode : BitVec 2} {id : RomId} {len : Byte}
  {payload : List Byte}

/-- A slave with its function command taken begins `S_LOG_RECEIVE` with what upstream code has left it (R275, R283). -/
structure Slave.BeginsLog (g : Config) (sl z : Slave) : Prop where
  start : Slave.LogStart g z
  log : Slave.SameLog { sl with txnState := .waitingReset } z
  buf : z.logBuf = sl.logBuf
  calls : z.handlerCalls = sl.handlerCalls
  times : z.handlerTimes = sl.handlerTimes

/-- The function command `0x44` reaches the slave in `S_LOG_SERVE` (R235, R283). -/
theorem Slave.Reads.sendLogMessage (h : x.Reads g [.functionCommand, .dispatcher, .logServe]) (hsame : Slave.Same sl x)
    (hup : sl.upstream = []) (hsit : sl.cfg.tSSit < us g 64) (hq : s.NoOthers g) (n : Nat) :
    ∃ z, mSendByte logMessageByte (shot s n false x) = shot (s.shifter 0 8) (n + us g 560) false z ∧
      Slave.BeginsLog g sl z := by
  let begun (y : Slave) : Slave :=
    { y with txnState := .waitingReset, status := statusCode .ok, data := logMessageByte }
  have hret (c : Ctx) (y : Slave) : Slave.ret c logMessageByte [.functionCommand, .dispatcher, .logServe] y =
      Slave.startLogReceive c [] (begun y) := rfl
  have hbegun {y : Slave} (hd : Slave.Drift x y) : (begun y).Base g :=
    (h.listening.base.drift hd).same rfl rfl rfl rfl rfl rfl
  have hreads (c : Ctx) {y : Slave} (hd : Slave.Drift x y) : (Slave.startLogReceive c [] (begun y)).Reads g [.logLength] :=
    Slave.startLogReceive_reads c (hbegun hd)
  obtain ⟨c, y, -, hd, hsend⟩ := h.send hq n logMessageByte fun c y _ hd => by
    rw [hret]
    exact (hreads c hd).listening.wake
  have hall : Slave.Same sl y := hsame.trans hd.same
  rw [hret] at hsend
  exact ⟨_, hsend, ⟨hreads c hd, rfl, hall.upstream.trans hup, hall.cfg.symm ▸ hsit⟩,
    ⟨hall.cfg, hall.romId, hall.alarmed, hall.trapped, hall.intEnable, hall.intMask, hall.upstream, rfl, hall.draws⟩,
    hall.logBuf, hall.handlerCalls, hall.handlerTimes⟩

/-- What the launcher leaves in the master's registers, after the last bit of its function command (R173). -/
def launched (mode : BitVec 2) (id : RomId) (s : State) : State :=
  (s.withMaster (launchBuffer mode id s).master).shifter 0 8

theorem launched_master (hmode : mode = 0 ∧ crc8Fold 0 (romBytes sl.romId) = 0 ∨ mode = 1 ∧ id = sl.romId) :
    (launched mode sl.romId s).master = { s.master with
      shift := 0, bitcnt := 8
      romBuf := if mode = 0 then sl.romId else s.master.romBuf
      crc8 := if mode = 0 then 0 else s.master.crc8 } := by
  have hcrc : (if mode = 0 then crc8Fold 0 (romBytes sl.romId) else s.master.crc8) =
      if mode = 0 then 0 else s.master.crc8 :=
    ite_congr rfl (fun hzero => hmode.elim And.right fun hone => absurd (hzero.symm.trans hone.1) (by decide)) fun _ => rfl
  show ({ (launchBuffer mode sl.romId s).master with shift := 0, bitcnt := 8 } : Master) = _
  rw [launchBuffer_master, hcrc]

/-- The launcher up to `M_LOG_SEND`'s function command (R173, R271). -/
theorem Slave.Serving.launchLog (h : y.Serving g [.logServe]) (hsame : Slave.Same sl y) (hup : sl.upstream = [])
    (hsit : sl.cfg.tSSit < us g 64) (hq : s.NoOthers g)
    (hmode : mode = 0 ∧ crc8Fold 0 (romBytes sl.romId) = 0 ∨ mode = 1 ∧ id = sl.romId) (n : Nat) :
    ∃ z, Machine.launch mode id logMessageByte (shot s n false y) =
        (.ok, shot (launched mode sl.romId s) (n + us g 6560) false z) ∧ Slave.BeginsLog g sl z := by
  have hthree : mode ≠ 3 := by rcases hmode with ⟨rfl, -⟩ | ⟨rfl, -⟩ <;> decide
  have htwo : mode ≠ 2 := by rcases hmode with ⟨rfl, -⟩ | ⟨rfl, -⟩ <;> decide
  have hzero (h0 : mode = 0) : crc8Fold 0 (romBytes y.romId) = 0 := hsame.romId ▸
    hmode.elim And.right fun h1 => absurd (h0.symm.trans h1.1) (by decide)
  have hone (h1 : mode = 1) : id = y.romId := hsame.romId ▸
    hmode.elim (fun h0 => absurd (h0.1.symm.trans h1) (by decide)) And.right
  obtain ⟨s', x, n', hlaunch, htime, hx, hreads, -, hshifted⟩ := h.launch hq (hsame.cfg.symm ▸ hsit) n mode id
    logMessageByte hthree hzero hone
  have hothers : s'.NoOthers g := hshifted.noOthers (launchBuffer_eq mode y.romId s ▸ hq)
  obtain ⟨z, hsend, hz⟩ := hreads.sendLogMessage (hsame.trans hx) hup hsit hothers n'
  rw [hsend, htime, if_neg htwo, hshifted.shifter, launchBuffer_eq, hsame.romId] at hlaunch
  exact ⟨z, hlaunch, hz⟩

/-- The frame follows a launch that has found its slave (R270, R271). -/
theorem exec_mLogSend_launched (hlen : len.toNat ≤ s.cfg.maxMessageLength) (hlength : payload.length = len.toNat)
    (hmode : mode = 0 ∨ mode = 1) (h : launch mode id logMessageByte s = (.ok, w)) :
    exec (.mLogSend mode id len payload) s = .next (mAwaitAck (mSendFrame len payload w)) := by
  have hframe : ¬(mode = 2 ∨ mode = 3) := by rcases hmode with rfl | rfl <;> decide
  show execMLogSend mode id len payload s = _
  rw [execMLogSend, if_neg (Nat.not_lt.mpr hlen), if_neg hframe, h, if_pos rfl, ← hlength, List.take_length]

/-- A request to a slave that comes at the frame's end leaves the master polling there (R71, R272). -/
theorem mAwaitAck_requested {r : Request} {later : List Request}
    (hreq : firstSlaveRequest s.requests = some (r, later)) (hgap : r.gap = 0) :
    mAwaitAck s = mSuspend (s.cfg.pollTimeout.map (s.now + ·)) s := by
  have hnow : comesNow (mSuspend (s.cfg.pollTimeout.map (s.now + ·)) s) = true := by
    show (firstSlaveRequest s.requests).any (·.1.gap = 0) = true
    rw [hreq]
    exact decide_eq_true hgap
  exact if_pos hnow

theorem OutcomeAlone.requested {o : Host.Outcome State Fault Refusal} {r : Request} {later : List Request}
    (h : OutcomeAlone k o (.next (mAwaitAck w))) (hreq : firstSlaveRequest w.requests = some (r, later)) (hgap : r.gap = 0) :
    ∃ u, o = .next u ∧ u.cfg = w.cfg ∧ u.requests = w.requests ∧ u.now = w.now ∧
      u.master.pos = .polling (u.cfg.pollTimeout.map (u.now + ·)) := by
  rw [mAwaitAck_requested hreq hgap] at h
  obtain ⟨u, hu, hend⟩ := h.next
  have hcfg : w.cfg = u.cfg := hend.cfg
  have hnow : w.now = u.now := hend.now
  exact ⟨u, hu, hcfg.symm, hend.requests.symm, hnow.symm, hnow ▸ hcfg ▸ congrArg Master.pos hend.master.symm⟩

theorem crcLow_getLsbD_seven (crc : Word16) : (crcLow crc).getLsbD 7 = crc.getLsbD 7 := by
  simp [crcLow]

/-- A slave begins `S_LOG_SERVE`, and then `M_LOG_SEND` launches its frame to it (R270, R271, R283). -/
theorem Slave.Ready.logLaunches (h : sl.Ready s.cfg) (hk : s.slaves[k]? = some sl) (hq : Quiet k s)
    (hz : s.cfg.delaySlack = 0) (how : s.otherWave = []) (hsit : sl.cfg.tSSit < us s.cfg 64)
    (hlen : len.toNat ≤ s.cfg.maxMessageLength) (hlength : payload.length = len.toNat)
    (hmode : mode = 0 ∧ crc8Fold 0 (romBytes sl.romId) = 0 ∨ mode = 1 ∧ id = sl.romId) :
    ∃ t z, exec (.sLogServe k) s = .next t ∧ RanAlone k s t s.now [] ∧ t.NoOthers s.cfg ∧ Slave.BeginsLog s.cfg sl z ∧
      OutcomeAlone k (exec (.mLogSend mode id len payload) t)
        (.next (mAwaitAck (mSendFrame len payload (shot (launched mode sl.romId t) (s.now + us s.cfg 6560) false z)))) := by
  have hserving : (Slave.start s.ctx .logServe sl).Serving s.cfg [.logServe] := h.base.serving s.ctx
  obtain ⟨_, hlisten, -⟩ := hserving.waits
  obtain ⟨t, hserve, hran, hy⟩ := h.suspends hk hq how .logServe hlisten
  obtain ⟨halone, hothers⟩ := hran.shot hz hq.master hy
  obtain ⟨z, hlaunch, hbegins⟩ := hserving.launchLog (Slave.dispatch_same s.ctx [.logServe] sl) h.upstream hsit hothers
    hmode s.now
  have hout := halone.execMaster (.mLogSend mode id len payload) rfl
  have hmax : len.toNat ≤ (shot t s.now false (Slave.start s.ctx .logServe sl)).cfg.maxMessageLength :=
    hran.cfg.symm ▸ hlen
  rw [exec_mLogSend_launched hmax hlength (hmode.imp And.left And.left) hlaunch] at hout
  exact ⟨t, z, hserve, hran, hothers, hbegins, hout⟩

/-- Settles O21: the launcher, the frame, and then the poll and the ack, or a poll that the next step goes on with. -/
theorem logSendDeliversTheMessage : Obligations.LogSendDeliversTheMessage := by
  intro k s sl mode id len payload called H hk hsl hq hz how hsit hwf hlen hlength hmode hcalled hT hH hpoll
  obtain ⟨t, z, hserve, hran, hothers, ⟨hstart, hlog, hbuf, hcalls, htimes⟩, hout⟩ :=
    hsl.logLaunches hk hq hz how hsit hlen hlength hmode
  let s1 : State := launched mode sl.romId t
  have hcfg : s1.cfg = s.cfg := hran.cfg
  have hreq : s1.requests = s.requests := hran.requests
  refine ⟨t, hserve, fun hfree => ?delivered, fun r later hr hgap => ?requested⟩
  case delivered =>
    have hT' : Slave.handlerTime (s.now + us s.cfg 6560 + us s.cfg 10 + (len.toNat + 3) * us s.cfg 560 -
        slotTail s.cfg ((crcLow (frameCrc s1.cfg.crc16 len payload)).getLsbD 7) + z.cfg.tSBusy) z = some H := by
      have hzcfg : z.cfg = sl.cfg := hlog.cfg
      rw [us_mul, us_add₃, hcfg, crcLow_getLsbD_seven, Slave.handlerTime_congr _ hzcfg htimes, hzcfg]
      exact hcalled ▸ hT
    obtain ⟨s', x, T, hawait, hgot, hleast, hmost, hcfg', hdrive, hwave, hreq', hm⟩ := hstart.delivered (s := s1) hothers
      len payload (hcfg.symm ▸ hlen) hlength hT' hH (hcfg.symm ▸ hpoll) (hreq.symm ▸ hfree)
    rw [hcfg] at hgot hleast hmost hm
    rw [us_mul, us_add₃] at hleast hmost
    rw [hawait, mReport_shot] at hout
    obtain ⟨u, hu, hend⟩ := hout.next
    obtain ⟨hexchanged, hx, hmaster⟩ := hend.exchanged hran (hran.rest.hearMaster rfl hu) hcfg' hreq'
      (hothers.congr hcfg' hdrive hwave)
    obtain rfl := hexchanged.now_eq
    rw [← us_add]
    refine ⟨u, x, hu, hexchanged, by omega, by omega, ?master, hx, fun a => ?buf,
      hgot.heard hsl .waitingReset hlog hcalls htimes⟩
    case master =>
      have hack := congrArg
        (fun m : Master => { m with status := statusCode .ok, data := ackByteValue, pos := .ready }) hm
      refine hmaster.trans (hack.trans ?_)
      simp only [s1, launched_master hmode, hran.master, hq.master, hq.ready]
      rfl
    case buf =>
      rw [hgot.logBuf, hbuf]
      exact memRead_logBuf payload sl.logBuf _ a hwf
  case requested =>
    let v : State := shot s1 (s.now + us s.cfg 6560) false z
    have hserves : Serves Slave.Lasts v (mSendFrame len payload v) := mSendFrame_serves len payload (lasts_closed _)
    have htime := (mSendFrame_took len payload v).exact hothers.2.2.1
    obtain ⟨u, hu, hucfg, hureq, hunow, hpos⟩ := hout.requested
      ((congrArg firstSlaveRequest (hserves.requests.trans hreq)).trans hr) hgap
    have hucfg : u.cfg = s.cfg := hucfg.trans (hserves.cfg.trans hcfg)
    refine ⟨u, hu, hucfg, hureq.trans (hserves.requests.trans hreq), hunow.trans (htime.trans ?now), hucfg ▸ hpos⟩
    case now =>
      have hvcfg : v.cfg = s.cfg := hcfg
      rw [hvcfg, hlength, us_mul]
      exact (Nat.add_assoc ..).symm.trans (us_add₃ s.cfg s.now 6560 10 ((len.toNat + 3) * 560))

end Sys2Proof.Machine

/-! `S_INIT` and the requests of a slave that is not ready (spec/60_exceptions.md R330 to R333): the ROM-ID it loads and what
it leaves, and what becomes of a request by the slave's state. -/

namespace Sys2Proof.Machine

variable {g : Config} {k : Nat} {s : State} {sl y : Slave} {op : SlaveOp}

/-! ### The ROM-ID `S_INIT` loads -/

/-- Byte `i` of a ROM-ID is element `i` of its bytes (R82). -/
theorem romBytes_getElem? (id : RomId) {i : Nat} (hi : i < 8) : (romBytes id)[i]? = some (romByte id i) := by
  have hrange : romBytes id = (List.range 8).map (romByte id) := rfl
  rw [hrange, List.getElem?_map, List.getElem?_range hi]
  rfl

theorem configPart_getElem? (p : SlaveConfig) {j : Nat} (hj : j < 6) : (configPart p)[j]? = some
    (if p.usePersistedId then memRead p.store (p.partIdStorageOffset + j) else partByte p.defaultPartId j) := by
  have hrange : [0, 1, 2, 3, 4, 5] = List.range 6 := rfl
  rw [configPart_eq, hrange, List.getElem?_map, List.getElem?_range hj]
  rfl

theorem configPart_length (p : SlaveConfig) : (configPart p).length = 6 := by
  rw [configPart_eq]
  rfl

/-- The loaded ROM-ID's bytes (R332). -/
theorem romBytes_configRomId (p : SlaveConfig) : romBytes (configRomId p) =
    p.familyCode :: configPart p ++ [crc8Fold 0 (p.familyCode :: configPart p)] := by
  rw [configRomId, configPart_eq]
  exact romBytes_makeRomId ..

/-- Settles O29: the eight bytes are the seven configured ones and their CRC8. -/
theorem loadedRomIdCarriesItsCrc : Obligations.LoadedRomIdCarriesItsCrc := by
  intro p
  have hbytes := romBytes_configRomId p
  refine ⟨?crc, (List.cons.inj hbytes).1, fun j hj => ?part⟩
  case crc =>
    rw [hbytes]
    exact crc8Fold_with_crc _
  case part =>
    have hpart : (romBytes (configRomId p))[j + 1]? = (configPart p)[j]? := by
      rw [hbytes]
      exact List.getElem?_append_left (Nat.succ_lt_succ (hj.trans_eq (configPart_length p).symm))
    rw [romBytes_getElem? _ (by omega), configPart_getElem? p hj] at hpart
    exact Option.some.inj hpart

/-! ### What becomes of a request -/

/-- A slave that is not trapped accepts an operation it is ready for (R90(b), R330). -/
theorem requestOp_accepted (hk : s.slaves[k]? = some sl) (htrapped : sl.trapped = false)
    (hready : sl.intEnable = true ∨ sl.initComes = true ∨ op = .init ∨ op = .illegal) :
    requestOp k op s =
      if sl.pos = .idle then .next (runBegun k { s with slaves := s.slaves.set k (Slave.begun op sl) })
      else .next { s with slaves := s.slaves.set k { sl with upstream := sl.upstream ++ [(0, op)] } } := by
  have hguard : (!sl.intEnable && !sl.initComes && decide (op ≠ .init ∧ op ≠ .illegal)) = false := by
    rcases hready with h | h | h | h <;> simp [h]
  simp only [requestOp, hk, htrapped, hguard, Bool.false_eq_true, if_false]

/-- Before `S_INIT` no other operation is accepted (R330). -/
theorem requestOp_refused (hk : s.slaves[k]? = some sl) (htrapped : sl.trapped = false)
    (hoff : sl.intEnable = false) (hcomes : sl.initComes = false) (hinit : op ≠ .init) (hillegal : op ≠ .illegal) :
    requestOp k op s = .refused (.slaveNotInitialised k) := by
  simp [requestOp, hk, htrapped, hoff, hcomes, hinit, hillegal]

/-- A trapped slave takes no step (R47, R296). -/
theorem requestOp_trapped (hk : s.slaves[k]? = some sl) (htrapped : sl.trapped = true) :
    requestOp k op s = .next s := by
  simp [requestOp, hk, htrapped]

theorem requestOp_noSuchSlave (hk : s.slaves[k]? = none) : requestOp k op s = .fault (.noSuchSlave k) := by
  simp [requestOp, hk]

/-- Of a ready slave only `S_BUSY_BEGIN` moves the line at its begin (R280). -/
theorem Slave.Ready.begun_eq (h : sl.Ready g) (op : SlaveOp) : Slave.begun op sl = { sl with
    pos := .begun op, drive := decide (op = .busyBegin), busy := decide (op = .busyBegin) } := by
  cases op with
  | init | busyEnd | busyBegin => simp [Slave.begun, Slave.moveLine, Slave.driveLow, h.wake]
  | _ => simp [Slave.begun, Slave.moveLine, h.wake, h.released, h.not_busy]

/-- Settles O33: each instruction requests its operation, and the slave's state decides what becomes of it. -/
theorem slaveOperationNeedsAReadySlave : Obligations.SlaveOperationNeedsAReadySlave := by
  intro k s arg i op hi
  obtain ⟨hport, hinit, hillegal⟩ : slavePort i = some (k, op) ∧ op ≠ .init ∧ op ≠ .illegal := by
    simp only [List.mem_cons, Prod.mk.injEq, List.not_mem_nil, or_false] at hi
    rcases hi with ⟨rfl, rfl⟩ | ⟨rfl, rfl⟩ | ⟨rfl, rfl⟩ | ⟨rfl, rfl⟩ | ⟨rfl, rfl⟩ | ⟨rfl, rfl⟩ | ⟨rfl, rfl⟩ |
      ⟨rfl, rfl⟩ | ⟨rfl, rfl⟩ | ⟨rfl, rfl⟩ | ⟨rfl, rfl⟩ <;> exact ⟨rfl, nofun, nofun⟩
  rw [exec_slave i k op s hport]
  refine ⟨requestOp_noSuchSlave, fun sl hk => ⟨requestOp_trapped hk, fun htrapped hoff hcomes => ?refused,
    fun hsl hc => ?begins, fun htrapped hpos hready => ?queues⟩⟩
  case refused => exact requestOp_refused hk htrapped hoff hcomes hinit hillegal
  case begins => rw [requestOp_begins hk hsl.pos hsl.trapped hsl.enabled hc, hsl.begun_eq]
  case queues =>
    rw [requestOp_accepted hk htrapped (hready.imp_right .inl), if_neg hpos]

/-! ### `S_INIT` runs -/

/-- The rising edge that a strict-mode slave with an event pending cannot latch (R193, R297). -/
def Slave.overruns (level : Bool) (sl : Slave) : Bool :=
  sl.pulseNew && sl.cfg.strictMode && sl.takesEdges && !sl.linePrev && level

theorem Slave.latchPulse_trapped (c : Ctx) (sl : Slave) : (Slave.latchPulse c sl).trapped = sl.trapped := by
  unfold Slave.latchPulse
  split <;> rfl

theorem Slave.edgeFall_trapped (c : Ctx) (sl : Slave) : (Slave.edgeFall c sl).trapped = sl.trapped := by
  unfold Slave.edgeFall
  split <;> rfl

/-- But for that overrun an edge writes its own registers alone (R192, R193). -/
theorem Slave.observe_onlyEdges (c : Ctx) (sl : Slave) (h : sl.overruns c.level = false) :
    Slave.OnlyEdges sl (Slave.observe c sl) ∧ (Slave.observe c sl).trapped = sl.trapped := by
  unfold Slave.observe
  split
  · exact ⟨.refl sl, rfl⟩
  · rename_i hedge
    split
    · rename_i hrise
      cases htakes : sl.takesEdges with
      | false =>
        rw [Slave.edgeRise_ignored htakes]
        exact ⟨.refl sl, rfl⟩
      | true =>
        have hlatches : sl.pulseNew = false ∨ sl.cfg.strictMode = false := by
          simpa [Slave.overruns, htakes, hrise, Bool.eq_false_iff.mpr (hrise ▸ hedge), imp_iff_not_or] using h
        rw [Slave.edgeRise_latches htakes hlatches]
        exact ⟨(Slave.latchPulse_onlyEdges c sl).trans (Slave.setLinePrev_onlyEdges true _),
          Slave.latchPulse_trapped c sl⟩
    · exact ⟨Slave.edgeFall_onlyEdges c sl, Slave.edgeFall_trapped c sl⟩

/-- A slave that an edge has not trapped differs in the edge registers (R192, R193). -/
theorem Slave.OnlyEdges.of_untrapped (h : Slave.OnlyEdges sl y) (htrapped : y.trapped = false) :
    ∃ pulseNew pulseLen pulseOvf tReset swStarted linePrev draws, y = { sl with
      pulseNew := pulseNew, pulseLen := pulseLen, pulseOvf := pulseOvf, tReset := tReset, swStarted := swStarted
      linePrev := linePrev, draws := draws } := by
  obtain ⟨_, _, _, _, _, _, _, rfl | ⟨-, rfl⟩⟩ := h
  · exact ⟨_, _, _, _, _, _, _, rfl⟩
  · cases htrapped

/-- A requested operation that is over as soon as this instant's edges have been taken. -/
theorem Slave.resume_begun_idle (c : Ctx) (htrapped : sl.trapped = false) (hpos : sl.pos = .begun op)
    (hidle : (Slave.start c op sl).pos = .idle) : Slave.resume c sl = Slave.start c op sl := by
  rw [Slave.resume_eq, htrapped, if_neg Bool.false_ne_true, hpos]
  dsimp only
  rw [Slave.takeEvent, hidle]
  exact Slave.expire_other _ _ (by simp [hidle])

/-- `S_INIT` after its release, with nothing else requested (R332, R333). -/
theorem Slave.start_init (c : Ctx) (hup : sl.upstream = []) : Slave.start c .init sl = { sl with
    romId := configRomId sl.cfg, alarmed := false, pulseNew := false, txnState := .waitingReset, linePrev := c.level
    intEnable := true, swStarted := false, status := statusCode .ok, data := 0, pos := .idle, stack := []
    wake := none } := Slave.finish_last c .ok 0 hup

/-- What `S_INIT` leaves, whatever the edge of its own release has latched (R332, R333). -/
theorem Slave.settle_init (c : Ctx) (hpos : sl.pos = .idle) (htrapped : sl.trapped = false) (hup : sl.upstream = [])
    (h : sl.overruns c.level = false) :
    ∃ pulseLen pulseOvf draws tReset, Slave.settle c (Slave.begun .init sl) = { sl with
      romId := configRomId sl.cfg, drive := false, busy := false, alarmed := false, pulseNew := false
      txnState := .waitingReset, linePrev := c.level, intEnable := true, status := statusCode .ok, data := 0
      stack := [], wake := none, pulseLen := pulseLen, pulseOvf := pulseOvf, draws := draws, tReset := tReset
      swStarted := false } := by
  obtain ⟨hedges, htrap⟩ := Slave.observe_onlyEdges c (Slave.begun .init sl) h
  obtain ⟨_, pulseLen, pulseOvf, tReset, _, _, draws, hheard⟩ := hedges.of_untrapped (htrap.trans htrapped)
  have hup' : (Slave.observe c (Slave.begun .init sl)).upstream = [] := by rw [hheard]; exact hup
  refine ⟨pulseLen, pulseOvf, draws, tReset, ?_⟩
  rw [Slave.settle, Slave.resume_begun_idle c (htrap.trans htrapped) (by rw [hheard]; rfl)
    (by rw [Slave.start_init c hup']), Slave.start_init c hup', hheard, ← hpos]
  rfl

/-- The overrun traps instead (R297). -/
theorem Slave.settle_init_overrun (c : Ctx) (hpos : sl.pos = .idle) (h : sl.overruns c.level = true) :
    Slave.settle c (Slave.begun .init sl) = { sl with
      trapped := true, drive := false, busy := false, stack := [], wake := none, linePrev := true } := by
  simp only [Slave.overruns, Bool.and_eq_true, Bool.not_eq_true'] at h
  obtain ⟨⟨⟨⟨hnew, hstrict⟩, htakes⟩, hlow⟩, hlevel⟩ := h
  have hrise : Slave.observe c (Slave.begun .init sl) = { Slave.trap (Slave.begun .init sl) with linePrev := true } := by
    rw [← Slave.edgeRise_overrun (c := c) (by exact htakes) (by exact hnew) (by exact hstrict)]
    exact (if_neg (by simp [Slave.begun, Slave.moveLine, hlow, hlevel])).trans (if_pos hlevel)
  rw [Slave.settle, hrise, Slave.resume_atRest c _ rfl, Slave.trap, ← hpos]
  rfl

/-- `S_INIT` among resting slaves is over at the instant it begins (R333). -/
theorem OthersAtRest.initNow (hrest : OthersAtRest k s) (hc : comesNow s = false) (hm : s.master.Rests)
    (hk : s.slaves[k]? = some sl) (hpos : sl.pos = .idle) (htrapped : sl.trapped = false)
    (hsettle : Slave.settle (sceneCtx s s.now s.otherDrive (Slave.begun .init sl)) (Slave.begun .init sl) = y)
    (hdrive : y.drive = false) (hidle : y.pos = .idle) :
    ∃ t, exec (.sInit k) s = .next t ∧ t = { s with slaves := t.slaves } ∧ OthersAtRest k t ∧ OthersHear k s t ∧
      t.slaves[k]? = some y := by
  obtain ⟨t, hexec, halone⟩ := hrest.requestNow hc hm hk .init hpos htrapped (.inr (.inl rfl)) hsettle hdrive
    (Slave.movesOn_idle hidle)
  obtain ⟨hstate, hrest', hx⟩ := halone.scene_eq
  exact ⟨t, hexec, hstate, hrest', hrest.hearOp hexec, hx⟩

/-- Settles O28: the slave's own release may make an edge, which it takes before the rest; in strict mode it may trap. -/
theorem sInitLoadsTheRomId : Obligations.SInitLoadsTheRomId := by
  intro k s sl hk hpos htrapped hup
  refine ⟨fun hdrive hready hc hrest => ?runs, fun hc => ?begins⟩
  case runs =>
    have hlevel : (sceneCtx s s.now s.otherDrive (Slave.begun .init sl)).level = !s.otherDrive :=
      congrArg (!·) (Bool.or_false _)
    have hrun (y : Slave) := hrest.initNow (y := y) hc ⟨hdrive, hready⟩ hk hpos htrapped
    cases h : sl.overruns (!s.otherDrive) with
    | false =>
      obtain ⟨pulseLen, pulseOvf, draws, tReset, hsettle⟩ :=
        Slave.settle_init _ hpos htrapped hup ((congrArg sl.overruns hlevel).trans h)
      rw [hlevel] at hsettle
      obtain ⟨t, hexec, hstate, hrest', hhear, hx⟩ := hrun _ hsettle rfl hpos
      exact ⟨t, _, hexec, hstate, hrest', hhear, hx, fun _ => ⟨pulseLen, pulseOvf, draws, tReset, rfl⟩,
        fun ho => absurd (h.symm.trans ho) nofun⟩
    | true =>
      have hsettle := Slave.settle_init_overrun _ hpos ((congrArg sl.overruns hlevel).trans h)
      obtain ⟨t, hexec, hstate, hrest', hhear, hx⟩ := hrun _ hsettle rfl hpos
      exact ⟨t, _, hexec, hstate, hrest', hhear, hx, fun ho => absurd (h.symm.trans ho) nofun, fun _ => rfl⟩
  case begins =>
    have hbegins : runBegun k { s with slaves := s.slaves.set k (Slave.begun .init sl) } =
        { s with slaves := s.slaves.set k (Slave.begun .init sl) } := if_pos hc
    rw [exec_slave _ k .init s rfl, requestOp_accepted hk htrapped (.inr (.inr (.inl rfl))), if_pos hpos, hbegins]
    rfl

end Sys2Proof.Machine
